-- ==== Sys2Proof/Word.lean ====
section
/-!
DEFINITION. The two data widths of the machine (R6 of 00_scope.md): bytes of 8 bits and CPU addresses of 16 bits.
-/

namespace Sys2Proof

/-- A CPU data byte (R6 of 00_scope.md: "CPU data width 8 bits"). -/
abbrev Byte := BitVec 8

/-- A CPU address or 16-bit value (R6 of 00_scope.md: "CPU address width 16 bits, byte addressed"). -/
abbrev Word := BitVec 16

end Sys2Proof
end

