-- ==== Sys2Proof/Syntax.lean ====
section
/-!
DEFINITION. The instruction set as data: one constructor per mapped row of spec/opcode_table.json (R150 of 30_encoding.md), and one
constructor for "the single entry XXX" that all 105 unmapped opcode values decode to (R151), which carries its opcode byte.

The name is the mnemonic and, where a mnemonic has several modes, the mode tag of R147. Operand fields are as wide as the operand
bytes of R132: `b` an immediate, `z` a zero-page address byte, `d` a branch offset byte, `a` a 16-bit address.
-/

namespace Sys2Proof

/-- The instructions of the machine (R150, R151 of 30_encoding.md). -/
inductive Instr where
  -- load, store, transfer (40_load_store_transfer.md)
  /-- `LDA #$nn`, opcode A9 (R171, mode R135) -/
  | ldaImm (b : Byte)
  /-- `LDA $nn`, opcode A5 (R171, mode R136) -/
  | ldaZp (z : Byte)
  /-- `LDA $nn,X`, opcode B5 (R171, mode R137) -/
  | ldaZpx (z : Byte)
  /-- `LDA $nnnn`, opcode AD (R171, mode R140) -/
  | ldaAbs (a : Word)
  /-- `LDA $nnnn,X`, opcode BD (R171, mode R142) -/
  | ldaAbx (a : Word)
  /-- `LDA $nnnn,Y`, opcode B9 (R171, mode R143) -/
  | ldaAby (a : Word)
  /-- `LDA ($nn,X)`, opcode A1 (R171, mode R145) -/
  | ldaIzx (z : Byte)
  /-- `LDA ($nn),Y`, opcode B1 (R171, mode R146) -/
  | ldaIzy (z : Byte)
  /-- `LDX #$nn`, opcode A2 (R172, mode R135) -/
  | ldxImm (b : Byte)
  /-- `LDX $nn`, opcode A6 (R172, mode R136) -/
  | ldxZp (z : Byte)
  /-- `LDX $nn,Y`, opcode B6 (R172, mode R138) -/
  | ldxZpy (z : Byte)
  /-- `LDX $nnnn`, opcode AE (R172, mode R140) -/
  | ldxAbs (a : Word)
  /-- `LDX $nnnn,Y`, opcode BE (R172, mode R143) -/
  | ldxAby (a : Word)
  /-- `LDY #$nn`, opcode A0 (R173, mode R135) -/
  | ldyImm (b : Byte)
  /-- `LDY $nn`, opcode A4 (R173, mode R136) -/
  | ldyZp (z : Byte)
  /-- `LDY $nn,X`, opcode B4 (R173, mode R137) -/
  | ldyZpx (z : Byte)
  /-- `LDY $nnnn`, opcode AC (R173, mode R140) -/
  | ldyAbs (a : Word)
  /-- `LDY $nnnn,X`, opcode BC (R173, mode R142) -/
  | ldyAbx (a : Word)
  /-- `STA $nn`, opcode 85 (R174, mode R136) -/
  | staZp (z : Byte)
  /-- `STA $nn,X`, opcode 95 (R174, mode R137) -/
  | staZpx (z : Byte)
  /-- `STA $nnnn`, opcode 8D (R174, mode R140) -/
  | staAbs (a : Word)
  /-- `STA $nnnn,X`, opcode 9D (R174, mode R142) -/
  | staAbx (a : Word)
  /-- `STA $nnnn,Y`, opcode 99 (R174, mode R143) -/
  | staAby (a : Word)
  /-- `STA ($nn,X)`, opcode 81 (R174, mode R145) -/
  | staIzx (z : Byte)
  /-- `STA ($nn),Y`, opcode 91 (R174, mode R146) -/
  | staIzy (z : Byte)
  /-- `STX $nn`, opcode 86 (R175, mode R136) -/
  | stxZp (z : Byte)
  /-- `STX $nn,Y`, opcode 96 (R175, mode R138) -/
  | stxZpy (z : Byte)
  /-- `STX $nnnn`, opcode 8E (R175, mode R140) -/
  | stxAbs (a : Word)
  /-- `STY $nn`, opcode 84 (R176, mode R136) -/
  | styZp (z : Byte)
  /-- `STY $nn,X`, opcode 94 (R176, mode R137) -/
  | styZpx (z : Byte)
  /-- `STY $nnnn`, opcode 8C (R176, mode R140) -/
  | styAbs (a : Word)
  /-- `TAX`, opcode AA (R177, mode R133) -/
  | tax
  /-- `TAY`, opcode A8 (R178, mode R133) -/
  | tay
  /-- `TXA`, opcode 8A (R179, mode R133) -/
  | txa
  /-- `TYA`, opcode 98 (R180, mode R133) -/
  | tya
  /-- `TSX`, opcode BA (R181, mode R133) -/
  | tsx
  /-- `TXS`, opcode 9A (R182, mode R133) -/
  | txs
  -- stack (41_stack.md)
  /-- `PHA`, opcode 48 (R185, mode R133) -/
  | pha
  /-- `PHP`, opcode 08 (R186, mode R133) -/
  | php
  /-- `PLA`, opcode 68 (R187, mode R133) -/
  | pla
  /-- `PLP`, opcode 28 (R188, mode R133) -/
  | plp
  -- arithmetic, compare, increment, decrement (42_arithmetic.md)
  /-- `ADC #$nn`, opcode 69 (R191, mode R135) -/
  | adcImm (b : Byte)
  /-- `ADC $nn`, opcode 65 (R191, mode R136) -/
  | adcZp (z : Byte)
  /-- `ADC $nn,X`, opcode 75 (R191, mode R137) -/
  | adcZpx (z : Byte)
  /-- `ADC $nnnn`, opcode 6D (R191, mode R140) -/
  | adcAbs (a : Word)
  /-- `ADC $nnnn,X`, opcode 7D (R191, mode R142) -/
  | adcAbx (a : Word)
  /-- `ADC $nnnn,Y`, opcode 79 (R191, mode R143) -/
  | adcAby (a : Word)
  /-- `ADC ($nn,X)`, opcode 61 (R191, mode R145) -/
  | adcIzx (z : Byte)
  /-- `ADC ($nn),Y`, opcode 71 (R191, mode R146) -/
  | adcIzy (z : Byte)
  /-- `SBC #$nn`, opcode E9 (R192, mode R135) -/
  | sbcImm (b : Byte)
  /-- `SBC $nn`, opcode E5 (R192, mode R136) -/
  | sbcZp (z : Byte)
  /-- `SBC $nn,X`, opcode F5 (R192, mode R137) -/
  | sbcZpx (z : Byte)
  /-- `SBC $nnnn`, opcode ED (R192, mode R140) -/
  | sbcAbs (a : Word)
  /-- `SBC $nnnn,X`, opcode FD (R192, mode R142) -/
  | sbcAbx (a : Word)
  /-- `SBC $nnnn,Y`, opcode F9 (R192, mode R143) -/
  | sbcAby (a : Word)
  /-- `SBC ($nn,X)`, opcode E1 (R192, mode R145) -/
  | sbcIzx (z : Byte)
  /-- `SBC ($nn),Y`, opcode F1 (R192, mode R146) -/
  | sbcIzy (z : Byte)
  /-- `CMP #$nn`, opcode C9 (R193, mode R135) -/
  | cmpImm (b : Byte)
  /-- `CMP $nn`, opcode C5 (R193, mode R136) -/
  | cmpZp (z : Byte)
  /-- `CMP $nn,X`, opcode D5 (R193, mode R137) -/
  | cmpZpx (z : Byte)
  /-- `CMP $nnnn`, opcode CD (R193, mode R140) -/
  | cmpAbs (a : Word)
  /-- `CMP $nnnn,X`, opcode DD (R193, mode R142) -/
  | cmpAbx (a : Word)
  /-- `CMP $nnnn,Y`, opcode D9 (R193, mode R143) -/
  | cmpAby (a : Word)
  /-- `CMP ($nn,X)`, opcode C1 (R193, mode R145) -/
  | cmpIzx (z : Byte)
  /-- `CMP ($nn),Y`, opcode D1 (R193, mode R146) -/
  | cmpIzy (z : Byte)
  /-- `CPX #$nn`, opcode E0 (R194, mode R135) -/
  | cpxImm (b : Byte)
  /-- `CPX $nn`, opcode E4 (R194, mode R136) -/
  | cpxZp (z : Byte)
  /-- `CPX $nnnn`, opcode EC (R194, mode R140) -/
  | cpxAbs (a : Word)
  /-- `CPY #$nn`, opcode C0 (R195, mode R135) -/
  | cpyImm (b : Byte)
  /-- `CPY $nn`, opcode C4 (R195, mode R136) -/
  | cpyZp (z : Byte)
  /-- `CPY $nnnn`, opcode CC (R195, mode R140) -/
  | cpyAbs (a : Word)
  /-- `INC $nn`, opcode E6 (R196, mode R136) -/
  | incZp (z : Byte)
  /-- `INC $nn,X`, opcode F6 (R196, mode R137) -/
  | incZpx (z : Byte)
  /-- `INC $nnnn`, opcode EE (R196, mode R140) -/
  | incAbs (a : Word)
  /-- `INC $nnnn,X`, opcode FE (R196, mode R142) -/
  | incAbx (a : Word)
  /-- `INX`, opcode E8 (R197, mode R133) -/
  | inx
  /-- `INY`, opcode C8 (R198, mode R133) -/
  | iny
  /-- `DEC $nn`, opcode C6 (R199, mode R136) -/
  | decZp (z : Byte)
  /-- `DEC $nn,X`, opcode D6 (R199, mode R137) -/
  | decZpx (z : Byte)
  /-- `DEC $nnnn`, opcode CE (R199, mode R140) -/
  | decAbs (a : Word)
  /-- `DEC $nnnn,X`, opcode DE (R199, mode R142) -/
  | decAbx (a : Word)
  /-- `DEX`, opcode CA (R200, mode R133) -/
  | dex
  /-- `DEY`, opcode 88 (R201, mode R133) -/
  | dey
  -- logic, bit test, shift, rotate (43_logic_shift.md)
  /-- `AND #$nn`, opcode 29 (R205, mode R135) -/
  | andImm (b : Byte)
  /-- `AND $nn`, opcode 25 (R205, mode R136) -/
  | andZp (z : Byte)
  /-- `AND $nn,X`, opcode 35 (R205, mode R137) -/
  | andZpx (z : Byte)
  /-- `AND $nnnn`, opcode 2D (R205, mode R140) -/
  | andAbs (a : Word)
  /-- `AND $nnnn,X`, opcode 3D (R205, mode R142) -/
  | andAbx (a : Word)
  /-- `AND $nnnn,Y`, opcode 39 (R205, mode R143) -/
  | andAby (a : Word)
  /-- `AND ($nn,X)`, opcode 21 (R205, mode R145) -/
  | andIzx (z : Byte)
  /-- `AND ($nn),Y`, opcode 31 (R205, mode R146) -/
  | andIzy (z : Byte)
  /-- `ORA #$nn`, opcode 09 (R206, mode R135) -/
  | oraImm (b : Byte)
  /-- `ORA $nn`, opcode 05 (R206, mode R136) -/
  | oraZp (z : Byte)
  /-- `ORA $nn,X`, opcode 15 (R206, mode R137) -/
  | oraZpx (z : Byte)
  /-- `ORA $nnnn`, opcode 0D (R206, mode R140) -/
  | oraAbs (a : Word)
  /-- `ORA $nnnn,X`, opcode 1D (R206, mode R142) -/
  | oraAbx (a : Word)
  /-- `ORA $nnnn,Y`, opcode 19 (R206, mode R143) -/
  | oraAby (a : Word)
  /-- `ORA ($nn,X)`, opcode 01 (R206, mode R145) -/
  | oraIzx (z : Byte)
  /-- `ORA ($nn),Y`, opcode 11 (R206, mode R146) -/
  | oraIzy (z : Byte)
  /-- `EOR #$nn`, opcode 49 (R207, mode R135) -/
  | eorImm (b : Byte)
  /-- `EOR $nn`, opcode 45 (R207, mode R136) -/
  | eorZp (z : Byte)
  /-- `EOR $nn,X`, opcode 55 (R207, mode R137) -/
  | eorZpx (z : Byte)
  /-- `EOR $nnnn`, opcode 4D (R207, mode R140) -/
  | eorAbs (a : Word)
  /-- `EOR $nnnn,X`, opcode 5D (R207, mode R142) -/
  | eorAbx (a : Word)
  /-- `EOR $nnnn,Y`, opcode 59 (R207, mode R143) -/
  | eorAby (a : Word)
  /-- `EOR ($nn,X)`, opcode 41 (R207, mode R145) -/
  | eorIzx (z : Byte)
  /-- `EOR ($nn),Y`, opcode 51 (R207, mode R146) -/
  | eorIzy (z : Byte)
  /-- `BIT $nn`, opcode 24 (R208, mode R136) -/
  | bitZp (z : Byte)
  /-- `BIT $nnnn`, opcode 2C (R208, mode R140) -/
  | bitAbs (a : Word)
  /-- `ASL A`, opcode 0A (R209, mode R134) -/
  | aslAcc
  /-- `ASL $nn`, opcode 06 (R209, mode R136) -/
  | aslZp (z : Byte)
  /-- `ASL $nn,X`, opcode 16 (R209, mode R137) -/
  | aslZpx (z : Byte)
  /-- `ASL $nnnn`, opcode 0E (R209, mode R140) -/
  | aslAbs (a : Word)
  /-- `ASL $nnnn,X`, opcode 1E (R209, mode R142) -/
  | aslAbx (a : Word)
  /-- `LSR A`, opcode 4A (R210, mode R134) -/
  | lsrAcc
  /-- `LSR $nn`, opcode 46 (R210, mode R136) -/
  | lsrZp (z : Byte)
  /-- `LSR $nn,X`, opcode 56 (R210, mode R137) -/
  | lsrZpx (z : Byte)
  /-- `LSR $nnnn`, opcode 4E (R210, mode R140) -/
  | lsrAbs (a : Word)
  /-- `LSR $nnnn,X`, opcode 5E (R210, mode R142) -/
  | lsrAbx (a : Word)
  /-- `ROL A`, opcode 2A (R211, mode R134) -/
  | rolAcc
  /-- `ROL $nn`, opcode 26 (R211, mode R136) -/
  | rolZp (z : Byte)
  /-- `ROL $nn,X`, opcode 36 (R211, mode R137) -/
  | rolZpx (z : Byte)
  /-- `ROL $nnnn`, opcode 2E (R211, mode R140) -/
  | rolAbs (a : Word)
  /-- `ROL $nnnn,X`, opcode 3E (R211, mode R142) -/
  | rolAbx (a : Word)
  /-- `ROR A`, opcode 6A (R212, mode R134) -/
  | rorAcc
  /-- `ROR $nn`, opcode 66 (R212, mode R136) -/
  | rorZp (z : Byte)
  /-- `ROR $nn,X`, opcode 76 (R212, mode R137) -/
  | rorZpx (z : Byte)
  /-- `ROR $nnnn`, opcode 6E (R212, mode R140) -/
  | rorAbs (a : Word)
  /-- `ROR $nnnn,X`, opcode 7E (R212, mode R142) -/
  | rorAbx (a : Word)
  -- jumps, subroutines, branches (44_control_flow.md)
  /-- `JMP $nnnn`, opcode 4C (R215, mode R140) -/
  | jmpAbs (a : Word)
  /-- `JMP ($nnnn)`, opcode 6C (R215, mode R144) -/
  | jmpInd (a : Word)
  /-- `JSR $nnnn`, opcode 20 (R216, mode R140) -/
  | jsr (a : Word)
  /-- `RTS`, opcode 60 (R217, mode R133) -/
  | rts
  /-- `BCC $nnnn (target)`, opcode 90 (R219, mode R139) -/
  | bcc (d : Byte)
  /-- `BCS $nnnn (target)`, opcode B0 (R220, mode R139) -/
  | bcs (d : Byte)
  /-- `BEQ $nnnn (target)`, opcode F0 (R221, mode R139) -/
  | beq (d : Byte)
  /-- `BNE $nnnn (target)`, opcode D0 (R222, mode R139) -/
  | bne (d : Byte)
  /-- `BMI $nnnn (target)`, opcode 30 (R223, mode R139) -/
  | bmi (d : Byte)
  /-- `BPL $nnnn (target)`, opcode 10 (R224, mode R139) -/
  | bpl (d : Byte)
  /-- `BVC $nnnn (target)`, opcode 50 (R225, mode R139) -/
  | bvc (d : Byte)
  /-- `BVS $nnnn (target)`, opcode 70 (R226, mode R139) -/
  | bvs (d : Byte)
  -- flag instructions, NOP, BRK, RTI (45_flags_system.md)
  /-- `CLC`, opcode 18 (R230, mode R133) -/
  | clc
  /-- `SEC`, opcode 38 (R231, mode R133) -/
  | sec
  /-- `CLI`, opcode 58 (R232, mode R133) -/
  | cli
  /-- `SEI`, opcode 78 (R233, mode R133) -/
  | sei
  /-- `CLV`, opcode B8 (R234, mode R133) -/
  | clv
  /-- `CLD`, opcode D8 (R235, mode R133) -/
  | cld
  /-- `SED`, opcode F8 (R236, mode R133) -/
  | sed
  /-- `NOP`, opcode EA (R237, mode R133) -/
  | nop
  /-- `BRK`, opcode 00 (R238, mode R133) -/
  | brk
  /-- `RTI`, opcode 40 (R239, mode R133) -/
  | rti
  -- every unmapped opcode
  /-- an unmapped opcode byte `op` (R151, R243) -/
  | xxx (op : Byte)
deriving DecidableEq, Repr

end Sys2Proof
end

