-- ==== Sys2Proof/Machine/Forms.lean ====
section
/-!
DEFINITION. The forms an instruction is made of: its mnemonic (the 56 of R150 of 30_encoding.md, and XXX) and its operand in one of the
thirteen addressing modes of R147. The memory modes, whose operand is a byte at an effective address, are a type of their own, so that
no operation over an effective address is asked for one where a mode has none (R133: "`ea` is undefined and unused").
-/

namespace Sys2Proof.Machine

/-- The mnemonics of R150 and the entry XXX of R151 (30_encoding.md). -/
inductive Mnemonic where
  | adc | and | asl | bcc | bcs | beq | bit | bmi | bne | bpl | brk | bvc | bvs | clc
  | cld | cli | clv | cmp | cpx | cpy | dec | dex | dey | eor | inc | inx | iny | jmp
  | jsr | lda | ldx | ldy | lsr | nop | ora | pha | php | pla | plp | rol | ror | rti
  | rts | sbc | sec | sed | sei | sta | stx | sty | tax | tay | tsx | txa | txs | tya
  | xxx
deriving DecidableEq, Repr

/-- The eight modes that form an effective address from operand bytes (R136 to R138, R140, R142, R143, R145, R146 of 30_encoding.md). -/
inductive Addressing where
  | zp (z : Byte)
  | zpx (z : Byte)
  | zpy (z : Byte)
  | abs (a : Word)
  | abx (a : Word)
  | aby (a : Word)
  | izx (z : Byte)
  | izy (z : Byte)
deriving DecidableEq, Repr

/-- Where a load or an arithmetic operation takes its operand byte `M` from: the instruction itself (R135) or memory. -/
inductive Source where
  | imm (b : Byte)
  | mem (m : Addressing)
deriving DecidableEq, Repr

/-- What a shift or rotate works on: register A (R134) or the byte at an effective address. -/
inductive Target where
  | acc
  | mem (m : Addressing)
deriving DecidableEq, Repr

/-- The operand of an instruction in any of the thirteen modes (R147). -/
inductive Operand where
  | imp
  | acc
  | imm (b : Byte)
  | mem (m : Addressing)
  | rel (d : Byte)
  | ind (a : Word)
deriving DecidableEq, Repr

/-- Instruction length by memory mode (R131). -/
def Addressing.length (m : Addressing) : Nat :=
  match m with
  | .zp _ | .zpx _ | .zpy _ | .izx _ | .izy _ => 2
  | .abs _ | .abx _ | .aby _ => 3

/-- Instruction length by mode, "1, 2, or 3 bytes" (R131). -/
def Operand.length (o : Operand) : Nat :=
  match o with
  | .imp | .acc => 1
  | .imm _ | .rel _ => 2
  | .mem m => m.length
  | .ind _ => 3

/-- The operand form of a source. -/
def Source.operand (s : Source) : Operand :=
  match s with
  | .imm b => .imm b
  | .mem m => .mem m

/-- The operand form of a shift target. -/
def Target.operand (t : Target) : Operand :=
  match t with
  | .acc => .acc
  | .mem m => .mem m

end Sys2Proof.Machine

namespace Sys2Proof

open Sys2Proof.Machine

/-- The mnemonic of an instruction, as its row of R150 (30_encoding.md) has it. -/
def Instr.mnemonic (i : Instr) : Mnemonic :=
  match i with
  | .adcImm _ | .adcZp _ | .adcZpx _ | .adcAbs _ | .adcAbx _ | .adcAby _ | .adcIzx _ | .adcIzy _ => .adc
  | .andImm _ | .andZp _ | .andZpx _ | .andAbs _ | .andAbx _ | .andAby _ | .andIzx _ | .andIzy _ => .and
  | .aslAcc | .aslZp _ | .aslZpx _ | .aslAbs _ | .aslAbx _ => .asl
  | .bcc _ => .bcc
  | .bcs _ => .bcs
  | .beq _ => .beq
  | .bitZp _ | .bitAbs _ => .bit
  | .bmi _ => .bmi
  | .bne _ => .bne
  | .bpl _ => .bpl
  | .brk => .brk
  | .bvc _ => .bvc
  | .bvs _ => .bvs
  | .clc => .clc
  | .cld => .cld
  | .cli => .cli
  | .clv => .clv
  | .cmpImm _ | .cmpZp _ | .cmpZpx _ | .cmpAbs _ | .cmpAbx _ | .cmpAby _ | .cmpIzx _ | .cmpIzy _ => .cmp
  | .cpxImm _ | .cpxZp _ | .cpxAbs _ => .cpx
  | .cpyImm _ | .cpyZp _ | .cpyAbs _ => .cpy
  | .decZp _ | .decZpx _ | .decAbs _ | .decAbx _ => .dec
  | .dex => .dex
  | .dey => .dey
  | .eorImm _ | .eorZp _ | .eorZpx _ | .eorAbs _ | .eorAbx _ | .eorAby _ | .eorIzx _ | .eorIzy _ => .eor
  | .incZp _ | .incZpx _ | .incAbs _ | .incAbx _ => .inc
  | .inx => .inx
  | .iny => .iny
  | .jmpAbs _ | .jmpInd _ => .jmp
  | .jsr _ => .jsr
  | .ldaImm _ | .ldaZp _ | .ldaZpx _ | .ldaAbs _ | .ldaAbx _ | .ldaAby _ | .ldaIzx _ | .ldaIzy _ => .lda
  | .ldxImm _ | .ldxZp _ | .ldxZpy _ | .ldxAbs _ | .ldxAby _ => .ldx
  | .ldyImm _ | .ldyZp _ | .ldyZpx _ | .ldyAbs _ | .ldyAbx _ => .ldy
  | .lsrAcc | .lsrZp _ | .lsrZpx _ | .lsrAbs _ | .lsrAbx _ => .lsr
  | .nop => .nop
  | .oraImm _ | .oraZp _ | .oraZpx _ | .oraAbs _ | .oraAbx _ | .oraAby _ | .oraIzx _ | .oraIzy _ => .ora
  | .pha => .pha
  | .php => .php
  | .pla => .pla
  | .plp => .plp
  | .rolAcc | .rolZp _ | .rolZpx _ | .rolAbs _ | .rolAbx _ => .rol
  | .rorAcc | .rorZp _ | .rorZpx _ | .rorAbs _ | .rorAbx _ => .ror
  | .rti => .rti
  | .rts => .rts
  | .sbcImm _ | .sbcZp _ | .sbcZpx _ | .sbcAbs _ | .sbcAbx _ | .sbcAby _ | .sbcIzx _ | .sbcIzy _ => .sbc
  | .sec => .sec
  | .sed => .sed
  | .sei => .sei
  | .staZp _ | .staZpx _ | .staAbs _ | .staAbx _ | .staAby _ | .staIzx _ | .staIzy _ => .sta
  | .stxZp _ | .stxZpy _ | .stxAbs _ => .stx
  | .styZp _ | .styZpx _ | .styAbs _ => .sty
  | .tax => .tax
  | .tay => .tay
  | .tsx => .tsx
  | .txa => .txa
  | .txs => .txs
  | .tya => .tya
  | .xxx _ => .xxx

/-- The operand of an instruction in the mode its row of R150 names. -/
def Instr.operand (i : Instr) : Operand :=
  match i with
  | .brk | .php | .clc | .plp | .sec | .rti | .pha | .cli | .rts | .pla
  | .sei | .dey | .txa | .tya | .txs | .tay | .tax | .clv | .tsx | .iny
  | .dex | .cld | .inx | .nop | .sed | .xxx _ => .imp
  | .aslAcc | .rolAcc | .lsrAcc | .rorAcc => .acc
  | .oraImm b | .andImm b | .eorImm b | .adcImm b | .ldyImm b | .ldxImm b | .ldaImm b | .cpyImm b | .cmpImm b | .cpxImm b
  | .sbcImm b => .imm b
  | .oraZp z | .aslZp z | .bitZp z | .andZp z | .rolZp z | .eorZp z | .lsrZp z | .adcZp z | .rorZp z | .styZp z
  | .staZp z | .stxZp z | .ldyZp z | .ldaZp z | .ldxZp z | .cpyZp z | .cmpZp z | .decZp z | .cpxZp z | .sbcZp z
  | .incZp z => .mem (.zp z)
  | .oraZpx z | .aslZpx z | .andZpx z | .rolZpx z | .eorZpx z | .lsrZpx z | .adcZpx z | .rorZpx z | .styZpx z | .staZpx z
  | .ldyZpx z | .ldaZpx z | .cmpZpx z | .decZpx z | .sbcZpx z | .incZpx z => .mem (.zpx z)
  | .stxZpy z | .ldxZpy z => .mem (.zpy z)
  | .oraAbs a | .aslAbs a | .jsr a | .bitAbs a | .andAbs a | .rolAbs a | .jmpAbs a | .eorAbs a | .lsrAbs a | .adcAbs a
  | .rorAbs a | .styAbs a | .staAbs a | .stxAbs a | .ldyAbs a | .ldaAbs a | .ldxAbs a | .cpyAbs a | .cmpAbs a | .decAbs a
  | .cpxAbs a | .sbcAbs a | .incAbs a => .mem (.abs a)
  | .oraAbx a | .aslAbx a | .andAbx a | .rolAbx a | .eorAbx a | .lsrAbx a | .adcAbx a | .rorAbx a | .staAbx a | .ldyAbx a
  | .ldaAbx a | .cmpAbx a | .decAbx a | .sbcAbx a | .incAbx a => .mem (.abx a)
  | .oraAby a | .andAby a | .eorAby a | .adcAby a | .staAby a | .ldaAby a | .ldxAby a | .cmpAby a | .sbcAby a => .mem (.aby a)
  | .oraIzx z | .andIzx z | .eorIzx z | .adcIzx z | .staIzx z | .ldaIzx z | .cmpIzx z | .sbcIzx z => .mem (.izx z)
  | .oraIzy z | .andIzy z | .eorIzy z | .adcIzy z | .staIzy z | .ldaIzy z | .cmpIzy z | .sbcIzy z => .mem (.izy z)
  | .bpl d | .bmi d | .bvc d | .bvs d | .bcc d | .bcs d | .bne d | .beq d => .rel d
  | .jmpInd a => .ind a

/-- The length of an instruction in bytes: a function of its mode alone (R131). -/
def Instr.length (i : Instr) : Nat :=
  i.operand.length

end Sys2Proof
end

