-- ==== Sys2Proof/Decode.lean ====
section
/-!
DEFINITION. The decoder, total on every byte string, and after it the encoder.

Decoding is the 256-way table of R150 and R151 of 30_encoding.md, written here as the spec prints it: one function per row (the high
nibble of the opcode), one line per column (the low nibble). "No sequence of bytes is undecodable, and no decode depends on any state
other than the byte at PC" (R152): the only rejections are a string that ends before its instruction does.
-/

namespace Sys2Proof

open Sys2Proof.Machine

/-- Joins two bytes, the high byte first; the byte at the lower address is the low byte (R90 of 20_memory.md, R132 of 30_encoding.md). -/
def wordOf (hi lo : Byte) : Word :=
  hi ++ lo

/-- The high byte of a 16-bit value. -/
def hiByte (w : Word) : Byte :=
  w.extractLsb' 8 8

/-- The low byte of a 16-bit value. -/
def loByte (w : Word) : Byte :=
  w.setWidth 8

/-- Row 0x of the opcode map (R150): column `lo`, operand byte `b`, operand word `a`. -/
def decodeRow0 (lo : Nat) (op b : Byte) (a : Word) : Instr :=
  match lo with
  | 0x0 => .brk
  | 0x1 => .oraIzx b
  | 0x5 => .oraZp b
  | 0x6 => .aslZp b
  | 0x8 => .php
  | 0x9 => .oraImm b
  | 0xA => .aslAcc
  | 0xD => .oraAbs a
  | 0xE => .aslAbs a
  | _ => .xxx op

/-- Row 1x of the opcode map (R150): column `lo`, operand byte `b`, operand word `a`. -/
def decodeRow1 (lo : Nat) (op b : Byte) (a : Word) : Instr :=
  match lo with
  | 0x0 => .bpl b
  | 0x1 => .oraIzy b
  | 0x5 => .oraZpx b
  | 0x6 => .aslZpx b
  | 0x8 => .clc
  | 0x9 => .oraAby a
  | 0xD => .oraAbx a
  | 0xE => .aslAbx a
  | _ => .xxx op

/-- Row 2x of the opcode map (R150): column `lo`, operand byte `b`, operand word `a`. -/
def decodeRow2 (lo : Nat) (op b : Byte) (a : Word) : Instr :=
  match lo with
  | 0x0 => .jsr a
  | 0x1 => .andIzx b
  | 0x4 => .bitZp b
  | 0x5 => .andZp b
  | 0x6 => .rolZp b
  | 0x8 => .plp
  | 0x9 => .andImm b
  | 0xA => .rolAcc
  | 0xC => .bitAbs a
  | 0xD => .andAbs a
  | 0xE => .rolAbs a
  | _ => .xxx op

/-- Row 3x of the opcode map (R150): column `lo`, operand byte `b`, operand word `a`. -/
def decodeRow3 (lo : Nat) (op b : Byte) (a : Word) : Instr :=
  match lo with
  | 0x0 => .bmi b
  | 0x1 => .andIzy b
  | 0x5 => .andZpx b
  | 0x6 => .rolZpx b
  | 0x8 => .sec
  | 0x9 => .andAby a
  | 0xD => .andAbx a
  | 0xE => .rolAbx a
  | _ => .xxx op

/-- Row 4x of the opcode map (R150): column `lo`, operand byte `b`, operand word `a`. -/
def decodeRow4 (lo : Nat) (op b : Byte) (a : Word) : Instr :=
  match lo with
  | 0x0 => .rti
  | 0x1 => .eorIzx b
  | 0x5 => .eorZp b
  | 0x6 => .lsrZp b
  | 0x8 => .pha
  | 0x9 => .eorImm b
  | 0xA => .lsrAcc
  | 0xC => .jmpAbs a
  | 0xD => .eorAbs a
  | 0xE => .lsrAbs a
  | _ => .xxx op

/-- Row 5x of the opcode map (R150): column `lo`, operand byte `b`, operand word `a`. -/
def decodeRow5 (lo : Nat) (op b : Byte) (a : Word) : Instr :=
  match lo with
  | 0x0 => .bvc b
  | 0x1 => .eorIzy b
  | 0x5 => .eorZpx b
  | 0x6 => .lsrZpx b
  | 0x8 => .cli
  | 0x9 => .eorAby a
  | 0xD => .eorAbx a
  | 0xE => .lsrAbx a
  | _ => .xxx op

/-- Row 6x of the opcode map (R150): column `lo`, operand byte `b`, operand word `a`. -/
def decodeRow6 (lo : Nat) (op b : Byte) (a : Word) : Instr :=
  match lo with
  | 0x0 => .rts
  | 0x1 => .adcIzx b
  | 0x5 => .adcZp b
  | 0x6 => .rorZp b
  | 0x8 => .pla
  | 0x9 => .adcImm b
  | 0xA => .rorAcc
  | 0xC => .jmpInd a
  | 0xD => .adcAbs a
  | 0xE => .rorAbs a
  | _ => .xxx op

/-- Row 7x of the opcode map (R150): column `lo`, operand byte `b`, operand word `a`. -/
def decodeRow7 (lo : Nat) (op b : Byte) (a : Word) : Instr :=
  match lo with
  | 0x0 => .bvs b
  | 0x1 => .adcIzy b
  | 0x5 => .adcZpx b
  | 0x6 => .rorZpx b
  | 0x8 => .sei
  | 0x9 => .adcAby a
  | 0xD => .adcAbx a
  | 0xE => .rorAbx a
  | _ => .xxx op

/-- Row 8x of the opcode map (R150): column `lo`, operand byte `b`, operand word `a`. -/
def decodeRow8 (lo : Nat) (op b : Byte) (a : Word) : Instr :=
  match lo with
  | 0x1 => .staIzx b
  | 0x4 => .styZp b
  | 0x5 => .staZp b
  | 0x6 => .stxZp b
  | 0x8 => .dey
  | 0xA => .txa
  | 0xC => .styAbs a
  | 0xD => .staAbs a
  | 0xE => .stxAbs a
  | _ => .xxx op

/-- Row 9x of the opcode map (R150): column `lo`, operand byte `b`, operand word `a`. -/
def decodeRow9 (lo : Nat) (op b : Byte) (a : Word) : Instr :=
  match lo with
  | 0x0 => .bcc b
  | 0x1 => .staIzy b
  | 0x4 => .styZpx b
  | 0x5 => .staZpx b
  | 0x6 => .stxZpy b
  | 0x8 => .tya
  | 0x9 => .staAby a
  | 0xA => .txs
  | 0xD => .staAbx a
  | _ => .xxx op

/-- Row Ax of the opcode map (R150): column `lo`, operand byte `b`, operand word `a`. -/
def decodeRowA (lo : Nat) (op b : Byte) (a : Word) : Instr :=
  match lo with
  | 0x0 => .ldyImm b
  | 0x1 => .ldaIzx b
  | 0x2 => .ldxImm b
  | 0x4 => .ldyZp b
  | 0x5 => .ldaZp b
  | 0x6 => .ldxZp b
  | 0x8 => .tay
  | 0x9 => .ldaImm b
  | 0xA => .tax
  | 0xC => .ldyAbs a
  | 0xD => .ldaAbs a
  | 0xE => .ldxAbs a
  | _ => .xxx op

/-- Row Bx of the opcode map (R150): column `lo`, operand byte `b`, operand word `a`. -/
def decodeRowB (lo : Nat) (op b : Byte) (a : Word) : Instr :=
  match lo with
  | 0x0 => .bcs b
  | 0x1 => .ldaIzy b
  | 0x4 => .ldyZpx b
  | 0x5 => .ldaZpx b
  | 0x6 => .ldxZpy b
  | 0x8 => .clv
  | 0x9 => .ldaAby a
  | 0xA => .tsx
  | 0xC => .ldyAbx a
  | 0xD => .ldaAbx a
  | 0xE => .ldxAby a
  | _ => .xxx op

/-- Row Cx of the opcode map (R150): column `lo`, operand byte `b`, operand word `a`. -/
def decodeRowC (lo : Nat) (op b : Byte) (a : Word) : Instr :=
  match lo with
  | 0x0 => .cpyImm b
  | 0x1 => .cmpIzx b
  | 0x4 => .cpyZp b
  | 0x5 => .cmpZp b
  | 0x6 => .decZp b
  | 0x8 => .iny
  | 0x9 => .cmpImm b
  | 0xA => .dex
  | 0xC => .cpyAbs a
  | 0xD => .cmpAbs a
  | 0xE => .decAbs a
  | _ => .xxx op

/-- Row Dx of the opcode map (R150): column `lo`, operand byte `b`, operand word `a`. -/
def decodeRowD (lo : Nat) (op b : Byte) (a : Word) : Instr :=
  match lo with
  | 0x0 => .bne b
  | 0x1 => .cmpIzy b
  | 0x5 => .cmpZpx b
  | 0x6 => .decZpx b
  | 0x8 => .cld
  | 0x9 => .cmpAby a
  | 0xD => .cmpAbx a
  | 0xE => .decAbx a
  | _ => .xxx op

/-- Row Ex of the opcode map (R150): column `lo`, operand byte `b`, operand word `a`. -/
def decodeRowE (lo : Nat) (op b : Byte) (a : Word) : Instr :=
  match lo with
  | 0x0 => .cpxImm b
  | 0x1 => .sbcIzx b
  | 0x4 => .cpxZp b
  | 0x5 => .sbcZp b
  | 0x6 => .incZp b
  | 0x8 => .inx
  | 0x9 => .sbcImm b
  | 0xA => .nop
  | 0xC => .cpxAbs a
  | 0xD => .sbcAbs a
  | 0xE => .incAbs a
  | _ => .xxx op

/-- Row Fx of the opcode map (R150): column `lo`, operand byte `b`, operand word `a`. -/
def decodeRowF (lo : Nat) (op b : Byte) (a : Word) : Instr :=
  match lo with
  | 0x0 => .beq b
  | 0x1 => .sbcIzy b
  | 0x5 => .sbcZpx b
  | 0x6 => .incZpx b
  | 0x8 => .sed
  | 0x9 => .sbcAby a
  | 0xD => .sbcAbx a
  | 0xE => .incAbx a
  | _ => .xxx op

/-- The instruction of opcode byte `op` whose next two bytes are `b1`, `b2`: "a 256-way table lookup" (R130, R150, R151). A short
instruction ignores the bytes it has no use for. -/
def decodeOp (op b1 b2 : Byte) : Instr :=
  let lo := op.toNat % 16
  let a := wordOf b2 b1
  match op.toNat / 16 with
  | 0x0 => decodeRow0 lo op b1 a
  | 0x1 => decodeRow1 lo op b1 a
  | 0x2 => decodeRow2 lo op b1 a
  | 0x3 => decodeRow3 lo op b1 a
  | 0x4 => decodeRow4 lo op b1 a
  | 0x5 => decodeRow5 lo op b1 a
  | 0x6 => decodeRow6 lo op b1 a
  | 0x7 => decodeRow7 lo op b1 a
  | 0x8 => decodeRow8 lo op b1 a
  | 0x9 => decodeRow9 lo op b1 a
  | 0xA => decodeRowA lo op b1 a
  | 0xB => decodeRowB lo op b1 a
  | 0xC => decodeRowC lo op b1 a
  | 0xD => decodeRowD lo op b1 a
  | 0xE => decodeRowE lo op b1 a
  | _ => decodeRowF lo op b1 a

/-- "A decoder tells the length of an instruction by looking the first byte up" (R131). -/
def opcodeLength (op : Byte) : Nat :=
  (decodeOp op 0 0).length

/-- What decoding a byte string gives: an instruction and the bytes after it, or a rejection by name. -/
inductive Decoded where
  | ok (i : Instr) (rest : List Byte)
  /-- there is no byte to decode -/
  | noOpcode
  /-- the string ends inside the operand bytes of its instruction -/
  | missingOperand
deriving DecidableEq, Repr

/-- Decodes the instruction at the front of a byte string (R130, R131). -/
def decode (bytes : List Byte) : Decoded :=
  match bytes with
  | [] => .noOpcode
  | op :: rest =>
    match opcodeLength op, rest with
    | 2, b1 :: rest => .ok (decodeOp op b1 0) rest
    | 2, [] => .missingOperand
    | 3, b1 :: b2 :: rest => .ok (decodeOp op b1 b2) rest
    | 3, _ => .missingOperand
    | _, rest => .ok (decodeOp op 0 0) rest

/-- The opcode byte of an instruction: its cell of R150, or the byte an XXX entry carries. -/
def Instr.opcode (i : Instr) : Byte :=
  match i with
  | .ldaImm _ => 0xA9
  | .ldaZp _ => 0xA5
  | .ldaZpx _ => 0xB5
  | .ldaAbs _ => 0xAD
  | .ldaAbx _ => 0xBD
  | .ldaAby _ => 0xB9
  | .ldaIzx _ => 0xA1
  | .ldaIzy _ => 0xB1
  | .ldxImm _ => 0xA2
  | .ldxZp _ => 0xA6
  | .ldxZpy _ => 0xB6
  | .ldxAbs _ => 0xAE
  | .ldxAby _ => 0xBE
  | .ldyImm _ => 0xA0
  | .ldyZp _ => 0xA4
  | .ldyZpx _ => 0xB4
  | .ldyAbs _ => 0xAC
  | .ldyAbx _ => 0xBC
  | .staZp _ => 0x85
  | .staZpx _ => 0x95
  | .staAbs _ => 0x8D
  | .staAbx _ => 0x9D
  | .staAby _ => 0x99
  | .staIzx _ => 0x81
  | .staIzy _ => 0x91
  | .stxZp _ => 0x86
  | .stxZpy _ => 0x96
  | .stxAbs _ => 0x8E
  | .styZp _ => 0x84
  | .styZpx _ => 0x94
  | .styAbs _ => 0x8C
  | .tax => 0xAA
  | .tay => 0xA8
  | .txa => 0x8A
  | .tya => 0x98
  | .tsx => 0xBA
  | .txs => 0x9A
  | .pha => 0x48
  | .php => 0x08
  | .pla => 0x68
  | .plp => 0x28
  | .adcImm _ => 0x69
  | .adcZp _ => 0x65
  | .adcZpx _ => 0x75
  | .adcAbs _ => 0x6D
  | .adcAbx _ => 0x7D
  | .adcAby _ => 0x79
  | .adcIzx _ => 0x61
  | .adcIzy _ => 0x71
  | .sbcImm _ => 0xE9
  | .sbcZp _ => 0xE5
  | .sbcZpx _ => 0xF5
  | .sbcAbs _ => 0xED
  | .sbcAbx _ => 0xFD
  | .sbcAby _ => 0xF9
  | .sbcIzx _ => 0xE1
  | .sbcIzy _ => 0xF1
  | .cmpImm _ => 0xC9
  | .cmpZp _ => 0xC5
  | .cmpZpx _ => 0xD5
  | .cmpAbs _ => 0xCD
  | .cmpAbx _ => 0xDD
  | .cmpAby _ => 0xD9
  | .cmpIzx _ => 0xC1
  | .cmpIzy _ => 0xD1
  | .cpxImm _ => 0xE0
  | .cpxZp _ => 0xE4
  | .cpxAbs _ => 0xEC
  | .cpyImm _ => 0xC0
  | .cpyZp _ => 0xC4
  | .cpyAbs _ => 0xCC
  | .incZp _ => 0xE6
  | .incZpx _ => 0xF6
  | .incAbs _ => 0xEE
  | .incAbx _ => 0xFE
  | .inx => 0xE8
  | .iny => 0xC8
  | .decZp _ => 0xC6
  | .decZpx _ => 0xD6
  | .decAbs _ => 0xCE
  | .decAbx _ => 0xDE
  | .dex => 0xCA
  | .dey => 0x88
  | .andImm _ => 0x29
  | .andZp _ => 0x25
  | .andZpx _ => 0x35
  | .andAbs _ => 0x2D
  | .andAbx _ => 0x3D
  | .andAby _ => 0x39
  | .andIzx _ => 0x21
  | .andIzy _ => 0x31
  | .oraImm _ => 0x09
  | .oraZp _ => 0x05
  | .oraZpx _ => 0x15
  | .oraAbs _ => 0x0D
  | .oraAbx _ => 0x1D
  | .oraAby _ => 0x19
  | .oraIzx _ => 0x01
  | .oraIzy _ => 0x11
  | .eorImm _ => 0x49
  | .eorZp _ => 0x45
  | .eorZpx _ => 0x55
  | .eorAbs _ => 0x4D
  | .eorAbx _ => 0x5D
  | .eorAby _ => 0x59
  | .eorIzx _ => 0x41
  | .eorIzy _ => 0x51
  | .bitZp _ => 0x24
  | .bitAbs _ => 0x2C
  | .aslAcc => 0x0A
  | .aslZp _ => 0x06
  | .aslZpx _ => 0x16
  | .aslAbs _ => 0x0E
  | .aslAbx _ => 0x1E
  | .lsrAcc => 0x4A
  | .lsrZp _ => 0x46
  | .lsrZpx _ => 0x56
  | .lsrAbs _ => 0x4E
  | .lsrAbx _ => 0x5E
  | .rolAcc => 0x2A
  | .rolZp _ => 0x26
  | .rolZpx _ => 0x36
  | .rolAbs _ => 0x2E
  | .rolAbx _ => 0x3E
  | .rorAcc => 0x6A
  | .rorZp _ => 0x66
  | .rorZpx _ => 0x76
  | .rorAbs _ => 0x6E
  | .rorAbx _ => 0x7E
  | .jmpAbs _ => 0x4C
  | .jmpInd _ => 0x6C
  | .jsr _ => 0x20
  | .rts => 0x60
  | .bcc _ => 0x90
  | .bcs _ => 0xB0
  | .beq _ => 0xF0
  | .bne _ => 0xD0
  | .bmi _ => 0x30
  | .bpl _ => 0x10
  | .bvc _ => 0x50
  | .bvs _ => 0x70
  | .clc => 0x18
  | .sec => 0x38
  | .cli => 0x58
  | .sei => 0x78
  | .clv => 0xB8
  | .cld => 0xD8
  | .sed => 0xF8
  | .nop => 0xEA
  | .brk => 0x00
  | .rti => 0x40
  | .xxx op => op

/-- The operand bytes in address order (R130, R132): nothing, one byte, or the low byte and then the high byte. -/
def Machine.Addressing.bytes (m : Addressing) : List Byte :=
  match m with
  | .zp z | .zpx z | .zpy z | .izx z | .izy z => [z]
  | .abs a | .abx a | .aby a => [loByte a, hiByte a]

/-- The operand bytes of an operand in any mode. -/
def Machine.Operand.bytes (o : Operand) : List Byte :=
  match o with
  | .imp | .acc => []
  | .imm b => [b]
  | .rel d => [d]
  | .mem m => m.bytes
  | .ind a => [loByte a, hiByte a]

/-- The bytes of an instruction, at consecutive addresses (R130). -/
def encode (i : Instr) : List Byte :=
  i.opcode :: i.operand.bytes

/-- The bytes of an instruction whose bits are `w`, numbered as spec/opcode_table.json numbers them (the first byte is bits 7:0), of
which `nbits` are given and the rest are 0. -/
def tableBytes (nbits w : Nat) : List Byte :=
  let v := w % 2 ^ nbits
  [BitVec.ofNat 8 v, BitVec.ofNat 8 (v / 0x100), BitVec.ofNat 8 (v / 0x10000)]

/-- The instruction the decoder reads from an instruction whose bits are `w`. -/
def decodeTableWord (nbits w : Nat) : Option Instr :=
  match decode (tableBytes nbits w) with
  | .ok i _ => some i
  | .noOpcode | .missingOperand => none

end Sys2Proof
end

