-- ==== Sys2Proof/Machine/Memory.lean ====
section
/-!
DEFINITION. A physical store of bytes as plain data: a list of (index, byte) cells in ONE canonical form.

Every store of the spec (RAM, PRG, CHR, PRG-RAM, VRAM, palette, OAM; R27, R31, R40 of 10_state.md) is one of these. What an index
that is not listed reads as is `Memory.unlisted`, one definition for all of them. The spec leaves the power-on contents open
("any value", I1 of 93_implementation_defined.md): they are parameters of Config, and only those of `State.reset` rest on this value (log 3).
-/

namespace Sys2Proof.Machine

/-- A store: cells by index. -/
abbrev Memory := List Host.Cell

/-- What an index that is not listed reads as. DESIGN CHOICE: 00. Unsafe where a claim rests on it (log 3). -/
def Memory.unlisted : Byte :=
  0x00

/-- The byte at index `a`. -/
def Memory.read (m : Memory) (a : Nat) : Byte :=
  match m with
  | [] => Memory.unlisted
  | (k, v) :: rest => if k = a then v else Memory.read rest a

/-- The cells without those of index `a`. -/
def Memory.erase (m : Memory) (a : Nat) : Memory :=
  match m with
  | [] => []
  | (k, v) :: rest => if k = a then Memory.erase rest a else (k, v) :: Memory.erase rest a

/-- The cells with one more, in front of the first larger index. -/
def Memory.insert (m : Memory) (a : Nat) (v : Byte) : Memory :=
  match m with
  | [] => [(a, v)]
  | (k, w) :: rest => if a < k then (a, v) :: (k, w) :: rest else (k, w) :: Memory.insert rest a v

/-- Stores `v` at index `a`; the value an unlisted index reads as is not listed. -/
def Memory.write (m : Memory) (a : Nat) (v : Byte) : Memory :=
  if v = Memory.unlisted then Memory.erase m a else Memory.insert (Memory.erase m a) a v

/-- The store that holds the bytes of a list at consecutive indices from `a`. -/
def Memory.ofBytes (a : Nat) (bytes : List Byte) : Memory :=
  match bytes with
  | [] => []
  | b :: rest => if b = Memory.unlisted then Memory.ofBytes (a + 1) rest else (a, b) :: Memory.ofBytes (a + 1) rest

/-- The canonical form: indices strictly rising, and no cell that equals what an unlisted index reads as. -/
abbrev Memory.wf (m : Memory) : Prop :=
  m.Pairwise (fun c d => c.1 < d.1) ∧ ∀ c ∈ m, c.2 ≠ Memory.unlisted

/-- Every listed index is below the size of the store. -/
abbrev Memory.within (m : Memory) (size : Nat) : Prop :=
  ∀ c ∈ m, c.1 < size

end Sys2Proof.Machine
end

