-- ==== Sys2Proof/Config.lean ====
section
/-!
DEFINITION. The named parameters of the machine (R7 of 00_scope.md: "A model takes each as a configuration field"; "Open parameters, gathered"
of 92_eei_decisions.md), three points on which the spec's own files differ, and the one free value.

A machine holds its parameters in a field of State that no step writes, so a statement about every state is a statement about every value of
them. Which values `State.reset` has is said in Machine/ResetValues.lean (logs 2, 3, 8, 13, 14, 15). The parameters of a cartridge come from its
header and stand in the cartridge (R452).
-/

namespace Sys2Proof

open Machine (Memory)

/-- The parameters of a machine, under the names of R7. -/
structure Config where
  /-- `NMI_VECTOR` (R93 of 20_memory.md, D2) -/
  nmiVector : Word
  /-- `RESET_VECTOR` (R93, D2) -/
  resetVector : Word
  /-- `IRQ_VECTOR` (R93, D2) -/
  irqVector : Word
  /-- `STACK_PAGE`, the "high byte of every stack address" (D3) -/
  stackPage : Byte
  /-- `MAPPED`, "the set of opcode values that have a table entry" (D4); one outside R150 has no meaning to take and stays XXX (log 8) -/
  mapped : List Byte
  /-- `BASE_CYCLES[256]`, the "base cycle cost per opcode" (D14, R520 of 70_reset_and_hazards.md) -/
  baseCycles : Vector Nat 256
  /-- `RESET_CYCLES`, the "fixed warm-up cycle cost" of reset (D14, R522) -/
  resetCycles : Nat
  /-- `NMI_CYCLES`, the "fixed cycle cost" of NMI entry (D14, R522) -/
  nmiCycles : Nat
  /-- `RAM_INIT`, the contents of RAM at power-on (D37, R501) -/
  ramInit : Memory
  /-- `PRGRAM_INIT`, the contents of PRG-RAM when its cartridge is inserted (D53) -/
  prgramInit : Memory
  /-- `VRAM_INIT` (D37) -/
  vramInit : Memory
  /-- `OAM_INIT` (D37) -/
  oamInit : Memory
  /-- `PALETTE_INIT` (D37) -/
  paletteInit : Memory
  /-- `CHRRAM_INIT` (D37) -/
  chrramInit : Memory
  /-- `CTRL_SHIFT_FILL`, the "bit shifted into a controller register on each read" (D21) -/
  ctrlShiftFill : Bool
  /-- `NES_COLOR[64]`, the packed colour of each 6-bit palette value (D34, R360 of 62_ppu.md) -/
  nesColor : Vector Nat 64
  /-- `SAMPLE_RATE` of the audio phase accumulator (D43, R431 of 63_apu.md) -/
  sampleRate : Nat
  /-- `CPU_CLOCK_HZ` of the audio phase accumulator (D43, R431) -/
  cpuClockHz : Nat
  /-- `RING_CAPACITY`, how many unread samples the ring buffer holds (D43, R436) -/
  ringCapacity : Nat
  /-- `FS4_WRAP`, the last count of the four-step sequence (D39, R399) -/
  fs4Wrap : Nat
  /-- `FS5_WRAP`, the last count of the five-step sequence (D39, R399) -/
  fs5Wrap : Nat
  /-- `FS_STEP[1]` (D39, R399) -/
  fsStep1 : Nat
  /-- `FS_STEP[2]` (D39, R399) -/
  fsStep2 : Nat
  /-- `FS_STEP[3]` (D39, R399) -/
  fsStep3 : Nat
  /-- which of the spec's two places `renderFrame()` runs at: the clock that sets `frame_complete` (D29, S9), or the one that finds the
  counters at (240, 0) (R330, R359 of 62_ppu.md); log 13 -/
  renderAtFrameEnd : Bool
  /-- which of the spec's two readings reset follows: the snapshots unchanged (D37, I5), or zeroed (R41, R373, R502); log 14 -/
  resetKeepsSnapshots : Bool
  /-- which of the spec's two orders `Bus.reset()` has: the CPU last (D23), or before the PPU, the APU and the Bus's own registers (R310); log 15 -/
  resetsCpuLast : Bool
deriving DecidableEq, Repr

/-- FREE VALUE: the n-th unspecified byte the hardware produces. It has no body, so no proof can use a particular value of it.
Used for bits 4:0 of a PPU status read (R337 of 62_ppu.md, I4 of 93_implementation_defined.md: "any value"). Safe (log 1). -/
opaque Config.freeByte : Nat → Byte

end Sys2Proof
end

