-- ==== Sys2Proof/Machine/Types.lean ====
section
/-!
DEFINITION. The parts of the machine's state as plain data, each field under the spec's own name (10_state.md, R20 to R48).
-/

namespace Sys2Proof.Machine

/-- The CPU (R20 to R25 of 10_state.md). -/
structure Cpu where
  /-- accumulator (R21) -/
  a : Byte
  /-- index register X (R21) -/
  x : Byte
  /-- index register Y (R21) -/
  y : Byte
  /-- stack pointer `S`, the low byte of the stack address (R22) -/
  sp : Byte
  /-- status byte `P`, read and written whole by PHP, PLP, BRK, RTI and NMI entry (R23) -/
  p : Byte
  /-- program counter (R24) -/
  pc : Word
  /-- `cyc_rem`: CPU cycles still to count down before the next instruction or NMI entry (R25) -/
  cycRem : Nat
  /-- `nmi_pending` (R25) -/
  nmiPending : Bool
  /-- `diag_unknown`, sticky (R25) -/
  diagUnknown : Bool
deriving DecidableEq, Repr

/-- The OAM DMA registers of the Bus (R29). -/
structure Dma where
  active : Bool
  page : Byte
  index : Byte
  dummy : Bool
  data : Byte
deriving DecidableEq, Repr

/-- One player's controller (R30): the live button mask and the shift register reads shift out of. -/
structure Pad where
  state : Byte
  shift : Byte
deriving DecidableEq, Repr

/-- Nametable mirroring modes (R31 of 10_state.md, R99 of 20_memory.md). -/
inductive Mirroring where
  | horizontal
  | vertical
  | singleLower
  | singleUpper
  | fourScreen
deriving DecidableEq, Repr

/-- What the image's header fixes (R452 of 64_cartridge_mappers.md). -/
structure Header where
  prgBanks : Nat
  chrBanks : Nat
  mapperId : Byte
  mirroring : Mirroring
  hasTrainer : Bool
deriving DecidableEq, Repr

/-- MMC1 registers (R33). -/
structure Mmc1 where
  shift : BitVec 5
  count : BitVec 3
  control : BitVec 5
  chr0 : BitVec 5
  chr1 : BitVec 5
  prg : BitVec 5
deriving DecidableEq, Repr

/-- MMC2 registers (R35). A latch is true for FE (1) and false for FD (0). -/
structure Mmc2 where
  prg : BitVec 4
  chrFd0 : BitVec 5
  chrFe0 : BitVec 5
  chrFd1 : BitVec 5
  chrFe1 : BitVec 5
  latch0 : Bool
  latch1 : Bool
  mirror : Bool
deriving DecidableEq, Repr

/-- The mapper of a cartridge with its registers (R32 to R35, R472 of 64_cartridge_mappers.md). -/
inductive Mapper where
  /-- mapper id 0: "fixed mapping with no registers" (R32) -/
  | nrom
  /-- mapper id 1 (R33) -/
  | mmc1 (r : Mmc1)
  /-- mapper id 2: one 8-bit bank register (R34) -/
  | unrom (bank : Byte)
  /-- mapper id 9 (R35) -/
  | mmc2 (r : Mmc2)
  /-- any other id: the cartridge is invalid and never part of a running machine (R453, R472) -/
  | unsupported
deriving DecidableEq, Repr

/-- A cartridge (R31 of 10_state.md, R450 of 64_cartridge_mappers.md). -/
structure Cartridge where
  header : Header
  prg : Memory
  chr : Memory
  prgram : Memory
  mirroring : Mirroring
  valid : Bool
  mapper : Mapper
deriving DecidableEq, Repr

/-- One entry of the per-scanline scroll snapshot `snap` (R41). -/
structure Snapshot where
  t : BitVec 15
  fineX : BitVec 3
  ctrl : Byte
  mask : Byte
deriving DecidableEq, Repr

/-- The PPU (R36 to R42 of 10_state.md). -/
structure Ppu where
  /-- 0 to 261 (R36) -/
  scanline : Nat
  /-- 0 to 340 (R36) -/
  dot : Nat
  /-- `ppu_ctrl` (R37) -/
  ctrl : Byte
  /-- `ppu_mask` (R37) -/
  mask : Byte
  /-- `ppu_status`; only bits 7, 6, 5 are driven (R37) -/
  status : Byte
  /-- current VRAM address (R38) -/
  v : BitVec 15
  /-- temporary address and scroll (R38) -/
  t : BitVec 15
  /-- fine horizontal scroll, "8 stored, only bits 2:0 are ever non-zero" (R38) -/
  fineX : Byte
  /-- write toggle: false for the first write (R38) -/
  w : Bool
  /-- `oam_addr` (R39) -/
  oamAddr : Byte
  /-- `ppu_data_buffer` (R39) -/
  dataBuffer : Byte
  /-- `nmi_line` (R39) -/
  nmiLine : Bool
  /-- `frame_complete` (R39) -/
  frameComplete : Bool
  /-- 2 KiB nametable RAM (R40) -/
  vram : Memory
  /-- 32 bytes of palette RAM (R40) -/
  pal : Memory
  /-- 256 bytes of sprite memory (R40) -/
  oam : Memory
  /-- `snap[0..239]` (R41) -/
  snap : List Snapshot
  /-- the framebuffer `FB[0..239][0..255]` of packed colours (R42) -/
  fb : Vector (Vector Nat 256) 240
deriving DecidableEq, Repr

/-- Frame sequencer (R43). -/
structure FrameSeq where
  counter : Nat
  phase : Bool
  mode5 : Bool
  irqInhibit : Bool
  frameIrq : Bool
deriving DecidableEq, Repr

/-- The envelope unit that pulse 1, pulse 2 and noise have (R44, R46; R403 of 63_apu.md). -/
structure Envelope where
  /-- length-counter halt, also envelope loop -/
  lengthHalt : Bool
  constVolume : Bool
  /-- constant volume or envelope period -/
  volume : BitVec 4
  start : Bool
  divider : BitVec 4
  decay : BitVec 4
deriving DecidableEq, Repr

/-- A pulse channel (R44). -/
structure Pulse where
  enabled : Bool
  duty : BitVec 2
  env : Envelope
  /-- stored, no effect (R407) -/
  sweepReg : Byte
  timerPeriod : BitVec 11
  timer : BitVec 11
  seqPos : BitVec 3
  length : Byte
deriving DecidableEq, Repr

/-- The triangle channel (R45). -/
structure Triangle where
  enabled : Bool
  control : Bool
  linearReloadValue : BitVec 7
  linear : BitVec 7
  linearReload : Bool
  timerPeriod : BitVec 11
  timer : BitVec 11
  seqPos : BitVec 5
  length : Byte
deriving DecidableEq, Repr

/-- The noise channel (R46). -/
structure Noise where
  enabled : Bool
  env : Envelope
  mode : Bool
  periodIndex : BitVec 4
  timer : BitVec 12
  lfsr : BitVec 15
  length : Byte
deriving DecidableEq, Repr

/-- The delta-modulation channel (R47). -/
structure Dmc where
  enabled : Bool
  irqEnable : Bool
  loop : Bool
  rateIndex : BitVec 4
  timer : BitVec 9
  dac : BitVec 7
  sampleAddr : Word
  sampleLen : BitVec 12
  curAddr : Word
  bytesRemaining : BitVec 12
  sampleBuffer : Byte
  bufferEmpty : Bool
  shift : Byte
  bitsRemaining : BitVec 4
  silence : Bool
  dmcIrq : Bool
deriving DecidableEq, Repr

/-- An exact audio sample, the non-negative rational `num / den` ("The arithmetic is on reals", R430 of 63_apu.md; log 10). -/
structure Sample where
  num : Nat
  den : Nat
deriving DecidableEq, Repr

/-- The APU (R43 to R48). -/
structure Apu where
  fs : FrameSeq
  pulse1 : Pulse
  pulse2 : Pulse
  tri : Triangle
  noise : Noise
  dmc : Dmc
  /-- `sample_phase`, as a numerator over `CPU_CLOCK_HZ` (R48, R431; log 10) -/
  samplePhase : Nat
  /-- the ring buffer's unread samples, oldest first (R436) -/
  ring : List Sample
deriving DecidableEq, Repr

end Sys2Proof.Machine
end

