-- ==== Sys2Proof/Machine/ResetValues.lean ====
section
/-!
DEFINITION. The values the parts of the machine take on reset (R502 of 70_reset_and_hazards.md), used by `State.reset` and by the host's
`Bus.reset()` (Machine/HostOps.lean) alike, and the parameter values of `State.reset`.
-/

namespace Sys2Proof.Machine

/-- The 151 mapped opcode values, one line per high nibble (R150 of 30_encoding.md). -/
def mappedAtReset : List Byte :=
  [0x00, 0x01, 0x05, 0x06, 0x08, 0x09, 0x0A, 0x0D, 0x0E] ++
  [0x10, 0x11, 0x15, 0x16, 0x18, 0x19, 0x1D, 0x1E] ++
  [0x20, 0x21, 0x24, 0x25, 0x26, 0x28, 0x29, 0x2A, 0x2C, 0x2D, 0x2E] ++
  [0x30, 0x31, 0x35, 0x36, 0x38, 0x39, 0x3D, 0x3E] ++
  [0x40, 0x41, 0x45, 0x46, 0x48, 0x49, 0x4A, 0x4C, 0x4D, 0x4E] ++
  [0x50, 0x51, 0x55, 0x56, 0x58, 0x59, 0x5D, 0x5E] ++
  [0x60, 0x61, 0x65, 0x66, 0x68, 0x69, 0x6A, 0x6C, 0x6D, 0x6E] ++
  [0x70, 0x71, 0x75, 0x76, 0x78, 0x79, 0x7D, 0x7E] ++
  [0x81, 0x84, 0x85, 0x86, 0x88, 0x8A, 0x8C, 0x8D, 0x8E] ++
  [0x90, 0x91, 0x94, 0x95, 0x96, 0x98, 0x99, 0x9A, 0x9D] ++
  [0xA0, 0xA1, 0xA2, 0xA4, 0xA5, 0xA6, 0xA8, 0xA9, 0xAA, 0xAC, 0xAD, 0xAE] ++
  [0xB0, 0xB1, 0xB4, 0xB5, 0xB6, 0xB8, 0xB9, 0xBA, 0xBC, 0xBD, 0xBE] ++
  [0xC0, 0xC1, 0xC4, 0xC5, 0xC6, 0xC8, 0xC9, 0xCA, 0xCC, 0xCD, 0xCE] ++
  [0xD0, 0xD1, 0xD5, 0xD6, 0xD8, 0xD9, 0xDD, 0xDE] ++
  [0xE0, 0xE1, 0xE4, 0xE5, 0xE6, 0xE8, 0xE9, 0xEA, 0xEC, 0xED, 0xEE] ++
  [0xF0, 0xF1, 0xF5, 0xF6, 0xF8, 0xF9, 0xFD, 0xFE]

/-- The base costs by opcode value, one line per high nibble (R150, R520 of 70_reset_and_hazards.md); 2 for the unmapped ones (R243). -/
def baseCyclesAtReset : List Nat :=
  [7, 6, 2, 2, 2, 3, 5, 2, 3, 2, 2, 2, 2, 4, 6, 2] ++
  [2, 5, 2, 2, 2, 4, 6, 2, 2, 4, 2, 2, 2, 4, 7, 2] ++
  [6, 6, 2, 2, 3, 3, 5, 2, 4, 2, 2, 2, 4, 4, 6, 2] ++
  [2, 5, 2, 2, 2, 4, 6, 2, 2, 4, 2, 2, 2, 4, 7, 2] ++
  [6, 6, 2, 2, 2, 3, 5, 2, 3, 2, 2, 2, 3, 4, 6, 2] ++
  [2, 5, 2, 2, 2, 4, 6, 2, 2, 4, 2, 2, 2, 4, 7, 2] ++
  [6, 6, 2, 2, 2, 3, 5, 2, 4, 2, 2, 2, 5, 4, 6, 2] ++
  [2, 5, 2, 2, 2, 4, 6, 2, 2, 4, 2, 2, 2, 4, 7, 2] ++
  [2, 6, 2, 2, 3, 3, 3, 2, 2, 2, 2, 2, 4, 4, 4, 2] ++
  [2, 6, 2, 2, 4, 4, 4, 2, 2, 5, 2, 2, 2, 5, 2, 2] ++
  [2, 6, 2, 2, 3, 3, 3, 2, 2, 2, 2, 2, 4, 4, 4, 2] ++
  [2, 5, 2, 2, 4, 4, 4, 2, 2, 4, 2, 2, 4, 4, 4, 2] ++
  [2, 6, 2, 2, 3, 3, 5, 2, 2, 2, 2, 2, 4, 4, 6, 2] ++
  [2, 5, 2, 2, 2, 4, 6, 2, 2, 4, 2, 2, 2, 4, 7, 2] ++
  [2, 6, 2, 2, 3, 3, 5, 2, 2, 2, 2, 2, 4, 4, 6, 2] ++
  [2, 5, 2, 2, 2, 4, 6, 2, 2, 4, 2, 2, 2, 4, 7, 2]

/-- The parameters of the machine `State.reset` describes. Where R7 of 00_scope.md has a default or a suggestion it is that (logs 2, 8). DESIGN
CHOICE, unsafe where a claim rests on them: a ring of 4096 samples, colour number i for palette value i (log 2), memories that list nothing
(log 3). Where files of the spec differ it is the ruling of 92_eei_decisions.md (logs 13, 14, 15). -/
def configAtReset : Config :=
  { nmiVector := 0xFFFA
    resetVector := 0xFFFC
    irqVector := 0xFFFE
    stackPage := 0x01
    mapped := mappedAtReset
    baseCycles := ⟨baseCyclesAtReset.toArray, by simp only [List.size_toArray, baseCyclesAtReset, List.length_append, List.length_cons, List.length_nil]⟩
    resetCycles := 7
    nmiCycles := 7
    ramInit := []
    prgramInit := []
    vramInit := []
    oamInit := []
    paletteInit := []
    chrramInit := []
    ctrlShiftFill := true
    nesColor := ⟨(List.range 64).toArray, by simp⟩
    sampleRate := 44100
    cpuClockHz := 1789773
    ringCapacity := 4096
    fs4Wrap := 14916
    fs5Wrap := 18640
    fsStep1 := 3729
    fsStep2 := 7457
    fsStep3 := 11186
    renderAtFrameEnd := true
    resetKeepsSnapshots := true
    resetsCpuLast := true }

/-- The CPU after reset with the given vector contents and warm-up cost (R49 of 10_state.md, R262 of 60_exceptions.md). -/
def cpuAfterReset (vector : Word) (cycles : Nat) : Cpu :=
  { a := 0x00
    x := 0x00
    y := 0x00
    sp := 0xFD
    p := 0x24
    pc := vector
    cycRem := cycles
    nmiPending := false
    diagUnknown := false }

/-- The DMA registers after reset (R29 of 10_state.md, R310 of 61_bus_dma_controllers.md). -/
def dmaAfterReset : Dma :=
  { active := false
    page := 0x00
    index := 0x00
    dummy := true
    data := 0x00 }

/-- A controller after reset (R30, R310; C8 of 90_conflicts.md). -/
def padAfterReset : Pad :=
  { state := 0x00
    shift := 0x00 }

/-- The all-zero snapshot entry (R41, R373 of 62_ppu.md; log 14). -/
def snapshotAfterReset : Snapshot :=
  { t := 0
    fineX := 0
    ctrl := 0x00
    mask := 0x00 }

/-- The all-zero snapshots (R41). -/
def snapshotsAfterReset : List Snapshot :=
  List.replicate 240 snapshotAfterReset

/-- The framebuffer in `State.reset`: colour 0 everywhere, DESIGN CHOICE, since its contents are "unspecified until the first frame is
rendered" (R42, I5; log 4). -/
def blankFrame : Vector (Vector Nat 256) 240 :=
  Vector.replicate 240 (Vector.replicate 256 0)

/-- The PPU after reset with the given memories, snapshots and framebuffer, every register 0 (R373 of 62_ppu.md). -/
def ppuAfterReset (vram pal oam : Memory) (snap : List Snapshot) (fb : Vector (Vector Nat 256) 240) : Ppu :=
  { scanline := 0
    dot := 0
    ctrl := 0x00
    mask := 0x00
    status := 0x00
    v := 0
    t := 0
    fineX := 0x00
    w := false
    oamAddr := 0x00
    dataBuffer := 0x00
    nmiLine := false
    frameComplete := false
    vram := vram
    pal := pal
    oam := oam
    snap := snap
    fb := fb }

/-- The envelope unit after reset (R440 of 63_apu.md). -/
def envelopeAfterReset : Envelope :=
  { lengthHalt := false
    constVolume := false
    volume := 0
    start := false
    divider := 0
    decay := 0 }

/-- A pulse channel after reset (R44, R440). -/
def pulseAfterReset : Pulse :=
  { enabled := false
    duty := 0
    env := envelopeAfterReset
    sweepReg := 0x00
    timerPeriod := 0
    timer := 0
    seqPos := 0
    length := 0x00 }

/-- The triangle channel after reset (R45, R440). -/
def triangleAfterReset : Triangle :=
  { enabled := false
    control := false
    linearReloadValue := 0
    linear := 0
    linearReload := false
    timerPeriod := 0
    timer := 0
    seqPos := 0
    length := 0x00 }

/-- The noise channel after reset: all 0 but the shift register, which is 1 (R46, R440). -/
def noiseAfterReset : Noise :=
  { enabled := false
    env := envelopeAfterReset
    mode := false
    periodIndex := 0
    timer := 0
    lfsr := 1
    length := 0x00 }

/-- The delta-modulation channel after reset (R47, R440). -/
def dmcAfterReset : Dmc :=
  { enabled := false
    irqEnable := false
    loop := false
    rateIndex := 0
    timer := 0
    dac := 0
    sampleAddr := 0xC000
    sampleLen := 1
    curAddr := 0x0000
    bytesRemaining := 0
    sampleBuffer := 0x00
    bufferEmpty := true
    shift := 0x00
    bitsRemaining := 8
    silence := true
    dmcIrq := false }

/-- The APU after reset (R440). -/
def apuAfterReset : Apu :=
  { fs := { counter := 0, phase := false, mode5 := false, irqInhibit := false, frameIrq := false }
    pulse1 := pulseAfterReset
    pulse2 := pulseAfterReset
    tri := triangleAfterReset
    noise := noiseAfterReset
    dmc := dmcAfterReset
    samplePhase := 0
    ring := [] }

end Sys2Proof.Machine
end

