-- ==== Sys2Proof/Machine/State.lean ====
section
/-!
DEFINITION. The whole state of the machine as plain data, why a step can stop, and the state right after reset.
-/

namespace Sys2Proof.Machine

/-- Everything the spec gives the machine (10_state.md; R502 of 70_reset_and_hazards.md lists it), the parameters `cfg` it runs with,
and `free`, the model's own count of the free values taken so far (log 1). -/
structure State where
  /-- R20 to R25 -/
  cpu : Cpu
  /-- system RAM, 2048 bytes (R27) -/
  ram : Memory
  /-- master ticks since reset (R28) -/
  sysclk : Nat
  /-- OAM DMA registers (R29) -/
  dma : Dma
  /-- controller of player 0 (R30) -/
  pad0 : Pad
  /-- controller of player 1 (R30) -/
  pad1 : Pad
  /-- `ctrl_strobe`, shared by both players (R30) -/
  strobe : Bool
  /-- the inserted cartridge, if any (R31 to R35; D53) -/
  cart : Option Cartridge
  /-- R36 to R42 -/
  ppu : Ppu
  /-- R43 to R48 -/
  apu : Apu
  /-- the parameters (R7); no step writes them -/
  cfg : Config
  /-- how many free values have been taken (the model's own) -/
  free : Nat
deriving DecidableEq, Repr

/-- Reasons a step stops with a fault: none. "Nothing in this hardware has the treatment `fault` or `stuck`: every opcode value, every
address and every register value has a defined effect" (93_implementation_defined.md; R260 of 60_exceptions.md). -/
inductive Fault where
deriving DecidableEq, Repr

/-- Reasons a step is refused. -/
inductive Refusal where
  /-- an instruction without a meaning yet; raised only by a refused arm of `exec`, of which there is none. Safe. -/
  | notModelled (mnemonic : String)
  /-- raised by `step` when the inserted cartridge is invalid: "an invalid cartridge refuses to run (no partial/garbage execution)"
  (R453 of 64_cartridge_mappers.md). Safe. -/
  | invalidCartridge
deriving DecidableEq, Repr

/-- The machine right after power-on and `Bus.reset()` (R501, R502 of 70_reset_and_hazards.md), with no cartridge inserted, so that the reset
vector reads as two unmapped bytes and PC is 0000 ("With no cartridge, or a vector in unmapped space, `PC` becomes 0x0000", R262). Programs
come from a cartridge (log 5). Parameters, memories, framebuffer: logs 2, 3, 4, 8. -/
def State.reset : State :=
  { cpu := cpuAfterReset 0x0000 configAtReset.resetCycles
    ram := configAtReset.ramInit
    sysclk := 0
    dma := dmaAfterReset
    pad0 := padAfterReset
    pad1 := padAfterReset
    strobe := false
    cart := none
    ppu := ppuAfterReset configAtReset.vramInit configAtReset.paletteInit configAtReset.oamInit snapshotsAfterReset blankFrame
    apu := apuAfterReset
    cfg := configAtReset
    free := 0 }

end Sys2Proof.Machine
end

