-- ==== Sys2Proof/Machine/ApuRegs.lean ====
section
/-!
DEFINITION. The APU's registers and the units its frame sequencer clocks (R391 to R404, R409 of 63_apu.md).
-/

namespace Sys2Proof.Machine

/-- `LENGTH_TABLE[0..31]` (R404). -/
def lengthTable : List Byte :=
  [10, 254, 20, 2, 40, 4, 80, 6, 160, 8, 60, 10, 14, 12, 26, 14,
   12, 16, 24, 18, 48, 20, 96, 22, 192, 24, 72, 26, 16, 28, 32, 30]

/-- The length a write of `d` to a channel's fourth register loads: `LENGTH_TABLE[d[7:3]]` (R392 to R394). -/
def lengthLoad (d : Byte) : Byte :=
  lengthTable.getD (d >>> 3).toNat 0

/-- A timer period with its low eight bits written. -/
def periodLow (p : BitVec 11) (d : Byte) : BitVec 11 :=
  (p &&& 0x700) ||| d.setWidth 11

/-- A timer period with its high three bits written from `d[2:0]`. -/
def periodHigh (p : BitVec 11) (d : Byte) : BitVec 11 :=
  (p &&& 0x0FF) ||| ((d &&& 0x07).setWidth 11 <<< 8)

/-- The envelope fields a channel's first register writes (R392, R394). -/
def writeEnvelope (d : Byte) (e : Envelope) : Envelope :=
  { e with lengthHalt := d.getLsbD 5, constVolume := d.getLsbD 4, volume := d.setWidth 4 }

/-- Pulse registers, `r` = 0 to 3 (R392). -/
def writePulse (r : Nat) (d : Byte) (p : Pulse) : Pulse :=
  match r with
  | 0 => { p with duty := (d >>> 6).setWidth 2, env := writeEnvelope d p.env }
  | 1 => { p with sweepReg := d }
  | 2 => { p with timerPeriod := periodLow p.timerPeriod d }
  | _ =>
    { p with
      timerPeriod := periodHigh p.timerPeriod d
      length := if p.enabled then lengthLoad d else p.length
      seqPos := 0
      env := { p.env with start := true } }

/-- Triangle registers, `r` = 0 to 3 from 0x4008; 0x4009 is unused (R391, R393). -/
def writeTriangle (r : Nat) (d : Byte) (t : Triangle) : Triangle :=
  match r with
  | 0 => { t with control := d.getLsbD 7, linearReloadValue := d.setWidth 7 }
  | 1 => t
  | 2 => { t with timerPeriod := periodLow t.timerPeriod d }
  | _ =>
    { t with
      timerPeriod := periodHigh t.timerPeriod d
      length := if t.enabled then lengthLoad d else t.length
      linearReload := true }

/-- Noise registers, `r` = 0 to 3 from 0x400C; 0x400D is unused (R391, R394). -/
def writeNoise (r : Nat) (d : Byte) (n : Noise) : Noise :=
  match r with
  | 0 => { n with env := writeEnvelope d n.env }
  | 1 => n
  | 2 => { n with mode := d.getLsbD 7, periodIndex := d.setWidth 4 }
  | _ => { n with length := if n.enabled then lengthLoad d else n.length, env := { n.env with start := true } }

/-- Delta-modulation registers, `r` = 0 to 3 from 0x4010 (R395). -/
def writeDmc (r : Nat) (d : Byte) (m : Dmc) : Dmc :=
  match r with
  | 0 =>
    { m with
      irqEnable := d.getLsbD 7
      loop := d.getLsbD 6
      rateIndex := d.setWidth 4
      dmcIrq := d.getLsbD 7 && m.dmcIrq }
  | 1 => { m with dac := d.setWidth 7 }
  | 2 => { m with sampleAddr := 0xC000 + d.setWidth 16 * 64 }
  | _ => { m with sampleLen := d.setWidth 12 * 16 + 1 }

/-- The delta-modulation channel after a write of `d` to 0x4015 (R396). -/
def enableDmc (d : Byte) (m : Dmc) : Dmc :=
  let m := { m with enabled := d.getLsbD 4, dmcIrq := false }
  if d.getLsbD 4 then
    if m.bytesRemaining = 0 then { m with curAddr := m.sampleAddr, bytesRemaining := m.sampleLen } else m
  else { m with bytesRemaining := 0 }

/-- 0x4015 write: "enables/disables channels and immediately zeroes the length counter of any channel being disabled" (R396). -/
def writeEnables (d : Byte) (a : Apu) : Apu :=
  { a with
    pulse1 := { a.pulse1 with enabled := d.getLsbD 0, length := if d.getLsbD 0 then a.pulse1.length else 0 }
    pulse2 := { a.pulse2 with enabled := d.getLsbD 1, length := if d.getLsbD 1 then a.pulse2.length else 0 }
    tri := { a.tri with enabled := d.getLsbD 2, length := if d.getLsbD 2 then a.tri.length else 0 }
    noise := { a.noise with enabled := d.getLsbD 3, length := if d.getLsbD 3 then a.noise.length else 0 }
    dmc := enableDmc d a.dmc }

/-- Clocking an envelope (R403). -/
def clockEnvelope (e : Envelope) : Envelope :=
  if e.start then { e with start := false, decay := 15, divider := e.volume }
  else if e.divider = 0 then
    { e with
      divider := e.volume
      decay := if e.decay ≠ 0 then e.decay - 1 else if e.lengthHalt then 15 else e.decay }
  else { e with divider := e.divider - 1 }

/-- Clocking the linear counter (R409). -/
def clockLinear (t : Triangle) : Triangle :=
  { t with
    linear := if t.linearReload then t.linearReloadValue else if t.linear ≠ 0 then t.linear - 1 else t.linear
    linearReload := t.control && t.linearReload }

/-- Clocking a length counter: "if halt == 0 and length > 0: length <- length - 1" (R404). -/
def clockLength (halt : Bool) (length : Byte) : Byte :=
  if !halt && length != 0 then length - 1 else length

/-- `quarterFrame()` (R400). -/
def quarterFrame (a : Apu) : Apu :=
  { a with
    pulse1 := { a.pulse1 with env := clockEnvelope a.pulse1.env }
    pulse2 := { a.pulse2 with env := clockEnvelope a.pulse2.env }
    noise := { a.noise with env := clockEnvelope a.noise.env }
    tri := clockLinear a.tri }

/-- `halfFrame()` (R401). -/
def halfFrame (a : Apu) : Apu :=
  { a with
    pulse1 := { a.pulse1 with length := clockLength a.pulse1.env.lengthHalt a.pulse1.length }
    pulse2 := { a.pulse2 with length := clockLength a.pulse2.env.lengthHalt a.pulse2.length }
    tri := { a.tri with length := clockLength a.tri.control a.tri.length }
    noise := { a.noise with length := clockLength a.noise.env.lengthHalt a.noise.length } }

/-- 0x4017 write (R398). -/
def writeFrameSeq (d : Byte) (a : Apu) : Apu :=
  let a :=
    { a with
      fs :=
        { counter := 0
          phase := false
          mode5 := d.getLsbD 7
          irqInhibit := d.getLsbD 6
          frameIrq := !d.getLsbD 6 && a.fs.frameIrq } }
  if d.getLsbD 7 then halfFrame (quarterFrame a) else a

/-- `APU.regWrite(addr, d)` for `addr` in 0x4000 to 0x4013, 0x4015, 0x4017 (R391). -/
def apuRegWrite (addr : Nat) (d : Byte) (a : Apu) : Apu :=
  if addr < 0x4004 then { a with pulse1 := writePulse (addr % 4) d a.pulse1 }
  else if addr < 0x4008 then { a with pulse2 := writePulse (addr % 4) d a.pulse2 }
  else if addr < 0x400C then { a with tri := writeTriangle (addr % 4) d a.tri }
  else if addr < 0x4010 then { a with noise := writeNoise (addr % 4) d a.noise }
  else if addr < 0x4014 then { a with dmc := writeDmc (addr % 4) d a.dmc }
  else if addr = 0x4015 then writeEnables d a
  else writeFrameSeq d a

/-- The byte `APU.statusRead()` returns (R397). -/
def apuStatus (a : Apu) : Byte :=
  (BitVec.ofBool a.dmc.dmcIrq ++ BitVec.ofBool a.fs.frameIrq ++ 0#1 ++ BitVec.ofBool (a.dmc.bytesRemaining != 0) ++
    BitVec.ofBool (a.noise.length != 0) ++ BitVec.ofBool (a.tri.length != 0) ++ BitVec.ofBool (a.pulse2.length != 0) ++
    BitVec.ofBool (a.pulse1.length != 0)).setWidth 8

/-- `APU.statusRead()`: "as a side effect, clears the frame-IRQ bit" (R397). -/
def apuStatusRead (s : State) : Byte × State :=
  (apuStatus s.apu, { s with apu := { s.apu with fs := { s.apu.fs with frameIrq := false } } })

end Sys2Proof.Machine
end

