-- ==== Sys2Proof/Machine/Mapper.lean ====
section
/-!
DEFINITION. The cartridge and its mapper (64_cartridge_mappers.md): the four mapping operations of R454 as functions of an address and the
mapper's registers, the cartridge's side of each access (R455 to R458), and what changes mapper registers (R459 to R470).
-/

namespace Sys2Proof.Machine

/-- `PRG_SIZE` (R450). -/
def Cartridge.prgSize (c : Cartridge) : Nat :=
  c.header.prgBanks * 16384

/-- `CHR_SIZE`: 8 KiB of CHR-RAM when the header's CHR bank count is 0 (R450). -/
def Cartridge.chrSize (c : Cartridge) : Nat :=
  if c.header.chrBanks = 0 then 8192 else c.header.chrBanks * 8192

/-- Result of mapping a CPU read address (R454). -/
inductive MapRead where
  | none
  | prg (off : Nat)
  | prgram (off : Nat)
deriving DecidableEq, Repr

/-- Result of mapping a CPU write address: `register` is the sentinel, with the mapper as it is after the register write and the mirroring
override it returns, if any (R454, R459). -/
inductive MapWrite where
  | none
  | prgram (off : Nat)
  | register (m : Mapper) (override : Option Mirroring)
deriving DecidableEq, Repr

/-- MMC1's PRG offset for an address in 0x8000 to 0xFFFF (R464). -/
def mmc1PrgOffset (c : Cartridge) (r : Mmc1) (n : Nat) : Nat :=
  let b := r.prg.toNat % 16
  let mode := r.control.toNat / 4 % 4
  if mode < 2 then b / 2 * 32768 + n % 0x8000
  else if mode = 2 then
    if n < 0xC000 then n % 0x4000 else b * 16384 + n % 0x4000
  else
    if n < 0xC000 then b * 16384 + n % 0x4000 else (c.header.prgBanks - 1) * 16384 + n % 0x4000

/-- The PRG offset of a CPU address `n` in 0x8000 to 0xFFFF, before its reduction modulo `PRG_SIZE`: NROM R460, UNROM R461, MMC1 R464,
MMC2 R468. -/
def Cartridge.prgOffset (c : Cartridge) (n : Nat) : Option Nat :=
  match c.mapper with
  | .nrom => some (n % 0x8000)
  | .mmc1 r => some (mmc1PrgOffset c r n)
  | .unrom bank =>
    if n < 0xC000 then some (bank.toNat % c.header.prgBanks * 16384 + n % 0x4000)
    else some ((c.header.prgBanks - 1) * 16384 + n % 0x4000)
  | .mmc2 r =>
    if n < 0xA000 then some (r.prg.toNat % (2 * c.header.prgBanks) * 8192 + n % 0x2000)
    else some (c.prgSize - 0x6000 + (n - 0xA000))
  | .unsupported => none

/-- `cpuMapRead(addr)` (R454, R460, R461, R464, R466, R468): PRG-RAM at 0x6000 to 0x7FFF for all four mappers (D53), PRG above; an offset "is
always reduced modulo the size of the array it indexes". -/
def Cartridge.cpuMapRead (c : Cartridge) (a : Word) : MapRead :=
  let n := a.toNat
  match c.prgOffset n with
  | Option.none => .none
  | some off =>
    if n < 0x6000 then .none
    else if n < 0x8000 then .prgram (n % 0x2000)
    else .prg (off % c.prgSize)

/-- The mirroring mode bits 1:0 of MMC1's control register select (R463). -/
def mmc1Mirroring (control : BitVec 5) : Mirroring :=
  match control.toNat % 4 with
  | 0 => .singleLower
  | 1 => .singleUpper
  | 2 => .vertical
  | _ => .horizontal

/-- MMC1's serial port: a write of `v` to address `n` in 0x8000 to 0xFFFF (R462), and the mirroring override of R463. -/
def mmc1Write (r : Mmc1) (n : Nat) (v : Byte) : Mmc1 × Option Mirroring :=
  if v.getLsbD 7 then
    ({ r with shift := 0, count := 0, control := r.control ||| 0x0C }, none)
  else
    let shift := (r.shift >>> 1) ||| ((BitVec.ofBool (v.getLsbD 0)).setWidth 5 <<< 4)
    if r.count + 1 = 5 then
      let r := { r with shift := 0, count := 0 }
      match n / 0x2000 % 4 with
      | 0 => ({ r with control := shift }, some (mmc1Mirroring shift))
      | 1 => ({ r with chr0 := shift }, none)
      | 2 => ({ r with chr1 := shift }, none)
      | _ => ({ r with prg := shift }, none)
    else
      ({ r with shift := shift, count := r.count + 1 }, none)

/-- MMC2's registers: a write of `v` to address `n` in 0xA000 to 0xFFFF (R467). -/
def mmc2Write (r : Mmc2) (n : Nat) (v : Byte) : Mmc2 × Option Mirroring :=
  match n / 0x1000 with
  | 0xA => ({ r with prg := v.setWidth 4 }, none)
  | 0xB => ({ r with chrFd0 := v.setWidth 5 }, none)
  | 0xC => ({ r with chrFe0 := v.setWidth 5 }, none)
  | 0xD => ({ r with chrFd1 := v.setWidth 5 }, none)
  | 0xE => ({ r with chrFe1 := v.setWidth 5 }, none)
  | _ => ({ r with mirror := v.getLsbD 0 }, some (if v.getLsbD 0 then .horizontal else .vertical))

/-- `cpuMapWrite(addr, v)` (R454, R460, R461, R462, R466, R467). -/
def Cartridge.cpuMapWrite (c : Cartridge) (a : Word) (v : Byte) : MapWrite :=
  let n := a.toNat
  if n < 0x6000 then .none
  else if n < 0x8000 then
    match c.mapper with
    | .nrom | .mmc1 _ | .unrom _ | .mmc2 _ => .prgram (n % 0x2000)
    | .unsupported => .none
  else
    match c.mapper with
    | .nrom => .none
    | .mmc1 r => let w := mmc1Write r n v; .register (.mmc1 w.1) w.2
    | .unrom _ => .register (.unrom v) none
    | .mmc2 r => if n < 0xA000 then .none else let w := mmc2Write r n v; .register (.mmc2 w.1) w.2
    | .unsupported => .none

/-- `ppuMapRead(a)` and `ppuMapWrite(a)`, one function, for a PPU address below 0x2000 (R460, R461, R465, R470). -/
def Cartridge.ppuMap (c : Cartridge) (a : BitVec 14) : Option Nat :=
  let n := a.toNat
  if n > 0x1FFF then none
  else
    match c.mapper with
    | .nrom | .unrom _ => some (n % c.chrSize)
    | .mmc1 r =>
      if r.control.getLsbD 4 then
        if n < 0x1000 then some ((r.chr0.toNat * 4096 + n % 0x1000) % c.chrSize)
        else some ((r.chr1.toNat * 4096 + n % 0x1000) % c.chrSize)
      else some ((r.chr0.toNat / 2 * 8192 + n) % c.chrSize)
    | .mmc2 r =>
      let bank :=
        if n < 0x1000 then (if r.latch0 then r.chrFe0 else r.chrFd0) else (if r.latch1 then r.chrFe1 else r.chrFd1)
      some ((bank.toNat * 4096 + n % 0x1000) % c.chrSize)
    | .unsupported => none

/-- `Cartridge.cpuRead(addr)`: none where the cartridge does not handle the address; a CPU read changes nothing (R455). -/
def Cartridge.cpuRead (c : Cartridge) (a : Word) : Option Byte :=
  match c.cpuMapRead a with
  | .none => none
  | .prg off => some (c.prg.read off)
  | .prgram off => some (c.prgram.read off)

/-- `applyMirrorOverride()`: "If the header says four-screen, the override is ignored" (R459). -/
def Cartridge.applyOverride (c : Cartridge) (o : Option Mirroring) : Cartridge :=
  match o with
  | none => c
  | some m => if c.header.mirroring = .fourScreen then c else { c with mirroring := m }

/-- `Cartridge.cpuWrite(addr, v)`: none where the cartridge does not handle the address. PRG is never written (R456). -/
def Cartridge.cpuWrite (c : Cartridge) (a : Word) (v : Byte) : Option Cartridge :=
  match c.cpuMapWrite a v with
  | .none => none
  | .prgram off => some { c with prgram := c.prgram.write off v }
  | .register m o => some ({ c with mapper := m }.applyOverride o)

/-- MMC2's latches after the byte of a PPU read of `a` has been taken (R469). -/
def mmc2AfterRead (r : Mmc2) (a : BitVec 14) : Mmc2 :=
  let n := a.toNat
  if n = 0x0FD8 then { r with latch0 := false }
  else if n = 0x0FE8 then { r with latch0 := true }
  else if 0x1FD8 ≤ n ∧ n ≤ 0x1FDF then { r with latch1 := false }
  else if 0x1FE8 ≤ n ∧ n ≤ 0x1FEF then { r with latch1 := true }
  else r

/-- `mapper.afterPpuRead(a)`: "a no-operation for every mapper but MMC2" (R457, R469). -/
def Cartridge.afterPpuRead (c : Cartridge) (a : BitVec 14) : Cartridge :=
  match c.mapper with
  | .nrom | .mmc1 _ | .unrom _ | .unsupported => c
  | .mmc2 r => { c with mapper := .mmc2 (mmc2AfterRead r a) }

/-- The byte a PPU read of `a` takes from CHR, with no side effect; none where the cartridge does not handle `a` (R457). -/
def Cartridge.ppuPeek (c : Cartridge) (a : BitVec 14) : Option Byte :=
  (c.ppuMap a).map c.chr.read

/-- `Cartridge.ppuWrite(a, v)`: CHR-RAM is written, a write to CHR-ROM is accepted and discarded; none where the cartridge does not handle
`a` (R458). -/
def Cartridge.ppuWrite (c : Cartridge) (a : BitVec 14) (v : Byte) : Option Cartridge :=
  (c.ppuMap a).map fun off => if c.header.chrBanks = 0 then { c with chr := c.chr.write off v } else c

/-- MMC1's registers after reset (R33 of 10_state.md, R471). -/
def mmc1AfterReset : Mmc1 :=
  { shift := 0
    count := 0
    control := 0x0C
    chr0 := 0
    chr1 := 0
    prg := 0 }

/-- MMC2's registers after reset: both latches FE, `mmc2_mirror` from the header (R35, R471). For a four-screen header the bit is 0, DESIGN
CHOICE; no rule reads it (log 12). -/
def mmc2AfterReset (m : Mirroring) : Mmc2 :=
  { prg := 0
    chrFd0 := 0
    chrFe0 := 0
    chrFd1 := 0
    chrFe1 := 0
    latch0 := true
    latch1 := true
    mirror := decide (m = .horizontal) }

/-- The mapper's registers at reset, by variant (R471). -/
def mapperAfterReset (m : Mapper) (h : Mirroring) : Mapper :=
  match m with
  | .nrom => .nrom
  | .mmc1 _ => .mmc1 mmc1AfterReset
  | .unrom _ => .unrom 0x00
  | .mmc2 _ => .mmc2 (mmc2AfterReset h)
  | .unsupported => .unsupported

/-- `Mapper.reset()`: every mapper register takes its reset value and `mirroring` the header's; the storage is unchanged (R471). -/
def Cartridge.afterReset (c : Cartridge) : Cartridge :=
  { c with mapper := mapperAfterReset c.mapper c.header.mirroring, mirroring := c.header.mirroring }

/-- The mapper a mapper id selects: 0 NROM, 1 MMC1, 2 UNROM, 9 MMC2 (R472), with its reset registers. -/
def mapperOfId (id : Byte) (h : Mirroring) : Mapper :=
  match id.toNat with
  | 0 => .nrom
  | 1 => .mmc1 mmc1AfterReset
  | 2 => .unrom 0x00
  | 9 => .mmc2 (mmc2AfterReset h)
  | _ => .unsupported

/-- Byte `i` of an image; a missing byte reads 00 and makes the image invalid (R453). -/
def imageByte (f : List Byte) (i : Nat) : Byte :=
  f.getD i 0x00

/-- The parameters of a header (R451, R452). -/
def parseHeader (f : List Byte) : Header :=
  let h6 := imageByte f 6
  let h7 := imageByte f 7
  { prgBanks := (imageByte f 4).toNat
    chrBanks := (imageByte f 5).toNat
    mapperId := (h7 &&& 0xF0) ||| (h6 >>> 4)
    mirroring := if h6.getLsbD 3 then .fourScreen else if h6.getLsbD 0 then .vertical else .horizontal
    hasTrainer := h6.getLsbD 2 }

/-- Where PRG data starts in the image: "the trainer bytes are skipped, not loaded" (R452). -/
def imageBase (h : Header) : Nat :=
  if h.hasTrainer then 16 + 512 else 16

/-- Validity of an image (R453). -/
def imageValid (f : List Byte) : Bool :=
  let h := parseHeader f
  let magic := f.take 4 == [0x4E, 0x45, 0x53, 0x1A]
  let known := [0, 1, 2, 9].contains h.mapperId.toNat
  let banks := decide (1 ≤ h.prgBanks) && (h.mapperId.toNat != 9 || decide (2 ≤ h.prgBanks))
  let size := decide (imageBase h + h.prgBanks * 16384 + h.chrBanks * 8192 ≤ f.length)
  magic && known && banks && size

/-- The cartridge of an image (R450 to R453). CHR-RAM and PRG-RAM hold `CHRRAM_INIT` and `PRGRAM_INIT` (R501, D53). -/
def parseImage (cfg : Config) (f : List Byte) : Cartridge :=
  let h := parseHeader f
  let base := imageBase h
  { header := h
    prg := Memory.ofBytes 0 ((f.drop base).take (h.prgBanks * 16384))
    chr :=
      if h.chrBanks = 0 then cfg.chrramInit
      else Memory.ofBytes 0 ((f.drop (base + h.prgBanks * 16384)).take (h.chrBanks * 8192))
    prgram := cfg.prgramInit
    mirroring := h.mirroring
    valid := imageValid f
    mapper := mapperOfId h.mapperId h.mirroring }

end Sys2Proof.Machine
end

