-- ==== Sys2Proof/Machine/PpuBus.lean ====
section
/-!
DEFINITION. The PPU address space (R96 to R99 of 20_memory.md) and the eight PPU registers the CPU sees (R334 to R345 of 62_ppu.md).
-/

namespace Sys2Proof.Machine

/-- The cartridge's current mirroring mode; "With no cartridge the mode is horizontal" (R99, D53). -/
def State.mirroring (s : State) : Mirroring :=
  match s.cart with
  | none => .horizontal
  | some c => c.mirroring

/-- `ntIndex(a)`: the physical VRAM index of a nametable address (R99). -/
def ntIndex (m : Mirroring) (a : BitVec 14) : Nat :=
  let n := a.toNat % 0x1000
  let table := n / 0x400
  let off := n % 0x400
  match m with
  | .horizontal => table / 2 * 0x400 + off
  | .vertical => table % 2 * 0x400 + off
  | .singleLower => off
  | .singleUpper => 0x400 + off
  | .fourScreen => n % 0x800

/-- `palIndex(a)`: the palette-RAM index, with the four sprite-palette-zero aliases folded (R98). -/
def palIndex (a : BitVec 14) : Nat :=
  let i := a.toNat % 0x20
  if i = 0x10 ∨ i = 0x14 ∨ i = 0x18 ∨ i = 0x1C then i - 0x10 else i

/-- `ppuPeek(a)`: the byte `ppuRead(a)` returns, "with no mapper side effect" (R97; R353 of 62_ppu.md, R457 of 64_cartridge_mappers.md). -/
def ppuPeek (a : BitVec 14) (s : State) : Byte :=
  match s.cart.bind (fun c => c.ppuPeek a) with
  | some v => v
  | none =>
    if a.toNat ≤ 0x1FFF then 0x00
    else if a.toNat ≤ 0x3EFF then s.ppu.vram.read (ntIndex s.mirroring a)
    else s.ppu.pal.read (palIndex a)

/-- `ppuRead(a)`: the byte, and the state after the mapper has seen the read (R97, R457, R469). -/
def ppuRead (a : BitVec 14) (s : State) : Byte × State :=
  (ppuPeek a s, { s with cart := s.cart.map (fun c => c.afterPpuRead a) })

/-- `ppuWrite(a, v)` (R97, R458). -/
def ppuWrite (a : BitVec 14) (v : Byte) (s : State) : State :=
  match s.cart.bind (fun c => c.ppuWrite a v) with
  | some c => { s with cart := some c }
  | none =>
    if a.toNat ≤ 0x1FFF then s
    else if a.toNat ≤ 0x3EFF then
      { s with ppu := { s.ppu with vram := s.ppu.vram.write (ntIndex s.mirroring a) v } }
    else { s with ppu := { s.ppu with pal := s.ppu.pal.write (palIndex a) v } }

/-- The address register 7 accesses: `v & 0x3FFF` (R342, R343). -/
def vramAddr (v : BitVec 15) : BitVec 14 :=
  v.setWidth 14

/-- `v <- (v + inc) & 0x7FFF`, `inc` 32 when `ppu_ctrl[2] = 1`, otherwise 1 (R344). -/
def nextV (ctrl : Byte) (v : BitVec 15) : BitVec 15 :=
  v + (if ctrl.getLsbD 2 then 32 else 1)

/-- Bits of `t` selected by `mask` replaced by those of `bits` (R335, R340, R341). -/
def withBits (t mask bits : BitVec 15) : BitVec 15 :=
  (t &&& ~~~mask) ||| (bits &&& mask)

/-- Register 0, control, write (R335): `ppu_ctrl <- d; t[11:10] <- d[1:0]`. -/
def writeControl (d : Byte) (p : Ppu) : Ppu :=
  { p with ctrl := d, t := withBits p.t 0x0C00 (d.setWidth 15 <<< 10) }

/-- Register 1, mask, write (R336). -/
def writeMask (d : Byte) (p : Ppu) : Ppu :=
  { p with mask := d }

/-- Register 3, OAM address, write (R338). -/
def writeOamAddr (d : Byte) (p : Ppu) : Ppu :=
  { p with oamAddr := d }

/-- Register 4, OAM data, write: stores at `oam_addr` and increments it (R339). -/
def writeOamData (d : Byte) (p : Ppu) : Ppu :=
  { p with oam := p.oam.write p.oamAddr.toNat d, oamAddr := p.oamAddr + 1 }

/-- Register 5, scroll, write (R340). -/
def writeScroll (d : Byte) (p : Ppu) : Ppu :=
  if p.w then
    { p with t := withBits (withBits p.t 0x7000 (d.setWidth 15 <<< 12)) 0x03E0 ((d >>> 3).setWidth 15 <<< 5), w := false }
  else
    { p with fineX := d &&& 0x07, t := withBits p.t 0x001F ((d >>> 3).setWidth 15), w := true }

/-- Register 6, address, write (R341). -/
def writeAddress (d : Byte) (p : Ppu) : Ppu :=
  if p.w then
    let t := withBits p.t 0x00FF (d.setWidth 15)
    { p with t := t, v := t, w := false }
  else
    { p with t := withBits p.t 0x7F00 ((d &&& 0x3F).setWidth 15 <<< 8), w := true }

/-- Register 7, data, write (R343). -/
def writeData (d : Byte) (s : State) : State :=
  let s := ppuWrite (vramAddr s.ppu.v) d s
  { s with ppu := { s.ppu with v := nextV s.ppu.ctrl s.ppu.v } }

/-- Register 2, status, read: bits 7 to 5 from the register, bits 4 to 0 a FREE VALUE; clears vertical blank and the write toggle
(R337, log 1). -/
def readStatus (s : State) : Byte × State :=
  ((s.ppu.status &&& 0xE0) ||| (Config.freeByte s.free &&& 0x1F),
    { s with ppu := { s.ppu with status := s.ppu.status &&& 0x7F, w := false }, free := s.free + 1 })

/-- Register 7, data, read: "reads are buffered one byte behind except in palette space, which reads immediately" (R342). -/
def readData (s : State) : Byte × State :=
  let a := vramAddr s.ppu.v
  let r := ppuRead a s
  (if a.toNat ≥ 0x3F00 then r.1 else s.ppu.dataBuffer,
    { r.2 with ppu := { r.2.ppu with dataBuffer := r.1, v := nextV s.ppu.ctrl s.ppu.v } })

/-- `PPU.regWrite(r, d)` (R334); a write to the status register is ignored (D20). -/
def ppuRegWrite (r : Nat) (d : Byte) (s : State) : State :=
  match r with
  | 0 => { s with ppu := writeControl d s.ppu }
  | 1 => { s with ppu := writeMask d s.ppu }
  | 3 => { s with ppu := writeOamAddr d s.ppu }
  | 4 => { s with ppu := writeOamData d s.ppu }
  | 5 => { s with ppu := writeScroll d s.ppu }
  | 6 => { s with ppu := writeAddress d s.ppu }
  | 7 => writeData d s
  | _ => s

/-- `PPU.regRead(r)` (R334); write-only registers read as 00 with no effect (D20). -/
def ppuRegRead (r : Nat) (s : State) : Byte × State :=
  match r with
  | 2 => readStatus s
  | 4 => (s.ppu.oam.read s.ppu.oamAddr.toNat, s)
  | 7 => readData s
  | _ => (0x00, s)

end Sys2Proof.Machine
end

