-- ==== Sys2Proof/Machine/Flags.lean ====
section
/-!
DEFINITION. The status byte P and every flag computation the spec gives (R12 of 00_scope.md, R23 of 10_state.md, R190 to R213).
-/

namespace Sys2Proof.Machine

/-- The eight flags of P (R23 of 10_state.md). -/
inductive Flag where
  | C | Z | I | D | B | U | V | N
deriving DecidableEq, Repr

/-- The bit of P a flag is (R23: "carry, zero, interrupt-disable, decimal, break, unused/always-set, overflow, negative", bits 0 to 7). -/
def Flag.bit (f : Flag) : Nat :=
  match f with
  | .C => 0
  | .Z => 1
  | .I => 2
  | .D => 3
  | .B => 4
  | .U => 5
  | .V => 6
  | .N => 7

/-- Reads one flag. -/
def getFlag (p : Byte) (f : Flag) : Bool :=
  p.getLsbD f.bit

/-- P with one flag written and the other seven unchanged. -/
def setFlag (p : Byte) (f : Flag) (b : Bool) : Byte :=
  if b then p ||| (0x01#8 <<< f.bit) else p &&& ~~~(0x01#8 <<< f.bit)

/-- `setZN(v)`: "the zero flag from the result being exactly zero and the negative flag from the result's high bit" (R12). -/
def setZN (p v : Byte) : Byte :=
  setFlag (setFlag p .Z (v == 0x00)) .N (v.getLsbD 7)

/-- What an 8-bit addition gives. -/
structure AddResult where
  result : Byte
  carry : Bool
  overflow : Bool
deriving DecidableEq, Repr

/-- Add with carry: "a 9-bit intermediate sum, and the signed overflow flag from the classic sign-mismatch test" (R191 of 42_arithmetic.md). -/
def addWithCarry (a m : Byte) (c : Bool) : AddResult :=
  let t := a.toNat + m.toNat + c.toNat
  let r := BitVec.ofNat 8 t
  { result := r
    carry := decide (t > 0xFF)
    overflow := (~~~(a ^^^ m) &&& (a ^^^ r) &&& 0x80) != 0x00 }

/-- The status byte after an addition: C, V, Z, N (R191). -/
def addFlags (p : Byte) (r : AddResult) : Byte :=
  setZN (setFlag (setFlag p .C r.carry) .V r.overflow) r.result

/-- The status byte after comparing register `r` with `m`, unsigned: C, Z, N; V is not written (R193). -/
def compareFlags (p r m : Byte) : Byte :=
  setZN (setFlag p .C (decide (m.toNat ≤ r.toNat))) (r - m)

/-- The status byte after BIT: "Z from `A & M`; N and V from the operand byte itself" (R208 of 43_logic_shift.md). -/
def bitFlags (p a m : Byte) : Byte :=
  setFlag (setFlag (setFlag p .Z (a &&& m == 0x00)) .N (m.getLsbD 7)) .V (m.getLsbD 6)

/-- What a shift or rotate gives: the new byte and the bit shifted out. -/
structure ShiftResult where
  result : Byte
  carry : Bool
deriving DecidableEq, Repr

/-- ASL (R209). -/
def aslByte (m : Byte) : ShiftResult :=
  { result := m <<< 1, carry := m.getLsbD 7 }

/-- LSR (R210). -/
def lsrByte (m : Byte) : ShiftResult :=
  { result := m >>> 1, carry := m.getLsbD 0 }

/-- ROL: "a 9-bit rotation through `P.C`; the old carry enters bit 0" (R211). -/
def rolByte (m : Byte) (c : Bool) : ShiftResult :=
  { result := (m <<< 1) ||| (BitVec.ofBool c).setWidth 8, carry := m.getLsbD 7 }

/-- ROR: the old carry enters bit 7 (R212). -/
def rorByte (m : Byte) (c : Bool) : ShiftResult :=
  { result := (m >>> 1) ||| ((BitVec.ofBool c).setWidth 8 <<< 7), carry := m.getLsbD 0 }

/-- The status byte after a shift or rotate: C, Z, N (R209 to R212). -/
def shiftFlags (p : Byte) (r : ShiftResult) : Byte :=
  setZN (setFlag p .C r.carry) r.result

/-- The status byte PHP and BRK push: break and unused set (R186 of 41_stack.md, R238 of 45_flags_system.md). -/
def pushedByInstruction (p : Byte) : Byte :=
  p ||| 0x30

/-- The status byte NMI entry pushes: `(P & 0xEF) | 0x20` (R265 of 60_exceptions.md). -/
def pushedByNmi (p : Byte) : Byte :=
  (p &&& 0xEF) ||| 0x20

/-- The status byte PLP and RTI load from a pulled byte: `pulled | 0x20` (R188, R239). -/
def pulledStatus (v : Byte) : Byte :=
  v ||| 0x20

end Sys2Proof.Machine
end

