-- ==== Sys2Proof/Machine/Regs.lean ====
section
/-!
DEFINITION. Reading and writing the CPU's registers (R9 of 00_scope.md: "`r <- v` writes a register").
-/

namespace Sys2Proof

/-- The base cost of an opcode value, `BASE_CYCLES[op]` (R520 of 70_reset_and_hazards.md). -/
def Config.baseCost (c : Config) (op : Byte) : Nat :=
  c.baseCycles.get op.toFin

end Sys2Proof

namespace Sys2Proof.Machine

/-- Writes A. -/
def State.setA (s : State) (v : Byte) : State :=
  { s with cpu := { s.cpu with a := v } }

/-- Writes X. -/
def State.setX (s : State) (v : Byte) : State :=
  { s with cpu := { s.cpu with x := v } }

/-- Writes Y. -/
def State.setY (s : State) (v : Byte) : State :=
  { s with cpu := { s.cpu with y := v } }

/-- Writes S. -/
def State.setSp (s : State) (v : Byte) : State :=
  { s with cpu := { s.cpu with sp := v } }

/-- Writes P whole. -/
def State.setP (s : State) (v : Byte) : State :=
  { s with cpu := { s.cpu with p := v } }

/-- Writes PC. -/
def State.setPc (s : State) (v : Word) : State :=
  { s with cpu := { s.cpu with pc := v } }

/-- Writes `cyc_rem`. -/
def State.setCycRem (s : State) (n : Nat) : State :=
  { s with cpu := { s.cpu with cycRem := n } }

/-- Writes one flag of P. -/
def State.putFlag (s : State) (f : Flag) (b : Bool) : State :=
  s.setP (setFlag s.cpu.p f b)

/-- Reads one flag of P. -/
def State.flag (s : State) (f : Flag) : Bool :=
  getFlag s.cpu.p f

/-- `PC <- (PC + n) & 0xFFFF` (R24 of 10_state.md, R141 of 30_encoding.md). -/
def State.advance (s : State) (n : Nat) : State :=
  s.setPc (s.cpu.pc + BitVec.ofNat 16 n)

/-- The registers loads, stores, compares, increments and transfers name. -/
inductive Reg where
  | a | x | y
deriving DecidableEq, Repr

/-- Reads a register. -/
def State.reg (s : State) (r : Reg) : Byte :=
  match r with
  | .a => s.cpu.a
  | .x => s.cpu.x
  | .y => s.cpu.y

/-- Writes a register. -/
def State.setReg (s : State) (r : Reg) (v : Byte) : State :=
  match r with
  | .a => s.setA v
  | .x => s.setX v
  | .y => s.setY v

/-- Writes a register and sets Z and N from the value (R12, R170 of 40_load_store_transfer.md). -/
def State.setRegZN (s : State) (r : Reg) (v : Byte) : State :=
  (s.setReg r v).setP (setZN s.cpu.p v)

end Sys2Proof.Machine
end

