-- ==== Sys2Proof/Machine/Ops.lean ====
section
/-!
DEFINITION. The named operations over memory: the Bus's routing of every CPU access (R81 to R89 of 20_memory.md), the controller ports and the
DMA trigger behind it, 16-bit reads, the stack, taking an exception and returning from one (60_exceptions.md).

A read answers a byte and the state after the read's side effect (R100). Addresses wrap modulo 65536 because they are 16 bits wide (D13).
-/

namespace Sys2Proof.Machine

/-- The stack address of a value of S, `STACK_PAGE | S`: `0x0100 | S` (R11 of 00_scope.md, R22 of 10_state.md, D3). -/
def stackAddr (s : State) (sp : Byte) : Word :=
  wordOf s.cfg.stackPage sp

/-- What a read of a controller does to its shift register: re-latched while the strobe is high, else shifted, with `CTRL_SHIFT_FILL` coming in at
bit 7 (R308). -/
def shiftPad (strobe fill : Bool) (p : Pad) : Pad :=
  if strobe then { p with shift := p.state } else { p with shift := (p.shift >>> 1) ||| ((BitVec.ofBool fill).setWidth 8 <<< 7) }

/-- The byte a read of a controller returns: 00 or 01 (R308). -/
def padBit (strobe : Bool) (p : Pad) : Byte :=
  if strobe then p.state &&& 0x01 else p.shift &&& 0x01

/-- `controllerRead(0)` (R308). -/
def readPad0 (s : State) : Byte × State :=
  (padBit s.strobe s.pad0, { s with pad0 := shiftPad s.strobe s.cfg.ctrlShiftFill s.pad0 })

/-- `controllerRead(1)` (R308). -/
def readPad1 (s : State) : Byte × State :=
  (padBit s.strobe s.pad1, { s with pad1 := shiftPad s.strobe s.cfg.ctrlShiftFill s.pad1 })

/-- `controllerWrite(v)` (R307 of 61_bus_dma_controllers.md). -/
def writeStrobe (v : Byte) (s : State) : State :=
  let level := v.getLsbD 0
  if level || s.strobe then
    { s with
      pad0 := { s.pad0 with shift := s.pad0.state }
      pad1 := { s.pad1 with shift := s.pad1.state }
      strobe := level }
  else { s with strobe := level }

/-- `dmaTrigger(v)` (R303). -/
def dmaTrigger (v : Byte) (s : State) : State :=
  { s with dma := { s.dma with page := v, index := 0x00, dummy := true, active := true } }

/-- A read below the cartridge in the routing (R84): RAM, PPU registers, 0x4015, the controllers; all else reads 00 (R89). -/
def busRead (a : Word) (s : State) : Byte × State :=
  if a.toNat ≤ 0x1FFF then (s.ram.read (a.toNat % 0x800), s)
  else if a.toNat ≤ 0x3FFF then ppuRegRead (a.toNat % 8) s
  else if a = 0x4015 then apuStatusRead s
  else if a = 0x4016 then readPad0 s
  else if a = 0x4017 then readPad1 s
  else (0x00, s)

/-- `Bus.cpuRead(addr)`: the cartridge first (R81, R84). -/
def cpuRead (a : Word) (s : State) : Byte × State :=
  match s.cart.bind (fun c => c.cpuRead a) with
  | some v => (v, s)
  | none => busRead a s

/-- A write below the cartridge in the routing (R85); a write nobody claims is discarded (R89). -/
def busWrite (a : Word) (v : Byte) (s : State) : State :=
  if a.toNat ≤ 0x1FFF then { s with ram := s.ram.write (a.toNat % 0x800) v }
  else if a.toNat ≤ 0x3FFF then ppuRegWrite (a.toNat % 8) v s
  else if a = 0x4014 then dmaTrigger v s
  else if a = 0x4016 then writeStrobe v s
  else if a.toNat ≤ 0x4017 then { s with apu := apuRegWrite a.toNat v s.apu }
  else s

/-- `Bus.cpuWrite(addr, v)`: the cartridge first (R81, R85). -/
def cpuWrite (a : Word) (v : Byte) (s : State) : State :=
  match s.cart.bind (fun c => c.cpuWrite a v) with
  | some c => { s with cart := some c }
  | none => busWrite a v s

/-- A 16-bit value read from two addresses, the low byte's first (R90). -/
def readPair (lo hi : Word) (s : State) : Word × State :=
  let l := cpuRead lo s
  let h := cpuRead hi l.2
  (wordOf h.1 l.1, h.2)

/-- `rd16(a)` (R10 of 00_scope.md). -/
def read16 (a : Word) (s : State) : Word × State :=
  readPair a (a + 1) s

/-- `push(v)`: "`wr(0x0100 | S, v); S <- (S - 1) & 0xFF`" (R11), the page being `STACK_PAGE`. -/
def push (v : Byte) (s : State) : State :=
  let s := cpuWrite (stackAddr s s.cpu.sp) v s
  s.setSp (s.cpu.sp - 1)

/-- `pull()`: "`S <- (S + 1) & 0xFF; return rd(0x0100 | S)`" (R11). -/
def pull (s : State) : Byte × State :=
  let s := s.setSp (s.cpu.sp + 1)
  cpuRead (stackAddr s s.cpu.sp) s

/-- Pushes a 16-bit value, the high byte first, so that it lies little-endian in memory (R90, R216). -/
def push16 (w : Word) (s : State) : State :=
  push (loByte w) (push (hiByte w) s)

/-- Pulls a 16-bit value, the low byte first (R217, R239). -/
def pull16 (s : State) : Word × State :=
  let l := pull s
  let h := pull l.2
  (wordOf h.1 l.1, h.2)

/-- The two events that save the machine's place on the stack and load PC from a vector (R261 of 60_exceptions.md). -/
inductive Event where
  /-- the BRK instruction (R238, R266) -/
  | brk
  /-- the non-maskable interrupt (R265) -/
  | nmi
deriving DecidableEq, Repr

/-- The return address an event saves, with PC already past a BRK opcode (R261): BRK skips one more byte, NMI saves PC itself. -/
def Event.returnAddr (e : Event) (pc : Word) : Word :=
  match e with
  | .brk => pc + 1
  | .nmi => pc

/-- The live status byte when it is pushed: BRK sets B and U in it first, NMI leaves it (R238, R265; C1 of 90_conflicts.md). -/
def Event.liveStatus (e : Event) (p : Byte) : Byte :=
  match e with
  | .brk => pushedByInstruction p
  | .nmi => p

/-- The status byte an event pushes (R261). -/
def Event.pushedStatus (e : Event) (p : Byte) : Byte :=
  match e with
  | .brk => pushedByInstruction p
  | .nmi => pushedByNmi p

/-- The vector an event loads PC from (R267). -/
def Event.vector (e : Event) (cfg : Config) : Word :=
  match e with
  | .brk => cfg.irqVector
  | .nmi => cfg.nmiVector

/-- TAKING AN EXCEPTION, one operation for both events (R238, R265): push the return address, high byte first; the live status byte; push
the status; set I; load PC from the vector, low byte first. -/
def takeException (e : Event) (s : State) : State :=
  let s := push16 (e.returnAddr s.cpu.pc) s
  let p := s.cpu.p
  let s := push (e.pushedStatus p) (s.setP (e.liveStatus p))
  let s := s.putFlag .I true
  let r := read16 (e.vector s.cfg) s
  r.2.setPc r.1

/-- RETURNING FROM AN EXCEPTION, the same for both (R239, R271): P, then PC low, then PC high. -/
def returnFromException (s : State) : State :=
  let p := pull s
  let r := pull16 (p.2.setP (pulledStatus p.1))
  r.2.setPc r.1

/-- `CPU.nmi()`: "`nmi_pending <- 1`, and nothing else" (R264). -/
def requestNmi (s : State) : State :=
  { s with cpu := { s.cpu with nmiPending := true } }

/-- NMI entry: the latch is cleared, the exception taken, `NMI_CYCLES` charged (R265). -/
def enterNmi (s : State) : State :=
  (takeException .nmi { s with cpu := { s.cpu with nmiPending := false } }).setCycRem s.cfg.nmiCycles

/-- `CPU.reset()`: two bus reads for the vector, nothing pushed (R49 of 10_state.md, R262 of 60_exceptions.md). -/
def resetCpu (s : State) : State :=
  let r := read16 s.cfg.resetVector s
  { r.2 with cpu := cpuAfterReset r.1 s.cfg.resetCycles }

end Sys2Proof.Machine
end

