-- ==== Sys2Proof/Machine/ApuClock.lean ====
section
/-!
DEFINITION. The APU's part of a CPU slot: frame sequencer, channels, mixer and sample port (R390, R399 to R437 of 63_apu.md).
-/

namespace Sys2Proof.Machine

/-- The end of a sequence: the last quarter and half frame, and the counter starts again (R399). -/
def endSequence (a : Apu) : Apu :=
  let a := halfFrame (quarterFrame a)
  { a with fs := { a.fs with counter := 0 } }

/-- `frameSequencerStep()`, run after `fs_counter` was incremented, at the positions the parameters name (R399). -/
def frameSequencerStep (cfg : Config) (a : Apu) : Apu :=
  let c := a.fs.counter
  let a := if c = cfg.fsStep1 then quarterFrame a else a
  let a := if c = cfg.fsStep2 then halfFrame (quarterFrame a) else a
  let a := if c = cfg.fsStep3 then quarterFrame a else a
  if a.fs.mode5 then if c = cfg.fs5Wrap then endSequence a else a
  else if c = cfg.fs4Wrap then
    let a := endSequence a
    { a with fs := { a.fs with frameIrq := !a.fs.irqInhibit || a.fs.frameIrq } }
  else a

/-- A pulse channel's timer (R405). -/
def pulseTimer (p : Pulse) : Pulse :=
  if p.timer = 0 then { p with timer := p.timerPeriod, seqPos := p.seqPos + 1 } else { p with timer := p.timer - 1 }

/-- The triangle channel's timer (R408). -/
def triangleTimer (t : Triangle) : Triangle :=
  if t.timer = 0 then
    { t with timer := t.timerPeriod, seqPos := if t.length ≠ 0 ∧ t.linear ≠ 0 then t.seqPos + 1 else t.seqPos }
  else { t with timer := t.timer - 1 }

/-- `NOISE_PERIOD[0..15]` (R411). -/
def noisePeriod : List (BitVec 12) :=
  [4, 8, 16, 32, 64, 96, 128, 160, 202, 254, 380, 508, 762, 1016, 2034, 4068]

/-- One shift of the noise register (R410). -/
def noiseShift (mode : Bool) (lfsr : BitVec 15) : BitVec 15 :=
  let fb := xor (lfsr.getLsbD 0) (if mode then lfsr.getLsbD 6 else lfsr.getLsbD 1)
  (lfsr >>> 1) ||| ((BitVec.ofBool fb).setWidth 15 <<< 14)

/-- The noise channel's timer (R410). -/
def noiseTimer (n : Noise) : Noise :=
  if n.timer = 0 then
    { n with timer := noisePeriod.getD n.periodIndex.toNat 0 - 1, lfsr := noiseShift n.mode n.lfsr }
  else { n with timer := n.timer - 1 }

/-- `DMC_RATE[0..15]` (R413). -/
def dmcRate : List (BitVec 9) :=
  [428, 380, 340, 320, 286, 254, 226, 214, 190, 160, 142, 128, 106, 84, 72, 54]

/-- The DAC level after an output bit: "a step that would leave 0 to 127 is skipped" (R412). -/
def dmcStep (up : Bool) (dac : BitVec 7) : BitVec 7 :=
  if up then (if dac.toNat ≤ 125 then dac + 2 else dac) else (if dac.toNat ≥ 2 then dac - 2 else dac)

/-- The end of an output cycle: the next sample byte, or silence (R412). -/
def dmcReload (m : Dmc) : Dmc :=
  if m.bufferEmpty then { m with bitsRemaining := 8, silence := true }
  else { m with bitsRemaining := 8, silence := false, shift := m.sampleBuffer, bufferEmpty := true }

/-- The delta-modulation output unit (R412). -/
def dmcOutput (m : Dmc) : Dmc :=
  if m.timer = 0 then
    let m :=
      { m with
        timer := dmcRate.getD m.rateIndex.toNat 0 - 1
        dac := if m.silence then m.dac else dmcStep (m.shift.getLsbD 0) m.dac
        shift := m.shift >>> 1
        bitsRemaining := m.bitsRemaining - 1 }
    if m.bitsRemaining = 0 then dmcReload m else m
  else { m with timer := m.timer - 1 }

/-- The address after a sample byte: 0xFFFF is followed by 0x8000 (R414). -/
def nextSampleAddr (a : Word) : Word :=
  if a = 0xFFFF then 0x8000 else a + 1

/-- The channel after its reader took byte `v` (R414). -/
def dmcTake (v : Byte) (m : Dmc) : Dmc :=
  let m :=
    { m with
      sampleBuffer := v
      bufferEmpty := false
      curAddr := nextSampleAddr m.curAddr
      bytesRemaining := m.bytesRemaining - 1 }
  if m.bytesRemaining = 0 then
    if m.loop then { m with curAddr := m.sampleAddr, bytesRemaining := m.sampleLen }
    else if m.irqEnable then { m with dmcIrq := true }
    else m
  else m

/-- The memory reader: an ordinary CPU-space read, with its side effects, that stalls nothing (R414, D44). -/
def dmcReader (s : State) : State :=
  if s.apu.dmc.bufferEmpty ∧ s.apu.dmc.bytesRemaining ≠ 0 then
    let r := cpuRead s.apu.dmc.curAddr s
    { r.2 with apu := { r.2.apu with dmc := dmcTake r.1 r.2.apu.dmc } }
  else s

/-- `dmc.clock()`: the reader, then the output unit (R412). -/
def dmcClock (s : State) : State :=
  let s := dmcReader s
  { s with apu := { s.apu with dmc := dmcOutput s.apu.dmc } }

/-- `DUTY[duty][seq_pos]` (R405). -/
def dutyBit (duty : BitVec 2) (pos : BitVec 3) : Bool :=
  let row : List Bool :=
    match duty.toNat with
    | 0 => [false, true, false, false, false, false, false, false]
    | 1 => [false, true, true, false, false, false, false, false]
    | 2 => [false, true, true, true, true, false, false, false]
    | _ => [true, false, false, true, true, true, true, true]
  row.getD pos.toNat false

/-- A channel's volume output (R403). -/
def envelopeVolume (e : Envelope) : Nat :=
  if e.constVolume then e.volume.toNat else e.decay.toNat

/-- Pulse output, 0 to 15; silent below the period threshold 8 (R406). -/
def pulseOutput (p : Pulse) : Nat :=
  if p.enabled ∧ p.length ≠ 0 ∧ 8 ≤ p.timerPeriod.toNat ∧ dutyBit p.duty p.seqPos then envelopeVolume p.env else 0

/-- `TRI_SEQ[0..31]` (R408). -/
def triangleLevel (pos : BitVec 5) : Nat :=
  if pos.toNat < 16 then 15 - pos.toNat else pos.toNat - 16

/-- Triangle output, 0 to 15 (R408). -/
def triangleOutput (t : Triangle) : Nat :=
  if t.enabled ∧ t.length ≠ 0 then triangleLevel t.seqPos else 0

/-- Noise output, 0 to 15 (R410). -/
def noiseOutput (n : Noise) : Nat :=
  if n.enabled ∧ n.length ≠ 0 ∧ !n.lfsr.getLsbD 0 then envelopeVolume n.env else 0

/-- Delta-modulation output, 0 to 127 (R412). -/
def dmcOutputLevel (m : Dmc) : Nat :=
  if m.enabled then m.dac.toNat else 0

/-- `pulse_out` of R430 as an exact fraction: 95.88 / (8128 / p + 100) is 9588 p / (100 (8128 + 100 p)), and 0 at p = 0. -/
def pulseMix (p1 p2 : Nat) : Sample :=
  let p := p1 + p2
  { num := 9588 * p, den := 100 * (8128 + 100 * p) }

/-- `tnd_out` of R430 as an exact fraction: with `tr / 8227 + ns / 12241 + dm / 22638` = n / d it is 15979 n / (100 (d + 100 n)), and 0 at
n = 0. -/
def tndMix (tr ns dm : Nat) : Sample :=
  let d := 8227 * 12241 * 22638
  let n := tr * (12241 * 22638) + ns * (8227 * 22638) + dm * (8227 * 12241)
  { num := 15979 * n, den := 100 * (d + 100 * n) }

/-- "the two mixed outputs are added for the final mono sample" (R430). -/
def mix (a : Apu) : Sample :=
  let p := pulseMix (pulseOutput a.pulse1) (pulseOutput a.pulse2)
  let t := tndMix (triangleOutput a.tri) (noiseOutput a.noise) (dmcOutputLevel a.dmc)
  { num := p.num * t.den + t.num * p.den, den := p.den * t.den }

/-- `ringPush(s)`: on overflow the oldest unread sample is dropped first (R436). -/
def ringPush (capacity : Nat) (ring : List Sample) (x : Sample) : List Sample :=
  if capacity ≤ ring.length then ring.drop 1 ++ [x] else ring ++ [x]

/-- `sampleClock()` (R431), with the phase as a numerator over `CPU_CLOCK_HZ` (log 10). -/
def sampleClock (cfg : Config) (a : Apu) : Apu :=
  let phase := a.samplePhase + cfg.sampleRate
  if cfg.cpuClockHz ≤ phase then
    { a with samplePhase := phase - cfg.cpuClockHz, ring := ringPush cfg.ringCapacity a.ring (mix a) }
  else { a with samplePhase := phase }

/-- The part of `APU.clock()` run every second call: the frame sequencer and the pulse timers (R390). -/
def apuCycle (cfg : Config) (a : Apu) : Apu :=
  let a := frameSequencerStep cfg { a with fs := { a.fs with counter := a.fs.counter + 1 } }
  { a with pulse1 := pulseTimer a.pulse1, pulse2 := pulseTimer a.pulse2 }

/-- `APU.clock()` before the delta-modulation channel (R390). -/
def apuFront (cfg : Config) (a : Apu) : Apu :=
  let a := if a.fs.phase then apuCycle cfg a else a
  { a with
    fs := { a.fs with phase := !a.fs.phase }
    tri := triangleTimer a.tri
    noise := noiseTimer a.noise }

/-- `APU.clock()` (R390). -/
def apuClock (s : State) : State :=
  let s := dmcClock { s with apu := apuFront s.cfg s.apu }
  { s with apu := sampleClock s.cfg s.apu }

end Sys2Proof.Machine
end

