-- ==== Sys2Proof/Machine/Operands.lean ====
section
/-!
DEFINITION. The addressing modes (R133 to R147 of 30_encoding.md) and the operand forms over them.

The operand bytes themselves have been read by the fetch (Machine/Tick.lean) and stand in the instruction; what a mode still reads is its
pointer. A meaning first moves PC past the instruction (R141: the mode "advances PC past the instruction's operand bytes"); no pointer
read depends on PC.
-/

namespace Sys2Proof.Machine

/-- An effective address, the extra cycle its mode reports, and the state after the mode's pointer reads (R141). -/
structure Effective where
  addr : Word
  extra : Nat
  state : State
deriving DecidableEq, Repr

/-- "one extra cycle when the computed address crosses a 256-byte page boundary relative to its un-indexed base" (R142). -/
def pageCross (base addr : Word) : Nat :=
  if hiByte base = hiByte addr then 0 else 1

/-- An address in page zero (R95 of 20_memory.md). -/
def zeroPage (z : Byte) : Word :=
  wordOf 0x00 z

/-- The 16-bit pointer at zero-page address `z`; its second byte "wrap[s] inside the zero page" (R145, R146). -/
def zeroPagePointer (z : Byte) (s : State) : Word × State :=
  readPair (zeroPage z) (zeroPage (z + 1)) s

/-- A base address plus an index register, modulo 65536, with its page-cross cycle (R142, R143, R146). -/
def indexed (base : Word) (index : Byte) (s : State) : Effective :=
  let addr := base + index.setWidth 16
  { addr := addr
    extra := pageCross base addr
    state := s }

/-- The effective address of a memory mode (R136 to R138, R140, R142, R143, R145, R146). -/
def effective (m : Addressing) (s : State) : Effective :=
  match m with
  | .zp z => { addr := zeroPage z, extra := 0, state := s }
  | .zpx z => { addr := zeroPage (z + s.cpu.x), extra := 0, state := s }
  | .zpy z => { addr := zeroPage (z + s.cpu.y), extra := 0, state := s }
  | .abs a => { addr := a, extra := 0, state := s }
  | .abx a => indexed a s.cpu.x s
  | .aby a => indexed a s.cpu.y s
  | .izx z => let r := zeroPagePointer (z + s.cpu.x) s; { addr := r.1, extra := 0, state := r.2 }
  | .izy z => let r := zeroPagePointer z s; indexed r.1 s.cpu.y r.2

/-- The target of an indirect JMP, with "the hardware's page-wrap defect" (R144). -/
def indirectTarget (ptr : Word) (s : State) : Word × State :=
  readPair ptr (wordOf (hiByte ptr) (loByte ptr + 1)) s

/-- An operand byte `M`, the extra cycle of its mode, and the state after reading it. -/
structure Fetched where
  val : Byte
  extra : Nat
  state : State
deriving DecidableEq, Repr

/-- `M <- rd(ea)`, "read exactly once" (R14 of 00_scope.md, R170); an immediate is the operand byte itself (R135). -/
def readSource (src : Source) (s : State) : Fetched :=
  match src with
  | .imm b => { val := b, extra := 0, state := s }
  | .mem m =>
    let e := effective m s
    let r := cpuRead e.addr e.state
    { val := r.1, extra := e.extra, state := r.2 }

/-- An operation on a source operand: PC past the instruction, the operand read, the operation, the cost charged (R141, R521). -/
def withSource (base : Nat) (src : Source) (f : Byte → State → State) (s : State) : State :=
  let r := readSource src (s.advance src.operand.length)
  (f r.val r.state).setCycRem (base + r.extra)

/-- A store of a register: exactly one write at the effective address and no read there (R170). -/
def storeReg (r : Reg) (base : Nat) (m : Addressing) (s : State) : State :=
  let e := effective m (s.advance m.length)
  (cpuWrite e.addr (e.state.reg r) e.state).setCycRem (base + e.extra)

/-- A read-modify-write: one read and then one write of the same address (R213 of 43_logic_shift.md). `f` answers the new byte and P. -/
def modifyMem (base : Nat) (m : Addressing) (f : Byte → Byte → Byte × Byte) (s : State) : State :=
  let e := effective m (s.advance m.length)
  let r := cpuRead e.addr e.state
  let n := f r.1 r.2.cpu.p
  ((cpuWrite e.addr n.1 r.2).setP n.2).setCycRem (base + e.extra)

/-- An operation of an implied or accumulator instruction: one byte, no bus access (R133, R134). -/
def implied (base : Nat) (f : State → State) (s : State) : State :=
  (f (s.advance 1)).setCycRem base

end Sys2Proof.Machine
end

