-- ==== Sys2Proof/Machine/Arith.lean ====
section
/-!
DEFINITION. Addition, subtraction, compares, increments and decrements (R190 to R201 of 42_arithmetic.md). The decimal flag is never read (R190).
-/

namespace Sys2Proof.Machine

/-- A and P after an addition of `m` and the carry (R191). -/
def addToA (m : Byte) (s : State) : State :=
  let r := addWithCarry s.cpu.a m (s.flag .C)
  (s.setA r.result).setP (addFlags s.cpu.p r)

/-- "subtract is implemented as add of the one's complement" (R192). -/
def subtractFromA (m : Byte) (s : State) : State :=
  addToA (m ^^^ 0xFF) s

/-- A compare writes C, Z and N only (R193 to R195). -/
def compareReg (r : Reg) (base : Nat) (src : Source) (s : State) : State :=
  withSource base src (fun m s => s.setP (compareFlags s.cpu.p (s.reg r) m)) s

/-- The incremented byte and P (R196). -/
def incByte (m p : Byte) : Byte × Byte :=
  (m + 1, setZN p (m + 1))

/-- The decremented byte and P (R199). -/
def decByte (m p : Byte) : Byte × Byte :=
  (m - 1, setZN p (m - 1))

/-- `ADC #$nn` (R191). -/
def execAdcImm (b : Byte) (s : State) : Host.Outcome State Fault Refusal :=
  .next (withSource (s.cfg.baseCost 0x69) (.imm b) addToA s)

/-- `ADC $nn` (R191). -/
def execAdcZp (z : Byte) (s : State) : Host.Outcome State Fault Refusal :=
  .next (withSource (s.cfg.baseCost 0x65) (.mem (.zp z)) addToA s)

/-- `ADC $nn,X` (R191). -/
def execAdcZpx (z : Byte) (s : State) : Host.Outcome State Fault Refusal :=
  .next (withSource (s.cfg.baseCost 0x75) (.mem (.zpx z)) addToA s)

/-- `ADC $nnnn` (R191). -/
def execAdcAbs (a : Word) (s : State) : Host.Outcome State Fault Refusal :=
  .next (withSource (s.cfg.baseCost 0x6D) (.mem (.abs a)) addToA s)

/-- `ADC $nnnn,X` (R191). -/
def execAdcAbx (a : Word) (s : State) : Host.Outcome State Fault Refusal :=
  .next (withSource (s.cfg.baseCost 0x7D) (.mem (.abx a)) addToA s)

/-- `ADC $nnnn,Y` (R191). -/
def execAdcAby (a : Word) (s : State) : Host.Outcome State Fault Refusal :=
  .next (withSource (s.cfg.baseCost 0x79) (.mem (.aby a)) addToA s)

/-- `ADC ($nn,X)` (R191). -/
def execAdcIzx (z : Byte) (s : State) : Host.Outcome State Fault Refusal :=
  .next (withSource (s.cfg.baseCost 0x61) (.mem (.izx z)) addToA s)

/-- `ADC ($nn),Y` (R191). -/
def execAdcIzy (z : Byte) (s : State) : Host.Outcome State Fault Refusal :=
  .next (withSource (s.cfg.baseCost 0x71) (.mem (.izy z)) addToA s)

/-- `SBC #$nn` (R192). -/
def execSbcImm (b : Byte) (s : State) : Host.Outcome State Fault Refusal :=
  .next (withSource (s.cfg.baseCost 0xE9) (.imm b) subtractFromA s)

/-- `SBC $nn` (R192). -/
def execSbcZp (z : Byte) (s : State) : Host.Outcome State Fault Refusal :=
  .next (withSource (s.cfg.baseCost 0xE5) (.mem (.zp z)) subtractFromA s)

/-- `SBC $nn,X` (R192). -/
def execSbcZpx (z : Byte) (s : State) : Host.Outcome State Fault Refusal :=
  .next (withSource (s.cfg.baseCost 0xF5) (.mem (.zpx z)) subtractFromA s)

/-- `SBC $nnnn` (R192). -/
def execSbcAbs (a : Word) (s : State) : Host.Outcome State Fault Refusal :=
  .next (withSource (s.cfg.baseCost 0xED) (.mem (.abs a)) subtractFromA s)

/-- `SBC $nnnn,X` (R192). -/
def execSbcAbx (a : Word) (s : State) : Host.Outcome State Fault Refusal :=
  .next (withSource (s.cfg.baseCost 0xFD) (.mem (.abx a)) subtractFromA s)

/-- `SBC $nnnn,Y` (R192). -/
def execSbcAby (a : Word) (s : State) : Host.Outcome State Fault Refusal :=
  .next (withSource (s.cfg.baseCost 0xF9) (.mem (.aby a)) subtractFromA s)

/-- `SBC ($nn,X)` (R192). -/
def execSbcIzx (z : Byte) (s : State) : Host.Outcome State Fault Refusal :=
  .next (withSource (s.cfg.baseCost 0xE1) (.mem (.izx z)) subtractFromA s)

/-- `SBC ($nn),Y` (R192). -/
def execSbcIzy (z : Byte) (s : State) : Host.Outcome State Fault Refusal :=
  .next (withSource (s.cfg.baseCost 0xF1) (.mem (.izy z)) subtractFromA s)

/-- `CMP #$nn` (R193). -/
def execCmpImm (b : Byte) (s : State) : Host.Outcome State Fault Refusal :=
  .next (compareReg .a (s.cfg.baseCost 0xC9) (.imm b) s)

/-- `CMP $nn` (R193). -/
def execCmpZp (z : Byte) (s : State) : Host.Outcome State Fault Refusal :=
  .next (compareReg .a (s.cfg.baseCost 0xC5) (.mem (.zp z)) s)

/-- `CMP $nn,X` (R193). -/
def execCmpZpx (z : Byte) (s : State) : Host.Outcome State Fault Refusal :=
  .next (compareReg .a (s.cfg.baseCost 0xD5) (.mem (.zpx z)) s)

/-- `CMP $nnnn` (R193). -/
def execCmpAbs (a : Word) (s : State) : Host.Outcome State Fault Refusal :=
  .next (compareReg .a (s.cfg.baseCost 0xCD) (.mem (.abs a)) s)

/-- `CMP $nnnn,X` (R193). -/
def execCmpAbx (a : Word) (s : State) : Host.Outcome State Fault Refusal :=
  .next (compareReg .a (s.cfg.baseCost 0xDD) (.mem (.abx a)) s)

/-- `CMP $nnnn,Y` (R193). -/
def execCmpAby (a : Word) (s : State) : Host.Outcome State Fault Refusal :=
  .next (compareReg .a (s.cfg.baseCost 0xD9) (.mem (.aby a)) s)

/-- `CMP ($nn,X)` (R193). -/
def execCmpIzx (z : Byte) (s : State) : Host.Outcome State Fault Refusal :=
  .next (compareReg .a (s.cfg.baseCost 0xC1) (.mem (.izx z)) s)

/-- `CMP ($nn),Y` (R193). -/
def execCmpIzy (z : Byte) (s : State) : Host.Outcome State Fault Refusal :=
  .next (compareReg .a (s.cfg.baseCost 0xD1) (.mem (.izy z)) s)

/-- `CPX #$nn` (R194). -/
def execCpxImm (b : Byte) (s : State) : Host.Outcome State Fault Refusal :=
  .next (compareReg .x (s.cfg.baseCost 0xE0) (.imm b) s)

/-- `CPX $nn` (R194). -/
def execCpxZp (z : Byte) (s : State) : Host.Outcome State Fault Refusal :=
  .next (compareReg .x (s.cfg.baseCost 0xE4) (.mem (.zp z)) s)

/-- `CPX $nnnn` (R194). -/
def execCpxAbs (a : Word) (s : State) : Host.Outcome State Fault Refusal :=
  .next (compareReg .x (s.cfg.baseCost 0xEC) (.mem (.abs a)) s)

/-- `CPY #$nn` (R195). -/
def execCpyImm (b : Byte) (s : State) : Host.Outcome State Fault Refusal :=
  .next (compareReg .y (s.cfg.baseCost 0xC0) (.imm b) s)

/-- `CPY $nn` (R195). -/
def execCpyZp (z : Byte) (s : State) : Host.Outcome State Fault Refusal :=
  .next (compareReg .y (s.cfg.baseCost 0xC4) (.mem (.zp z)) s)

/-- `CPY $nnnn` (R195). -/
def execCpyAbs (a : Word) (s : State) : Host.Outcome State Fault Refusal :=
  .next (compareReg .y (s.cfg.baseCost 0xCC) (.mem (.abs a)) s)

/-- `INC $nn` (R196). -/
def execIncZp (z : Byte) (s : State) : Host.Outcome State Fault Refusal :=
  .next (modifyMem (s.cfg.baseCost 0xE6) (.zp z) incByte s)

/-- `INC $nn,X` (R196). -/
def execIncZpx (z : Byte) (s : State) : Host.Outcome State Fault Refusal :=
  .next (modifyMem (s.cfg.baseCost 0xF6) (.zpx z) incByte s)

/-- `INC $nnnn` (R196). -/
def execIncAbs (a : Word) (s : State) : Host.Outcome State Fault Refusal :=
  .next (modifyMem (s.cfg.baseCost 0xEE) (.abs a) incByte s)

/-- `INC $nnnn,X` (R196). -/
def execIncAbx (a : Word) (s : State) : Host.Outcome State Fault Refusal :=
  .next (modifyMem (s.cfg.baseCost 0xFE) (.abx a) incByte s)

/-- `INX` (R197). -/
def execInx (s : State) : Host.Outcome State Fault Refusal :=
  .next (implied (s.cfg.baseCost 0xE8) (fun s => s.setRegZN .x (s.cpu.x + 1)) s)

/-- `INY` (R198). -/
def execIny (s : State) : Host.Outcome State Fault Refusal :=
  .next (implied (s.cfg.baseCost 0xC8) (fun s => s.setRegZN .y (s.cpu.y + 1)) s)

/-- `DEC $nn` (R199). -/
def execDecZp (z : Byte) (s : State) : Host.Outcome State Fault Refusal :=
  .next (modifyMem (s.cfg.baseCost 0xC6) (.zp z) decByte s)

/-- `DEC $nn,X` (R199). -/
def execDecZpx (z : Byte) (s : State) : Host.Outcome State Fault Refusal :=
  .next (modifyMem (s.cfg.baseCost 0xD6) (.zpx z) decByte s)

/-- `DEC $nnnn` (R199). -/
def execDecAbs (a : Word) (s : State) : Host.Outcome State Fault Refusal :=
  .next (modifyMem (s.cfg.baseCost 0xCE) (.abs a) decByte s)

/-- `DEC $nnnn,X` (R199). -/
def execDecAbx (a : Word) (s : State) : Host.Outcome State Fault Refusal :=
  .next (modifyMem (s.cfg.baseCost 0xDE) (.abx a) decByte s)

/-- `DEX` (R200). -/
def execDex (s : State) : Host.Outcome State Fault Refusal :=
  .next (implied (s.cfg.baseCost 0xCA) (fun s => s.setRegZN .x (s.cpu.x - 1)) s)

/-- `DEY` (R201). -/
def execDey (s : State) : Host.Outcome State Fault Refusal :=
  .next (implied (s.cfg.baseCost 0x88) (fun s => s.setRegZN .y (s.cpu.y - 1)) s)

end Sys2Proof.Machine
end

