-- ==== Sys2Proof/Machine/Control.lean ====
section
/-!
DEFINITION. Jumps, subroutine call and return, conditional branches (R215 to R226 of 44_control_flow.md).
-/

namespace Sys2Proof.Machine

/-- `PC <- ea`, the operand word itself: "no byte at `ea` is read by JMP" (R215). -/
def jump (base : Nat) (a : Word) (s : State) : State :=
  ((s.advance 3).setPc a).setCycRem base

/-- `PC <- ea`, the word at the pointer with the page-wrap defect (R144 of 30_encoding.md, R215). -/
def jumpIndirect (base : Nat) (a : Word) (s : State) : State :=
  let r := indirectTarget a (s.advance 3)
  (r.2.setPc r.1).setCycRem base

/-- JSR pushes the address of its own last byte and jumps (R216). -/
def callSubroutine (base : Nat) (a : Word) (s : State) : State :=
  let s := s.advance 3
  ((push16 (s.cpu.pc - 1) s).setPc a).setCycRem base

/-- RTS adds one to the pulled address (R217). -/
def returnFromSubroutine (s : State) : State :=
  let r := pull16 s
  r.2.setPc (r.1 + 1)

/-- The target of a branch: the next instruction's address plus the sign-extended offset, modulo 65536 (R132, R218). -/
def branchTarget (next : Word) (d : Byte) : Word :=
  next + d.signExtend 16

/-- A conditional branch on one flag: taken when the flag has the value `want`; one extra cycle when taken and a second when the target is in
another page than the next instruction (R218). -/
def branch (f : Flag) (want : Bool) (base : Nat) (d : Byte) (s : State) : State :=
  let s := s.advance 2
  let target := branchTarget s.cpu.pc d
  if s.flag f = want then (s.setPc target).setCycRem (base + 1 + pageCross s.cpu.pc target) else s.setCycRem base

/-- `JMP $nnnn` (R215). -/
def execJmpAbs (a : Word) (s : State) : Host.Outcome State Fault Refusal :=
  .next (jump (s.cfg.baseCost 0x4C) a s)

/-- `JMP ($nnnn)` (R215). -/
def execJmpInd (a : Word) (s : State) : Host.Outcome State Fault Refusal :=
  .next (jumpIndirect (s.cfg.baseCost 0x6C) a s)

/-- `JSR $nnnn` (R216). -/
def execJsr (a : Word) (s : State) : Host.Outcome State Fault Refusal :=
  .next (callSubroutine (s.cfg.baseCost 0x20) a s)

/-- `RTS` (R217). -/
def execRts (s : State) : Host.Outcome State Fault Refusal :=
  .next (implied (s.cfg.baseCost 0x60) returnFromSubroutine s)

/-- `BCC $nnnn (target)` (R219). -/
def execBcc (d : Byte) (s : State) : Host.Outcome State Fault Refusal :=
  .next (branch .C false (s.cfg.baseCost 0x90) d s)

/-- `BCS $nnnn (target)` (R220). -/
def execBcs (d : Byte) (s : State) : Host.Outcome State Fault Refusal :=
  .next (branch .C true (s.cfg.baseCost 0xB0) d s)

/-- `BEQ $nnnn (target)` (R221). -/
def execBeq (d : Byte) (s : State) : Host.Outcome State Fault Refusal :=
  .next (branch .Z true (s.cfg.baseCost 0xF0) d s)

/-- `BNE $nnnn (target)` (R222). -/
def execBne (d : Byte) (s : State) : Host.Outcome State Fault Refusal :=
  .next (branch .Z false (s.cfg.baseCost 0xD0) d s)

/-- `BMI $nnnn (target)` (R223). -/
def execBmi (d : Byte) (s : State) : Host.Outcome State Fault Refusal :=
  .next (branch .N true (s.cfg.baseCost 0x30) d s)

/-- `BPL $nnnn (target)` (R224). -/
def execBpl (d : Byte) (s : State) : Host.Outcome State Fault Refusal :=
  .next (branch .N false (s.cfg.baseCost 0x10) d s)

/-- `BVC $nnnn (target)` (R225). -/
def execBvc (d : Byte) (s : State) : Host.Outcome State Fault Refusal :=
  .next (branch .V false (s.cfg.baseCost 0x50) d s)

/-- `BVS $nnnn (target)` (R226). -/
def execBvs (d : Byte) (s : State) : Host.Outcome State Fault Refusal :=
  .next (branch .V true (s.cfg.baseCost 0x70) d s)

end Sys2Proof.Machine
end

