-- ==== Sys2Proof/Machine/LoadStore.lean ====
section
/-!
DEFINITION. Loads, stores and register transfers (R170 to R182 of 40_load_store_transfer.md). Each meaning
charges the base cost of its opcode (R520 of 70_reset_and_hazards.md).
-/

namespace Sys2Proof.Machine

/-- A load: "`M <- rd(ea)`", the register written, Z and N set (R170 to R173). -/
def loadReg (r : Reg) (base : Nat) (src : Source) (s : State) : State :=
  withSource base src (fun m s => s.setRegZN r m) s

/-- `LDA #$nn` (R171). -/
def execLdaImm (b : Byte) (s : State) : Host.Outcome State Fault Refusal :=
  .next (loadReg .a (s.cfg.baseCost 0xA9) (.imm b) s)

/-- `LDA $nn` (R171). -/
def execLdaZp (z : Byte) (s : State) : Host.Outcome State Fault Refusal :=
  .next (loadReg .a (s.cfg.baseCost 0xA5) (.mem (.zp z)) s)

/-- `LDA $nn,X` (R171). -/
def execLdaZpx (z : Byte) (s : State) : Host.Outcome State Fault Refusal :=
  .next (loadReg .a (s.cfg.baseCost 0xB5) (.mem (.zpx z)) s)

/-- `LDA $nnnn` (R171). -/
def execLdaAbs (a : Word) (s : State) : Host.Outcome State Fault Refusal :=
  .next (loadReg .a (s.cfg.baseCost 0xAD) (.mem (.abs a)) s)

/-- `LDA $nnnn,X` (R171). -/
def execLdaAbx (a : Word) (s : State) : Host.Outcome State Fault Refusal :=
  .next (loadReg .a (s.cfg.baseCost 0xBD) (.mem (.abx a)) s)

/-- `LDA $nnnn,Y` (R171). -/
def execLdaAby (a : Word) (s : State) : Host.Outcome State Fault Refusal :=
  .next (loadReg .a (s.cfg.baseCost 0xB9) (.mem (.aby a)) s)

/-- `LDA ($nn,X)` (R171). -/
def execLdaIzx (z : Byte) (s : State) : Host.Outcome State Fault Refusal :=
  .next (loadReg .a (s.cfg.baseCost 0xA1) (.mem (.izx z)) s)

/-- `LDA ($nn),Y` (R171). -/
def execLdaIzy (z : Byte) (s : State) : Host.Outcome State Fault Refusal :=
  .next (loadReg .a (s.cfg.baseCost 0xB1) (.mem (.izy z)) s)

/-- `LDX #$nn` (R172). -/
def execLdxImm (b : Byte) (s : State) : Host.Outcome State Fault Refusal :=
  .next (loadReg .x (s.cfg.baseCost 0xA2) (.imm b) s)

/-- `LDX $nn` (R172). -/
def execLdxZp (z : Byte) (s : State) : Host.Outcome State Fault Refusal :=
  .next (loadReg .x (s.cfg.baseCost 0xA6) (.mem (.zp z)) s)

/-- `LDX $nn,Y` (R172). -/
def execLdxZpy (z : Byte) (s : State) : Host.Outcome State Fault Refusal :=
  .next (loadReg .x (s.cfg.baseCost 0xB6) (.mem (.zpy z)) s)

/-- `LDX $nnnn` (R172). -/
def execLdxAbs (a : Word) (s : State) : Host.Outcome State Fault Refusal :=
  .next (loadReg .x (s.cfg.baseCost 0xAE) (.mem (.abs a)) s)

/-- `LDX $nnnn,Y` (R172). -/
def execLdxAby (a : Word) (s : State) : Host.Outcome State Fault Refusal :=
  .next (loadReg .x (s.cfg.baseCost 0xBE) (.mem (.aby a)) s)

/-- `LDY #$nn` (R173). -/
def execLdyImm (b : Byte) (s : State) : Host.Outcome State Fault Refusal :=
  .next (loadReg .y (s.cfg.baseCost 0xA0) (.imm b) s)

/-- `LDY $nn` (R173). -/
def execLdyZp (z : Byte) (s : State) : Host.Outcome State Fault Refusal :=
  .next (loadReg .y (s.cfg.baseCost 0xA4) (.mem (.zp z)) s)

/-- `LDY $nn,X` (R173). -/
def execLdyZpx (z : Byte) (s : State) : Host.Outcome State Fault Refusal :=
  .next (loadReg .y (s.cfg.baseCost 0xB4) (.mem (.zpx z)) s)

/-- `LDY $nnnn` (R173). -/
def execLdyAbs (a : Word) (s : State) : Host.Outcome State Fault Refusal :=
  .next (loadReg .y (s.cfg.baseCost 0xAC) (.mem (.abs a)) s)

/-- `LDY $nnnn,X` (R173). -/
def execLdyAbx (a : Word) (s : State) : Host.Outcome State Fault Refusal :=
  .next (loadReg .y (s.cfg.baseCost 0xBC) (.mem (.abx a)) s)

/-- `STA $nn` (R174). -/
def execStaZp (z : Byte) (s : State) : Host.Outcome State Fault Refusal :=
  .next (storeReg .a (s.cfg.baseCost 0x85) (.zp z) s)

/-- `STA $nn,X` (R174). -/
def execStaZpx (z : Byte) (s : State) : Host.Outcome State Fault Refusal :=
  .next (storeReg .a (s.cfg.baseCost 0x95) (.zpx z) s)

/-- `STA $nnnn` (R174). -/
def execStaAbs (a : Word) (s : State) : Host.Outcome State Fault Refusal :=
  .next (storeReg .a (s.cfg.baseCost 0x8D) (.abs a) s)

/-- `STA $nnnn,X` (R174). -/
def execStaAbx (a : Word) (s : State) : Host.Outcome State Fault Refusal :=
  .next (storeReg .a (s.cfg.baseCost 0x9D) (.abx a) s)

/-- `STA $nnnn,Y` (R174). -/
def execStaAby (a : Word) (s : State) : Host.Outcome State Fault Refusal :=
  .next (storeReg .a (s.cfg.baseCost 0x99) (.aby a) s)

/-- `STA ($nn,X)` (R174). -/
def execStaIzx (z : Byte) (s : State) : Host.Outcome State Fault Refusal :=
  .next (storeReg .a (s.cfg.baseCost 0x81) (.izx z) s)

/-- `STA ($nn),Y` (R174). -/
def execStaIzy (z : Byte) (s : State) : Host.Outcome State Fault Refusal :=
  .next (storeReg .a (s.cfg.baseCost 0x91) (.izy z) s)

/-- `STX $nn` (R175). -/
def execStxZp (z : Byte) (s : State) : Host.Outcome State Fault Refusal :=
  .next (storeReg .x (s.cfg.baseCost 0x86) (.zp z) s)

/-- `STX $nn,Y` (R175). -/
def execStxZpy (z : Byte) (s : State) : Host.Outcome State Fault Refusal :=
  .next (storeReg .x (s.cfg.baseCost 0x96) (.zpy z) s)

/-- `STX $nnnn` (R175). -/
def execStxAbs (a : Word) (s : State) : Host.Outcome State Fault Refusal :=
  .next (storeReg .x (s.cfg.baseCost 0x8E) (.abs a) s)

/-- `STY $nn` (R176). -/
def execStyZp (z : Byte) (s : State) : Host.Outcome State Fault Refusal :=
  .next (storeReg .y (s.cfg.baseCost 0x84) (.zp z) s)

/-- `STY $nn,X` (R176). -/
def execStyZpx (z : Byte) (s : State) : Host.Outcome State Fault Refusal :=
  .next (storeReg .y (s.cfg.baseCost 0x94) (.zpx z) s)

/-- `STY $nnnn` (R176). -/
def execStyAbs (a : Word) (s : State) : Host.Outcome State Fault Refusal :=
  .next (storeReg .y (s.cfg.baseCost 0x8C) (.abs a) s)

/-- `TAX` (R177). -/
def execTax (s : State) : Host.Outcome State Fault Refusal :=
  .next (implied (s.cfg.baseCost 0xAA) (fun s => s.setRegZN .x s.cpu.a) s)

/-- `TAY` (R178). -/
def execTay (s : State) : Host.Outcome State Fault Refusal :=
  .next (implied (s.cfg.baseCost 0xA8) (fun s => s.setRegZN .y s.cpu.a) s)

/-- `TXA` (R179). -/
def execTxa (s : State) : Host.Outcome State Fault Refusal :=
  .next (implied (s.cfg.baseCost 0x8A) (fun s => s.setRegZN .a s.cpu.x) s)

/-- `TYA` (R180). -/
def execTya (s : State) : Host.Outcome State Fault Refusal :=
  .next (implied (s.cfg.baseCost 0x98) (fun s => s.setRegZN .a s.cpu.y) s)

/-- `TSX` (R181). -/
def execTsx (s : State) : Host.Outcome State Fault Refusal :=
  .next (implied (s.cfg.baseCost 0xBA) (fun s => s.setRegZN .x s.cpu.sp) s)

/-- `TXS` (R182). -/
def execTxs (s : State) : Host.Outcome State Fault Refusal :=
  .next (implied (s.cfg.baseCost 0x9A) (fun s => s.setSp s.cpu.x) s)

end Sys2Proof.Machine
end

