-- ==== Sys2Proof/Machine/Logic.lean ====
section
/-!
DEFINITION. Logic, bit test, shifts and rotates (R205 to R213 of 43_logic_shift.md).
-/

namespace Sys2Proof.Machine

/-- The operation of ASL on a byte and P (R209). -/
def aslOp (m _p : Byte) : ShiftResult :=
  aslByte m

/-- The operation of LSR on a byte and P (R210). -/
def lsrOp (m _p : Byte) : ShiftResult :=
  lsrByte m

/-- The operation of ROL on a byte and P, whose carry enters (R211). -/
def rolOp (m p : Byte) : ShiftResult :=
  rolByte m (getFlag p .C)

/-- The operation of ROR on a byte and P, whose carry enters (R212). -/
def rorOp (m p : Byte) : ShiftResult :=
  rorByte m (getFlag p .C)

/-- A shift or rotate of A, with no bus access, or of a byte in memory (R209 to R213). -/
def shift (base : Nat) (t : Target) (f : Byte → Byte → ShiftResult) (s : State) : State :=
  match t with
  | .acc => implied base (fun s => let r := f s.cpu.a s.cpu.p; (s.setA r.result).setP (shiftFlags s.cpu.p r)) s
  | .mem m => modifyMem base m (fun b p => let r := f b p; (r.result, shiftFlags p r)) s

/-- `AND #$nn` (R205). -/
def execAndImm (b : Byte) (s : State) : Host.Outcome State Fault Refusal :=
  .next (withSource (s.cfg.baseCost 0x29) (.imm b) (fun m s => s.setRegZN .a (s.cpu.a &&& m)) s)

/-- `AND $nn` (R205). -/
def execAndZp (z : Byte) (s : State) : Host.Outcome State Fault Refusal :=
  .next (withSource (s.cfg.baseCost 0x25) (.mem (.zp z)) (fun m s => s.setRegZN .a (s.cpu.a &&& m)) s)

/-- `AND $nn,X` (R205). -/
def execAndZpx (z : Byte) (s : State) : Host.Outcome State Fault Refusal :=
  .next (withSource (s.cfg.baseCost 0x35) (.mem (.zpx z)) (fun m s => s.setRegZN .a (s.cpu.a &&& m)) s)

/-- `AND $nnnn` (R205). -/
def execAndAbs (a : Word) (s : State) : Host.Outcome State Fault Refusal :=
  .next (withSource (s.cfg.baseCost 0x2D) (.mem (.abs a)) (fun m s => s.setRegZN .a (s.cpu.a &&& m)) s)

/-- `AND $nnnn,X` (R205). -/
def execAndAbx (a : Word) (s : State) : Host.Outcome State Fault Refusal :=
  .next (withSource (s.cfg.baseCost 0x3D) (.mem (.abx a)) (fun m s => s.setRegZN .a (s.cpu.a &&& m)) s)

/-- `AND $nnnn,Y` (R205). -/
def execAndAby (a : Word) (s : State) : Host.Outcome State Fault Refusal :=
  .next (withSource (s.cfg.baseCost 0x39) (.mem (.aby a)) (fun m s => s.setRegZN .a (s.cpu.a &&& m)) s)

/-- `AND ($nn,X)` (R205). -/
def execAndIzx (z : Byte) (s : State) : Host.Outcome State Fault Refusal :=
  .next (withSource (s.cfg.baseCost 0x21) (.mem (.izx z)) (fun m s => s.setRegZN .a (s.cpu.a &&& m)) s)

/-- `AND ($nn),Y` (R205). -/
def execAndIzy (z : Byte) (s : State) : Host.Outcome State Fault Refusal :=
  .next (withSource (s.cfg.baseCost 0x31) (.mem (.izy z)) (fun m s => s.setRegZN .a (s.cpu.a &&& m)) s)

/-- `ORA #$nn` (R206). -/
def execOraImm (b : Byte) (s : State) : Host.Outcome State Fault Refusal :=
  .next (withSource (s.cfg.baseCost 0x09) (.imm b) (fun m s => s.setRegZN .a (s.cpu.a ||| m)) s)

/-- `ORA $nn` (R206). -/
def execOraZp (z : Byte) (s : State) : Host.Outcome State Fault Refusal :=
  .next (withSource (s.cfg.baseCost 0x05) (.mem (.zp z)) (fun m s => s.setRegZN .a (s.cpu.a ||| m)) s)

/-- `ORA $nn,X` (R206). -/
def execOraZpx (z : Byte) (s : State) : Host.Outcome State Fault Refusal :=
  .next (withSource (s.cfg.baseCost 0x15) (.mem (.zpx z)) (fun m s => s.setRegZN .a (s.cpu.a ||| m)) s)

/-- `ORA $nnnn` (R206). -/
def execOraAbs (a : Word) (s : State) : Host.Outcome State Fault Refusal :=
  .next (withSource (s.cfg.baseCost 0x0D) (.mem (.abs a)) (fun m s => s.setRegZN .a (s.cpu.a ||| m)) s)

/-- `ORA $nnnn,X` (R206). -/
def execOraAbx (a : Word) (s : State) : Host.Outcome State Fault Refusal :=
  .next (withSource (s.cfg.baseCost 0x1D) (.mem (.abx a)) (fun m s => s.setRegZN .a (s.cpu.a ||| m)) s)

/-- `ORA $nnnn,Y` (R206). -/
def execOraAby (a : Word) (s : State) : Host.Outcome State Fault Refusal :=
  .next (withSource (s.cfg.baseCost 0x19) (.mem (.aby a)) (fun m s => s.setRegZN .a (s.cpu.a ||| m)) s)

/-- `ORA ($nn,X)` (R206). -/
def execOraIzx (z : Byte) (s : State) : Host.Outcome State Fault Refusal :=
  .next (withSource (s.cfg.baseCost 0x01) (.mem (.izx z)) (fun m s => s.setRegZN .a (s.cpu.a ||| m)) s)

/-- `ORA ($nn),Y` (R206). -/
def execOraIzy (z : Byte) (s : State) : Host.Outcome State Fault Refusal :=
  .next (withSource (s.cfg.baseCost 0x11) (.mem (.izy z)) (fun m s => s.setRegZN .a (s.cpu.a ||| m)) s)

/-- `EOR #$nn` (R207). -/
def execEorImm (b : Byte) (s : State) : Host.Outcome State Fault Refusal :=
  .next (withSource (s.cfg.baseCost 0x49) (.imm b) (fun m s => s.setRegZN .a (s.cpu.a ^^^ m)) s)

/-- `EOR $nn` (R207). -/
def execEorZp (z : Byte) (s : State) : Host.Outcome State Fault Refusal :=
  .next (withSource (s.cfg.baseCost 0x45) (.mem (.zp z)) (fun m s => s.setRegZN .a (s.cpu.a ^^^ m)) s)

/-- `EOR $nn,X` (R207). -/
def execEorZpx (z : Byte) (s : State) : Host.Outcome State Fault Refusal :=
  .next (withSource (s.cfg.baseCost 0x55) (.mem (.zpx z)) (fun m s => s.setRegZN .a (s.cpu.a ^^^ m)) s)

/-- `EOR $nnnn` (R207). -/
def execEorAbs (a : Word) (s : State) : Host.Outcome State Fault Refusal :=
  .next (withSource (s.cfg.baseCost 0x4D) (.mem (.abs a)) (fun m s => s.setRegZN .a (s.cpu.a ^^^ m)) s)

/-- `EOR $nnnn,X` (R207). -/
def execEorAbx (a : Word) (s : State) : Host.Outcome State Fault Refusal :=
  .next (withSource (s.cfg.baseCost 0x5D) (.mem (.abx a)) (fun m s => s.setRegZN .a (s.cpu.a ^^^ m)) s)

/-- `EOR $nnnn,Y` (R207). -/
def execEorAby (a : Word) (s : State) : Host.Outcome State Fault Refusal :=
  .next (withSource (s.cfg.baseCost 0x59) (.mem (.aby a)) (fun m s => s.setRegZN .a (s.cpu.a ^^^ m)) s)

/-- `EOR ($nn,X)` (R207). -/
def execEorIzx (z : Byte) (s : State) : Host.Outcome State Fault Refusal :=
  .next (withSource (s.cfg.baseCost 0x41) (.mem (.izx z)) (fun m s => s.setRegZN .a (s.cpu.a ^^^ m)) s)

/-- `EOR ($nn),Y` (R207). -/
def execEorIzy (z : Byte) (s : State) : Host.Outcome State Fault Refusal :=
  .next (withSource (s.cfg.baseCost 0x51) (.mem (.izy z)) (fun m s => s.setRegZN .a (s.cpu.a ^^^ m)) s)

/-- `BIT $nn` (R208). -/
def execBitZp (z : Byte) (s : State) : Host.Outcome State Fault Refusal :=
  .next (withSource (s.cfg.baseCost 0x24) (.mem (.zp z)) (fun m s => s.setP (bitFlags s.cpu.p s.cpu.a m)) s)

/-- `BIT $nnnn` (R208). -/
def execBitAbs (a : Word) (s : State) : Host.Outcome State Fault Refusal :=
  .next (withSource (s.cfg.baseCost 0x2C) (.mem (.abs a)) (fun m s => s.setP (bitFlags s.cpu.p s.cpu.a m)) s)

/-- `ASL A` (R209). -/
def execAslAcc (s : State) : Host.Outcome State Fault Refusal :=
  .next (shift (s.cfg.baseCost 0x0A) .acc aslOp s)

/-- `ASL $nn` (R209). -/
def execAslZp (z : Byte) (s : State) : Host.Outcome State Fault Refusal :=
  .next (shift (s.cfg.baseCost 0x06) (.mem (.zp z)) aslOp s)

/-- `ASL $nn,X` (R209). -/
def execAslZpx (z : Byte) (s : State) : Host.Outcome State Fault Refusal :=
  .next (shift (s.cfg.baseCost 0x16) (.mem (.zpx z)) aslOp s)

/-- `ASL $nnnn` (R209). -/
def execAslAbs (a : Word) (s : State) : Host.Outcome State Fault Refusal :=
  .next (shift (s.cfg.baseCost 0x0E) (.mem (.abs a)) aslOp s)

/-- `ASL $nnnn,X` (R209). -/
def execAslAbx (a : Word) (s : State) : Host.Outcome State Fault Refusal :=
  .next (shift (s.cfg.baseCost 0x1E) (.mem (.abx a)) aslOp s)

/-- `LSR A` (R210). -/
def execLsrAcc (s : State) : Host.Outcome State Fault Refusal :=
  .next (shift (s.cfg.baseCost 0x4A) .acc lsrOp s)

/-- `LSR $nn` (R210). -/
def execLsrZp (z : Byte) (s : State) : Host.Outcome State Fault Refusal :=
  .next (shift (s.cfg.baseCost 0x46) (.mem (.zp z)) lsrOp s)

/-- `LSR $nn,X` (R210). -/
def execLsrZpx (z : Byte) (s : State) : Host.Outcome State Fault Refusal :=
  .next (shift (s.cfg.baseCost 0x56) (.mem (.zpx z)) lsrOp s)

/-- `LSR $nnnn` (R210). -/
def execLsrAbs (a : Word) (s : State) : Host.Outcome State Fault Refusal :=
  .next (shift (s.cfg.baseCost 0x4E) (.mem (.abs a)) lsrOp s)

/-- `LSR $nnnn,X` (R210). -/
def execLsrAbx (a : Word) (s : State) : Host.Outcome State Fault Refusal :=
  .next (shift (s.cfg.baseCost 0x5E) (.mem (.abx a)) lsrOp s)

/-- `ROL A` (R211). -/
def execRolAcc (s : State) : Host.Outcome State Fault Refusal :=
  .next (shift (s.cfg.baseCost 0x2A) .acc rolOp s)

/-- `ROL $nn` (R211). -/
def execRolZp (z : Byte) (s : State) : Host.Outcome State Fault Refusal :=
  .next (shift (s.cfg.baseCost 0x26) (.mem (.zp z)) rolOp s)

/-- `ROL $nn,X` (R211). -/
def execRolZpx (z : Byte) (s : State) : Host.Outcome State Fault Refusal :=
  .next (shift (s.cfg.baseCost 0x36) (.mem (.zpx z)) rolOp s)

/-- `ROL $nnnn` (R211). -/
def execRolAbs (a : Word) (s : State) : Host.Outcome State Fault Refusal :=
  .next (shift (s.cfg.baseCost 0x2E) (.mem (.abs a)) rolOp s)

/-- `ROL $nnnn,X` (R211). -/
def execRolAbx (a : Word) (s : State) : Host.Outcome State Fault Refusal :=
  .next (shift (s.cfg.baseCost 0x3E) (.mem (.abx a)) rolOp s)

/-- `ROR A` (R212). -/
def execRorAcc (s : State) : Host.Outcome State Fault Refusal :=
  .next (shift (s.cfg.baseCost 0x6A) .acc rorOp s)

/-- `ROR $nn` (R212). -/
def execRorZp (z : Byte) (s : State) : Host.Outcome State Fault Refusal :=
  .next (shift (s.cfg.baseCost 0x66) (.mem (.zp z)) rorOp s)

/-- `ROR $nn,X` (R212). -/
def execRorZpx (z : Byte) (s : State) : Host.Outcome State Fault Refusal :=
  .next (shift (s.cfg.baseCost 0x76) (.mem (.zpx z)) rorOp s)

/-- `ROR $nnnn` (R212). -/
def execRorAbs (a : Word) (s : State) : Host.Outcome State Fault Refusal :=
  .next (shift (s.cfg.baseCost 0x6E) (.mem (.abs a)) rorOp s)

/-- `ROR $nnnn,X` (R212). -/
def execRorAbx (a : Word) (s : State) : Host.Outcome State Fault Refusal :=
  .next (shift (s.cfg.baseCost 0x7E) (.mem (.abx a)) rorOp s)

end Sys2Proof.Machine
end

