-- ==== Sys2Proof/Machine/Stack.lean ====
section
/-!
DEFINITION. The stack instructions (R185 to R188 of 41_stack.md).
-/

namespace Sys2Proof.Machine

/-- `A <- pull(); setZN(A)` (R187). -/
def pullA (s : State) : State :=
  let r := pull s
  r.2.setRegZN .a r.1

/-- `P <- pull() | 0x20` (R188). -/
def pullP (s : State) : State :=
  let r := pull s
  r.2.setP (pulledStatus r.1)

/-- `PHA` (R185). -/
def execPha (s : State) : Host.Outcome State Fault Refusal :=
  .next (implied (s.cfg.baseCost 0x48) (fun s => push s.cpu.a s) s)

/-- `PHP` (R186). -/
def execPhp (s : State) : Host.Outcome State Fault Refusal :=
  .next (implied (s.cfg.baseCost 0x08) (fun s => push (pushedByInstruction s.cpu.p) s) s)

/-- `PLA` (R187). -/
def execPla (s : State) : Host.Outcome State Fault Refusal :=
  .next (implied (s.cfg.baseCost 0x68) pullA s)

/-- `PLP` (R188). -/
def execPlp (s : State) : Host.Outcome State Fault Refusal :=
  .next (implied (s.cfg.baseCost 0x28) pullP s)

end Sys2Proof.Machine
end

