-- ==== Sys2Proof/Machine/System.lean ====
section
/-!
DEFINITION. Flag instructions, NOP, BRK, RTI and the entry of every unmapped opcode (R230 to R239, R243 of 45_flags_system.md).
-/

namespace Sys2Proof.Machine

/-- `diag_unknown <- 1` (R243, D16). -/
def noteUnknown (s : State) : State :=
  { s with cpu := { s.cpu with diagUnknown := true } }

/-- XXX, "treated as a 2-cycle no-operation that still advances PC by one" (R243), whichever unmapped opcode it is. -/
def execXxx (_op : Byte) (s : State) : Host.Outcome State Fault Refusal :=
  .next (implied 2 noteUnknown s)

/-- `CLC` (R230). -/
def execClc (s : State) : Host.Outcome State Fault Refusal :=
  .next (implied (s.cfg.baseCost 0x18) (fun s => s.putFlag .C false) s)

/-- `SEC` (R231). -/
def execSec (s : State) : Host.Outcome State Fault Refusal :=
  .next (implied (s.cfg.baseCost 0x38) (fun s => s.putFlag .C true) s)

/-- `CLI` (R232). -/
def execCli (s : State) : Host.Outcome State Fault Refusal :=
  .next (implied (s.cfg.baseCost 0x58) (fun s => s.putFlag .I false) s)

/-- `SEI` (R233). -/
def execSei (s : State) : Host.Outcome State Fault Refusal :=
  .next (implied (s.cfg.baseCost 0x78) (fun s => s.putFlag .I true) s)

/-- `CLV` (R234). -/
def execClv (s : State) : Host.Outcome State Fault Refusal :=
  .next (implied (s.cfg.baseCost 0xB8) (fun s => s.putFlag .V false) s)

/-- `CLD` (R235). -/
def execCld (s : State) : Host.Outcome State Fault Refusal :=
  .next (implied (s.cfg.baseCost 0xD8) (fun s => s.putFlag .D false) s)

/-- `SED` (R236). -/
def execSed (s : State) : Host.Outcome State Fault Refusal :=
  .next (implied (s.cfg.baseCost 0xF8) (fun s => s.putFlag .D true) s)

/-- `NOP` (R237). -/
def execNop (s : State) : Host.Outcome State Fault Refusal :=
  .next (implied (s.cfg.baseCost 0xEA) (fun s => s) s)

/-- `BRK` (R238). -/
def execBrk (s : State) : Host.Outcome State Fault Refusal :=
  .next (implied (s.cfg.baseCost 0x00) (takeException .brk) s)

/-- `RTI` (R239). -/
def execRti (s : State) : Host.Outcome State Fault Refusal :=
  .next (implied (s.cfg.baseCost 0x40) returnFromException s)

end Sys2Proof.Machine
end

