-- ==== Sys2Proof/Machine/Render.lean ====
section
/-!
DEFINITION. The picture (R350 to R362, R370 of 62_ppu.md): what a pixel is as a function of the snapshots and the memories (R351 to R356), the
sprite-zero test, and `renderFrame` with its reads in the order of R370.

Every per-scanline choice comes from the snapshot of the scanline, written `sn` (R350).
-/

namespace Sys2Proof

/-- The packed colour of a palette byte, whose low six bits select it (R360). -/
def Config.colour (c : Config) (v : Byte) : Nat :=
  c.nesColor.get (v.setWidth 6).toFin

end Sys2Proof

namespace Sys2Proof.Machine

/-- `snap[y]`. The list has 240 entries in every reachable state; a missing one would read as the reset entry. -/
def snapAt (p : Ppu) (y : Nat) : Snapshot :=
  p.snap.getD y snapshotAfterReset

/-- The scroll origin's x coordinate in the 512 x 480 plane: `sx` of R351 at x = 0. -/
def originX (sn : Snapshot) : Nat :=
  (sn.t.toNat / 0x400 % 2 * 256 + sn.t.toNat % 32 * 8 + sn.fineX.toNat) % 512

/-- The plane's y coordinate of scanline `y`: `sy` of R351. -/
def planeY (sn : Snapshot) (y : Nat) : Nat :=
  (sn.t.toNat / 0x800 % 2 * 240 + sn.t.toNat / 32 % 32 * 8 + sn.t.toNat / 0x1000 + y) % 480

/-- The plane's x coordinate of pixel column `x`: `sx` of R351. -/
def planeX (sn : Snapshot) (x : Nat) : Nat :=
  (originX sn + x) % 512

/-- The logical nametable, 0 to 3, of a plane position (R351). -/
def planeTable (sx sy : Nat) : Nat :=
  sy / 240 * 2 + sx / 256

/-- The PPU address of the tile byte of a plane position (R351). -/
def tileAddr (sx sy : Nat) : BitVec 14 :=
  BitVec.ofNat 14 (0x2000 + planeTable sx sy * 0x400 + sy % 240 / 8 * 32 + sx % 256 / 8)

/-- The PPU address of the attribute byte of a plane position (R352). -/
def attributeAddr (sx sy : Nat) : BitVec 14 :=
  BitVec.ofNat 14 (0x23C0 + planeTable sx sy * 0x400 + sy % 240 / 8 / 4 * 8 + sx % 256 / 8 / 4)

/-- The two palette bits an attribute byte holds for a plane position: `(at >> shift) & 3` (R352). -/
def attributePalette (at_ : Byte) (sx sy : Nat) : Nat :=
  let shift := sy % 240 / 8 / 2 % 2 * 4 + sx % 256 / 8 / 2 % 2 * 2
  at_.toNat / 2 ^ shift % 4

/-- The address of the low bit-plane byte of row `r` of a tile; the high plane's is 8 further (R353). -/
def patternAddr (table : Bool) (tile r : Nat) : BitVec 14 :=
  BitVec.ofNat 14 (table.toNat * 0x1000 + tile * 16 + r)

/-- The 2-bit pixel of column `c`, 0 leftmost, of a tile row (R353). -/
def planeBits (lo hi : Byte) (c : Nat) : Nat :=
  (hi.getLsbD (7 - c)).toNat * 2 + (lo.getLsbD (7 - c)).toNat

/-- The address of the low pattern byte of a background tile at plane row `sy` (R351, R353). -/
def bgPatternAddr (sn : Snapshot) (tile : Byte) (sy : Nat) : BitVec 14 :=
  patternAddr (sn.ctrl.getLsbD 4) tile.toNat (sy % 240 % 8)

/-- A background pixel: its palette number and its 2-bit value. -/
structure BgPixel where
  pal : Nat
  px : Nat
deriving DecidableEq, Repr

/-- The transparent background pixel. -/
def bgNone : BgPixel :=
  { pal := 0, px := 0 }

/-- `bgPixel(x, y)` with side-effect-free reads (R351 to R353). -/
def bgPixel (s : State) (x y : Nat) : BgPixel :=
  let sn := snapAt s.ppu y
  let sx := planeX sn x
  let sy := planeY sn y
  let tile := ppuPeek (tileAddr sx sy) s
  let a := bgPatternAddr sn tile sy
  { pal := attributePalette (ppuPeek (attributeAddr sx sy) s) sx sy
    px := planeBits (ppuPeek a s) (ppuPeek (a + 8) s) (sx % 256 % 8) }

/-- Byte `k` of sprite `n` (R40 of 10_state.md): 0 Y, 1 tile, 2 attributes, 3 X. -/
def oamByte (oam : Memory) (n k : Nat) : Byte :=
  oam.read (4 * n + k)

/-- Sprite height (R354). -/
def spriteHeight (sn : Snapshot) : Nat :=
  if sn.ctrl.getLsbD 5 then 16 else 8

/-- The row of sprite `n` on scanline `y`, after vertical flip; none where the sprite does not cover the scanline (R354). -/
def spriteRow (oam : Memory) (sn : Snapshot) (n y : Nat) : Option Nat :=
  let top := (oamByte oam n 0).toNat + 1
  let h := spriteHeight sn
  if top ≤ y ∧ y < top + h then
    some (if (oamByte oam n 2).getLsbD 7 then h - 1 - (y - top) else y - top)
  else none

/-- The tile column of sprite `n` at pixel column `x`, after horizontal flip; none where the sprite does not cover it (R354). -/
def spriteCol (oam : Memory) (n x : Nat) : Option Nat :=
  let left := (oamByte oam n 3).toNat
  if left ≤ x ∧ x ≤ left + 7 then
    some (if (oamByte oam n 2).getLsbD 6 then 7 - (x - left) else x - left)
  else none

/-- The address of the low pattern byte of row `r` of sprite `n`: 8 x 8, or 8 x 16 with "the pattern bank from the tile index's low bit" and
two stacked tiles (R354, R355). -/
def spritePatternAddr (oam : Memory) (sn : Snapshot) (n r : Nat) : BitVec 14 :=
  let t := oamByte oam n 1
  if sn.ctrl.getLsbD 5 then patternAddr (t.getLsbD 0) ((t &&& 0xFE).toNat + r / 8) (r % 8)
  else patternAddr (sn.ctrl.getLsbD 3) t.toNat r

/-- `sprPixel(n, x, y)` with side-effect-free reads, 0 for transparent or not covering (R354). -/
def sprPixel (s : State) (n x y : Nat) : Nat :=
  let sn := snapAt s.ppu y
  match spriteRow s.ppu.oam sn n y, spriteCol s.ppu.oam n x with
  | some r, some c =>
    let a := spritePatternAddr s.ppu.oam sn n r
    planeBits (ppuPeek a s) (ppuPeek (a + 8) s) c
  | _, _ => 0

/-- Whether the background is shown at column `x` (R356, R361, R362). -/
def bgShown (sn : Snapshot) (x : Nat) : Bool :=
  sn.mask.getLsbD 3 && (decide (8 ≤ x) || sn.mask.getLsbD 1)

/-- Whether sprites are shown at column `x` (R356, R361, R362). -/
def sprShown (sn : Snapshot) (x : Nat) : Bool :=
  sn.mask.getLsbD 4 && (decide (8 ≤ x) || sn.mask.getLsbD 2)

/-- A sprite pixel that is not transparent: the sprite's attribute byte and the 2-bit value. -/
structure SprHit where
  attr : Byte
  px : Nat
deriving DecidableEq, Repr

/-- Composition of a background pixel and the first sprite pixel, if any: the palette-RAM index shown (R356). -/
def compose (bg : BgPixel) (sp : Option SprHit) : Nat :=
  let below := if bg.px ≠ 0 then bg.pal * 4 + bg.px else 0
  match sp with
  | none => below
  | some h => if h.attr.getLsbD 5 ∧ bg.px ≠ 0 then below else 0x10 + h.attr.toNat % 4 * 4 + h.px

/-- Sprite `n`'s pixel as a hit, none when it is transparent. -/
def sprHit (oam : Memory) (n px : Nat) : Option SprHit :=
  if px = 0 then none else some { attr := oamByte oam n 2, px := px }

/-- `outIndex(x, y)`: the lowest-numbered sprite with a non-transparent pixel is the one considered (R356). -/
def outIndex (s : State) (x y : Nat) : Nat :=
  let sn := snapAt s.ppu y
  let bg := if bgShown sn x then bgPixel s x y else bgNone
  let sp :=
    if sprShown sn x then (List.range 64).findSome? (fun n => sprHit s.ppu.oam n (sprPixel s n x y)) else none
  compose bg sp

/-- The colour a palette-RAM index shows: `NES_COLOR[PAL[palIndex(i)] & 0x3F]` (R359, R360). -/
def colourOf (cfg : Config) (pal : Memory) (i : Nat) : Nat :=
  cfg.colour (pal.read (palIndex (BitVec.ofNat 14 i)))

/-- `spriteZeroTest(x, y)` (R357). -/
def spriteZeroTest (x y : Nat) (s : State) : State :=
  let sn := snapAt s.ppu y
  let applies := !s.ppu.status.getLsbD 6 && sn.mask.getLsbD 3 && sn.mask.getLsbD 4 && x != 255 &&
    (decide (8 ≤ x) || (sn.mask.getLsbD 1 && sn.mask.getLsbD 2))
  if applies && (bgPixel s x y).px != 0 && sprPixel s 0 x y != 0 then
    { s with ppu := { s.ppu with status := s.ppu.status ||| 0x40 } }
  else s

/-- Applies `f` to each element in order, threading the state. -/
def mapState {α β : Type} (f : α → State → β × State) (l : List α) (s : State) : List β × State :=
  match l with
  | [] => ([], s)
  | x :: rest =>
    let r := f x s
    let rs := mapState f rest r.2
    (r.1 :: rs.1, rs.2)

/-- What the four reads of a background tile give: its palette number and its two pattern bytes (R370). -/
structure TileFetch where
  pal : Nat
  lo : Byte
  hi : Byte
deriving DecidableEq, Repr

/-- Fetch `k` of scanline `y`: nametable byte, attribute byte, pattern low, pattern high of the tile covering
`sx = ((origin_x(y) & ~7) + 8k) mod 512` (R370). -/
def fetchTile (sn : Snapshot) (y k : Nat) (s : State) : TileFetch × State :=
  let sx := (originX sn / 8 * 8 + 8 * k) % 512
  let sy := planeY sn y
  let tile := ppuRead (tileAddr sx sy) s
  let attr := ppuRead (attributeAddr sx sy) tile.2
  let a := bgPatternAddr sn tile.1 sy
  let lo := ppuRead a attr.2
  let hi := ppuRead (a + 8) lo.2
  ({ pal := attributePalette attr.1 sx sy, lo := lo.1, hi := hi.1 }, hi.2)

/-- The 34 tile fetches of scanline `y`, none with the background disabled (R370). -/
def fetchLine (y : Nat) (s : State) : List TileFetch × State :=
  let sn := snapAt s.ppu y
  if sn.mask.getLsbD 3 then mapState (fetchTile sn y) (List.range 34) s else ([], s)

/-- The two pattern bytes of the row of sprite `n` on scanline `y`. -/
structure RowFetch where
  n : Nat
  y : Nat
  lo : Byte
  hi : Byte
deriving DecidableEq, Repr

/-- The reads of sprite `n` on scanline `y`: pattern low, pattern high of its row, where it has one and sprites are enabled (R370). -/
def fetchRow (n y : Nat) (s : State) : Option RowFetch × State :=
  let sn := snapAt s.ppu y
  match spriteRow s.ppu.oam sn n y with
  | none => (none, s)
  | some r =>
    if sn.mask.getLsbD 4 then
      let a := spritePatternAddr s.ppu.oam sn n r
      let lo := ppuRead a s
      let hi := ppuRead (a + 8) lo.2
      (some { n := n, y := y, lo := lo.1, hi := hi.1 }, hi.2)
    else (none, s)

/-- The rows of sprite `n`, scanlines ascending (R370). -/
def fetchSprite (n : Nat) (s : State) : List RowFetch × State :=
  let r := mapState (fetchRow n) (List.range 240) s
  (r.1.filterMap id, r.2)

/-- The background pixel of column `x` taken from the scanline's fetches: "a tile's eight pixels all come from its one fetch" (R370). -/
def bgFromFetches (sn : Snapshot) (tiles : List TileFetch) (x : Nat) : BgPixel :=
  let o := originX sn
  match tiles[(o % 8 + x) / 8]? with
  | none => bgNone
  | some f => { pal := f.pal, px := planeBits f.lo f.hi ((o + x) % 8) }

/-- The first non-transparent sprite pixel of column `x` among the scanline's row fetches, which are in index order. -/
def sprFromFetches (oam : Memory) (rows : List RowFetch) (x : Nat) : Option SprHit :=
  rows.findSome? fun f =>
    match spriteCol oam f.n x with
    | none => none
    | some c => sprHit oam f.n (planeBits f.lo f.hi c)

/-- The colours of one scanline from its fetches (R356, R359). -/
def lineColours (s : State) (y : Nat) (tiles : List TileFetch) (rows : List RowFetch) : Vector Nat 256 :=
  let sn := snapAt s.ppu y
  Vector.ofFn fun x =>
    let bg := if bgShown sn x then bgFromFetches sn tiles x else bgNone
    let sp := if sprShown sn x then sprFromFetches s.ppu.oam rows x else none
    colourOf s.cfg s.ppu.pal (compose bg sp)

/-- The framebuffer of a frame from the fetches of its background and sprite passes (R359). -/
def frameColours (s : State) (tiles : List (List TileFetch)) (rows : List RowFetch) : Vector (Vector Nat 256) 240 :=
  Vector.ofFn fun y => lineColours s y (tiles.getD y []) (rows.filter (fun f => f.y == y.val))

/-- `renderFrame()`: the background pass, the sprite pass, the picture (R359, R370). -/
def renderFrame (s : State) : State :=
  let bg := mapState fetchLine (List.range 240) s
  let spr := mapState fetchSprite (List.range 64) bg.2
  { spr.2 with ppu := { spr.2.ppu with fb := frameColours s bg.1 spr.1.flatten } }

end Sys2Proof.Machine
end

