-- ==== Sys2Proof/Machine/PpuClock.lean ====
section
/-!
DEFINITION. The PPU's part of a master tick: the events of the current (scanline, dot) and then the advance (R330 to R333 of 62_ppu.md).
-/

namespace Sys2Proof.Machine

/-- `vblankStart()` (R331): the only place `nmi_line` is raised (D33). -/
def vblankStart (s : State) : State :=
  { s with ppu := { s.ppu with status := s.ppu.status ||| 0x80, nmiLine := s.ppu.ctrl.getLsbD 7 || s.ppu.nmiLine } }

/-- `preRenderClear()` (R332). -/
def preRenderClear (s : State) : State :=
  { s with ppu := { s.ppu with status := s.ppu.status &&& 0x1F, nmiLine := false } }

/-- `snap[scanline] <- (t, fine_x & 7, ppu_ctrl, ppu_mask)` (R330, R350). -/
def takeSnapshot (s : State) : State :=
  let sn : Snapshot := { t := s.ppu.t, fineX := s.ppu.fineX.setWidth 3, ctrl := s.ppu.ctrl, mask := s.ppu.mask }
  { s with ppu := { s.ppu with snap := s.ppu.snap.set s.ppu.scanline sn } }

/-- The position at which `renderFrame()` runs, scanline and dot: that of the clock which sets `frame_complete` (D29), or (240, 0) (R330, R359);
log 13. -/
def renderPosition (cfg : Config) : Nat × Nat :=
  if cfg.renderAtFrameEnd then (261, 340) else (240, 0)

/-- The events of the current position, in the order of R330 (no two of them fall on one position). -/
def ppuEvents (s : State) : State :=
  let y := s.ppu.scanline
  let d := s.ppu.dot
  if y ≤ 239 then
    if d = 0 then takeSnapshot s else if d ≤ 256 then spriteZeroTest (d - 1) y s else s
  else if (y, d) = renderPosition s.cfg then renderFrame s
  else if y = 241 then if d = 1 then vblankStart s else s
  else if y = 261 then if d = 1 then preRenderClear s else s
  else s

/-- The advance: "dot increments every call, wrapping at 341 to increment scanline; scanline wraps at 262 to complete a frame" (R330, R333). -/
def ppuAdvance (s : State) : State :=
  if s.ppu.dot + 1 = 341 then
    if s.ppu.scanline + 1 = 262 then { s with ppu := { s.ppu with dot := 0, scanline := 0, frameComplete := true } }
    else { s with ppu := { s.ppu with dot := 0, scanline := s.ppu.scanline + 1 } }
  else { s with ppu := { s.ppu with dot := s.ppu.dot + 1 } }

/-- `PPU.clock()` (R330). -/
def ppuClock (s : State) : State :=
  ppuAdvance (ppuEvents s)

end Sys2Proof.Machine
end

