-- ==== Sys2Proof/Machine/Tick.lean ====
section
/-!
DEFINITION. The parts of a master tick (R300 of 61_bus_dma_controllers.md): fetching an instruction, the CPU's `clock()`, the DMA step, the
NMI forwarding and the end of the tick.
-/

namespace Sys2Proof.Machine

/-- Reads of `n` bytes at consecutive addresses from `a`, the lowest address first. -/
def readBytes (a : Word) (n : Nat) (s : State) : List Byte × State :=
  match n with
  | 0 => ([], s)
  | n + 1 =>
    let b := cpuRead a s
    let r := readBytes (a + 1) n b.2
    (b.1 :: r.1, r.2)

/-- The entry of the instruction table for an opcode byte with its operand bytes: what they decode to where the opcode is `MAPPED`, else the entry
XXX (R150, R151; R7 of 00_scope.md, D4). -/
def tableEntry (cfg : Config) (op b1 b2 : Byte) : Instr :=
  if op ∈ cfg.mapped then decodeOp op b1 b2 else .xxx op

/-- Reads the bytes of the instruction at PC and looks them up: the opcode, then as many operand bytes as its entry's length says, in address
order (R141, R131, R105 of 20_memory.md). PC is not changed. -/
def fetch (s : State) : Instr × State :=
  let op := cpuRead s.cpu.pc s
  match (tableEntry s.cfg op.1 0 0).length with
  | 2 =>
    let b1 := cpuRead (s.cpu.pc + 1) op.2
    (tableEntry s.cfg op.1 b1.1 0, b1.2)
  | 3 =>
    let b1 := cpuRead (s.cpu.pc + 1) op.2
    let b2 := cpuRead (s.cpu.pc + 2) b1.2
    (tableEntry s.cfg op.1 b1.1 b2.1, b2.2)
  | _ => (tableEntry s.cfg op.1 0 0, op.2)

/-- Executes one whole instruction: "All bus accesses and all register writes of the instruction happen in this one call" (R141). -/
def runInstruction (s : State) : Host.Outcome State Fault Refusal :=
  let f := fetch s
  exec f.1 f.2

/-- `cyc_rem <- cyc_rem - 1`, "as on every `clock()` call" (R141). -/
def countDown (s : State) : State :=
  s.setCycRem (s.cpu.cycRem - 1)

/-- Continues with `f` where an outcome is a next state. -/
def andThen (o : Host.Outcome State Fault Refusal) (f : State → State) : Host.Outcome State Fault Refusal :=
  match o with
  | .next s => .next (f s)
  | .fault r => .fault r
  | .refused r => .refused r

/-- `CPU.clock()` (R141; R264, R265, R269 of 60_exceptions.md): with `cyc_rem = 0` an NMI entry if one is pending, otherwise one instruction;
then the count-down. -/
def cpuClock (s : State) : Host.Outcome State Fault Refusal :=
  if s.cpu.cycRem = 0 then
    if s.cpu.nmiPending then .next (countDown (enterNmi s)) else andThen (runInstruction s) countDown
  else .next (countDown s)

/-- `dmaStep()` (R304). -/
def dmaStep (s : State) : State :=
  if s.dma.dummy then
    if s.sysclk % 2 = 1 then { s with dma := { s.dma with dummy := false } } else s
  else if s.sysclk % 2 = 0 then
    let r := cpuRead (wordOf s.dma.page s.dma.index) s
    { r.2 with dma := { r.2.dma with data := r.1 } }
  else
    let index := s.dma.index + 1
    { s with
      ppu := { s.ppu with oam := s.ppu.oam.write s.dma.index.toNat s.dma.data }
      dma :=
        { s.dma with
          index := index
          active := index != 0x00
          dummy := index == 0x00 } }

/-- A CPU slot: the APU, then the DMA step or the CPU (R300, R302). -/
def cpuSlot (s : State) : Host.Outcome State Fault Refusal :=
  let s := apuClock s
  if s.dma.active then .next (dmaStep s) else cpuClock s

/-- NMI forwarding: the line is cleared and `CPU.nmi()` called once (R306). -/
def forwardNmi (s : State) : State :=
  if s.ppu.nmiLine then requestNmi { s with ppu := { s.ppu with nmiLine := false } } else s

/-- The end of a tick: NMI forwarding, `sysclk <- sysclk + 1` (R300). -/
def endTick (s : State) : State :=
  let s := forwardNmi s
  { s with sysclk := s.sysclk + 1 }

/-- `Bus.clock()`, the master tick (R300). -/
def busClock (s : State) : Host.Outcome State Fault Refusal :=
  let s := ppuClock s
  andThen (if s.sysclk % 3 = 0 then cpuSlot s else .next s) endTick

/-- Whether the machine may run: no cartridge, or a valid one (R453 of 64_cartridge_mappers.md). -/
def runnable (s : State) : Bool :=
  match s.cart with
  | none => true
  | some c => c.valid

/-- Places byte `b` in the storage CPU address `a` reads from, without the effects of a bus write: PRG-RAM, PRG or RAM (`withFetchWord`). -/
def placeByte (a : Word) (b : Byte) (s : State) : State :=
  match s.cart with
  | none => { s with ram := s.ram.write (a.toNat % 0x800) b }
  | some c =>
    match c.cpuMapRead a with
    | .none => { s with ram := s.ram.write (a.toNat % 0x800) b }
    | .prg off => { s with cart := some { c with prg := c.prg.write off b } }
    | .prgram off => { s with cart := some { c with prgram := c.prgram.write off b } }

/-- Whether CPU address `a` reads from storage: RAM, PRG-RAM or PRG. -/
def isStorage (a : Word) (s : State) : Bool :=
  decide (a.toNat ≤ 0x1FFF) ||
    match s.cart with
    | none => false
    | some c => decide (c.cpuMapRead a ≠ .none)

/-- Places three bytes where the next instruction is fetched: at PC where that is storage, else at 0000 with PC set there. -/
def placeProgram (b0 b1 b2 : Byte) (s : State) : State :=
  let pc := s.cpu.pc
  let s := if isStorage pc s && isStorage (pc + 1) s && isStorage (pc + 2) s then s else s.setPc 0x0000
  placeByte s.cpu.pc b0 (placeByte (s.cpu.pc + 1) b1 (placeByte (s.cpu.pc + 2) b2 s))

/-- Makes the next step a CPU slot in which the CPU starts an instruction: `sysclk` the next multiple of 3, no count-down, no pending NMI, no
DMA. -/
def readyToFetch (s : State) : State :=
  { s with
    cpu := { s.cpu with cycRem := 0, nmiPending := false }
    sysclk := (s.sysclk + 2) / 3 * 3
    dma := { s.dma with active := false } }

end Sys2Proof.Machine
end

