-- ==== Sys2Proof/Machine/Step.lean ====
section
/-!
DEFINITION. One step of the machine, and a machine whose next step fetches a given instruction.
-/

namespace Sys2Proof.Machine

/-- One step: one master tick ("one call of `Bus.clock()` is the model's step", 61_bus_dma_controllers.md; C5 of 90_conflicts.md). A machine
with an invalid cartridge is refused (R453 of 64_cartridge_mappers.md, log 7). -/
def step (s : State) : Host.Outcome State Fault Refusal :=
  if runnable s then busClock s else .refused .invalidCartridge

/-- The machine with the instruction whose bits are `w` stored where its next step fetches from (log 5). -/
def State.withFetchWord (s : State) (nbits w : Nat) : State :=
  let bytes := tableBytes nbits w
  readyToFetch (placeProgram (bytes.getD 0 0) (bytes.getD 1 0) (bytes.getD 2 0) s)

end Sys2Proof.Machine
end

