-- ==== Sys2Proof/Machine/HostOps.lean ====
section
/-!
DEFINITION. What the host can do to the machine between two ticks (R510 of 70_reset_and_hazards.md): these are not steps (log 11).
-/

namespace Sys2Proof.Machine

/-- Power-on with no cartridge: "every memory holds its `*_INIT` parameter" and the registers what they happen to hold (R501); a run goes on
with `insertCartridge` and `busReset`. -/
def powerOn (s : State) : State :=
  { s with
    ram := s.cfg.ramInit
    cart := none
    ppu := { s.ppu with vram := s.cfg.vramInit, pal := s.cfg.paletteInit, oam := s.cfg.oamInit } }

/-- Inserts the cartridge of an image: "an invalid cartridge ... must not be inserted" (R451 to R453 of 64_cartridge_mappers.md, R503). -/
def insertCartridge (f : List Byte) (s : State) : State :=
  let c := parseImage s.cfg f
  if c.valid then { s with cart := some c } else s

/-- `Mapper.reset()` on the machine's cartridge, if it has one (R471). -/
def resetMapper (s : State) : State :=
  { s with cart := s.cart.map Cartridge.afterReset }

/-- `PPU.reset()`: the registers, and by the reading `cfg` has the snapshots; memories and framebuffer are unchanged (R373, D37; log 14). -/
def resetPpu (s : State) : State :=
  { s with
    ppu := ppuAfterReset s.ppu.vram s.ppu.pal s.ppu.oam (if s.cfg.resetKeepsSnapshots then s.ppu.snap else snapshotsAfterReset) s.ppu.fb }

/-- The part of `Bus.reset()` beyond mapper and CPU: `PPU.reset()`, `APU.reset()`, the Bus's own registers (R310 of 61_bus_dma_controllers.md). -/
def resetDevices (s : State) : State :=
  { resetPpu s with
    apu := apuAfterReset
    sysclk := 0
    dma := dmaAfterReset
    pad0 := padAfterReset
    pad1 := padAfterReset
    strobe := false }

/-- `Bus.reset()`: the mapper first, so that the vector is read through the reset mapper; then, in the order `cfg` has, the CPU and the devices
(R310, D23; log 15). -/
def busReset (s : State) : State :=
  let s := resetMapper s
  if s.cfg.resetsCpuLast then resetCpu (resetDevices s) else resetDevices (resetCpu s)

/-- `setController(0, mask)` (R309). -/
def setController0 (mask : Byte) (s : State) : State :=
  { s with pad0 := { s.pad0 with state := mask } }

/-- `setController(1, mask)` (R309). -/
def setController1 (mask : Byte) (s : State) : State :=
  { s with pad1 := { s.pad1 with state := mask } }

/-- Observes and clears `frame_complete` (R333, R510). -/
def takeFrameComplete (s : State) : Bool × State :=
  (s.ppu.frameComplete, { s with ppu := { s.ppu with frameComplete := false } })

/-- `FB[y][x]`, the framebuffer's pixel in row `y`, column `x` (R42 of 10_state.md, R359 of 62_ppu.md). -/
def framePixel (s : State) (x : Fin 256) (y : Fin 240) : Nat :=
  (s.ppu.fb.get y).get x

/-- `popSamples(buffer, count)`: the `min(count, available)` oldest samples, which are removed (R437 of 63_apu.md). -/
def popSamples (count : Nat) (s : State) : List Sample × State :=
  (s.apu.ring.take count, { s with apu := { s.apu with ring := s.apu.ring.drop count } })

/-- `n` calls of `CPU.clock()`. -/
def cpuClocks (n : Nat) (s : State) : Host.Outcome State Fault Refusal :=
  match n with
  | 0 => .next s
  | n + 1 =>
    match cpuClock s with
    | .next s => cpuClocks n s
    | .fault r => .fault r
    | .refused r => .refused r

/-- `while cyc_rem > 0: clock()`: each such call only counts down, so it is `cyc_rem` calls (R523). -/
def drainCycles (s : State) : Host.Outcome State Fault Refusal :=
  cpuClocks s.cpu.cycRem s

/-- `CPU.stepInstruction()`: drain, one `clock()`, drain; the CPU alone (R523, C5 of 90_conflicts.md). -/
def stepInstruction (s : State) : Host.Outcome State Fault Refusal :=
  match drainCycles s with
  | .next s =>
    match cpuClock s with
    | .next s => drainCycles s
    | .fault r => .fault r
    | .refused r => .refused r
  | .fault r => .fault r
  | .refused r => .refused r

end Sys2Proof.Machine
end

