-- ==== Sys2Proof/Safety.lean ====
section
/-!
DEFINITION. What claims about the machine are stated with: what a bus read cannot change, the storage of the machine, which instructions
write nothing, where a write lands, and the invariant every step keeps.
-/

namespace Sys2Proof.Machine

/-- A mapper without the one part of it a read can change, MMC2's two latches (R469 of 64_cartridge_mappers.md). -/
def Mapper.withoutLatches (m : Mapper) : Mapper :=
  match m with
  | .mmc2 r => .mmc2 { r with latch0 := false, latch1 := false }
  | .nrom => .nrom
  | .mmc1 r => .mmc1 r
  | .unrom bank => .unrom bank
  | .unsupported => .unsupported

/-- The state with everything a CPU read can change (R100 of 20_memory.md) put to a constant: the controllers' shift registers, the PPU's
status, write toggle, read buffer and VRAM address, the frame-IRQ flag, MMC2's latches, and the count of free values. Two states that agree
here differ in nothing else. -/
def State.apartFromReads (s : State) : State :=
  { s with
    pad0 := { s.pad0 with shift := 0x00 }
    pad1 := { s.pad1 with shift := 0x00 }
    cart := s.cart.map (fun c => { c with mapper := c.mapper.withoutLatches })
    ppu := { s.ppu with status := 0x00, w := false, dataBuffer := 0x00, v := 0 }
    apu := { s.apu with fs := { s.apu.fs with frameIrq := false } }
    free := 0 }

/-- The storage of the machine: the physical bytes of RAM, PRG, PRG-RAM, CHR, VRAM, palette and OAM (R27, R31, R40 of 10_state.md). -/
inductive Store where
  | ram | prg | prgram | chr | vram | pal | oam
deriving DecidableEq, Repr

/-- The bytes of one store; a cartridge's stores are empty with no cartridge. -/
def State.bytesOf (s : State) (m : Store) : Memory :=
  match m with
  | .ram => s.ram
  | .prg => (s.cart.map (·.prg)).getD []
  | .prgram => (s.cart.map (·.prgram)).getD []
  | .chr => (s.cart.map (·.chr)).getD []
  | .vram => s.ppu.vram
  | .pal => s.ppu.pal
  | .oam => s.ppu.oam

/-- Instructions that write nothing on the bus: all but the stores, INC, DEC, the memory forms of the shifts, the pushes, JSR and BRK. -/
def storesNothing (i : Instr) : Bool :=
  match i.mnemonic, i.operand with
  | .sta, _ | .stx, _ | .sty, _ | .inc, _ | .dec, _ | .pha, _ | .php, _ | .jsr, _ | .brk, _ => false
  | .asl, .acc | .lsr, .acc | .rol, .acc | .ror, .acc => true
  | .asl, _ | .lsr, _ | .rol, _ | .ror, _ => false
  | _, _ => true

/-- The byte of storage a PPU write to `a` lands in: CHR-RAM, VRAM or the palette; none for CHR-ROM and with no cartridge (R97, R458). -/
def storedPpuByte (a : BitVec 14) (s : State) : Option (Store × Nat) :=
  if a.toNat ≤ 0x1FFF then
    match s.cart with
    | none => none
    | some c => if c.header.chrBanks = 0 then (c.ppuMap a).map (fun off => (.chr, off)) else none
  else if a.toNat ≤ 0x3EFF then some (.vram, ntIndex s.mirroring a)
  else some (.pal, palIndex a)

/-- The byte of storage a CPU write to `a` lands in, if it lands in one: RAM, OAM through PPU register 4, what PPU register 7 points at, or
PRG-RAM (R82, R85, R339, R343, R456). -/
def storedByte (a : Word) (s : State) : Option (Store × Nat) :=
  if a.toNat ≤ 0x1FFF then some (.ram, a.toNat % 0x800)
  else if a.toNat ≤ 0x3FFF then
    if a.toNat % 8 = 4 then some (.oam, s.ppu.oamAddr.toNat)
    else if a.toNat % 8 = 7 then storedPpuByte (vramAddr s.ppu.v) s
    else none
  else if 0x6000 ≤ a.toNat ∧ a.toNat < 0x8000 then
    match s.cart with
    | none => none
    | some c => if c.mapper = .unsupported then none else some (.prgram, a.toNat % 0x2000)
  else none

/-- What holds of the cartridge: a PRG bank, each store in canonical form and inside its size, MMC1's bit count at most 4 (R31, R33). -/
structure Cartridge.Sound (c : Cartridge) : Prop where
  banks : 1 ≤ c.header.prgBanks
  prg : c.prg.wf ∧ c.prg.within c.prgSize
  chr : c.chr.wf ∧ c.chr.within c.chrSize
  prgram : c.prgram.wf ∧ c.prgram.within 8192
  serial : ∀ r, c.mapper = .mmc1 r → r.count.toNat ≤ 4

/-- What holds of the PPU: its counters in range, status bits 4 to 0 not driven and bit 5 never set, `fine_x` three bits, 240 snapshots, each
memory in canonical form and inside its size (R36 to R41). -/
structure Ppu.Sound (p : Ppu) : Prop where
  scanline : p.scanline ≤ 261
  dot : p.dot ≤ 340
  status : p.status &&& 0x3F = 0x00
  fineX : p.fineX.toNat ≤ 7
  snap : p.snap.length = 240
  vram : p.vram.wf ∧ p.vram.within 2048
  pal : p.pal.wf ∧ p.pal.within 32
  oam : p.oam.wf ∧ p.oam.within 256

/-- What holds of the APU: the frame sequencer inside its sequence, the noise register not zero, the delta-modulation bit count 1 to 8, the
phase less than one sample and the ring no longer than its capacity (R43, R46 to R48; R399, R431, R436 of 63_apu.md). -/
structure Apu.Sound (cfg : Config) (a : Apu) : Prop where
  sequence : a.fs.counter < if a.fs.mode5 then cfg.fs5Wrap else cfg.fs4Wrap
  noise : a.noise.lfsr ≠ 0
  bits : 1 ≤ a.dmc.bitsRemaining.toNat ∧ a.dmc.bitsRemaining.toNat ≤ 8
  phase : a.samplePhase < cfg.cpuClockHz
  ring : a.ring.length ≤ cfg.ringCapacity

/-- What the invariant asks of the parameters: a sample rate not above the clock rate, room for a sample in the ring, sequences of the frame
sequencer that have a length, and initial contents in canonical form and inside each memory's size (R7 of 00_scope.md). -/
structure Config.Sound (c : Config) : Prop where
  rate : c.sampleRate ≤ c.cpuClockHz
  capacity : 1 ≤ c.ringCapacity
  fourStep : 1 ≤ c.fs4Wrap
  fiveStep : 1 ≤ c.fs5Wrap
  ram : c.ramInit.wf ∧ c.ramInit.within 2048
  prgram : c.prgramInit.wf ∧ c.prgramInit.within 8192
  vram : c.vramInit.wf ∧ c.vramInit.within 2048
  oam : c.oamInit.wf ∧ c.oamInit.within 256
  palette : c.paletteInit.wf ∧ c.paletteInit.within 32
  chrram : c.chrramInit.wf ∧ c.chrramInit.within 8192

/-- The invariant of the machine: every step keeps it. -/
structure State.Sound (s : State) : Prop where
  cfg : Config.Sound s.cfg
  unused : getFlag s.cpu.p .U = true
  ram : s.ram.wf ∧ s.ram.within 2048
  cart : ∀ c, s.cart = some c → c.Sound
  ppu : s.ppu.Sound
  apu : s.apu.Sound s.cfg

/-- `n` steps. -/
def ticks (n : Nat) (s : State) : Host.Outcome State Fault Refusal :=
  match n with
  | 0 => .next s
  | n + 1 =>
    match step s with
    | .next t => ticks n t
    | .fault r => .fault r
    | .refused r => .refused r

end Sys2Proof.Machine
end

