-- ==== Sys2Proof/Certificates/Slice0/Obligations.lean ====
section
/-!
DEFINITION. The statements about the machine that are to be proved, with the rows and terms of the spec's rules they are stated in.

Each instruction rule's operand list is a function from an instruction to a row (opcode byte, operand, base cycles), written from the rule's
"Operands" and "Cycles" lines. A statement about every state holds for every value of the parameters (R7 of 00_scope.md) and of a free value; an
instruction's cost is `BASE_CYCLES[op]`, whose default, the rule's number, is `configAtReset`'s.
-/

namespace Sys2Proof.Machine

/-! ## Terms of the instruction rules -/

/-- The flags of a status byte, given flag by flag. -/
def FlagsAre (q : Byte) (e : Flag → Bool) : Prop :=
  ∀ f, getFlag q f = e f

/-- The flags after `setZN(v)` on status `p` (R12 of 00_scope.md): Z from the value being zero, N from its high bit, the others kept. -/
def znFlags (p v : Byte) (f : Flag) : Bool :=
  match f with
  | .Z => decide (v.toNat = 0)
  | .N => decide (128 ≤ v.toNat)
  | .C | .I | .D | .B | .U | .V => getFlag p f

/-- The flags after an instruction that writes C and then `setZN(v)`. -/
def cznFlags (p v : Byte) (c : Bool) (f : Flag) : Bool :=
  match f with
  | .C => c
  | .Z | .N | .I | .D | .B | .U | .V => znFlags p v f

/-- The flags after an addition or a subtraction: C and V as given, Z and N from the result. -/
def cvznFlags (p v : Byte) (c o : Bool) (f : Flag) : Bool :=
  match f with
  | .V => o
  | .C | .Z | .N | .I | .D | .B | .U => cznFlags p v c f

/-- Status `p` with one flag replaced. -/
def oneFlag (p : Byte) (g : Flag) (b : Bool) (f : Flag) : Bool :=
  if f = g then b else getFlag p f

/-- A row of an instruction that reads its operand. -/
structure Reading where
  op : Byte
  src : Source
  cycles : Nat

/-- A row of an instruction that writes its operand. -/
structure Writing where
  op : Byte
  at_ : Addressing
  cycles : Nat

/-- The CPU's registers with one of A, X, Y replaced. -/
def Cpu.put (c : Cpu) (r : Reg) (v : Byte) : Cpu :=
  match r with
  | .a => { c with a := v }
  | .x => { c with x := v }
  | .y => { c with y := v }

/-- One of A, X, Y. -/
def Cpu.get (c : Cpu) (r : Reg) : Byte :=
  match r with
  | .a => c.a
  | .x => c.x
  | .y => c.y

/-- The operands of LDA, LDX, LDY (R171, R172, R173 of 40_load_store_transfer.md) with the register each loads. -/
def loadRow (i : Instr) : Option (Reg × Reading) :=
  match i with
  | .ldaImm b => some (.a, ⟨0xA9, .imm b, 2⟩)
  | .ldaZp z => some (.a, ⟨0xA5, .mem (.zp z), 3⟩)
  | .ldaZpx z => some (.a, ⟨0xB5, .mem (.zpx z), 4⟩)
  | .ldaAbs a => some (.a, ⟨0xAD, .mem (.abs a), 4⟩)
  | .ldaAbx a => some (.a, ⟨0xBD, .mem (.abx a), 4⟩)
  | .ldaAby a => some (.a, ⟨0xB9, .mem (.aby a), 4⟩)
  | .ldaIzx z => some (.a, ⟨0xA1, .mem (.izx z), 6⟩)
  | .ldaIzy z => some (.a, ⟨0xB1, .mem (.izy z), 5⟩)
  | .ldxImm b => some (.x, ⟨0xA2, .imm b, 2⟩)
  | .ldxZp z => some (.x, ⟨0xA6, .mem (.zp z), 3⟩)
  | .ldxZpy z => some (.x, ⟨0xB6, .mem (.zpy z), 4⟩)
  | .ldxAbs a => some (.x, ⟨0xAE, .mem (.abs a), 4⟩)
  | .ldxAby a => some (.x, ⟨0xBE, .mem (.aby a), 4⟩)
  | .ldyImm b => some (.y, ⟨0xA0, .imm b, 2⟩)
  | .ldyZp z => some (.y, ⟨0xA4, .mem (.zp z), 3⟩)
  | .ldyZpx z => some (.y, ⟨0xB4, .mem (.zpx z), 4⟩)
  | .ldyAbs a => some (.y, ⟨0xAC, .mem (.abs a), 4⟩)
  | .ldyAbx a => some (.y, ⟨0xBC, .mem (.abx a), 4⟩)
  | _ => none

/-- The operands of STA, STX, STY (R174, R175, R176) with the register each stores. -/
def storeRow (i : Instr) : Option (Reg × Writing) :=
  match i with
  | .staZp z => some (.a, ⟨0x85, .zp z, 3⟩)
  | .staZpx z => some (.a, ⟨0x95, .zpx z, 4⟩)
  | .staAbs a => some (.a, ⟨0x8D, .abs a, 4⟩)
  | .staAbx a => some (.a, ⟨0x9D, .abx a, 5⟩)
  | .staAby a => some (.a, ⟨0x99, .aby a, 5⟩)
  | .staIzx z => some (.a, ⟨0x81, .izx z, 6⟩)
  | .staIzy z => some (.a, ⟨0x91, .izy z, 6⟩)
  | .stxZp z => some (.x, ⟨0x86, .zp z, 3⟩)
  | .stxZpy z => some (.x, ⟨0x96, .zpy z, 4⟩)
  | .stxAbs a => some (.x, ⟨0x8E, .abs a, 4⟩)
  | .styZp z => some (.y, ⟨0x84, .zp z, 3⟩)
  | .styZpx z => some (.y, ⟨0x94, .zpx z, 4⟩)
  | .styAbs a => some (.y, ⟨0x8C, .abs a, 4⟩)
  | _ => none

/-- The six transfers (R177 to R182): opcode byte, and the CPU after the move of a value, with whether Z and N are set from it. -/
def transferRow (i : Instr) : Option (Byte × (Cpu → Byte) × (Cpu → Byte → Cpu) × Bool) :=
  match i with
  | .tax => some (0xAA, (·.a), (fun c v => { c with x := v }), true)
  | .tay => some (0xA8, (·.a), (fun c v => { c with y := v }), true)
  | .txa => some (0x8A, (·.x), (fun c v => { c with a := v }), true)
  | .tya => some (0x98, (·.y), (fun c v => { c with a := v }), true)
  | .tsx => some (0xBA, (·.sp), (fun c v => { c with x := v }), true)
  | .txs => some (0x9A, (·.x), (fun c v => { c with sp := v }), false)
  | _ => none

/-- The operands of ADC (R191 of 42_arithmetic.md). -/
def adcRow (i : Instr) : Option Reading :=
  match i with
  | .adcImm b => some ⟨0x69, .imm b, 2⟩
  | .adcZp z => some ⟨0x65, .mem (.zp z), 3⟩
  | .adcZpx z => some ⟨0x75, .mem (.zpx z), 4⟩
  | .adcAbs a => some ⟨0x6D, .mem (.abs a), 4⟩
  | .adcAbx a => some ⟨0x7D, .mem (.abx a), 4⟩
  | .adcAby a => some ⟨0x79, .mem (.aby a), 4⟩
  | .adcIzx z => some ⟨0x61, .mem (.izx z), 6⟩
  | .adcIzy z => some ⟨0x71, .mem (.izy z), 5⟩
  | _ => none

/-- The operands of SBC (R192). -/
def sbcRow (i : Instr) : Option Reading :=
  match i with
  | .sbcImm b => some ⟨0xE9, .imm b, 2⟩
  | .sbcZp z => some ⟨0xE5, .mem (.zp z), 3⟩
  | .sbcZpx z => some ⟨0xF5, .mem (.zpx z), 4⟩
  | .sbcAbs a => some ⟨0xED, .mem (.abs a), 4⟩
  | .sbcAbx a => some ⟨0xFD, .mem (.abx a), 4⟩
  | .sbcAby a => some ⟨0xF9, .mem (.aby a), 4⟩
  | .sbcIzx z => some ⟨0xE1, .mem (.izx z), 6⟩
  | .sbcIzy z => some ⟨0xF1, .mem (.izy z), 5⟩
  | _ => none

/-- The operands of CMP, CPX, CPY (R193, R194, R195) with the register each compares. -/
def compareRow (i : Instr) : Option (Reg × Reading) :=
  match i with
  | .cmpImm b => some (.a, ⟨0xC9, .imm b, 2⟩)
  | .cmpZp z => some (.a, ⟨0xC5, .mem (.zp z), 3⟩)
  | .cmpZpx z => some (.a, ⟨0xD5, .mem (.zpx z), 4⟩)
  | .cmpAbs a => some (.a, ⟨0xCD, .mem (.abs a), 4⟩)
  | .cmpAbx a => some (.a, ⟨0xDD, .mem (.abx a), 4⟩)
  | .cmpAby a => some (.a, ⟨0xD9, .mem (.aby a), 4⟩)
  | .cmpIzx z => some (.a, ⟨0xC1, .mem (.izx z), 6⟩)
  | .cmpIzy z => some (.a, ⟨0xD1, .mem (.izy z), 5⟩)
  | .cpxImm b => some (.x, ⟨0xE0, .imm b, 2⟩)
  | .cpxZp z => some (.x, ⟨0xE4, .mem (.zp z), 3⟩)
  | .cpxAbs a => some (.x, ⟨0xEC, .mem (.abs a), 4⟩)
  | .cpyImm b => some (.y, ⟨0xC0, .imm b, 2⟩)
  | .cpyZp z => some (.y, ⟨0xC4, .mem (.zp z), 3⟩)
  | .cpyAbs a => some (.y, ⟨0xCC, .mem (.abs a), 4⟩)
  | _ => none

/-- The operands of INC and DEC (R196, R199) with what each adds, modulo 256. -/
def countRow (i : Instr) : Option (Nat × Writing) :=
  match i with
  | .incZp z => some (1, ⟨0xE6, .zp z, 5⟩)
  | .incZpx z => some (1, ⟨0xF6, .zpx z, 6⟩)
  | .incAbs a => some (1, ⟨0xEE, .abs a, 6⟩)
  | .incAbx a => some (1, ⟨0xFE, .abx a, 7⟩)
  | .decZp z => some (255, ⟨0xC6, .zp z, 5⟩)
  | .decZpx z => some (255, ⟨0xD6, .zpx z, 6⟩)
  | .decAbs a => some (255, ⟨0xCE, .abs a, 6⟩)
  | .decAbx a => some (255, ⟨0xDE, .abx a, 7⟩)
  | _ => none

/-- INX, INY, DEX, DEY (R197, R198, R200, R201): opcode byte, register, and what is added, modulo 256. -/
def countRegisterRow (i : Instr) : Option (Byte × Reg × Nat) :=
  match i with
  | .inx => some (0xE8, .x, 1)
  | .iny => some (0xC8, .y, 1)
  | .dex => some (0xCA, .x, 255)
  | .dey => some (0x88, .y, 255)
  | _ => none

/-- What AND, ORA, EOR make of one bit of A and of the operand. -/
inductive BitOp where
  | and | or | xor
deriving DecidableEq, Repr

/-- The truth tables of `&`, `|`, `^`. -/
def BitOp.bit (o : BitOp) (x y : Bool) : Bool :=
  match o, x, y with
  | .and, true, true => true
  | .and, _, _ => false
  | .or, false, false => false
  | .or, _, _ => true
  | .xor, true, false => true
  | .xor, false, true => true
  | .xor, _, _ => false

/-- The operands of AND, ORA, EOR (R205, R206, R207 of 43_logic_shift.md). -/
def logicRow (i : Instr) : Option (BitOp × Reading) :=
  match i with
  | .andImm b => some (.and, ⟨0x29, .imm b, 2⟩)
  | .andZp z => some (.and, ⟨0x25, .mem (.zp z), 3⟩)
  | .andZpx z => some (.and, ⟨0x35, .mem (.zpx z), 4⟩)
  | .andAbs a => some (.and, ⟨0x2D, .mem (.abs a), 4⟩)
  | .andAbx a => some (.and, ⟨0x3D, .mem (.abx a), 4⟩)
  | .andAby a => some (.and, ⟨0x39, .mem (.aby a), 4⟩)
  | .andIzx z => some (.and, ⟨0x21, .mem (.izx z), 6⟩)
  | .andIzy z => some (.and, ⟨0x31, .mem (.izy z), 5⟩)
  | .oraImm b => some (.or, ⟨0x09, .imm b, 2⟩)
  | .oraZp z => some (.or, ⟨0x05, .mem (.zp z), 3⟩)
  | .oraZpx z => some (.or, ⟨0x15, .mem (.zpx z), 4⟩)
  | .oraAbs a => some (.or, ⟨0x0D, .mem (.abs a), 4⟩)
  | .oraAbx a => some (.or, ⟨0x1D, .mem (.abx a), 4⟩)
  | .oraAby a => some (.or, ⟨0x19, .mem (.aby a), 4⟩)
  | .oraIzx z => some (.or, ⟨0x01, .mem (.izx z), 6⟩)
  | .oraIzy z => some (.or, ⟨0x11, .mem (.izy z), 5⟩)
  | .eorImm b => some (.xor, ⟨0x49, .imm b, 2⟩)
  | .eorZp z => some (.xor, ⟨0x45, .mem (.zp z), 3⟩)
  | .eorZpx z => some (.xor, ⟨0x55, .mem (.zpx z), 4⟩)
  | .eorAbs a => some (.xor, ⟨0x4D, .mem (.abs a), 4⟩)
  | .eorAbx a => some (.xor, ⟨0x5D, .mem (.abx a), 4⟩)
  | .eorAby a => some (.xor, ⟨0x59, .mem (.aby a), 4⟩)
  | .eorIzx z => some (.xor, ⟨0x41, .mem (.izx z), 6⟩)
  | .eorIzy z => some (.xor, ⟨0x51, .mem (.izy z), 5⟩)
  | _ => none

/-- The operands of BIT (R208). -/
def bitRow (i : Instr) : Option Reading :=
  match i with
  | .bitZp z => some ⟨0x24, .mem (.zp z), 3⟩
  | .bitAbs a => some ⟨0x2C, .mem (.abs a), 4⟩
  | _ => none

/-- The four shifts and rotates. -/
inductive ShiftOp where
  | asl | lsr | rol | ror
deriving DecidableEq, Repr

/-- The byte a shift or rotate makes of `m` with carry `c`, as a number (R209 to R212). -/
def ShiftOp.value (o : ShiftOp) (m : Byte) (c : Bool) : Nat :=
  match o with
  | .asl => m.toNat * 2 % 256
  | .lsr => m.toNat / 2
  | .rol => (m.toNat * 2 + c.toNat) % 256
  | .ror => m.toNat / 2 + 128 * c.toNat

/-- The carry a shift or rotate leaves: the bit shifted out (R209 to R212). -/
def ShiftOp.out (o : ShiftOp) (m : Byte) : Bool :=
  match o with
  | .asl | .rol => decide (128 ≤ m.toNat)
  | .lsr | .ror => decide (m.toNat % 2 = 1)

/-- The accumulator forms of the shifts: opcode byte (R209 to R212). -/
def shiftAccRow (i : Instr) : Option (ShiftOp × Byte) :=
  match i with
  | .aslAcc => some (.asl, 0x0A)
  | .lsrAcc => some (.lsr, 0x4A)
  | .rolAcc => some (.rol, 0x2A)
  | .rorAcc => some (.ror, 0x6A)
  | _ => none

/-- The memory forms of the shifts (R209 to R212). -/
def shiftMemRow (i : Instr) : Option (ShiftOp × Writing) :=
  match i with
  | .aslZp z => some (.asl, ⟨0x06, .zp z, 5⟩)
  | .aslZpx z => some (.asl, ⟨0x16, .zpx z, 6⟩)
  | .aslAbs a => some (.asl, ⟨0x0E, .abs a, 6⟩)
  | .aslAbx a => some (.asl, ⟨0x1E, .abx a, 7⟩)
  | .lsrZp z => some (.lsr, ⟨0x46, .zp z, 5⟩)
  | .lsrZpx z => some (.lsr, ⟨0x56, .zpx z, 6⟩)
  | .lsrAbs a => some (.lsr, ⟨0x4E, .abs a, 6⟩)
  | .lsrAbx a => some (.lsr, ⟨0x5E, .abx a, 7⟩)
  | .rolZp z => some (.rol, ⟨0x26, .zp z, 5⟩)
  | .rolZpx z => some (.rol, ⟨0x36, .zpx z, 6⟩)
  | .rolAbs a => some (.rol, ⟨0x2E, .abs a, 6⟩)
  | .rolAbx a => some (.rol, ⟨0x3E, .abx a, 7⟩)
  | .rorZp z => some (.ror, ⟨0x66, .zp z, 5⟩)
  | .rorZpx z => some (.ror, ⟨0x76, .zpx z, 6⟩)
  | .rorAbs a => some (.ror, ⟨0x6E, .abs a, 6⟩)
  | .rorAbx a => some (.ror, ⟨0x7E, .abx a, 7⟩)
  | _ => none

/-- The eight branches (R219 to R226 of 44_control_flow.md): opcode byte, the flag tested, the value that takes the branch, the offset. -/
def branchRow (i : Instr) : Option (Byte × Flag × Bool × Byte) :=
  match i with
  | .bcc d => some (0x90, .C, false, d)
  | .bcs d => some (0xB0, .C, true, d)
  | .beq d => some (0xF0, .Z, true, d)
  | .bne d => some (0xD0, .Z, false, d)
  | .bmi d => some (0x30, .N, true, d)
  | .bpl d => some (0x10, .N, false, d)
  | .bvc d => some (0x50, .V, false, d)
  | .bvs d => some (0x70, .V, true, d)
  | _ => none

/-- The seven flag instructions (R230 to R236 of 45_flags_system.md): opcode byte, flag, value. -/
def flagRow (i : Instr) : Option (Byte × Flag × Bool) :=
  match i with
  | .clc => some (0x18, .C, false)
  | .sec => some (0x38, .C, true)
  | .cli => some (0x58, .I, false)
  | .sei => some (0x78, .I, true)
  | .clv => some (0xB8, .V, false)
  | .cld => some (0xD8, .D, false)
  | .sed => some (0xF8, .D, true)
  | _ => none

/-- The stack address `n` above S, which for `n` from 128 on is `256 - n` below it: `STACK_PAGE | ((S + n) mod 256)` (R11, R22). -/
def stackPlace (s : State) (n : Nat) : Word :=
  BitVec.ofNat 16 (s.cfg.stackPage.toNat * 256 + (s.cpu.sp.toNat + n) % 256)

/-- The machine after the three stack writes of an exception (R238, R265): the high byte of the return address, its low byte, the status. -/
def afterSaving (s : State) (hi lo status : Byte) : State :=
  cpuWrite (stackPlace s 254) status (cpuWrite (stackPlace s 255) lo (cpuWrite (stackPlace s 0) hi s))

/-- What an operand mode answers (R136 to R146 of 30_encoding.md): its address, its page-cross cycle, and no change of state. -/
def FormsAddress (m : Addressing) (s : State) (addr extra : Nat) : Prop :=
  (effective m s).addr.toNat = addr ∧ (effective m s).extra = extra ∧ (effective m s).state = s

end Sys2Proof.Machine

open Sys2Proof Sys2Proof.Machine

/-! ## Encoding -/

/-- Words written out from the rules' own examples decode to the instructions they stand for, with the bytes after them left over. -/
def Obligations.WrittenOutWordsDecode : Prop :=
  decode [0xA9, 0x80] = .ok (.ldaImm 0x80) [] ∧
  decode [0xBD, 0xFF, 0x12] = .ok (.ldaAbx 0x12FF) [] ∧
  decode [0x96, 0xF0] = .ok (.stxZpy 0xF0) [] ∧
  decode [0x48] = .ok .pha [] ∧
  decode [0x69, 0x50] = .ok (.adcImm 0x50) [] ∧
  decode [0xFE, 0xFF, 0x02] = .ok (.incAbx 0x02FF) [] ∧
  decode [0x01, 0x20] = .ok (.oraIzx 0x20) [] ∧
  decode [0x24, 0x10] = .ok (.bitZp 0x10) [] ∧
  decode [0x7E, 0x00, 0x02] = .ok (.rorAbx 0x0200) [] ∧
  decode [0x6C, 0xFF, 0x02] = .ok (.jmpInd 0x02FF) [] ∧
  decode [0x20, 0x00, 0x90] = .ok (.jsr 0x9000) [] ∧
  decode [0xF0, 0xFE] = .ok (.beq 0xFE) [] ∧
  decode [0x00] = .ok .brk [] ∧
  decode [0x40] = .ok .rti [] ∧
  decode [0x04, 0xA9, 0x55] = .ok (.xxx 0x04) [0xA9, 0x55]

/-- Decoding the bytes of any well-formed instruction, with any bytes after them, gives that instruction and those bytes. -/
def Obligations.DecodeOfEncode : Prop :=
  ∀ (i : Instr) (rest : List Byte), i.wellFormed = true → decode (encode i ++ rest) = .ok i rest

/-- Every byte sequence long enough decodes (R152 of 30_encoding.md): whatever the three bytes, the decoder answers a well-formed
instruction whose encoding is the bytes it took, and how many it took depends on the opcode byte alone (R131). -/
def Obligations.EveryByteSequenceDecodes : Prop :=
  ∀ (op b1 b2 : Byte) (rest : List Byte), ∃ i : Instr,
    i.wellFormed = true ∧ i.opcode = op ∧ encode i = [op, b1, b2].take i.length ∧
    decode (op :: b1 :: b2 :: rest) = .ok i ([op, b1, b2].drop i.length ++ rest) ∧
    ∀ c1 c2, (decodeOp op c1 c2).length = i.length

/-- The 105 unmapped opcode values are exactly those that decode to the one entry XXX, each one byte long (R151). -/
def Obligations.UnmappedOpcodesAreOneEntry : Prop :=
  unmappedOpcodes.length = 105 ∧ unmappedOpcodes.Nodup ∧
  ∀ (op b1 b2 : Byte), (decodeOp op b1 b2 = .xxx op ↔ op ∈ unmappedOpcodes) ∧
    (op ∉ unmappedOpcodes → (decodeOp op b1 b2).mnemonic ≠ .xxx) ∧ ∀ rest, op ∈ unmappedOpcodes → decode (op :: rest) = .ok (.xxx op) rest

/-! ## Operands -/

/-- The addressing modes over an operand (R136 to R138, R140, R142, R143, R145, R146), in plain arithmetic. A zero-page pointer is two bytes
of system RAM, because no mapper of the spec claims an address below 6000 (R81). An operand byte is read exactly once, at its effective
address (R14, R170), and an immediate is the instruction's own byte (R135). -/
def Obligations.AddressingModes : Prop :=
  ∀ (s : State) (z : Byte) (a : Word) (m : Addressing),
    let x := s.cpu.x.toNat
    let y := s.cpu.y.toNat
    let pointer := fun k : Nat => (s.ram.read k).toNat + 256 * (s.ram.read ((k + 1) % 256)).toNat
    let cross := fun base addr : Nat => if addr / 256 = base / 256 then 0 else 1
    FormsAddress (.zp z) s z.toNat 0 ∧
    FormsAddress (.zpx z) s ((z.toNat + x) % 256) 0 ∧
    FormsAddress (.zpy z) s ((z.toNat + y) % 256) 0 ∧
    FormsAddress (.abs a) s a.toNat 0 ∧
    FormsAddress (.abx a) s ((a.toNat + x) % 65536) (cross a.toNat ((a.toNat + x) % 65536)) ∧
    FormsAddress (.aby a) s ((a.toNat + y) % 65536) (cross a.toNat ((a.toNat + y) % 65536)) ∧
    FormsAddress (.izx z) s (pointer ((z.toNat + x) % 256)) 0 ∧
    FormsAddress (.izy z) s ((pointer z.toNat + y) % 65536) (cross (pointer z.toNat) ((pointer z.toNat + y) % 65536)) ∧
    readSource (.imm z) s = { val := z, extra := 0, state := s } ∧
    readSource (.mem m) s =
      { val := (cpuRead (effective m s).addr s).1, extra := (effective m s).extra, state := (cpuRead (effective m s).addr s).2 }

/-! ## What each instruction does -/

/-- LDA, LDX, LDY (R171, R172, R173): the register takes the operand, Z and N are set from it, and nothing else changes but what reading the
operand changes. -/
def Obligations.LoadsTakeTheirOperand : Prop :=
  ∀ (i : Instr) (r : Reg) (row : Reading) (s : State), loadRow i = some (r, row) →
    let n := row.src.operand.length
    let o := readSource row.src (s.advance n)
    i.opcode = row.op ∧ configAtReset.baseCost row.op = row.cycles ∧
    ∃ q, exec i s = .next { o.state with
        cpu := { s.cpu.put r o.val with p := q, pc := s.cpu.pc + BitVec.ofNat 16 n, cycRem := s.cfg.baseCost row.op + o.extra } } ∧
      FlagsAre q (znFlags s.cpu.p o.val)

/-- STA, STX, STY (R174, R175, R176): one write of the register at the effective address, no read there, no flag, no register but PC. -/
def Obligations.StoresWriteTheirRegister : Prop :=
  ∀ (i : Instr) (r : Reg) (row : Writing) (s : State), storeRow i = some (r, row) →
    let n := row.at_.length
    let e := effective row.at_ (s.advance n)
    i.opcode = row.op ∧ configAtReset.baseCost row.op = row.cycles ∧
    exec i s = .next { cpuWrite e.addr (s.cpu.get r) (s.advance n) with
      cpu := { s.cpu with pc := s.cpu.pc + BitVec.ofNat 16 n, cycRem := s.cfg.baseCost row.op + e.extra } }

/-- TAX, TAY, TXA, TYA, TSX, TXS (R177 to R182): one register is copied to another, Z and N are set from the value except by TXS, and nothing
but PC and the cycle count changes beside. -/
def Obligations.TransfersCopyOneRegister : Prop :=
  ∀ (i : Instr) (op : Byte) (source : Cpu → Byte) (target : Cpu → Byte → Cpu) (zn : Bool) (s : State),
    transferRow i = some (op, source, target, zn) →
    i.opcode = op ∧ configAtReset.baseCost op = 2 ∧
    ∃ q, exec i s = .next { s with
        cpu := { target s.cpu (source s.cpu) with p := q, pc := s.cpu.pc + 1, cycRem := s.cfg.baseCost op } } ∧
      FlagsAre q (if zn then znFlags s.cpu.p (source s.cpu) else getFlag s.cpu.p)

/-- PHA and PHP (R185, R186): one write of one byte at `STACK_PAGE | S`, which for a page of RAM is a byte of RAM, and S goes down by one; PHP's
byte is P with B and U set, and P itself is kept. -/
def Obligations.PushesWriteOneStackByte : Prop :=
  ∀ (i : Instr) (s : State), i = .pha ∨ i = .php →
    let op : Byte := if i = .pha then 0x48 else 0x08
    i.opcode = op ∧ configAtReset.baseCost op = 3 ∧
    ∃ v, exec i s = .next { cpuWrite (stackPlace s 0) v s with
        cpu := { s.cpu with sp := s.cpu.sp - 1, pc := s.cpu.pc + 1, cycRem := s.cfg.baseCost op } } ∧
      (s.cfg.stackPage.toNat ≤ 0x1F → cpuWrite (stackPlace s 0) v s =
        { s with ram := s.ram.write ((s.cfg.stackPage.toNat * 256 + s.cpu.sp.toNat) % 2048) v }) ∧
      (i = .pha → v = s.cpu.a) ∧
      (i = .php → FlagsAre v fun f => if f = .B ∨ f = .U then true else getFlag s.cpu.p f)

/-- PLA and PLP (R187, R188): S goes up by one and one byte is read at `STACK_PAGE | S`, which for a page of RAM is a byte of RAM; PLA sets Z
and N from it, PLP takes every flag from it but U, which is 1. -/
def Obligations.PullsReadOneStackByte : Prop :=
  ∀ (i : Instr) (s : State), i = .pla ∨ i = .plp →
    let op : Byte := if i = .pla then 0x68 else 0x28
    let r := cpuRead (stackPlace s 1) s
    i.opcode = op ∧ configAtReset.baseCost op = 4 ∧
    (s.cfg.stackPage.toNat ≤ 0x1F →
      r = (s.ram.read ((s.cfg.stackPage.toNat * 256 + (s.cpu.sp.toNat + 1) % 256) % 2048), s)) ∧
    ∃ q, exec i s = .next { r.2 with
        cpu := { s.cpu with
          a := if i = .pla then r.1 else s.cpu.a
          sp := s.cpu.sp + 1
          p := q
          pc := s.cpu.pc + 1
          cycRem := s.cfg.baseCost op } } ∧
      FlagsAre q (if i = .pla then znFlags s.cpu.p r.1 else fun f => if f = .U then true else getFlag r.1 f)

/-- ADC (R191, R190): A becomes the sum of A, the operand and C modulo 256; C is the unsigned carry out, V says that the signed sum is out
of range, Z and N are the result's. The decimal flag plays no part. -/
def Obligations.AdcAddsWithCarry : Prop :=
  ∀ (i : Instr) (row : Reading) (s : State), adcRow i = some row →
    let n := row.src.operand.length
    let o := readSource row.src (s.advance n)
    let c := (getFlag s.cpu.p .C).toNat
    let t := s.cpu.a.toNat + o.val.toNat + c
    let signed := s.cpu.a.toInt + o.val.toInt + c
    i.opcode = row.op ∧ configAtReset.baseCost row.op = row.cycles ∧
    ∃ r q, exec i s = .next { o.state with
        cpu := { s.cpu with a := r, p := q, pc := s.cpu.pc + BitVec.ofNat 16 n, cycRem := s.cfg.baseCost row.op + o.extra } } ∧
      r.toNat = t % 256 ∧
      FlagsAre q (cvznFlags s.cpu.p r (decide (255 < t)) (decide (signed < -128 ∨ 127 < signed)))

/-- SBC (R192, R190): A becomes A minus the operand minus the borrow, the complement of C, modulo 256; C after says no borrow, V that the
signed difference is out of range, Z and N are the result's. -/
def Obligations.SbcSubtractsWithBorrow : Prop :=
  ∀ (i : Instr) (row : Reading) (s : State), sbcRow i = some row →
    let n := row.src.operand.length
    let o := readSource row.src (s.advance n)
    let borrow := (!getFlag s.cpu.p .C).toNat
    let signed := s.cpu.a.toInt - o.val.toInt - borrow
    i.opcode = row.op ∧ configAtReset.baseCost row.op = row.cycles ∧
    ∃ r q, exec i s = .next { o.state with
        cpu := { s.cpu with a := r, p := q, pc := s.cpu.pc + BitVec.ofNat 16 n, cycRem := s.cfg.baseCost row.op + o.extra } } ∧
      (r.toNat : Int) = ((s.cpu.a.toNat : Int) - o.val.toNat - borrow) % 256 ∧
      FlagsAre q (cvznFlags s.cpu.p r (decide (o.val.toNat + borrow ≤ s.cpu.a.toNat)) (decide (signed < -128 ∨ 127 < signed)))

/-- CMP, CPX, CPY (R193, R194, R195): C says register ≥ operand unsigned, Z and N are those of the difference modulo 256; V and every
register but PC are kept. -/
def Obligations.ComparesSetCarryZeroNegative : Prop :=
  ∀ (i : Instr) (r : Reg) (row : Reading) (s : State), compareRow i = some (r, row) →
    let n := row.src.operand.length
    let o := readSource row.src (s.advance n)
    i.opcode = row.op ∧ configAtReset.baseCost row.op = row.cycles ∧
    ∃ d q, exec i s = .next { o.state with
        cpu := { s.cpu with p := q, pc := s.cpu.pc + BitVec.ofNat 16 n, cycRem := s.cfg.baseCost row.op + o.extra } } ∧
      (d.toNat : Int) = (((s.cpu.get r).toNat : Int) - o.val.toNat) % 256 ∧
      FlagsAre q (cznFlags s.cpu.p d (decide (o.val.toNat ≤ (s.cpu.get r).toNat)))

/-- INC and DEC (R196, R199): one read and then one write of the effective address, the byte plus or minus one modulo 256; Z and N from the
new byte, C and V and every register but PC kept. -/
def Obligations.IncDecMemoryReadThenWrite : Prop :=
  ∀ (i : Instr) (k : Nat) (row : Writing) (s : State), countRow i = some (k, row) →
    let n := row.at_.length
    let e := effective row.at_ (s.advance n)
    let m := cpuRead e.addr (s.advance n)
    i.opcode = row.op ∧ configAtReset.baseCost row.op = row.cycles ∧
    ∃ t q, exec i s = .next { cpuWrite e.addr t m.2 with
        cpu := { s.cpu with p := q, pc := s.cpu.pc + BitVec.ofNat 16 n, cycRem := s.cfg.baseCost row.op + e.extra } } ∧
      t.toNat = (m.1.toNat + k) % 256 ∧ FlagsAre q (znFlags s.cpu.p t)

/-- INX, INY, DEX, DEY (R197, R198, R200, R201): the register plus or minus one modulo 256, Z and N from it, nothing else but PC and the cycle
count. -/
def Obligations.IncDecRegisterWraps : Prop :=
  ∀ (i : Instr) (op : Byte) (r : Reg) (k : Nat) (s : State), countRegisterRow i = some (op, r, k) →
    i.opcode = op ∧ configAtReset.baseCost op = 2 ∧
    ∃ t q, exec i s = .next { s with cpu := { s.cpu.put r t with p := q, pc := s.cpu.pc + 1, cycRem := s.cfg.baseCost op } } ∧
      t.toNat = ((s.cpu.get r).toNat + k) % 256 ∧ FlagsAre q (znFlags s.cpu.p t)

/-- AND, ORA, EOR (R205, R206, R207): each bit of A is combined with the operand's by the truth table; Z and N from the result, C and V
kept. -/
def Obligations.LogicCombinesBits : Prop :=
  ∀ (i : Instr) (w : BitOp) (row : Reading) (s : State), logicRow i = some (w, row) →
    let n := row.src.operand.length
    let o := readSource row.src (s.advance n)
    i.opcode = row.op ∧ configAtReset.baseCost row.op = row.cycles ∧
    ∃ r q, exec i s = .next { o.state with
        cpu := { s.cpu with a := r, p := q, pc := s.cpu.pc + BitVec.ofNat 16 n, cycRem := s.cfg.baseCost row.op + o.extra } } ∧
      (∀ k, r.getLsbD k = w.bit (s.cpu.a.getLsbD k) (o.val.getLsbD k)) ∧ FlagsAre q (znFlags s.cpu.p r)

/-- BIT (R208): Z says that A and the operand have no common bit; N and V are the operand's own bits 7 and 6; nothing else changes. -/
def Obligations.BitTestsOperand : Prop :=
  ∀ (i : Instr) (row : Reading) (s : State), bitRow i = some row →
    let n := row.src.operand.length
    let o := readSource row.src (s.advance n)
    i.opcode = row.op ∧ configAtReset.baseCost row.op = row.cycles ∧
    ∃ q, exec i s = .next { o.state with
        cpu := { s.cpu with p := q, pc := s.cpu.pc + BitVec.ofNat 16 n, cycRem := s.cfg.baseCost row.op + o.extra } } ∧
      (getFlag q .Z = true ↔ ∀ k, (s.cpu.a.getLsbD k && o.val.getLsbD k) = false) ∧
      getFlag q .N = o.val.getLsbD 7 ∧ getFlag q .V = o.val.getLsbD 6 ∧
      ∀ f, f ≠ .Z → f ≠ .N → f ≠ .V → getFlag q f = getFlag s.cpu.p f

/-- ASL, LSR, ROL, ROR of A (R209 to R212): the shifted byte, C the bit shifted out, Z and N from the result, no bus access. -/
def Obligations.ShiftsOfAccumulator : Prop :=
  ∀ (i : Instr) (w : ShiftOp) (op : Byte) (s : State), shiftAccRow i = some (w, op) →
    i.opcode = op ∧ configAtReset.baseCost op = 2 ∧
    ∃ t q, exec i s = .next { s with cpu := { s.cpu with a := t, p := q, pc := s.cpu.pc + 1, cycRem := s.cfg.baseCost op } } ∧
      t.toNat = w.value s.cpu.a (getFlag s.cpu.p .C) ∧ FlagsAre q (cznFlags s.cpu.p t (w.out s.cpu.a))

/-- ASL, LSR, ROL, ROR of memory (R209 to R213): one read and then one write of the effective address, with the same byte and flags. -/
def Obligations.ShiftsOfMemory : Prop :=
  ∀ (i : Instr) (w : ShiftOp) (row : Writing) (s : State), shiftMemRow i = some (w, row) →
    let n := row.at_.length
    let e := effective row.at_ (s.advance n)
    let m := cpuRead e.addr (s.advance n)
    i.opcode = row.op ∧ configAtReset.baseCost row.op = row.cycles ∧
    ∃ t q, exec i s = .next { cpuWrite e.addr t m.2 with
        cpu := { s.cpu with p := q, pc := s.cpu.pc + BitVec.ofNat 16 n, cycRem := s.cfg.baseCost row.op + e.extra } } ∧
      t.toNat = w.value m.1 (getFlag s.cpu.p .C) ∧ FlagsAre q (cznFlags s.cpu.p t (w.out m.1))

/-- JMP (R215, R144): the absolute form loads PC with its operand; the indirect form with the word at the pointer, whose high byte comes from
the same page. -/
def Obligations.JumpsLoadPc : Prop :=
  ∀ (a : Word) (s : State),
    (Instr.jmpAbs a).opcode = 0x4C ∧ (Instr.jmpInd a).opcode = 0x6C ∧
    configAtReset.baseCost 0x4C = 3 ∧ configAtReset.baseCost 0x6C = 5 ∧
    exec (.jmpAbs a) s = .next { s with cpu := { s.cpu with pc := a, cycRem := s.cfg.baseCost 0x4C } } ∧
    ∃ next target : Word,
      next.toNat = a.toNat / 256 * 256 + (a.toNat + 1) % 256 ∧
      (let lo := cpuRead a (s.advance 3)
       let hi := cpuRead next lo.2
       target.toNat = hi.1.toNat * 256 + lo.1.toNat ∧
       exec (.jmpInd a) s = .next { hi.2 with cpu := { s.cpu with pc := target, cycRem := s.cfg.baseCost 0x6C } })

/-- JSR (R216): the address of its own last byte goes to the stack, high byte first, and PC is loaded with the operand. -/
def Obligations.JsrPushesItsLastAddress : Prop :=
  ∀ (a : Word) (s : State), (Instr.jsr a).opcode = 0x20 ∧ configAtReset.baseCost 0x20 = 6 ∧
    ∃ hi lo : Byte, hi.toNat * 256 + lo.toNat = (s.cpu.pc.toNat + 2) % 65536 ∧
      exec (.jsr a) s = .next { cpuWrite (stackPlace s 255) lo (cpuWrite (stackPlace s 0) hi s) with
        cpu := { s.cpu with sp := s.cpu.sp - 2, pc := a, cycRem := s.cfg.baseCost 0x20 } }

/-- RTS (R217): the two bytes pulled, low byte first, plus one. -/
def Obligations.RtsReturnsOnePastPulled : Prop :=
  ∀ s : State, Instr.rts.opcode = 0x60 ∧ configAtReset.baseCost 0x60 = 6 ∧
    let lo := cpuRead (stackPlace s 1) s
    let hi := cpuRead (stackPlace s 2) lo.2
    ∃ target : Word,
      target.toNat = (hi.1.toNat * 256 + lo.1.toNat + 1) % 65536 ∧
      exec .rts s = .next { hi.2 with cpu := { s.cpu with sp := s.cpu.sp + 2, pc := target, cycRem := s.cfg.baseCost 0x60 } }

/-- The eight branches (R218 to R226): when the tested flag has the value, PC becomes the next instruction's address plus the signed offset
modulo 65536, for one cycle above the base cost, or two when the target is in another page than the next instruction; otherwise PC goes on,
for the base cost. Nothing else changes. -/
def Obligations.BranchesOnOneFlag : Prop :=
  ∀ (i : Instr) (op : Byte) (f : Flag) (want : Bool) (d : Byte) (s : State), branchRow i = some (op, f, want, d) →
    i.opcode = op ∧ configAtReset.baseCost op = 2 ∧
    ∃ next target : Word,
      next.toNat = (s.cpu.pc.toNat + 2) % 65536 ∧ (target.toNat : Int) = ((next.toNat : Int) + d.toInt) % 65536 ∧
      exec i s = .next (if getFlag s.cpu.p f = want then
          { s with cpu := { s.cpu with
            pc := target
            cycRem := s.cfg.baseCost op + if next.toNat / 256 = target.toNat / 256 then 1 else 2 } }
        else { s with cpu := { s.cpu with pc := next, cycRem := s.cfg.baseCost op } })

/-- CLC, SEC, CLI, SEI, CLV, CLD, SED (R230 to R236): one flag is written, and nothing else changes but PC and the cycle count. -/
def Obligations.FlagInstructionsWriteOneFlag : Prop :=
  ∀ (i : Instr) (op : Byte) (f : Flag) (b : Bool) (s : State), flagRow i = some (op, f, b) →
    i.opcode = op ∧ configAtReset.baseCost op = 2 ∧
    ∃ q, exec i s = .next { s with cpu := { s.cpu with p := q, pc := s.cpu.pc + 1, cycRem := s.cfg.baseCost op } } ∧
      FlagsAre q (oneFlag s.cpu.p f b)

/-- NOP and XXX (R237, R243): PC goes on by one, XXX's cost being 2; XXX also sets the sticky diagnostic bit, whichever opcode it is. -/
def Obligations.NopAndUnmappedSkipOneByte : Prop :=
  ∀ (op : Byte) (s : State), Instr.nop.opcode = 0xEA ∧ (Instr.xxx op).opcode = op ∧ configAtReset.baseCost 0xEA = 2 ∧
    exec .nop s = .next { s with cpu := { s.cpu with pc := s.cpu.pc + 1, cycRem := s.cfg.baseCost 0xEA } } ∧
    exec (.xxx op) s = .next { s with cpu := { s.cpu with pc := s.cpu.pc + 1, cycRem := 2, diagUnknown := true } }

/-- BRK (R238, R266): the address of the opcode plus 2 and then P with B and U set go to the stack, high byte first; B, U and I are set in the
live P, the other flags kept; PC is loaded from the two bytes at `IRQ_VECTOR`, low byte first, read with the pushes already done. -/
def Obligations.BrkTakesTheSoftwareInterrupt : Prop :=
  ∀ s : State, Instr.brk.opcode = 0x00 ∧ configAtReset.baseCost 0x00 = 7 ∧
    ∃ hi lo pushed q : Byte, ∃ target : Word,
      hi.toNat * 256 + lo.toNat = (s.cpu.pc.toNat + 2) % 65536 ∧
      FlagsAre pushed (fun f => if f = .B ∨ f = .U then true else getFlag s.cpu.p f) ∧
      FlagsAre q (fun f => if f = .B ∨ f = .U ∨ f = .I then true else getFlag s.cpu.p f) ∧
      (let vl := cpuRead s.cfg.irqVector (afterSaving s hi lo pushed)
       let vh := cpuRead (s.cfg.irqVector + 1) vl.2
       target.toNat = vl.1.toNat + 256 * vh.1.toNat ∧
       exec .brk s = .next { vh.2 with
         cpu := { s.cpu with sp := s.cpu.sp - 3, p := q, pc := target, cycRem := s.cfg.baseCost 0x00 } })

/-- RTI (R239, R271): P from the first byte pulled with U set, PC from the next two, low byte first, with nothing added; no other register, and
the NMI latch is kept. -/
def Obligations.RtiRestoresStatusAndPc : Prop :=
  ∀ s : State, Instr.rti.opcode = 0x40 ∧ configAtReset.baseCost 0x40 = 6 ∧
    let p := cpuRead (stackPlace s 1) s
    let lo := cpuRead (stackPlace s 2) p.2
    let hi := cpuRead (stackPlace s 3) lo.2
    ∃ q : Byte, ∃ target : Word,
      FlagsAre q (fun f => if f = .U then true else getFlag p.1 f) ∧
      target.toNat = lo.1.toNat + 256 * hi.1.toNat ∧
      exec .rti s = .next { hi.2 with
        cpu := { s.cpu with sp := s.cpu.sp + 3, p := q, pc := target, cycRem := s.cfg.baseCost 0x40 } }

/-! ## What an instruction leaves alone -/

namespace Sys2Proof.Machine

/-- The flags each instruction's rule lists under "Flags" (R171 to R243). -/
def flagsWritten (m : Mnemonic) : List Flag :=
  match m with
  | .lda | .ldx | .ldy | .tax | .tay | .txa | .tya | .tsx | .pla | .inc | .dec | .inx | .iny | .dex | .dey | .and | .ora | .eor => [.Z, .N]
  | .adc | .sbc => [.C, .V, .Z, .N]
  | .cmp | .cpx | .cpy | .asl | .lsr | .rol | .ror => [.C, .Z, .N]
  | .bit => [.Z, .N, .V]
  | .plp | .rti => [.C, .Z, .I, .D, .B, .U, .V, .N]
  | .brk => [.B, .U, .I]
  | .clc | .sec => [.C]
  | .cli | .sei => [.I]
  | .clv => [.V]
  | .cld | .sed => [.D]
  | _ => []

end Sys2Proof.Machine

/-- An instruction that writes nothing on the bus changes the CPU's registers and, beside them, at most what its reads can change (R100): no
byte of RAM, cartridge, VRAM, palette or OAM, and no byte the CPU reads from storage. -/
def Obligations.ReadersChangeNoStorage : Prop :=
  ∀ (i : Instr) (s t : State), storesNothing i = true → exec i s = .next t →
    t.apartFromReads = { s.apartFromReads with cpu := t.cpu } ∧
    (∀ m k, (t.bytesOf m).read k = (s.bytesOf m).read k) ∧
    ∀ a, isStorage a s = true → (cpuRead a t).1 = (cpuRead a s).1

/-- Each of A, X, Y, S and each flag is changed only by the instructions whose rules name it; the NMI latch by none, the diagnostic bit by XXX
alone, and the tick counter and the parameters by none. -/
def Obligations.RegistersChangeOnlyWhereNamed : Prop :=
  ∀ (i : Instr) (s t : State), exec i s = .next t →
    (i.mnemonic ∉ [.lda, .txa, .tya, .pla, .adc, .sbc, .and, .ora, .eor] → i.operand ≠ .acc → t.cpu.a = s.cpu.a) ∧
    (i.mnemonic ∉ [.ldx, .tax, .tsx, .inx, .dex] → t.cpu.x = s.cpu.x) ∧
    (i.mnemonic ∉ [.ldy, .tay, .iny, .dey] → t.cpu.y = s.cpu.y) ∧
    (i.mnemonic ∉ [.txs, .pha, .php, .pla, .plp, .jsr, .rts, .brk, .rti] → t.cpu.sp = s.cpu.sp) ∧
    (∀ f, f ∉ flagsWritten i.mnemonic → getFlag t.cpu.p f = getFlag s.cpu.p f) ∧
    t.cpu.nmiPending = s.cpu.nmiPending ∧
    (i.mnemonic ≠ .xxx → t.cpu.diagUnknown = s.cpu.diagUnknown) ∧
    t.sysclk = s.sysclk ∧ t.cfg = s.cfg

/-- A store or a read-modify-write changes at most the one byte of storage its effective address leads to, in the state in which it writes; a
store puts its register there. Every other byte of RAM, cartridge, VRAM, palette and OAM reads as before. -/
def Obligations.StoresChangeOneByte : Prop :=
  ∀ (i : Instr) (m : Addressing) (s t : State), i.operand = .mem m → exec i s = .next t →
    let a := (effective m (s.advance m.length)).addr
    (∀ r row, storeRow i = some (r, row) →
      (∀ st k, storedByte a s ≠ some (st, k) → (t.bytesOf st).read k = (s.bytesOf st).read k) ∧
      (∀ st k, storedByte a s = some (st, k) → (t.bytesOf st).read k = s.cpu.get r)) ∧
    (i.mnemonic ∈ [.inc, .dec, .asl, .lsr, .rol, .ror] →
      ∀ st k, storedByte a (cpuRead a (s.advance m.length)).2 ≠ some (st, k) → (t.bytesOf st).read k = (s.bytesOf st).read k)

/-- A CPU write reaches exactly one target, by its address (R85, R82, R89, R303, R307): RAM modulo 2048; a PPU register; the OAM DMA trigger;
the controller strobe; an APU register; nothing at 4018 to 5FFF; the cartridge alone from 6000 on, and nothing there with no cartridge. -/
def Obligations.WritesReachOneTarget : Prop :=
  ∀ (a : Word) (v : Byte) (s : State),
    let w := cpuWrite a v s
    let n := a.toNat
    (n ≤ 0x1FFF → w = { s with ram := s.ram.write (n % 0x800) v }) ∧
    (0x2000 ≤ n → n ≤ 0x3FFF → w = ppuRegWrite (n % 8) v s ∧ w = { s with ppu := w.ppu, cart := w.cart }) ∧
    (n = 0x4014 → w = { s with dma := { active := true, page := v, index := 0, dummy := true, data := s.dma.data } }) ∧
    (n = 0x4016 → w = { s with
      strobe := v.getLsbD 0
      pad0 := { s.pad0 with shift := if v.getLsbD 0 || s.strobe then s.pad0.state else s.pad0.shift }
      pad1 := { s.pad1 with shift := if v.getLsbD 0 || s.strobe then s.pad1.state else s.pad1.shift } }) ∧
    (0x4000 ≤ n → n ≤ 0x4017 → n ≠ 0x4014 → n ≠ 0x4016 → w = { s with apu := apuRegWrite n v s.apu }) ∧
    (0x4018 ≤ n → n ≤ 0x5FFF → w = s) ∧
    (0x6000 ≤ n → w = { s with cart := w.cart }) ∧
    (0x6000 ≤ n → s.cart = none → w = s)

/-- A CPU read reaches exactly one target, by its address (R84, R89, R308, R397): RAM modulo 2048 with no side effect; a PPU register; the APU
status at 4015; a controller at 4016 and 4017; 00 with no side effect at 4000 to 4014, at 4018 to 5FFF, and from 6000 on with no cartridge.
A read of the cartridge has no side effect (R455). -/
def Obligations.ReadsReachOneTarget : Prop :=
  ∀ (a : Word) (s : State),
    let n := a.toNat
    let fill : Byte := if s.cfg.ctrlShiftFill then 0x80 else 0x00
    (n ≤ 0x1FFF → cpuRead a s = (s.ram.read (n % 0x800), s)) ∧
    (0x2000 ≤ n → n ≤ 0x3FFF → cpuRead a s = ppuRegRead (n % 8) s) ∧
    (n = 0x4015 → cpuRead a s = (apuStatus s.apu, { s with apu := { s.apu with fs := { s.apu.fs with frameIrq := false } } })) ∧
    (n = 0x4016 → cpuRead a s =
      if s.strobe then (s.pad0.state &&& 1, { s with pad0 := { s.pad0 with shift := s.pad0.state } })
      else (s.pad0.shift &&& 1, { s with pad0 := { s.pad0 with shift := s.pad0.shift >>> 1 ||| fill } })) ∧
    (n = 0x4017 → cpuRead a s =
      if s.strobe then (s.pad1.state &&& 1, { s with pad1 := { s.pad1 with shift := s.pad1.state } })
      else (s.pad1.shift &&& 1, { s with pad1 := { s.pad1 with shift := s.pad1.shift >>> 1 ||| fill } })) ∧
    (0x4000 ≤ n → n ≤ 0x4014 → cpuRead a s = (0x00, s)) ∧
    (0x4018 ≤ n → n ≤ 0x5FFF → cpuRead a s = (0x00, s)) ∧
    (0x6000 ≤ n → (cpuRead a s).2 = s) ∧
    (0x6000 ≤ n → s.cart = none → (cpuRead a s).1 = 0x00)

/-! ## The step of the machine -/

/-- A step runs the instruction the bytes at PC stand for (R141, R300, R105): in a CPU slot with no DMA, nothing left to count down and no NMI
pending, when the bytes read at PC, after the PPU's and the APU's part of the tick, are those of a well-formed instruction whose opcode is
`MAPPED`, or of an XXX, the step is that instruction's execution, in the state those reads leave, then one count of its cycles, then the end of
the tick. An opcode that is not `MAPPED` runs as the one-byte XXX (R151). The model's choice: one outside R150 runs as XXX even
where a machine has it in `MAPPED`, since the spec gives such a value no meaning (log 8). -/
def Obligations.StepRunsTheInstructionAtPc : Prop :=
  ∀ (i : Instr) (s : State),
    runnable s = true → s.sysclk % 3 = 0 → s.dma.active = false → s.cpu.cycRem = 0 → s.cpu.nmiPending = false →
    let q := apuClock (ppuClock s)
    let runs := fun (j : Instr) (u : State) => ∃ t, exec j u = .next t ∧
      step s = .next (endTick { t with cpu := { t.cpu with cycRem := t.cpu.cycRem - 1 } })
    let bytes := readBytes s.cpu.pc i.length q
    let first := cpuRead s.cpu.pc q
    q.cpu = s.cpu ∧
    (i.wellFormed = true → (i.opcode ∈ s.cfg.mapped ∨ i.mnemonic = .xxx) → bytes.1 = encode i → runs i bytes.2) ∧
    (first.1 ∉ s.cfg.mapped → runs (.xxx first.1) first.2)

/-- The ticks in which the CPU starts nothing (R300, R302, R141): two of three ticks run the PPU alone; a slot under DMA runs the APU and the DMA
step; a slot with cycles left counts one down. In all of them PC, A, X, Y, S, P and RAM are kept and `sysclk` goes up by one. -/
def Obligations.OtherTicksKeepTheCpu : Prop :=
  ∀ s t : State, step s = .next t →
    t.sysclk = s.sysclk + 1 ∧
    (s.sysclk % 3 ≠ 0 → t.cpu = { s.cpu with nmiPending := t.cpu.nmiPending } ∧ t.apu = s.apu ∧ t.dma = s.dma ∧ t.ram = s.ram ∧
      t.pad0 = s.pad0 ∧ t.pad1 = s.pad1) ∧
    (s.sysclk % 3 = 0 → s.dma.active = true → t.cpu = { s.cpu with nmiPending := t.cpu.nmiPending } ∧ t.ram = s.ram) ∧
    (s.sysclk % 3 = 0 → s.dma.active = false → s.cpu.cycRem ≠ 0 →
      t.cpu = { s.cpu with cycRem := s.cpu.cycRem - 1, nmiPending := t.cpu.nmiPending } ∧ t.dma = s.dma ∧ t.ram = s.ram)

/-- No instruction faults or is refused, in any state (R260); a machine with no cartridge or a valid one always steps, and one with an invalid
cartridge is refused (R453). -/
def Obligations.TheMachineNeverHalts : Prop :=
  (∀ (i : Instr) (s : State), ∃ t, exec i s = .next t) ∧
  (∀ s : State, (∀ c, s.cart = some c → c.valid = true) → ∃ t, step s = .next t) ∧
  (∀ (s : State) (c : Cartridge), s.cart = some c → c.valid = false → step s = .refused .invalidCartridge)

/-- NMI entry (R265): PC and then P with B clear and U set go to the stack, high byte first; I is set in the live P and nothing else in it; PC is
loaded from the two bytes at `NMI_VECTOR`, low byte first, read with the pushes already done; `NMI_CYCLES` are charged and the latch is cleared.
A, X, Y and all else are kept. A slot with nothing to count down and an NMI pending does this and fetches nothing (R264, R269). -/
def Obligations.NmiEntrySavesAndJumps : Prop :=
  ∀ s : State,
    (∃ hi lo pushed q : Byte, ∃ target : Word,
      hi.toNat * 256 + lo.toNat = s.cpu.pc.toNat ∧
      FlagsAre pushed (fun f => if f = .B then false else if f = .U then true else getFlag s.cpu.p f) ∧
      FlagsAre q (oneFlag s.cpu.p .I true) ∧
      (let vl := cpuRead s.cfg.nmiVector (afterSaving s hi lo pushed)
       let vh := cpuRead (s.cfg.nmiVector + 1) vl.2
       target.toNat = vl.1.toNat + 256 * vh.1.toNat ∧
       enterNmi s = { vh.2 with
         cpu := { s.cpu with sp := s.cpu.sp - 3, p := q, pc := target, cycRem := s.cfg.nmiCycles, nmiPending := false } })) ∧
    (runnable s = true → s.sysclk % 3 = 0 → s.dma.active = false → s.cpu.cycRem = 0 → s.cpu.nmiPending = true →
      step s = .next (endTick (countDown (enterNmi (apuClock (ppuClock s))))))

/-- Where an NMI comes from (R263, R264, R306, R331): a step that leaves one newly pending was the tick of scanline 241, dot 1, with NMI enable
set, and such a tick leaves one pending; the line is low after every step; and a pending NMI stays pending until a slot in which the CPU can
take it. The premise on the line is the first clause's conclusion. -/
def Obligations.NmiIsRaisedAtVblankOnly : Prop :=
  ∀ s t : State, step s = .next t →
    t.ppu.nmiLine = false ∧
    (s.ppu.nmiLine = false → s.cpu.nmiPending = false → t.cpu.nmiPending = true →
      s.ppu.scanline = 241 ∧ s.ppu.dot = 1 ∧ s.ppu.ctrl.getLsbD 7 = true) ∧
    (s.ppu.scanline = 241 → s.ppu.dot = 1 → s.ppu.ctrl.getLsbD 7 = true → t.cpu.nmiPending = true) ∧
    (s.cpu.nmiPending = true → ¬ (s.sysclk % 3 = 0 ∧ s.dma.active = false ∧ s.cpu.cycRem = 0) → t.cpu.nmiPending = true)

/-- What no step ever changes: the parameters, the header and validity of the cartridge, PRG (R88, R456), CHR-ROM (R458), and the button masks,
which only the host writes (R309); and the diagnostic bit is never cleared (R273). -/
def Obligations.StepKeepsRomAndParameters : Prop :=
  ∀ s t : State, step s = .next t →
    t.cfg = s.cfg ∧ t.cart.map (·.header) = s.cart.map (·.header) ∧ t.cart.map (·.valid) = s.cart.map (·.valid) ∧
    t.bytesOf .prg = s.bytesOf .prg ∧
    ((∀ c, s.cart = some c → c.header.chrBanks ≠ 0) → t.bytesOf .chr = s.bytesOf .chr) ∧
    t.pad0.state = s.pad0.state ∧ t.pad1.state = s.pad1.state ∧
    (s.cpu.diagUnknown = true → t.cpu.diagUnknown = true)

namespace Sys2Proof.Machine

/-- In the RAM of `h`, the byte `k` places below the S of `s` is as `t` has it, the stack page of `s` being one of RAM (R83). -/
def SameStackByte (s h t : State) (k : Nat) : Prop :=
  let a := (s.cfg.stackPage.toNat * 256 + (s.cpu.sp - BitVec.ofNat 8 k).toNat) % 2048
  h.ram.read a = t.ram.read a

end Sys2Proof.Machine

/-- An exception and the return from it (R270, R271, R239), for a stack page in RAM: in whatever state `h` a handler executes RTI, if S and the
three bytes of the frame are as BRK or NMI entry left them, then PC, S and the flags are those of before the exception, except that after BRK PC
is two past the opcode with B set, and after an NMI B is clear; U is set. -/
def Obligations.RtiUndoesTheException : Prop :=
  ∀ (s h u : State) (frame : State), (exec .brk s = .next frame ∨ enterNmi s = frame) →
    s.cfg.stackPage.toNat ≤ 0x1F → h.cfg.stackPage = s.cfg.stackPage → h.cpu.sp = frame.cpu.sp →
    (∀ k < 3, SameStackByte s h frame k) →
    exec .rti h = .next u →
    u.cpu.sp = s.cpu.sp ∧ u.cpu.a = h.cpu.a ∧ u.cpu.x = h.cpu.x ∧ u.cpu.y = h.cpu.y ∧ u.ram = h.ram ∧
    (exec .brk s = .next frame → u.cpu.pc = s.cpu.pc + 2 ∧
      FlagsAre u.cpu.p (fun f => if f = .B ∨ f = .U then true else getFlag s.cpu.p f)) ∧
    (enterNmi s = frame → u.cpu.pc = s.cpu.pc ∧
      FlagsAre u.cpu.p (fun f => if f = .B then false else if f = .U then true else getFlag s.cpu.p f))

/-- A subroutine returns behind its call, and a pull takes back what was pushed (R216, R217, R185, R187, R186, R188), for a stack page in RAM: with
S and the pushed bytes, two for JSR and one for PHA and PHP, as they were left, RTS after JSR comes to the instruction after the JSR, PLA after
PHA gives A, and PLP after PHP gives P with B and U set. -/
def Obligations.ReturnsUndoCallsAndPullsUndoPushes : Prop :=
  ∀ (s t h u : State) (a : Word), s.cfg.stackPage.toNat ≤ 0x1F → h.cfg.stackPage = s.cfg.stackPage → h.cpu.sp = t.cpu.sp →
    SameStackByte s h t 0 →
    (SameStackByte s h t 1 → exec (.jsr a) s = .next t → exec .rts h = .next u → u.cpu.sp = s.cpu.sp ∧ u.cpu.pc = s.cpu.pc + 3) ∧
    (exec .pha s = .next t → exec .pla h = .next u → u.cpu.sp = s.cpu.sp ∧ u.cpu.a = s.cpu.a) ∧
    (exec .php s = .next t → exec .plp h = .next u → u.cpu.sp = s.cpu.sp ∧ u.cpu.p = s.cpu.p ||| 0x30)

/-! ## The invariant -/

/-- Every step keeps the invariant of `State.Sound`: the parameters usable (their six memories canonical and inside their sizes, the sequence
positions above 0, the ring's capacity at least 1, the sample rate at most the clock), every memory canonical and inside its size, the PPU's
counters in range and its undriven status bits 0, U set in P, the frame sequencer inside its sequence, the noise register not zero, MMC1's bit
count at most 4, the ring no longer than its capacity. -/
def Obligations.StepKeepsTheMachineSound : Prop :=
  ∀ s t : State, s.Sound → step s = .next t → t.Sound

/-- The machine is sound right after reset. Its conditions on parameters and on memories rest on the model's choices for `State.reset` (logs 2,
3, 8). -/
def Obligations.ResetMachineIsSound : Prop :=
  State.reset.Sound

/-! ## Reset -/

/-- `State.reset`, register by register: what the spec gives a value (R502, R262, R30, R33 to R48, R440), and the parameters' defaults (R7). It is
what `Bus.reset()` makes of the powered-on machine. The model's choices in it: no cartridge, so that the vector reads as unmapped (log 5); the
values of the parameters R7 leaves OPEN and the memories (logs 2, 3), of which only the two suggested cycle counts are stated here (log 8); the
framebuffer (log 4) and the snapshots at power-on (log 14), and the three readings `renderAtFrameEnd`, `resetKeepsSnapshots` and
`resetsCpuLast` (logs 13, 14, 15). -/
def Obligations.ResetStateValues : Prop :=
  let s := State.reset
  let env : Envelope := { lengthHalt := false, constVolume := false, volume := 0, start := false, divider := 0, decay := 0 }
  let pulse : Pulse := { enabled := false, duty := 0, env := env, sweepReg := 0x00, timerPeriod := 0, timer := 0, seqPos := 0, length := 0x00 }
  s.cpu = { a := 0x00, x := 0x00, y := 0x00, sp := 0xFD, p := 0x24, pc := 0x0000, cycRem := s.cfg.resetCycles, nmiPending := false
            diagUnknown := false } ∧
  s.sysclk = 0 ∧ s.dma = { active := false, page := 0x00, index := 0x00, dummy := true, data := 0x00 } ∧
  s.pad0 = { state := 0x00, shift := 0x00 } ∧ s.pad1 = { state := 0x00, shift := 0x00 } ∧ s.strobe = false ∧ s.cart = none ∧
  s.ppu = { scanline := 0, dot := 0, ctrl := 0x00, mask := 0x00, status := 0x00, v := 0, t := 0, fineX := 0x00, w := false
            oamAddr := 0x00, dataBuffer := 0x00, nmiLine := false, frameComplete := false
            vram := s.cfg.vramInit, pal := s.cfg.paletteInit, oam := s.cfg.oamInit, fb := s.ppu.fb
            snap := List.replicate 240 { t := 0, fineX := 0, ctrl := 0x00, mask := 0x00 } } ∧
  s.apu = { fs := { counter := 0, phase := false, mode5 := false, irqInhibit := false, frameIrq := false }
            pulse1 := pulse
            pulse2 := pulse
            tri := { enabled := false, control := false, linearReloadValue := 0, linear := 0, linearReload := false, timerPeriod := 0
                     timer := 0, seqPos := 0, length := 0x00 }
            noise := { enabled := false, env := env, mode := false, periodIndex := 0, timer := 0, lfsr := 1, length := 0x00 }
            dmc := { enabled := false, irqEnable := false, loop := false, rateIndex := 0, timer := 0, dac := 0, sampleAddr := 0xC000
                     sampleLen := 1, curAddr := 0x0000, bytesRemaining := 0, sampleBuffer := 0x00, bufferEmpty := true, shift := 0x00
                     bitsRemaining := 8, silence := true, dmcIrq := false }
            samplePhase := 0
            ring := [] } ∧
  s.ram = s.cfg.ramInit ∧
  s.cfg.nmiVector = 0xFFFA ∧ s.cfg.resetVector = 0xFFFC ∧ s.cfg.irqVector = 0xFFFE ∧ s.cfg.stackPage = 0x01 ∧
  (∀ op, op ∈ s.cfg.mapped ↔ op ∉ unmappedOpcodes) ∧ s.cfg.resetCycles = 7 ∧ s.cfg.nmiCycles = 7 ∧ s.cfg.ctrlShiftFill = true ∧
  s.cfg.fs4Wrap = 14916 ∧ s.cfg.fs5Wrap = 18640 ∧ s.cfg.fsStep1 = 3729 ∧ s.cfg.fsStep2 = 7457 ∧ s.cfg.fsStep3 = 11186 ∧
  busReset (powerOn s) = s

/-- `Bus.reset()` in every state (R310, R262, R373, R440, R471, R502): the mapper's registers and the mirroring first; then the CPU's registers, PC
from the two bytes at `RESET_VECTOR` read through the reset mapper, reads that change nothing where the vector is no device's; the PPU's, the APU's
and the Bus's registers; and RAM, PRG, CHR, PRG-RAM, VRAM, palette, OAM and framebuffer as they were. The CPU comes last or before the PPU as the
parameter `resetsCpuLast` says, since the spec says both (log 15); the snapshots are kept or zeroed as a parameter says, for the same reason (log
14). The model's own: for a four-screen header the value of MMC2's mirroring bit (log 12). -/
def Obligations.BusResetSetsEveryRegister : Prop :=
  ∀ s : State, ∃ vector : Word,
    let mapped := { s with
        cart := s.cart.map fun c => { c with
          mirroring := c.header.mirroring
          mapper :=
            match c.mapper with
            | .nrom => .nrom
            | .mmc1 _ => .mmc1 { shift := 0, count := 0, control := 0x0C, chr0 := 0, chr1 := 0, prg := 0 }
            | .unrom _ => .unrom 0x00
            | .mmc2 _ => .mmc2 { prg := 0, chrFd0 := 0, chrFe0 := 0, chrFd1 := 0, chrFe1 := 0, latch0 := true, latch1 := true
                                 mirror := decide (c.header.mirroring = .horizontal) }
            | .unsupported => .unsupported } }
    let env : Envelope := { lengthHalt := false, constVolume := false, volume := 0, start := false, divider := 0, decay := 0 }
    let pulse : Pulse := { enabled := false, duty := 0, env := env, sweepReg := 0x00, timerPeriod := 0, timer := 0, seqPos := 0, length := 0x00 }
    let devices := fun u : State => { u with
        ppu := { scanline := 0, dot := 0, ctrl := 0x00, mask := 0x00, status := 0x00, v := 0, t := 0, fineX := 0x00, w := false
                 oamAddr := 0x00, dataBuffer := 0x00, nmiLine := false, frameComplete := false
                 vram := s.ppu.vram, pal := s.ppu.pal, oam := s.ppu.oam, fb := s.ppu.fb
                 snap := if s.cfg.resetKeepsSnapshots then s.ppu.snap
                   else List.replicate 240 { t := 0, fineX := 0, ctrl := 0x00, mask := 0x00 } }
        apu := { fs := { counter := 0, phase := false, mode5 := false, irqInhibit := false, frameIrq := false }
                 pulse1 := pulse
                 pulse2 := pulse
                 tri := { enabled := false, control := false, linearReloadValue := 0, linear := 0, linearReload := false, timerPeriod := 0
                          timer := 0, seqPos := 0, length := 0x00 }
                 noise := { enabled := false, env := env, mode := false, periodIndex := 0, timer := 0, lfsr := 1, length := 0x00 }
                 dmc := { enabled := false, irqEnable := false, loop := false, rateIndex := 0, timer := 0, dac := 0, sampleAddr := 0xC000
                          sampleLen := 1, curAddr := 0x0000, bytesRemaining := 0, sampleBuffer := 0x00, bufferEmpty := true, shift := 0x00
                          bitsRemaining := 8, silence := true, dmcIrq := false }
                 samplePhase := 0
                 ring := [] }
        sysclk := 0
        dma := { active := false, page := 0x00, index := 0x00, dummy := true, data := 0x00 }
        pad0 := { state := 0x00, shift := 0x00 }
        pad1 := { state := 0x00, shift := 0x00 }
        strobe := false }
    let start := if s.cfg.resetsCpuLast then devices mapped else mapped
    let lo := cpuRead s.cfg.resetVector start
    let hi := cpuRead (s.cfg.resetVector + 1) lo.2
    let cpu : Cpu := { a := 0x00, x := 0x00, y := 0x00, sp := 0xFD, p := 0x24, pc := vector, cycRem := s.cfg.resetCycles, nmiPending := false
                       diagUnknown := false }
    vector.toNat = lo.1.toNat + 256 * hi.1.toNat ∧
    (s.cfg.resetVector.toNat ≤ 0x1FFE ∨ 0x4018 ≤ s.cfg.resetVector.toNat → hi.2 = start) ∧
    busReset s = if s.cfg.resetsCpuLast then { hi.2 with cpu := cpu } else devices { hi.2 with cpu := cpu }

/-! ## Memory and the cartridge -/

/-- RAM and PRG-RAM give back the byte last written at an address or at a mirror of it (R83, R88): at 0000 to 1FFF, where addresses equal
modulo 2048 are one byte, and at 6000 to 7FFF of a cartridge, where each address is its own. A write anywhere keeps PRG. -/
def Obligations.RamAndPrgRamRoundTrip : Prop :=
  ∀ (a b : Word) (v : Byte) (s : State),
    (a.toNat ≤ 0x1FFF → b.toNat ≤ 0x1FFF →
      (cpuRead b (cpuWrite a v s)).1 = if a.toNat % 2048 = b.toNat % 2048 then v else (cpuRead b s).1) ∧
    (∀ c, s.cart = some c → c.mapper ≠ .unsupported → 0x6000 ≤ a.toNat → a.toNat ≤ 0x7FFF → 0x6000 ≤ b.toNat → b.toNat ≤ 0x7FFF →
      (cpuRead b (cpuWrite a v s)).1 = if a = b then v else (cpuRead b s).1) ∧
    (cpuWrite a v s).bytesOf .prg = s.bytesOf .prg

/-- The PRG byte each mapper shows at an address of 8000 to FFFF, for its bank registers (R460, R461, R464, R468). -/
def Obligations.PrgBanksByMapper : Prop :=
  ∀ (a : Word) (s : State) (c : Cartridge), s.cart = some c → 0x8000 ≤ a.toNat → 1 ≤ c.header.prgBanks →
    let n := a.toNat
    let banks := c.header.prgBanks
    let shows := fun off : Nat => cpuRead a s = (c.prg.read off, s)
    (c.mapper = .nrom → shows (n % 32768 % (banks * 16384))) ∧
    (∀ bank, c.mapper = .unrom bank →
      (n < 0xC000 → shows (bank.toNat % banks * 16384 + n % 16384)) ∧
      (0xC000 ≤ n → shows ((banks - 1) * 16384 + n % 16384))) ∧
    (∀ r, c.mapper = .mmc1 r →
      let b := r.prg.toNat % 16
      let mode := r.control.toNat / 4 % 4
      (mode = 0 ∨ mode = 1 → shows ((b / 2 * 32768 + n % 32768) % (banks * 16384))) ∧
      (mode = 2 → n < 0xC000 → shows (n % 16384)) ∧
      (mode = 2 → 0xC000 ≤ n → shows ((b * 16384 + n % 16384) % (banks * 16384))) ∧
      (mode = 3 → n < 0xC000 → shows ((b * 16384 + n % 16384) % (banks * 16384))) ∧
      (mode = 3 → 0xC000 ≤ n → shows ((banks - 1) * 16384 + n % 16384))) ∧
    (∀ r, c.mapper = .mmc2 r → 2 ≤ banks →
      (n < 0xA000 → shows (r.prg.toNat % (2 * banks) * 8192 + n % 8192)) ∧
      (0xA000 ≤ n → shows (banks * 16384 - 24576 + (n - 0xA000))))

/-- The CHR byte each mapper shows the PPU at an address of 0000 to 1FFF (R460, R461, R465, R470), and MMC2's latches after such a read, the byte
of which is mapped with the latches before it (R469). -/
def Obligations.ChrBanksByMapper : Prop :=
  ∀ (a : BitVec 14) (s : State) (c : Cartridge), s.cart = some c → a.toNat ≤ 0x1FFF →
    let n := a.toNat
    let size := if c.header.chrBanks = 0 then 8192 else c.header.chrBanks * 8192
    (c.mapper = .nrom ∨ (∃ bank, c.mapper = .unrom bank) → ppuRead a s = (c.chr.read (n % size), s)) ∧
    (∀ r, c.mapper = .mmc1 r → ppuRead a s =
      (c.chr.read ((if r.control.getLsbD 4 = false then r.chr0.toNat / 2 * 8192 + n
        else if n < 0x1000 then r.chr0.toNat * 4096 + n % 4096 else r.chr1.toNat * 4096 + n % 4096) % size), s)) ∧
    (∀ r, c.mapper = .mmc2 r → ppuRead a s =
      (c.chr.read (((if n < 0x1000 then (if r.latch0 then r.chrFe0 else r.chrFd0)
        else if r.latch1 then r.chrFe1 else r.chrFd1).toNat * 4096 + n % 4096) % size),
       { s with cart := some { c with mapper := .mmc2 { r with
          latch0 := if n = 0x0FD8 then false else if n = 0x0FE8 then true else r.latch0
          latch1 := if 0x1FD8 ≤ n ∧ n ≤ 0x1FDF then false else if 0x1FE8 ≤ n ∧ n ≤ 0x1FEF then true else r.latch1 } } }))

/-- A write to 8000 to FFFF (R460, R461, R462, R463, R467): nothing for NROM and for MMC2 below A000; UNROM's bank; the MMC2 register of the
address; for MMC1 a set bit 7 empties the serial port and selects PRG mode 3, and from an empty port five writes with bit 7 clear load the
register of the fifth address, least significant bit first. A loaded mirroring field becomes the mirroring but for a four-screen header (R459). -/
def Obligations.MapperRegistersByAddress : Prop :=
  ∀ (a : Word) (v : Byte) (s : State) (c : Cartridge), s.cart = some c → 0x8000 ≤ a.toNat →
    let n := a.toNat
    let becomes := fun (m : Mapper) (mirroring : Mirroring) =>
      { s with cart := some { c with mapper := m, mirroring := if c.header.mirroring = .fourScreen then c.mirroring else mirroring } }
    (c.mapper = .nrom → cpuWrite a v s = s) ∧
    (∀ bank, c.mapper = .unrom bank → cpuWrite a v s = becomes (.unrom v) c.mirroring) ∧
    (∀ r, c.mapper = .mmc2 r →
      (n < 0xA000 → cpuWrite a v s = s) ∧
      (0xA000 ≤ n → n < 0xF000 → ∃ q : Mmc2, cpuWrite a v s = becomes (.mmc2 q) c.mirroring ∧
        q = { r with prg := q.prg, chrFd0 := q.chrFd0, chrFe0 := q.chrFe0, chrFd1 := q.chrFd1, chrFe1 := q.chrFe1 } ∧
        q.prg.toNat = (if n < 0xB000 then v.toNat % 16 else r.prg.toNat) ∧
        q.chrFd0.toNat = (if 0xB000 ≤ n ∧ n < 0xC000 then v.toNat % 32 else r.chrFd0.toNat) ∧
        q.chrFe0.toNat = (if 0xC000 ≤ n ∧ n < 0xD000 then v.toNat % 32 else r.chrFe0.toNat) ∧
        q.chrFd1.toNat = (if 0xD000 ≤ n ∧ n < 0xE000 then v.toNat % 32 else r.chrFd1.toNat) ∧
        q.chrFe1.toNat = (if 0xE000 ≤ n then v.toNat % 32 else r.chrFe1.toNat)) ∧
      (0xF000 ≤ n → cpuWrite a v s =
        becomes (.mmc2 { r with mirror := v.getLsbD 0 }) (if v.getLsbD 0 then .horizontal else .vertical))) ∧
    (∀ r, c.mapper = .mmc1 r →
      (v.getLsbD 7 = true → cpuWrite a v s = becomes (.mmc1 { r with shift := 0, count := 0, control := r.control ||| 0x0C }) c.mirroring) ∧
      (∀ (a0 a1 a2 a3 : Word) (v0 v1 v2 v3 : Byte), r.count = 0 → v.getLsbD 7 = false →
        (∀ b ∈ [a0, a1, a2, a3], 0x8000 ≤ b.toNat) → (∀ w ∈ [v0, v1, v2, v3], w.getLsbD 7 = false) →
        ∃ x : BitVec 5, x.getLsbD 0 = v0.getLsbD 0 ∧ x.getLsbD 1 = v1.getLsbD 0 ∧ x.getLsbD 2 = v2.getLsbD 0 ∧
          x.getLsbD 3 = v3.getLsbD 0 ∧ x.getLsbD 4 = v.getLsbD 0 ∧
          let loads := fun q : Mmc1 => (.mmc1 { q with shift := 0, count := 0 } : Mapper)
          let t := cpuWrite a v (cpuWrite a3 v3 (cpuWrite a2 v2 (cpuWrite a1 v1 (cpuWrite a0 v0 s))))
          (n < 0xA000 → t = becomes (loads { r with control := x })
            (if x.toNat % 4 = 0 then .singleLower else if x.toNat % 4 = 1 then .singleUpper
              else if x.toNat % 4 = 2 then .vertical else .horizontal)) ∧
          (0xA000 ≤ n → n < 0xC000 → t = becomes (loads { r with chr0 := x }) c.mirroring) ∧
          (0xC000 ≤ n → n < 0xE000 → t = becomes (loads { r with chr1 := x }) c.mirroring) ∧
          (0xE000 ≤ n → t = becomes (loads { r with prg := x }) c.mirroring)))

/-- The mirroring mode changes by a register write that has just loaded a mirroring field, and by nothing else (R459): in a step, only a
cartridge that is MMC1 or MMC2, and whose header does not say four-screen, ends with another mode. -/
def Obligations.MirroringChangesByOverrideOnly : Prop :=
  (∀ (a : Word) (v : Byte) (s : State) (c d : Cartridge), s.cart = some c → (cpuWrite a v s).cart = some d → d.mirroring ≠ c.mirroring →
    c.header.mirroring ≠ .fourScreen ∧ 0x8000 ≤ a.toNat ∧
    ((∃ r, c.mapper = .mmc1 r ∧ r.count = 4 ∧ a.toNat < 0xA000 ∧ v.getLsbD 7 = false) ∨
      (∃ r, c.mapper = .mmc2 r ∧ 0xF000 ≤ a.toNat ∧ d.mirroring = if v.getLsbD 0 then .horizontal else .vertical))) ∧
  (∀ (s t : State) (c d : Cartridge), step s = .next t → s.cart = some c → t.cart = some d → d.mirroring ≠ c.mirroring →
    c.header.mirroring ≠ .fourScreen ∧ ((∃ r, c.mapper = .mmc1 r) ∨ ∃ r, c.mapper = .mmc2 r) ∧ s.sysclk % 3 = 0 ∧ s.dma.active = false ∧
    s.cpu.cycRem = 0)

namespace Sys2Proof.Machine

/-- Whether two nametable addresses, 2000 to 3EFF, are one byte of VRAM in a mirroring mode (R99, its "same byte" column). -/
def sameNametableByte (m : Mirroring) (a b : Nat) : Prop :=
  a % 1024 = b % 1024 ∧
  match m with
  | .horizontal => a / 2048 % 2 = b / 2048 % 2
  | .vertical | .fourScreen => a / 1024 % 2 = b / 1024 % 2
  | .singleLower | .singleUpper => True

/-- Whether two palette addresses, 3F00 to 3FFF, are one byte of palette RAM (R98): equal modulo 32, or both the first of their group of four
and equal modulo 16. -/
def samePaletteByte (a b : Nat) : Prop :=
  a % 32 = b % 32 ∨ (a % 4 = 0 ∧ b % 4 = 0 ∧ a % 16 = b % 16)

end Sys2Proof.Machine

/-- The PPU's own memories give back what was written at an address or at a mirror of it (R97, R98, R99): nametables in every mirroring mode,
the palette with its four aliases; neither reaches into the other. -/
def Obligations.NametablesAndPaletteRoundTrip : Prop :=
  ∀ (a b : BitVec 14) (v : Byte) (s : State), 0x2000 ≤ a.toNat → 0x2000 ≤ b.toNat →
    let t := ppuWrite a v s
    t = { s with ppu := { s.ppu with vram := t.ppu.vram, pal := t.ppu.pal } } ∧
    (a.toNat < 0x3F00 → b.toNat < 0x3F00 →
      (sameNametableByte s.mirroring a.toNat b.toNat → ppuPeek b t = v) ∧
      (¬ sameNametableByte s.mirroring a.toNat b.toNat → ppuPeek b t = ppuPeek b s)) ∧
    (0x3F00 ≤ a.toNat → 0x3F00 ≤ b.toNat →
      (samePaletteByte a.toNat b.toNat → ppuPeek b t = v) ∧ (¬ samePaletteByte a.toNat b.toNat → ppuPeek b t = ppuPeek b s)) ∧
    (a.toNat < 0x3F00 → 0x3F00 ≤ b.toNat → ppuPeek b t = ppuPeek b s) ∧
    (0x3F00 ≤ a.toNat → b.toNat < 0x3F00 → ppuPeek b t = ppuPeek b s)

/-! ## The PPU -/

/-- A read of the PPU status register (R337): bits 7, 6 and 5 are the register's; afterwards bit 7 is clear and the write toggle is 0, so that a
second read finds bit 7 clear; the NMI line and the NMI latch are kept. Nothing is said of the low five bits, which are a free value. -/
def Obligations.PpuStatusReadClearsVblank : Prop :=
  ∀ (a : Word) (s : State), 0x2000 ≤ a.toNat → a.toNat ≤ 0x3FFF → a.toNat % 8 = 2 →
    let r := cpuRead a s
    (∀ k, 5 ≤ k → r.1.getLsbD k = s.ppu.status.getLsbD k) ∧
    (∃ status : Byte, r.2 = { s with ppu := { s.ppu with status := status, w := false }, free := s.free + 1 } ∧
      ∀ k, status.getLsbD k = (decide (k ≠ 7) && s.ppu.status.getLsbD k)) ∧
    (cpuRead a r.2).1.getLsbD 7 = false

/-- Writes of the PPU registers 0 to 6 (R334 to R341), field by field; nothing else changes. A write of the status register is ignored. -/
def Obligations.PpuRegisterWrites : Prop :=
  ∀ (a : Word) (d : Byte) (s : State), 0x2000 ≤ a.toNat → a.toNat ≤ 0x3FFF →
    let p := s.ppu
    let becomes := fun q : Ppu => cpuWrite a d s = { s with ppu := q }
    (a.toNat % 8 = 0 → ∃ t, becomes { p with ctrl := d, t := t } ∧
      ∀ k, t.getLsbD k = if k = 10 ∨ k = 11 then d.getLsbD (k - 10) else p.t.getLsbD k) ∧
    (a.toNat % 8 = 1 → becomes { p with mask := d }) ∧
    (a.toNat % 8 = 2 → becomes p) ∧
    (a.toNat % 8 = 3 → becomes { p with oamAddr := d }) ∧
    (a.toNat % 8 = 4 → becomes { p with oam := p.oam.write p.oamAddr.toNat d, oamAddr := p.oamAddr + 1 }) ∧
    (a.toNat % 8 = 5 → p.w = false → ∃ t fineX, becomes { p with fineX := fineX, t := t, w := true } ∧ fineX.toNat = d.toNat % 8 ∧
      ∀ k, t.getLsbD k = if k ≤ 4 then d.getLsbD (k + 3) else p.t.getLsbD k) ∧
    (a.toNat % 8 = 5 → p.w = true → ∃ t, becomes { p with t := t, w := false } ∧
      ∀ k, t.getLsbD k = if 12 ≤ k ∧ k ≤ 14 then d.getLsbD (k - 12) else if 5 ≤ k ∧ k ≤ 9 then d.getLsbD (k - 2) else p.t.getLsbD k) ∧
    (a.toNat % 8 = 6 → p.w = false → ∃ t, becomes { p with t := t, w := true } ∧
      ∀ k, t.getLsbD k = if k = 14 then false else if 8 ≤ k ∧ k ≤ 13 then d.getLsbD (k - 8) else p.t.getLsbD k) ∧
    (a.toNat % 8 = 6 → p.w = true → ∃ t, becomes { p with t := t, v := t, w := false } ∧
      ∀ k, t.getLsbD k = if k ≤ 7 then d.getLsbD k else p.t.getLsbD k)

/-- The PPU data register (R342, R343, R344) and the reads of the others (R334, R339): a read below 3F00 answers the buffered byte and loads
the buffer with the byte at the address, from 3F00 on it answers that byte; a write stores at the address and keeps the buffer; both add 1 or
32 to the 15-bit address. OAM data reads without side effect; the write-only registers read as 00. -/
def Obligations.PpuDataPort : Prop :=
  ∀ (a : Word) (d : Byte) (s : State), 0x2000 ≤ a.toNat → a.toNat ≤ 0x3FFF →
    (a.toNat % 8 = 7 → ∃ (at_ : BitVec 14) (next : BitVec 15),
      at_.toNat = s.ppu.v.toNat % 16384 ∧
      next.toNat = (s.ppu.v.toNat + if s.ppu.ctrl.getLsbD 2 then 32 else 1) % 32768 ∧
      (let r := ppuRead at_ s
       cpuRead a s = (if 0x3F00 ≤ at_.toNat then r.1 else s.ppu.dataBuffer,
         { r.2 with ppu := { s.ppu with dataBuffer := r.1, v := next } })) ∧
      (let t := ppuWrite at_ d s
       cpuWrite a d s = { t with ppu := { t.ppu with v := next } } ∧ t.ppu.dataBuffer = s.ppu.dataBuffer)) ∧
    (a.toNat % 8 = 4 → cpuRead a s = (s.ppu.oam.read s.ppu.oamAddr.toNat, s)) ∧
    (a.toNat % 8 ∈ [0, 1, 3, 5, 6] → cpuRead a s = (0x00, s))

/-- What the PPU does at each position before it advances (R330, R331, R332, R350, R357, R359): the scroll snapshot at dot 0 of a visible line;
the sprite-zero test at dots 1 to 256; the picture; vertical blank at (241, 1); the pre-render clear at (261, 1); nothing anywhere else. The picture's
position is the model's parameter, since the spec names two (log 13): that of the clock that completes the frame, or (240, 0). -/
def Obligations.PpuEventsByPosition : Prop :=
  ∀ s : State, s.ppu.scanline ≤ 261 → s.ppu.dot ≤ 340 →
    let y := s.ppu.scanline
    let d := s.ppu.dot
    let p := s.ppu
    let becomes := fun q : Ppu => ppuClock s = { s with ppu := q }
    let advanced := fun q : Ppu => { q with
      scanline := if d = 340 then (if y = 261 then 0 else y + 1) else y
      dot := if d = 340 then 0 else d + 1
      frameComplete := decide (y = 261 ∧ d = 340) || q.frameComplete }
    let renders : Prop := if s.cfg.renderAtFrameEnd then y = 261 ∧ d = 340 else y = 240 ∧ d = 0
    (y ≤ 239 → d = 0 → becomes { p with
      dot := 1, snap := p.snap.set y { t := p.t, fineX := p.fineX.setWidth 3, ctrl := p.ctrl, mask := p.mask } }) ∧
    (y ≤ 239 → 1 ≤ d → d ≤ 256 →
      let x := d - 1
      let m := (snapAt p y).mask
      let hit := m.getLsbD 3 = true ∧ m.getLsbD 4 = true ∧ x ≠ 255 ∧ (8 ≤ x ∨ (m.getLsbD 1 = true ∧ m.getLsbD 2 = true)) ∧
        (bgPixel s x y).px ≠ 0 ∧ sprPixel s 0 x y ≠ 0
      (hit → becomes { p with dot := d + 1, status := p.status ||| 0x40 }) ∧ (¬ hit → becomes { p with dot := d + 1 })) ∧
    (renders → ppuClock s = { renderFrame s with ppu := advanced (renderFrame s).ppu }) ∧
    (y = 241 → d = 1 → becomes { p with dot := 2, status := p.status ||| 0x80, nmiLine := p.ctrl.getLsbD 7 || p.nmiLine }) ∧
    (y = 261 → d = 1 → becomes { p with dot := 2, status := p.status &&& 0x1F, nmiLine := false }) ∧
    ((y ≤ 239 → 257 ≤ d) → ¬ renders → (y = 241 → d ≠ 1) → (y = 261 → d ≠ 1) → becomes (advanced p))

/-- The framebuffer after `renderFrame` (R359, R356, R360), for every cartridge but MMC2, of which the reads of a frame can move latches (R370):
the pixel in column `x` of row `y` is the colour of the palette byte that `outIndex` selects, and nothing but the framebuffer changes. -/
def Obligations.FramebufferIsThePicture : Prop :=
  ∀ s : State, (∀ c r, s.cart = some c → c.mapper ≠ .mmc2 r) →
    renderFrame s = { s with ppu := { s.ppu with fb := (renderFrame s).ppu.fb } } ∧
    ∀ (x : Fin 256) (y : Fin 240),
      framePixel (renderFrame s) x y =
        s.cfg.nesColor.get (Fin.ofNat 64 (s.ppu.pal.read (palIndex (BitVec.ofNat 14 (outIndex s x y)))).toNat)

/-- The PPU's position goes one dot on in every tick and comes back after 341 x 262 = 89342 of them, with the frame complete (R330, R333); the
PPU never clears that flag. A machine that may run makes those ticks. -/
def Obligations.AFrameIsEveryPositionOnce : Prop :=
  ∀ s : State, s.ppu.scanline ≤ 261 → s.ppu.dot ≤ 340 →
    (∀ t, step s = .next t →
      t.ppu.scanline ≤ 261 ∧ t.ppu.dot ≤ 340 ∧
      t.ppu.scanline * 341 + t.ppu.dot = (s.ppu.scanline * 341 + s.ppu.dot + 1) % 89342 ∧
      (t.ppu.frameComplete = true ↔ s.ppu.frameComplete = true ∨ (s.ppu.scanline = 261 ∧ s.ppu.dot = 340))) ∧
    (runnable s = true → ∃ t, ticks 89342 s = .next t ∧
      t.ppu.scanline = s.ppu.scanline ∧ t.ppu.dot = s.ppu.dot ∧ t.ppu.frameComplete = true ∧ t.sysclk = s.sysclk + 89342)

/-! ## The Bus and the APU -/

/-- OAM DMA (R304, R305, R301): from the first stalled slot, with the dummy cycle pending and the index 0, the transfer takes 513 slots if `sysclk`
is odd there and 514 if it is even, in which the CPU's registers and RAM are kept, only an NMI may become pending, and then the DMA is idle
again; OAM holds the page, byte `i` in place `i`, wherever the page is storage, and `oam_addr` is kept. -/
def Obligations.OamDmaCopiesAPage : Prop :=
  ∀ s : State, runnable s = true → s.sysclk % 3 = 0 → s.dma.active = true → s.dma.dummy = true → s.dma.index = 0x00 →
    let slots := if s.sysclk % 2 = 1 then 513 else 514
    (∀ m, m ≤ 3 * (slots - 1) → ∃ u, ticks m s = .next u ∧ u.dma.active = true) ∧
    ∃ t, ticks (3 * slots) s = .next t ∧
      t.dma = { active := false, page := s.dma.page, index := 0x00, dummy := true, data := t.dma.data } ∧
      t.sysclk = s.sysclk + 3 * slots ∧ t.ram = s.ram ∧ t.ppu.oamAddr = s.ppu.oamAddr ∧
      t.cpu = { s.cpu with nmiPending := t.cpu.nmiPending } ∧ (s.cpu.nmiPending = true → t.cpu.nmiPending = true) ∧
      ∀ i, i < 256 →
        let a := BitVec.ofNat 16 (s.dma.page.toNat * 256 + i)
        isStorage a s = true → t.ppu.oam.read i = (cpuRead a s).1

namespace Sys2Proof.Machine

/-- The state after `n` reads of one address. -/
def afterReads (a : Word) (n : Nat) (s : State) : State :=
  match n with
  | 0 => s
  | n + 1 => afterReads a n (cpuRead a s).2

end Sys2Proof.Machine

/-- The controllers (R307, R308): while bit 0 of the last write of 4016 is 1, every read of a port answers bit 0 of its buttons; after it goes to
0, the reads of a port answer its buttons from bit 0 to bit 7 and then the fill bit, by default 1, whatever is read of the other port. -/
def Obligations.ControllersShiftOutTheButtons : Prop :=
  ∀ (high low : Byte) (m n : Nat) (s : State), high.getLsbD 0 = true → low.getLsbD 0 = false →
    let up := cpuWrite 0x4016 high s
    let down := cpuWrite 0x4016 low up
    let button := fun (p : Pad) (k : Nat) => (p.state.getLsbD k).toNat
    let fill := s.cfg.ctrlShiftFill.toNat
    (cpuRead 0x4016 (afterReads 0x4016 n (afterReads 0x4017 m up))).1.toNat = button s.pad0 0 ∧
    (cpuRead 0x4017 (afterReads 0x4016 n (afterReads 0x4017 m up))).1.toNat = button s.pad1 0 ∧
    (cpuRead 0x4016 (afterReads 0x4016 n (afterReads 0x4017 m down))).1.toNat = (if n < 8 then button s.pad0 n else fill) ∧
    (cpuRead 0x4017 (afterReads 0x4016 n (afterReads 0x4017 m down))).1.toNat = (if m < 8 then button s.pad1 m else fill)

namespace Sys2Proof.Machine

/-- `LENGTH_TABLE` (R404). -/
def lengthLoads : List Nat :=
  [10, 254, 20, 2, 40, 4, 80, 6, 160, 8, 60, 10, 14, 12, 26, 14, 12, 16, 24, 18, 48, 20, 96, 22, 192, 24, 72, 26, 16, 28, 32, 30]

/-- The length a write of `d` to a channel's fourth register leaves (R392, R393, R394). -/
def LoadsLength (enabled : Bool) (d old new : Byte) : Prop :=
  new.toNat = if enabled then lengthLoads.getD (d.toNat / 8) 0 else old.toNat

/-- Pulse register `r` after a write of `d` (R392): `q` is the channel `p` with the fields named and no other written. -/
def PulseWritten (r : Nat) (d : Byte) (p q : Pulse) : Prop :=
  match r with
  | 0 =>
    q = { p with
      duty := q.duty
      env := { p.env with lengthHalt := d.getLsbD 5, constVolume := d.getLsbD 4, volume := q.env.volume } } ∧
    q.duty.toNat = d.toNat / 64 ∧ q.env.volume.toNat = d.toNat % 16
  | 1 => q = { p with sweepReg := d }
  | 2 => q = { p with timerPeriod := q.timerPeriod } ∧ q.timerPeriod.toNat = p.timerPeriod.toNat / 256 * 256 + d.toNat
  | _ =>
    q = { p with timerPeriod := q.timerPeriod, length := q.length, seqPos := 0, env := { p.env with start := true } } ∧
    q.timerPeriod.toNat = d.toNat % 8 * 256 + p.timerPeriod.toNat % 256 ∧ LoadsLength p.enabled d p.length q.length

/-- Triangle register `r` after a write of `d` (R393). -/
def TriangleWritten (r : Nat) (d : Byte) (p q : Triangle) : Prop :=
  match r with
  | 0 =>
    q = { p with control := d.getLsbD 7, linearReloadValue := q.linearReloadValue } ∧ q.linearReloadValue.toNat = d.toNat % 128
  | 1 => q = p
  | 2 => q = { p with timerPeriod := q.timerPeriod } ∧ q.timerPeriod.toNat = p.timerPeriod.toNat / 256 * 256 + d.toNat
  | _ =>
    q = { p with timerPeriod := q.timerPeriod, length := q.length, linearReload := true } ∧
    q.timerPeriod.toNat = d.toNat % 8 * 256 + p.timerPeriod.toNat % 256 ∧ LoadsLength p.enabled d p.length q.length

/-- Noise register `r` after a write of `d` (R394). -/
def NoiseWritten (r : Nat) (d : Byte) (p q : Noise) : Prop :=
  match r with
  | 0 =>
    q = { p with env := { p.env with lengthHalt := d.getLsbD 5, constVolume := d.getLsbD 4, volume := q.env.volume } } ∧
    q.env.volume.toNat = d.toNat % 16
  | 1 => q = p
  | 2 => q = { p with mode := d.getLsbD 7, periodIndex := q.periodIndex } ∧ q.periodIndex.toNat = d.toNat % 16
  | _ => q = { p with length := q.length, env := { p.env with start := true } } ∧ LoadsLength p.enabled d p.length q.length

/-- Delta-modulation register `r` after a write of `d` (R395). -/
def DmcWritten (r : Nat) (d : Byte) (p q : Dmc) : Prop :=
  match r with
  | 0 =>
    q = { p with
      irqEnable := d.getLsbD 7
      loop := d.getLsbD 6
      rateIndex := q.rateIndex
      dmcIrq := if d.getLsbD 7 then p.dmcIrq else false } ∧
    q.rateIndex.toNat = d.toNat % 16
  | 1 => q = { p with dac := q.dac } ∧ q.dac.toNat = d.toNat % 128
  | 2 => q = { p with sampleAddr := q.sampleAddr } ∧ q.sampleAddr.toNat = 0xC000 + d.toNat * 64
  | _ => q = { p with sampleLen := q.sampleLen } ∧ q.sampleLen.toNat = d.toNat * 16 + 1

/-- An envelope `f` that is `e` clocked once (R403). -/
def EnvelopeClocked (e f : Envelope) : Prop :=
  f = { e with start := false, divider := f.divider, decay := f.decay } ∧
  f.divider.toNat = (if e.start ∨ e.divider = 0 then e.volume.toNat else e.divider.toNat - 1) ∧
  f.decay.toNat = (if e.start then 15 else if e.divider = 0 then (if e.decay.toNat = 0 ∧ e.lengthHalt then 15 else e.decay.toNat - 1)
    else e.decay.toNat)

/-- What `quarterFrame()` clocks, from `a` to `r`: the envelopes and the linear counter (R400, R403, R409). -/
def QuarterClocked (a r : Apu) : Prop :=
  EnvelopeClocked a.pulse1.env r.pulse1.env ∧ EnvelopeClocked a.pulse2.env r.pulse2.env ∧ EnvelopeClocked a.noise.env r.noise.env ∧
  r.tri.linear.toNat = (if a.tri.linearReload then a.tri.linearReloadValue.toNat else a.tri.linear.toNat - 1) ∧
  r.tri.linearReload = (if a.tri.control then a.tri.linearReload else false)

/-- What `halfFrame()` clocks, from `a` to `r`: the lengths that are not halted go down, to no less than 0 (R401, R404). -/
def HalfClocked (a r : Apu) : Prop :=
  r.pulse1.length.toNat = a.pulse1.length.toNat - (!a.pulse1.env.lengthHalt).toNat ∧
  r.pulse2.length.toNat = a.pulse2.length.toNat - (!a.pulse2.env.lengthHalt).toNat ∧
  r.tri.length.toNat = a.tri.length.toNat - (!a.tri.control).toNat ∧
  r.noise.length.toNat = a.noise.length.toNat - (!a.noise.env.lengthHalt).toNat

/-- The APU `a` with the fields the frame sequencer can write taken from `r`. -/
def Apu.sequencedBy (a r : Apu) : Apu :=
  { a with
    fs := r.fs
    pulse1 := { a.pulse1 with env := r.pulse1.env, length := r.pulse1.length }
    pulse2 := { a.pulse2 with env := r.pulse2.env, length := r.pulse2.length }
    tri := { a.tri with linear := r.tri.linear, linearReload := r.tri.linearReload, length := r.tri.length }
    noise := { a.noise with env := r.noise.env, length := r.noise.length } }

end Sys2Proof.Machine

/-- The APU's registers, field by field (R391 to R398, R404). 4000 to 4013: each register of each channel. 4015: a write sets the five enables from
bits 0 to 4, zeroes the length of a channel it disables, stops or restarts the delta-modulation reader and clears its IRQ flag; a read answers
which lengths and the byte count are above zero and the two IRQ flags, and clears the frame-IRQ flag alone. 4017: the sequence starts again in
the mode and with the inhibit flag written, an inhibit clears the frame-IRQ flag, and five-step mode clocks the quarter and half frame. -/
def Obligations.ApuRegisterWritesAndStatus : Prop :=
  ∀ (at_ : Word) (d : Byte) (s : State),
    let a := s.apu
    let n := at_.toNat
    let becomes := fun b : Apu => cpuWrite at_ d s = { s with apu := b }
    let on := fun k : Nat => d.getLsbD k
    (0x4000 ≤ n → n ≤ 0x4003 → ∃ q, becomes { a with pulse1 := q } ∧ PulseWritten (n % 4) d a.pulse1 q) ∧
    (0x4004 ≤ n → n ≤ 0x4007 → ∃ q, becomes { a with pulse2 := q } ∧ PulseWritten (n % 4) d a.pulse2 q) ∧
    (0x4008 ≤ n → n ≤ 0x400B → ∃ q, becomes { a with tri := q } ∧ TriangleWritten (n % 4) d a.tri q) ∧
    (0x400C ≤ n → n ≤ 0x400F → ∃ q, becomes { a with noise := q } ∧ NoiseWritten (n % 4) d a.noise q) ∧
    (0x4010 ≤ n → n ≤ 0x4013 → ∃ q, becomes { a with dmc := q } ∧ DmcWritten (n % 4) d a.dmc q) ∧
    (n = 0x4015 → becomes { a with
      pulse1 := { a.pulse1 with enabled := on 0, length := if on 0 then a.pulse1.length else 0 }
      pulse2 := { a.pulse2 with enabled := on 1, length := if on 1 then a.pulse2.length else 0 }
      tri := { a.tri with enabled := on 2, length := if on 2 then a.tri.length else 0 }
      noise := { a.noise with enabled := on 3, length := if on 3 then a.noise.length else 0 }
      dmc := { a.dmc with
        enabled := on 4
        dmcIrq := false
        curAddr := if on 4 ∧ a.dmc.bytesRemaining = 0 then a.dmc.sampleAddr else a.dmc.curAddr
        bytesRemaining := if on 4 then (if a.dmc.bytesRemaining = 0 then a.dmc.sampleLen else a.dmc.bytesRemaining) else 0 } }) ∧
    (n = 0x4017 → ∃ r : Apu, becomes (a.sequencedBy r) ∧
      r.fs = { counter := 0, phase := false, mode5 := on 7, irqInhibit := on 6, frameIrq := if on 6 then false else a.fs.frameIrq } ∧
      (on 7 = true → QuarterClocked a r ∧ HalfClocked a r) ∧ (on 7 = false → r = { a with fs := r.fs })) ∧
    (cpuRead 0x4015 s).2 = { s with apu := { a with fs := { a.fs with frameIrq := false } } } ∧
    ∀ k, (cpuRead 0x4015 s).1.getLsbD k =
      match k with
      | 0 => decide (0 < a.pulse1.length.toNat)
      | 1 => decide (0 < a.pulse2.length.toNat)
      | 2 => decide (0 < a.tri.length.toNat)
      | 3 => decide (0 < a.noise.length.toNat)
      | 4 => decide (0 < a.dmc.bytesRemaining.toNat)
      | 6 => a.fs.frameIrq
      | 7 => a.dmc.dmcIrq
      | _ => false

/-- The frame sequencer's part of a slot (R390, R399, R400, R401), for positions in rising order, as the defaults are: every second slot the counter
goes up; at `FS_STEP[1]`, `FS_STEP[2]`, `FS_STEP[3]` and the last count, `FS4_WRAP` or in five-step mode `FS5_WRAP`, envelopes and the linear
counter are clocked; at `FS_STEP[2]` and the last, lengths that are not halted go down to no less than 0; at the last the counter restarts, and in
four-step mode the frame-IRQ flag is raised unless inhibited. -/
def Obligations.FrameSequencerSchedule : Prop :=
  ∀ (g : Config) (a : Apu), g.fsStep1 < g.fsStep2 → g.fsStep2 < g.fsStep3 → g.fsStep3 < g.fs4Wrap → g.fsStep3 < g.fs5Wrap →
    let r := apuFront g a
    let c := a.fs.counter + 1
    let last : Prop := if a.fs.mode5 then c = g.fs5Wrap else c = g.fs4Wrap
    let half : Prop := c = g.fsStep2 ∨ last
    let quarter : Prop := c = g.fsStep1 ∨ c = g.fsStep3 ∨ half
    let sameLengths : Prop := r.pulse1.length = a.pulse1.length ∧ r.pulse2.length = a.pulse2.length ∧ r.tri.length = a.tri.length ∧
      r.noise.length = a.noise.length
    let sameEnvelopes : Prop := r.pulse1.env = a.pulse1.env ∧ r.pulse2.env = a.pulse2.env ∧ r.noise.env = a.noise.env ∧
      r.tri.linear = a.tri.linear ∧ r.tri.linearReload = a.tri.linearReload
    (a.fs.phase = false → r.fs = { a.fs with phase := true } ∧ r.pulse1 = a.pulse1 ∧ r.pulse2 = a.pulse2 ∧ sameLengths ∧ sameEnvelopes) ∧
    (a.fs.phase = true →
      (last → r.fs = { a.fs with counter := 0, phase := false, frameIrq := (!a.fs.mode5 && !a.fs.irqInhibit) || a.fs.frameIrq }) ∧
      (¬ last → r.fs = { a.fs with counter := c, phase := false }) ∧
      (half → HalfClocked a r) ∧ (¬ half → sameLengths) ∧
      (quarter → QuarterClocked a r) ∧ (¬ quarter → sameEnvelopes))
end

