-- ==== Sys2Proof/Laws/State.lean ====
section
/-! SUPPORT. One lemma per field per register update, each true by unfolding, so that no later proof unfolds an update. -/

namespace Sys2Proof.Machine

@[simp] theorem State.setA_cpu (s : State) (v : Byte) : (s.setA v).cpu = { s.cpu with a := v } := rfl
@[simp] theorem State.setA_ram (s : State) (v : Byte) : (s.setA v).ram = s.ram := rfl
@[simp] theorem State.setA_sysclk (s : State) (v : Byte) : (s.setA v).sysclk = s.sysclk := rfl
@[simp] theorem State.setA_dma (s : State) (v : Byte) : (s.setA v).dma = s.dma := rfl
@[simp] theorem State.setA_pad0 (s : State) (v : Byte) : (s.setA v).pad0 = s.pad0 := rfl
@[simp] theorem State.setA_pad1 (s : State) (v : Byte) : (s.setA v).pad1 = s.pad1 := rfl
@[simp] theorem State.setA_strobe (s : State) (v : Byte) : (s.setA v).strobe = s.strobe := rfl
@[simp] theorem State.setA_cart (s : State) (v : Byte) : (s.setA v).cart = s.cart := rfl
@[simp] theorem State.setA_ppu (s : State) (v : Byte) : (s.setA v).ppu = s.ppu := rfl
@[simp] theorem State.setA_apu (s : State) (v : Byte) : (s.setA v).apu = s.apu := rfl
@[simp] theorem State.setA_cfg (s : State) (v : Byte) : (s.setA v).cfg = s.cfg := rfl
@[simp] theorem State.setA_free (s : State) (v : Byte) : (s.setA v).free = s.free := rfl

@[simp] theorem State.setX_cpu (s : State) (v : Byte) : (s.setX v).cpu = { s.cpu with x := v } := rfl
@[simp] theorem State.setX_ram (s : State) (v : Byte) : (s.setX v).ram = s.ram := rfl
@[simp] theorem State.setX_sysclk (s : State) (v : Byte) : (s.setX v).sysclk = s.sysclk := rfl
@[simp] theorem State.setX_dma (s : State) (v : Byte) : (s.setX v).dma = s.dma := rfl
@[simp] theorem State.setX_pad0 (s : State) (v : Byte) : (s.setX v).pad0 = s.pad0 := rfl
@[simp] theorem State.setX_pad1 (s : State) (v : Byte) : (s.setX v).pad1 = s.pad1 := rfl
@[simp] theorem State.setX_strobe (s : State) (v : Byte) : (s.setX v).strobe = s.strobe := rfl
@[simp] theorem State.setX_cart (s : State) (v : Byte) : (s.setX v).cart = s.cart := rfl
@[simp] theorem State.setX_ppu (s : State) (v : Byte) : (s.setX v).ppu = s.ppu := rfl
@[simp] theorem State.setX_apu (s : State) (v : Byte) : (s.setX v).apu = s.apu := rfl
@[simp] theorem State.setX_cfg (s : State) (v : Byte) : (s.setX v).cfg = s.cfg := rfl
@[simp] theorem State.setX_free (s : State) (v : Byte) : (s.setX v).free = s.free := rfl

@[simp] theorem State.setY_cpu (s : State) (v : Byte) : (s.setY v).cpu = { s.cpu with y := v } := rfl
@[simp] theorem State.setY_ram (s : State) (v : Byte) : (s.setY v).ram = s.ram := rfl
@[simp] theorem State.setY_sysclk (s : State) (v : Byte) : (s.setY v).sysclk = s.sysclk := rfl
@[simp] theorem State.setY_dma (s : State) (v : Byte) : (s.setY v).dma = s.dma := rfl
@[simp] theorem State.setY_pad0 (s : State) (v : Byte) : (s.setY v).pad0 = s.pad0 := rfl
@[simp] theorem State.setY_pad1 (s : State) (v : Byte) : (s.setY v).pad1 = s.pad1 := rfl
@[simp] theorem State.setY_strobe (s : State) (v : Byte) : (s.setY v).strobe = s.strobe := rfl
@[simp] theorem State.setY_cart (s : State) (v : Byte) : (s.setY v).cart = s.cart := rfl
@[simp] theorem State.setY_ppu (s : State) (v : Byte) : (s.setY v).ppu = s.ppu := rfl
@[simp] theorem State.setY_apu (s : State) (v : Byte) : (s.setY v).apu = s.apu := rfl
@[simp] theorem State.setY_cfg (s : State) (v : Byte) : (s.setY v).cfg = s.cfg := rfl
@[simp] theorem State.setY_free (s : State) (v : Byte) : (s.setY v).free = s.free := rfl

@[simp] theorem State.setSp_cpu (s : State) (v : Byte) : (s.setSp v).cpu = { s.cpu with sp := v } := rfl
@[simp] theorem State.setSp_ram (s : State) (v : Byte) : (s.setSp v).ram = s.ram := rfl
@[simp] theorem State.setSp_sysclk (s : State) (v : Byte) : (s.setSp v).sysclk = s.sysclk := rfl
@[simp] theorem State.setSp_dma (s : State) (v : Byte) : (s.setSp v).dma = s.dma := rfl
@[simp] theorem State.setSp_pad0 (s : State) (v : Byte) : (s.setSp v).pad0 = s.pad0 := rfl
@[simp] theorem State.setSp_pad1 (s : State) (v : Byte) : (s.setSp v).pad1 = s.pad1 := rfl
@[simp] theorem State.setSp_strobe (s : State) (v : Byte) : (s.setSp v).strobe = s.strobe := rfl
@[simp] theorem State.setSp_cart (s : State) (v : Byte) : (s.setSp v).cart = s.cart := rfl
@[simp] theorem State.setSp_ppu (s : State) (v : Byte) : (s.setSp v).ppu = s.ppu := rfl
@[simp] theorem State.setSp_apu (s : State) (v : Byte) : (s.setSp v).apu = s.apu := rfl
@[simp] theorem State.setSp_cfg (s : State) (v : Byte) : (s.setSp v).cfg = s.cfg := rfl
@[simp] theorem State.setSp_free (s : State) (v : Byte) : (s.setSp v).free = s.free := rfl

@[simp] theorem State.setP_cpu (s : State) (v : Byte) : (s.setP v).cpu = { s.cpu with p := v } := rfl
@[simp] theorem State.setP_ram (s : State) (v : Byte) : (s.setP v).ram = s.ram := rfl
@[simp] theorem State.setP_sysclk (s : State) (v : Byte) : (s.setP v).sysclk = s.sysclk := rfl
@[simp] theorem State.setP_dma (s : State) (v : Byte) : (s.setP v).dma = s.dma := rfl
@[simp] theorem State.setP_pad0 (s : State) (v : Byte) : (s.setP v).pad0 = s.pad0 := rfl
@[simp] theorem State.setP_pad1 (s : State) (v : Byte) : (s.setP v).pad1 = s.pad1 := rfl
@[simp] theorem State.setP_strobe (s : State) (v : Byte) : (s.setP v).strobe = s.strobe := rfl
@[simp] theorem State.setP_cart (s : State) (v : Byte) : (s.setP v).cart = s.cart := rfl
@[simp] theorem State.setP_ppu (s : State) (v : Byte) : (s.setP v).ppu = s.ppu := rfl
@[simp] theorem State.setP_apu (s : State) (v : Byte) : (s.setP v).apu = s.apu := rfl
@[simp] theorem State.setP_cfg (s : State) (v : Byte) : (s.setP v).cfg = s.cfg := rfl
@[simp] theorem State.setP_free (s : State) (v : Byte) : (s.setP v).free = s.free := rfl

@[simp] theorem State.setPc_cpu (s : State) (v : Word) : (s.setPc v).cpu = { s.cpu with pc := v } := rfl
@[simp] theorem State.setPc_ram (s : State) (v : Word) : (s.setPc v).ram = s.ram := rfl
@[simp] theorem State.setPc_sysclk (s : State) (v : Word) : (s.setPc v).sysclk = s.sysclk := rfl
@[simp] theorem State.setPc_dma (s : State) (v : Word) : (s.setPc v).dma = s.dma := rfl
@[simp] theorem State.setPc_pad0 (s : State) (v : Word) : (s.setPc v).pad0 = s.pad0 := rfl
@[simp] theorem State.setPc_pad1 (s : State) (v : Word) : (s.setPc v).pad1 = s.pad1 := rfl
@[simp] theorem State.setPc_strobe (s : State) (v : Word) : (s.setPc v).strobe = s.strobe := rfl
@[simp] theorem State.setPc_cart (s : State) (v : Word) : (s.setPc v).cart = s.cart := rfl
@[simp] theorem State.setPc_ppu (s : State) (v : Word) : (s.setPc v).ppu = s.ppu := rfl
@[simp] theorem State.setPc_apu (s : State) (v : Word) : (s.setPc v).apu = s.apu := rfl
@[simp] theorem State.setPc_cfg (s : State) (v : Word) : (s.setPc v).cfg = s.cfg := rfl
@[simp] theorem State.setPc_free (s : State) (v : Word) : (s.setPc v).free = s.free := rfl

@[simp] theorem State.setCycRem_cpu (s : State) (v : Nat) : (s.setCycRem v).cpu = { s.cpu with cycRem := v } := rfl
@[simp] theorem State.setCycRem_ram (s : State) (v : Nat) : (s.setCycRem v).ram = s.ram := rfl
@[simp] theorem State.setCycRem_sysclk (s : State) (v : Nat) : (s.setCycRem v).sysclk = s.sysclk := rfl
@[simp] theorem State.setCycRem_dma (s : State) (v : Nat) : (s.setCycRem v).dma = s.dma := rfl
@[simp] theorem State.setCycRem_pad0 (s : State) (v : Nat) : (s.setCycRem v).pad0 = s.pad0 := rfl
@[simp] theorem State.setCycRem_pad1 (s : State) (v : Nat) : (s.setCycRem v).pad1 = s.pad1 := rfl
@[simp] theorem State.setCycRem_strobe (s : State) (v : Nat) : (s.setCycRem v).strobe = s.strobe := rfl
@[simp] theorem State.setCycRem_cart (s : State) (v : Nat) : (s.setCycRem v).cart = s.cart := rfl
@[simp] theorem State.setCycRem_ppu (s : State) (v : Nat) : (s.setCycRem v).ppu = s.ppu := rfl
@[simp] theorem State.setCycRem_apu (s : State) (v : Nat) : (s.setCycRem v).apu = s.apu := rfl
@[simp] theorem State.setCycRem_cfg (s : State) (v : Nat) : (s.setCycRem v).cfg = s.cfg := rfl
@[simp] theorem State.setCycRem_free (s : State) (v : Nat) : (s.setCycRem v).free = s.free := rfl

@[simp] theorem State.advance_cpu (s : State) (n : Nat) :
    (s.advance n).cpu = { s.cpu with pc := s.cpu.pc + BitVec.ofNat 16 n } := rfl
@[simp] theorem State.advance_ram (s : State) (n : Nat) : (s.advance n).ram = s.ram := rfl
@[simp] theorem State.advance_sysclk (s : State) (n : Nat) : (s.advance n).sysclk = s.sysclk := rfl
@[simp] theorem State.advance_dma (s : State) (n : Nat) : (s.advance n).dma = s.dma := rfl
@[simp] theorem State.advance_pad0 (s : State) (n : Nat) : (s.advance n).pad0 = s.pad0 := rfl
@[simp] theorem State.advance_pad1 (s : State) (n : Nat) : (s.advance n).pad1 = s.pad1 := rfl
@[simp] theorem State.advance_strobe (s : State) (n : Nat) : (s.advance n).strobe = s.strobe := rfl
@[simp] theorem State.advance_cart (s : State) (n : Nat) : (s.advance n).cart = s.cart := rfl
@[simp] theorem State.advance_ppu (s : State) (n : Nat) : (s.advance n).ppu = s.ppu := rfl
@[simp] theorem State.advance_apu (s : State) (n : Nat) : (s.advance n).apu = s.apu := rfl
@[simp] theorem State.advance_cfg (s : State) (n : Nat) : (s.advance n).cfg = s.cfg := rfl
@[simp] theorem State.advance_free (s : State) (n : Nat) : (s.advance n).free = s.free := rfl

@[simp] theorem State.putFlag_cpu (s : State) (f : Flag) (b : Bool) :
    (s.putFlag f b).cpu = { s.cpu with p := setFlag s.cpu.p f b } := rfl
@[simp] theorem State.putFlag_ram (s : State) (f : Flag) (b : Bool) : (s.putFlag f b).ram = s.ram := rfl
@[simp] theorem State.putFlag_sysclk (s : State) (f : Flag) (b : Bool) : (s.putFlag f b).sysclk = s.sysclk := rfl
@[simp] theorem State.putFlag_dma (s : State) (f : Flag) (b : Bool) : (s.putFlag f b).dma = s.dma := rfl
@[simp] theorem State.putFlag_pad0 (s : State) (f : Flag) (b : Bool) : (s.putFlag f b).pad0 = s.pad0 := rfl
@[simp] theorem State.putFlag_pad1 (s : State) (f : Flag) (b : Bool) : (s.putFlag f b).pad1 = s.pad1 := rfl
@[simp] theorem State.putFlag_strobe (s : State) (f : Flag) (b : Bool) : (s.putFlag f b).strobe = s.strobe := rfl
@[simp] theorem State.putFlag_cart (s : State) (f : Flag) (b : Bool) : (s.putFlag f b).cart = s.cart := rfl
@[simp] theorem State.putFlag_ppu (s : State) (f : Flag) (b : Bool) : (s.putFlag f b).ppu = s.ppu := rfl
@[simp] theorem State.putFlag_apu (s : State) (f : Flag) (b : Bool) : (s.putFlag f b).apu = s.apu := rfl
@[simp] theorem State.putFlag_cfg (s : State) (f : Flag) (b : Bool) : (s.putFlag f b).cfg = s.cfg := rfl
@[simp] theorem State.putFlag_free (s : State) (f : Flag) (b : Bool) : (s.putFlag f b).free = s.free := rfl

@[simp] theorem State.reg_a (s : State) : s.reg .a = s.cpu.a := rfl
@[simp] theorem State.reg_x (s : State) : s.reg .x = s.cpu.x := rfl
@[simp] theorem State.reg_y (s : State) : s.reg .y = s.cpu.y := rfl
@[simp] theorem State.setReg_a (s : State) (v : Byte) : s.setReg .a v = s.setA v := rfl
@[simp] theorem State.setReg_x (s : State) (v : Byte) : s.setReg .x v = s.setX v := rfl
@[simp] theorem State.setReg_y (s : State) (v : Byte) : s.setReg .y v = s.setY v := rfl

/-- A register write and a flag write change the CPU and nothing else. -/
theorem State.setRegZN_eq (s : State) (r : Reg) (v : Byte) :
    s.setRegZN r v = { s with cpu := { (s.setReg r v).cpu with p := setZN s.cpu.p v } } := by
  cases r <;> rfl

/-- Reading back the register just written. -/
@[simp] theorem State.reg_setReg_same (s : State) (r : Reg) (v : Byte) : (s.setReg r v).reg r = v := by
  cases r <;> rfl

/-- A register write leaves the other registers alone. -/
theorem State.reg_setReg_other (s : State) (r q : Reg) (v : Byte) (h : q ≠ r) : (s.setReg r v).reg q = s.reg q := by
  cases r <;> cases q <;> first | rfl | exact absurd rfl h

end Sys2Proof.Machine
end

