-- ==== Sys2Proof/Laws/Bus.lean ====
section
/-! SUPPORT. What the operations over the Bus can do: a read of each region, what no read changes, a write of each region, the stack, an
exception and the return from one. Later proofs cite these and unfold none of the operations. -/

namespace Sys2Proof.Machine

theorem State.apartFromReads_field {α : Type} (f : State → α) {s t : State} (hf : ∀ u : State, f u.apartFromReads = f u)
    (h : t.apartFromReads = s.apartFromReads) : f t = f s := by
  rw [← hf t, h, hf s]

/-! ## Bytes and words -/

theorem wordOf_toNat (hi lo : Byte) : (wordOf hi lo).toNat = hi.toNat * 256 + lo.toNat := by
  have h := lo.isLt
  simp only [wordOf, BitVec.toNat_append, Nat.shiftLeft_eq]
  rw [← Nat.shiftLeft_eq, Nat.shiftLeft_add_eq_or_of_lt (by simpa using h), Nat.shiftLeft_eq]

@[simp] theorem hiByte_wordOf (hi lo : Byte) : hiByte (wordOf hi lo) = hi := by
  simp only [hiByte, wordOf]
  exact BitVec.extractLsb'_append_eq_left

@[simp] theorem loByte_wordOf (hi lo : Byte) : loByte (wordOf hi lo) = lo := by
  have h := lo.isLt
  apply BitVec.eq_of_toNat_eq
  rw [loByte, BitVec.toNat_setWidth, wordOf_toNat]
  omega

@[simp] theorem wordOf_hiByte_loByte (w : Word) : wordOf (hiByte w) (loByte w) = w := by
  have h := w.isLt
  apply BitVec.eq_of_toNat_eq
  rw [wordOf_toNat]
  simp only [hiByte, loByte, BitVec.extractLsb'_toNat, BitVec.toNat_setWidth, Nat.shiftRight_eq_div_pow]
  omega

theorem zeroPage_toNat (z : Byte) : (zeroPage z).toNat = z.toNat := by
  rw [zeroPage, wordOf_toNat]
  simp

/-! ## Reads -/

/-- No mapper of the spec claims an address below 6000 (R81 of 20_memory.md). -/
theorem Cartridge.cpuRead_low (c : Cartridge) (a : Word) (h : a.toNat < 0x6000) : c.cpuRead a = none := by
  have hm : c.cpuMapRead a = .none := by
    simp only [Cartridge.cpuMapRead, if_pos h]
    split <;> rfl
  simp [Cartridge.cpuRead, hm]

theorem Cartridge.cpuWrite_low (c : Cartridge) (a : Word) (v : Byte) (h : a.toNat < 0x6000) : c.cpuWrite a v = none := by
  simp [Cartridge.cpuWrite, Cartridge.cpuMapWrite, h]

theorem cpuRead_low (a : Word) (s : State) (h : a.toNat < 0x6000) : cpuRead a s = busRead a s := by
  unfold cpuRead
  cases hc : s.cart with
  | none => rfl
  | some c => simp [Cartridge.cpuRead_low c a h]

theorem cpuWrite_low (a : Word) (v : Byte) (s : State) (h : a.toNat < 0x6000) : cpuWrite a v s = busWrite a v s := by
  unfold cpuWrite
  cases hc : s.cart with
  | none => rfl
  | some c => simp [Cartridge.cpuWrite_low c a v h]

/-- A read of system RAM, whatever the cartridge (R83). -/
theorem cpuRead_ram (a : Word) (s : State) (h : a.toNat ≤ 0x1FFF) : cpuRead a s = (s.ram.read (a.toNat % 0x800), s) := by
  rw [cpuRead_low a s (by omega), busRead, if_pos h]

/-- A write of system RAM, whatever the cartridge (R83). -/
theorem cpuWrite_ram (a : Word) (v : Byte) (s : State) (h : a.toNat ≤ 0x1FFF) :
    cpuWrite a v s = { s with ram := s.ram.write (a.toNat % 0x800) v } := by
  rw [cpuWrite_low a v s (by omega), busWrite, if_pos h]

/-- Above the device registers a read has no side effect (R100). -/
theorem cpuRead_high_state (a : Word) (s : State) (h : 0x4018 ≤ a.toNat) : (cpuRead a s).2 = s := by
  unfold cpuRead
  split
  · rfl
  · have h5 : a ≠ 0x4015 := by rintro rfl; exact absurd h (by decide)
    have h6 : a ≠ 0x4016 := by rintro rfl; exact absurd h (by decide)
    have h7 : a ≠ 0x4017 := by rintro rfl; exact absurd h (by decide)
    simp only [busRead, if_neg (show ¬ a.toNat ≤ 0x1FFF by omega), if_neg (show ¬ a.toNat ≤ 0x3FFF by omega), if_neg h5, if_neg h6,
      if_neg h7]

theorem Mapper.withoutLatches_afterRead (c : Cartridge) (a : BitVec 14) :
    (c.afterPpuRead a).mapper.withoutLatches = c.mapper.withoutLatches := by
  unfold Cartridge.afterPpuRead
  split
  all_goals first
    | rfl
    | next r hr =>
      simp only [hr, Mapper.withoutLatches, mmc2AfterRead]
      split
      · rfl
      · split
        · rfl
        · split
          · rfl
          · split <;> rfl

theorem Cartridge.afterPpuRead_rest (c : Cartridge) (a : BitVec 14) :
    c.afterPpuRead a = { c with mapper := (c.afterPpuRead a).mapper } := by
  unfold Cartridge.afterPpuRead
  split <;> rfl

theorem ppuRead_apart (a : BitVec 14) (s : State) : (ppuRead a s).2.apartFromReads = s.apartFromReads := by
  unfold ppuRead State.apartFromReads
  cases s.cart with
  | none => rfl
  | some c =>
    simp only [Option.map_some, Mapper.withoutLatches_afterRead]
    rw [Cartridge.afterPpuRead_rest c a]

theorem ppuRegRead_apart (r : Nat) (s : State) : (ppuRegRead r s).2.apartFromReads = s.apartFromReads := by
  unfold ppuRegRead
  split
  · rfl
  · rfl
  · show (readData s).2.apartFromReads = _
    rw [← ppuRead_apart (vramAddr s.ppu.v) s]
    rfl
  · rfl

theorem busRead_apart (a : Word) (s : State) : (busRead a s).2.apartFromReads = s.apartFromReads := by
  unfold busRead
  split
  · rfl
  · split
    · exact ppuRegRead_apart _ s
    · split
      · rfl
      · split
        · simp only [readPad0, shiftPad]
          split <;> rfl
        · split
          · simp only [readPad1, shiftPad]
            split <;> rfl
          · rfl

/-- What no CPU read changes (R100). -/
theorem cpuRead_apart (a : Word) (s : State) : (cpuRead a s).2.apartFromReads = s.apartFromReads := by
  unfold cpuRead
  split
  · rfl
  · exact busRead_apart a s

@[simp] theorem cpuRead_cpu (a : Word) (s : State) : (cpuRead a s).2.cpu = s.cpu :=
  State.apartFromReads_field State.cpu (fun _ => rfl) (cpuRead_apart a s)

@[simp] theorem cpuRead_ram_kept (a : Word) (s : State) : (cpuRead a s).2.ram = s.ram :=
  State.apartFromReads_field State.ram (fun _ => rfl) (cpuRead_apart a s)

@[simp] theorem cpuRead_sysclk (a : Word) (s : State) : (cpuRead a s).2.sysclk = s.sysclk :=
  State.apartFromReads_field State.sysclk (fun _ => rfl) (cpuRead_apart a s)

@[simp] theorem cpuRead_dma (a : Word) (s : State) : (cpuRead a s).2.dma = s.dma :=
  State.apartFromReads_field State.dma (fun _ => rfl) (cpuRead_apart a s)

@[simp] theorem cpuRead_cfg (a : Word) (s : State) : (cpuRead a s).2.cfg = s.cfg :=
  State.apartFromReads_field State.cfg (fun _ => rfl) (cpuRead_apart a s)

/-- What a read answers does not depend on the CPU's registers, and it keeps them. -/
theorem cpuRead_withCpu (a : Word) (s : State) (c : Cpu) :
    cpuRead a { s with cpu := c } = ((cpuRead a s).1, { (cpuRead a s).2 with cpu := c }) := by
  unfold cpuRead
  split
  · next v hv =>
    simp only at hv
    rw [hv]
  · next hv =>
    simp only at hv
    rw [hv]
    unfold busRead
    split
    · rfl
    · split
      · unfold ppuRegRead
        split <;> rfl
      · split
        · rfl
        · split
          · rfl
          · split <;> rfl

theorem State.bytesOf_apartFromReads (m : Store) (u : State) : u.apartFromReads.bytesOf m = u.bytesOf m := by
  cases m <;> first | rfl | (simp only [State.bytesOf, State.apartFromReads]; cases u.cart <;> rfl)

/-- A read changes no byte of storage. -/
theorem cpuRead_bytesOf (a : Word) (s : State) (m : Store) : (cpuRead a s).2.bytesOf m = s.bytesOf m :=
  State.apartFromReads_field (fun u => u.bytesOf m) (State.bytesOf_apartFromReads m) (cpuRead_apart a s)

/-! ## What every write keeps -/

@[simp] theorem ppuWrite_kept (a : BitVec 14) (v : Byte) (s : State) :
    (ppuWrite a v s).cpu = s.cpu ∧ (ppuWrite a v s).sysclk = s.sysclk ∧ (ppuWrite a v s).cfg = s.cfg ∧
      (ppuWrite a v s).dma = s.dma ∧ (ppuWrite a v s).apu = s.apu ∧ (ppuWrite a v s).ram = s.ram ∧
      (ppuWrite a v s).free = s.free := by
  unfold ppuWrite
  split
  · exact ⟨rfl, rfl, rfl, rfl, rfl, rfl, rfl⟩
  · split
    · exact ⟨rfl, rfl, rfl, rfl, rfl, rfl, rfl⟩
    · split <;> exact ⟨rfl, rfl, rfl, rfl, rfl, rfl, rfl⟩

theorem ppuRegWrite_kept (r : Nat) (v : Byte) (s : State) :
    (ppuRegWrite r v s).cpu = s.cpu ∧ (ppuRegWrite r v s).sysclk = s.sysclk ∧ (ppuRegWrite r v s).cfg = s.cfg ∧
      (ppuRegWrite r v s).dma = s.dma ∧ (ppuRegWrite r v s).apu = s.apu ∧ (ppuRegWrite r v s).ram = s.ram ∧
      (ppuRegWrite r v s).free = s.free := by
  unfold ppuRegWrite
  split
  case h_7 => exact ppuWrite_kept (vramAddr s.ppu.v) v s
  all_goals exact ⟨rfl, rfl, rfl, rfl, rfl, rfl, rfl⟩

theorem busWrite_kept (a : Word) (v : Byte) (s : State) :
    (busWrite a v s).cpu = s.cpu ∧ (busWrite a v s).sysclk = s.sysclk ∧ (busWrite a v s).cfg = s.cfg ∧
      (busWrite a v s).free = s.free := by
  unfold busWrite
  split
  · exact ⟨rfl, rfl, rfl, rfl⟩
  · split
    · have h := ppuRegWrite_kept (a.toNat % 8) v s
      exact ⟨h.1, h.2.1, h.2.2.1, h.2.2.2.2.2.2⟩
    · split
      · exact ⟨rfl, rfl, rfl, rfl⟩
      · split
        · simp only [writeStrobe]
          split <;> exact ⟨rfl, rfl, rfl, rfl⟩
        · split <;> exact ⟨rfl, rfl, rfl, rfl⟩

/-- A write changes no register of the CPU. -/
theorem cpuWrite_kept (a : Word) (v : Byte) (s : State) :
    (cpuWrite a v s).cpu = s.cpu ∧ (cpuWrite a v s).sysclk = s.sysclk ∧ (cpuWrite a v s).cfg = s.cfg ∧
      (cpuWrite a v s).free = s.free := by
  unfold cpuWrite
  split
  · exact ⟨rfl, rfl, rfl, rfl⟩
  · exact busWrite_kept a v s

@[simp] theorem cpuWrite_cpu (a : Word) (v : Byte) (s : State) : (cpuWrite a v s).cpu = s.cpu := (cpuWrite_kept a v s).1
@[simp] theorem cpuWrite_sysclk (a : Word) (v : Byte) (s : State) : (cpuWrite a v s).sysclk = s.sysclk := (cpuWrite_kept a v s).2.1
@[simp] theorem cpuWrite_cfg (a : Word) (v : Byte) (s : State) : (cpuWrite a v s).cfg = s.cfg := (cpuWrite_kept a v s).2.2.1
@[simp] theorem cpuWrite_free (a : Word) (v : Byte) (s : State) : (cpuWrite a v s).free = s.free := (cpuWrite_kept a v s).2.2.2

theorem ppuWrite_withCpu (a : BitVec 14) (v : Byte) (s : State) (c : Cpu) :
    ppuWrite a v { s with cpu := c } = { ppuWrite a v s with cpu := c } := by
  unfold ppuWrite
  split
  · next hv =>
    simp only at hv
    rw [hv]
  · next hv =>
    simp only at hv
    rw [hv]
    simp only
    split
    · rfl
    · split <;> rfl

theorem ppuRegWrite_withCpu (r : Nat) (v : Byte) (s : State) (c : Cpu) :
    ppuRegWrite r v { s with cpu := c } = { ppuRegWrite r v s with cpu := c } := by
  unfold ppuRegWrite
  split
  case h_7 =>
    show ({ ppuWrite (vramAddr s.ppu.v) v { s with cpu := c } with ppu := _ } : State) = _
    rw [ppuWrite_withCpu]
    rfl
  all_goals rfl

/-- A write does not depend on the CPU's registers. -/
theorem cpuWrite_withCpu (a : Word) (v : Byte) (s : State) (c : Cpu) :
    cpuWrite a v { s with cpu := c } = { cpuWrite a v s with cpu := c } := by
  have bus : busWrite a v { s with cpu := c } = { busWrite a v s with cpu := c } := by
    unfold busWrite
    split
    · rfl
    · split
      · exact ppuRegWrite_withCpu _ v s c
      · split
        · rfl
        · split
          · simp only [writeStrobe]
            split <;> rfl
          · split <;> rfl
  unfold cpuWrite
  rw [bus]
  split
  · next hv =>
    simp only at hv
    rw [hv]
  · next hv =>
    simp only at hv
    rw [hv]

/-! ## The stack -/

theorem stackAddr_withCpu (s : State) (c : Cpu) (sp : Byte) : stackAddr { s with cpu := c } sp = stackAddr s sp := rfl

@[simp] theorem stackAddr_cpuWrite (a : Word) (v : Byte) (s : State) (sp : Byte) : stackAddr (cpuWrite a v s) sp = stackAddr s sp := by
  unfold stackAddr
  rw [cpuWrite_cfg]

@[simp] theorem stackAddr_cpuRead (a : Word) (s : State) (sp : Byte) : stackAddr (cpuRead a s).2 sp = stackAddr s sp := by
  unfold stackAddr
  rw [cpuRead_cfg]

theorem push_eq (v : Byte) (s : State) :
    push v s = { cpuWrite (stackAddr s s.cpu.sp) v s with cpu := { s.cpu with sp := s.cpu.sp - 1 } } := by
  unfold push State.setSp
  simp only [cpuWrite_cpu]

theorem pull_eq (s : State) :
    pull s =
      ((cpuRead (stackAddr s (s.cpu.sp + 1)) s).1,
        { (cpuRead (stackAddr s (s.cpu.sp + 1)) s).2 with cpu := { s.cpu with sp := s.cpu.sp + 1 } }) :=
  cpuRead_withCpu _ s _

/-- The writes of two pushes, the high byte of `w` first. -/
def stackWord (w : Word) (s : State) : State :=
  cpuWrite (stackAddr s (s.cpu.sp - 1)) (loByte w) (cpuWrite (stackAddr s s.cpu.sp) (hiByte w) s)

theorem push16_eq (w : Word) (s : State) :
    push16 w s = { stackWord w s with cpu := { s.cpu with sp := s.cpu.sp - 1 - 1 } } := by
  unfold push16 stackWord
  simp only [push_eq, stackAddr_withCpu, stackAddr_cpuWrite, cpuWrite_withCpu]

/-- The two reads of a 16-bit pull, from the places 1 and 2 above S. -/
def unstackWord (s : State) : Word × State :=
  let lo := cpuRead (stackAddr s (s.cpu.sp + 1)) s
  let hi := cpuRead (stackAddr s (s.cpu.sp + 1 + 1)) lo.2
  (wordOf hi.1 lo.1, hi.2)

theorem pull16_eq (s : State) :
    pull16 s = ((unstackWord s).1, { (unstackWord s).2 with cpu := { s.cpu with sp := s.cpu.sp + 1 + 1 } }) := by
  unfold pull16 unstackWord
  simp only [pull_eq, stackAddr_withCpu, stackAddr_cpuRead, cpuRead_withCpu]

/-! ## Vectors, exceptions -/

theorem readPair_high_state (lo hi : Word) (s : State) (hl : 0x4018 ≤ lo.toNat) (hh : 0x4018 ≤ hi.toNat) :
    readPair lo hi s = (wordOf (cpuRead hi s).1 (cpuRead lo s).1, s) := by
  unfold readPair
  simp only [cpuRead_high_state lo s hl, cpuRead_high_state hi s hh]

theorem readPair_apart (lo hi : Word) (s : State) : (readPair lo hi s).2.apartFromReads = s.apartFromReads := by
  unfold readPair
  simp only [cpuRead_apart]

theorem read16_apart (a : Word) (s : State) : (read16 a s).2.apartFromReads = s.apartFromReads :=
  readPair_apart a (a + 1) s

@[simp] theorem read16_cpu (a : Word) (s : State) : (read16 a s).2.cpu = s.cpu :=
  State.apartFromReads_field State.cpu (fun _ => rfl) (read16_apart a s)

theorem read16_withCpu (a : Word) (s : State) (c : Cpu) :
    read16 a { s with cpu := c } = ((read16 a s).1, { (read16 a s).2 with cpu := c }) := by
  unfold read16 readPair
  simp only [cpuRead_withCpu]

@[simp] theorem stackWord_cfg (w : Word) (s : State) : (stackWord w s).cfg = s.cfg := by simp [stackWord]

@[simp] theorem stackWord_cpu (w : Word) (s : State) : (stackWord w s).cpu = s.cpu := by simp [stackWord]

@[simp] theorem stackAddr_stackWord (w : Word) (s : State) (sp : Byte) : stackAddr (stackWord w s) sp = stackAddr s sp := by
  simp [stackWord]

/-- The three writes of an exception (R238, R265): the return address, then the status. -/
def exceptionStores (e : Event) (s : State) : State :=
  cpuWrite (stackAddr s (s.cpu.sp - 1 - 1)) (e.pushedStatus s.cpu.p) (stackWord (e.returnAddr s.cpu.pc) s)

@[simp] theorem exceptionStores_cfg (e : Event) (s : State) : (exceptionStores e s).cfg = s.cfg := by simp [exceptionStores]

/-- Taking an exception: the three writes, the two reads of the vector, and then the registers. -/
theorem takeException_eq (e : Event) (s : State) :
    takeException e s =
      { (read16 (e.vector s.cfg) (exceptionStores e s)).2 with
        cpu :=
          { s.cpu with
            sp := s.cpu.sp - 1 - 1 - 1
            p := setFlag (e.liveStatus s.cpu.p) .I true
            pc := (read16 (e.vector s.cfg) (exceptionStores e s)).1 } } := by
  unfold takeException exceptionStores
  simp only [push16_eq, push_eq, stackAddr_withCpu, stackAddr_stackWord, State.setP, State.putFlag, State.setPc, cpuWrite_withCpu,
    read16_withCpu]
  rw [cpuWrite_cfg, stackWord_cfg]

/-- Returning from an exception: the status from the place above S, then the address from the two places above that. -/
theorem returnFromException_eq (s : State) :
    returnFromException s =
      (let p := cpuRead (stackAddr s (s.cpu.sp + 1)) s
       let lo := cpuRead (stackAddr s (s.cpu.sp + 1 + 1)) p.2
       let hi := cpuRead (stackAddr s (s.cpu.sp + 1 + 1 + 1)) lo.2
       { hi.2 with cpu := { s.cpu with p := pulledStatus p.1, sp := s.cpu.sp + 1 + 1 + 1, pc := wordOf hi.1 lo.1 } }) := by
  unfold returnFromException
  simp only [pull_eq, pull16_eq, unstackWord, stackAddr_withCpu, stackAddr_cpuRead, State.setP, State.setPc, cpuRead_withCpu]

theorem resetCpu_eq (s : State) :
    resetCpu s =
      { (read16 s.cfg.resetVector s).2 with cpu := cpuAfterReset (read16 s.cfg.resetVector s).1 s.cfg.resetCycles } :=
  rfl

/-! ## Operands -/

/-- A zero-page pointer is two bytes of RAM, the second one inside the zero page (R145, R146). -/
theorem zeroPagePointer_eq (z : Byte) (s : State) :
    zeroPagePointer z s = (wordOf (s.ram.read (z + 1).toNat) (s.ram.read z.toNat), s) := by
  have hr : ∀ y : Byte, cpuRead (zeroPage y) s = (s.ram.read y.toNat, s) := by
    intro y
    have h := y.isLt
    rw [cpuRead_ram _ _ (by rw [zeroPage_toNat]; omega), zeroPage_toNat, Nat.mod_eq_of_lt (by omega)]
  unfold zeroPagePointer readPair
  simp only [hr]

/-- Forming an effective address changes nothing. -/
@[simp] theorem effective_state (m : Addressing) (s : State) : (effective m s).state = s := by
  cases m <;> simp [effective, indexed, zeroPagePointer_eq]

/-- What reading an operand leaves unchanged. -/
theorem readSource_apart (src : Source) (s : State) : (readSource src s).state.apartFromReads = s.apartFromReads := by
  cases src with
  | imm b => rfl
  | mem m =>
    show (cpuRead (effective m s).addr (effective m s).state).2.apartFromReads = _
    rw [cpuRead_apart, effective_state]

@[simp] theorem readSource_cpu (src : Source) (s : State) : (readSource src s).state.cpu = s.cpu :=
  State.apartFromReads_field State.cpu (fun _ => rfl) (readSource_apart src s)

@[simp] theorem readSource_ram (src : Source) (s : State) : (readSource src s).state.ram = s.ram :=
  State.apartFromReads_field State.ram (fun _ => rfl) (readSource_apart src s)

theorem readSource_bytesOf (src : Source) (s : State) (m : Store) : (readSource src s).state.bytesOf m = s.bytesOf m :=
  State.apartFromReads_field (fun u => u.bytesOf m) (State.bytesOf_apartFromReads m) (readSource_apart src s)

/-- Reading an operand depends on the CPU only through X and Y, and keeps it. -/
theorem readSource_withCpu (src : Source) (s : State) (c : Cpu) (hx : c.x = s.cpu.x) (hy : c.y = s.cpu.y) :
    readSource src { s with cpu := c } =
      { val := (readSource src s).val, extra := (readSource src s).extra, state := { (readSource src s).state with cpu := c } } := by
  cases src with
  | imm b => rfl
  | mem m =>
    have he : ∀ m, (effective m { s with cpu := c }).addr = (effective m s).addr ∧
        (effective m { s with cpu := c }).extra = (effective m s).extra := by
      intro m
      cases m <;> simp [effective, indexed, zeroPagePointer_eq, hx, hy]
    unfold readSource
    simp only [effective_state, (he m).1, (he m).2, cpuRead_withCpu]

theorem indirectTarget_apart (ptr : Word) (s : State) : (indirectTarget ptr s).2.apartFromReads = s.apartFromReads := by
  unfold indirectTarget readPair
  simp only [cpuRead_apart]

@[simp] theorem indirectTarget_cpu (ptr : Word) (s : State) : (indirectTarget ptr s).2.cpu = s.cpu :=
  State.apartFromReads_field State.cpu (fun _ => rfl) (indirectTarget_apart ptr s)

end Sys2Proof.Machine
end

