-- ==== Sys2Proof/Laws/Decode.lean ====
section
/-! SUPPORT. The decoder and the encoder: what each opcode byte decodes to, and that the two agree. -/

namespace Sys2Proof

open Sys2Proof.Machine

/-- Every unmapped opcode value decodes to XXX, whatever bytes follow (R151). -/
theorem decodeOp_unmapped : ∀ op ∈ unmappedOpcodes, ∀ b1 b2, decodeOp op b1 b2 = .xxx op := by
  simp only [unmappedOpcodes, List.cons_append, List.nil_append, List.forall_mem_cons]
  repeat' apply And.intro
  all_goals first
    | (intro b1 b2; rfl)
    | (intro op h; cases h)

/-- The set of a list of bytes as one number, with bit `b` for the byte `b`. -/
def byteSet (l : List Byte) : Nat :=
  l.foldr (fun b m => m ||| 2 ^ b.toNat) 0

theorem testBit_byteSet (l : List Byte) (op : Byte) : (byteSet l).testBit op.toNat = true ↔ op ∈ l := by
  induction l with
  | nil => simp [byteSet]
  | cons b l ih =>
    show (byteSet l ||| 2 ^ b.toNat).testBit op.toNat = true ↔ _
    rw [Nat.testBit_or, Bool.or_eq_true, ih, List.mem_cons, Nat.testBit_two_pow, decide_eq_true_eq, BitVec.toNat_inj, eq_comm (a := b)]
    exact Or.comm

theorem byteSet_mappedAtReset : byteSet mappedAtReset ^^^ byteSet unmappedOpcodes = 2 ^ 256 - 1 := by decide +kernel

/-- The mapped opcode values after reset are all but the 105 of R151. -/
theorem mem_mappedAtReset (op : Byte) : op ∈ mappedAtReset ↔ op ∉ unmappedOpcodes := by
  have h := congrArg (fun m => Nat.testBit m op.toNat) byteSet_mappedAtReset
  simp only [Nat.testBit_xor, Nat.testBit_two_pow_sub_one, op.isLt, decide_true] at h
  rw [← testBit_byteSet, ← testBit_byteSet]
  revert h
  cases (byteSet mappedAtReset).testBit op.toNat <;> cases (byteSet unmappedOpcodes).testBit op.toNat <;> simp

/-- The first bytes of an instruction decode to it, with whatever bytes follow. -/
theorem decodeOp_encode (i : Instr) (h : i.wellFormed = true) (b1 b2 : Byte)
    (he : [i.opcode, b1, b2].take i.length = encode i) : decodeOp i.opcode b1 b2 = i := by
  have one : ∀ {op x : Byte}, [op, b1, b2].take 2 = [op, x] → b1 = x := fun h => by injection h with _ h; injection h
  have two : ∀ {op : Byte} {w : Word}, [op, b1, b2].take 3 = [op, loByte w, hiByte w] → w = wordOf b2 b1 := fun h => by
    injection h with _ h
    injection h with h1 h
    injection h with h2
    rw [h1, h2, wordOf_hiByte_loByte]
  cases i
  case xxx op => exact decodeOp_unmapped op (List.contains_iff_mem.mp h) b1 b2
  all_goals first
    | (simp only [Instr.opcode]; rfl)
    | (have hb := one he; subst hb; simp only [Instr.opcode]; rfl)
    | (have hw := two he; subst hw; simp only [Instr.opcode]; rfl)

/-- The length of an encoding is the length of its instruction. -/
theorem encode_length (i : Instr) : (encode i).length = i.length := by
  cases i <;> rfl

/-- An instruction is one to three bytes long. -/
theorem length_range (i : Instr) : i.length = 1 ∨ i.length = 2 ∨ i.length = 3 := by
  cases i <;> first | exact .inl rfl | exact .inr (.inl rfl) | exact .inr (.inr rfl)

/-- What an opcode byte decodes to has that opcode byte, and its operand bytes are the bytes that follow (R152). -/
theorem encode_decodeOp (op b1 b2 : Byte) : encode (decodeOp op b1 b2) = [op, b1, b2].take (decodeOp op b1 b2).length := by
  have lit : ∀ k : Byte, op.toNat = k.toNat → k = op := fun k h => BitVec.eq_of_toNat_eq h.symm
  have hlt := op.isLt
  unfold decodeOp
  simp only
  split
  all_goals
    first
      | unfold decodeRow0 | unfold decodeRow1 | unfold decodeRow2 | unfold decodeRow3 | unfold decodeRow4 | unfold decodeRow5
      | unfold decodeRow6 | unfold decodeRow7 | unfold decodeRow8 | unfold decodeRow9 | unfold decodeRowA | unfold decodeRowB
      | unfold decodeRowC | unfold decodeRowD | unfold decodeRowE | unfold decodeRowF
    split
  all_goals first
    | rfl
    | (simp only [encode, Instr.opcode, Instr.operand, Operand.bytes, Addressing.bytes, Instr.length, Operand.length, Addressing.length,
        loByte_wordOf, hiByte_wordOf, List.take_succ_cons, List.take_zero]
       congr 1
       refine lit _ ?_
       simp only [BitVec.ofNat_eq_ofNat, BitVec.toNat_ofNat]
       first
         | omega
         | (simp only [imp_false] at *; omega))

/-- The length of an instruction is its opcode byte's alone (R131). -/
theorem opcodeLength_eq (op b1 b2 : Byte) : (decodeOp op b1 b2).length = opcodeLength op := by
  unfold opcodeLength decodeOp
  simp only
  generalize op.toNat / 16 = hi
  generalize op.toNat % 16 = lo
  split
  all_goals
    first
      | unfold decodeRow0 | unfold decodeRow1 | unfold decodeRow2 | unfold decodeRow3 | unfold decodeRow4 | unfold decodeRow5
      | unfold decodeRow6 | unfold decodeRow7 | unfold decodeRow8 | unfold decodeRow9 | unfold decodeRowA | unfold decodeRowB
      | unfold decodeRowC | unfold decodeRowD | unfold decodeRowE | unfold decodeRowF
    split <;> rfl

/-- A well-formed instruction's own opcode byte gives its length. -/
theorem opcodeLength_opcode (i : Instr) (h : i.wellFormed = true) : opcodeLength i.opcode = i.length := by
  have bytes : ∃ b1 b2, [i.opcode, b1, b2].take i.length = encode i := by
    cases i <;> first | exact ⟨0, 0, rfl⟩ | exact ⟨_, 0, rfl⟩ | exact ⟨_, _, rfl⟩
  obtain ⟨b1, b2, he⟩ := bytes
  rw [← opcodeLength_eq i.opcode b1 b2, decodeOp_encode i h b1 b2 he]

/-- What an opcode byte decodes to is well formed or not, and is XXX or not, whatever bytes follow it. -/
theorem decodeOp_kind (op b1 b2 : Byte) :
    (decodeOp op b1 b2).wellFormed = (decodeOp op 0 0).wellFormed ∧ (decodeOp op b1 b2).mnemonic = (decodeOp op 0 0).mnemonic := by
  unfold decodeOp
  simp only
  generalize op.toNat / 16 = hi
  generalize op.toNat % 16 = lo
  split
  all_goals
    first
      | unfold decodeRow0 | unfold decodeRow1 | unfold decodeRow2 | unfold decodeRow3 | unfold decodeRow4 | unfold decodeRow5
      | unfold decodeRow6 | unfold decodeRow7 | unfold decodeRow8 | unfold decodeRow9 | unfold decodeRowA | unfold decodeRowB
      | unfold decodeRowC | unfold decodeRowD | unfold decodeRowE | unfold decodeRowF
    split <;> exact ⟨rfl, rfl⟩

/-- Every opcode byte decodes to a well-formed instruction (R152). -/
theorem decodeOp_wellFormed (op b1 b2 : Byte) : (decodeOp op b1 b2).wellFormed = true := by
  rw [(decodeOp_kind op b1 b2).1]
  revert op
  decide

/-- The entry XXX is what the unmapped opcode bytes decode to, and no other (R151). -/
theorem decodeOp_xxx_iff (op b1 b2 : Byte) : (decodeOp op b1 b2).mnemonic = .xxx ↔ op ∈ unmappedOpcodes := by
  rw [(decodeOp_kind op b1 b2).2, ← List.contains_iff_mem]
  revert op
  decide

/-- What an opcode byte decodes to has that opcode byte. -/
theorem decodeOp_opcode (op b1 b2 : Byte) : (decodeOp op b1 b2).opcode = op := by
  have h := encode_decodeOp op b1 b2
  rcases length_range (decodeOp op b1 b2) with h1 | h1 | h1 <;> rw [h1] at h <;> exact (List.cons.inj h).1

theorem decode_of_one (op : Byte) (rest : List Byte) (h : opcodeLength op = 1) : decode (op :: rest) = .ok (decodeOp op 0 0) rest := by
  simp only [decode, h]

theorem decode_of_two (op b1 : Byte) (rest : List Byte) (h : opcodeLength op = 2) :
    decode (op :: b1 :: rest) = .ok (decodeOp op b1 0) rest := by
  simp only [decode, h]

theorem decode_of_three (op b1 b2 : Byte) (rest : List Byte) (h : opcodeLength op = 3) :
    decode (op :: b1 :: b2 :: rest) = .ok (decodeOp op b1 b2) rest := by
  simp only [decode, h]

end Sys2Proof
end

