-- ==== Sys2Proof/Laws/Exec.lean ====
section
/-! SUPPORT. Every meaning is one of eight shapes: what it does with its operand, and its base cost. `exec_shape` says so once for all 152
constructors; later proofs go by the shape, of which there are eight, and not by the constructor. -/

namespace Sys2Proof.Machine

/-- What an instruction does, by the way it uses its operand. -/
inductive Shape where
  | source (f : Byte → State → State) (src : Source)
  | store (r : Reg) (m : Addressing)
  | modify (f : Byte → Byte → Byte × Byte) (m : Addressing)
  | implied (f : State → State)
  | jump (a : Word)
  | jumpIndirect (a : Word)
  | call (a : Word)
  | branch (f : Flag) (want : Bool) (d : Byte)

/-- The state after an instruction of a shape with a base cost. -/
def Shape.run (sh : Shape) (base : Nat) (s : State) : State :=
  match sh with
  | .source f src => withSource base src f s
  | .store r m => storeReg r base m s
  | .modify f m => modifyMem base m f s
  | .implied f => Machine.implied base f s
  | .jump a => Machine.jump base a s
  | .jumpIndirect a => Machine.jumpIndirect base a s
  | .call a => callSubroutine base a s
  | .branch f want d => Machine.branch f want base d s

/-- An operand as a source. -/
def Operand.source (o : Operand) : Source :=
  match o with
  | .imm b => .imm b
  | .mem m => .mem m
  | .rel d => .imm d
  | .ind a => .mem (.abs a)
  | .imp | .acc => .imm 0

/-- An operand's addressing. -/
def Operand.addressing (o : Operand) : Addressing :=
  match o with
  | .mem m => m
  | .imm b => .zp b
  | .rel d => .zp d
  | .ind a => .abs a
  | .imp | .acc => .zp 0

/-- The shape of a shift or rotate. -/
def shiftShape (f : Byte → Byte → ShiftResult) (o : Operand) : Shape :=
  match o with
  | .acc => .implied (fun s => (s.setA (f s.cpu.a s.cpu.p).result).setP (shiftFlags s.cpu.p (f s.cpu.a s.cpu.p)))
  | o => .modify (fun b p => ((f b p).result, shiftFlags p (f b p))) o.addressing

/-- The offset byte of a branch. -/
def Operand.offset (o : Operand) : Byte :=
  match o with
  | .rel d => d
  | _ => 0

/-- The operand word of a jump. -/
def Operand.word (o : Operand) : Word :=
  match o with
  | .mem (.abs a) => a
  | .ind a => a
  | _ => 0

/-- The shape of each mnemonic over its operand. -/
def shapeOf (m : Mnemonic) (o : Operand) : Shape :=
  match m with
  | .lda => .source (fun v s => s.setRegZN .a v) o.source
  | .ldx => .source (fun v s => s.setRegZN .x v) o.source
  | .ldy => .source (fun v s => s.setRegZN .y v) o.source
  | .adc => .source addToA o.source
  | .sbc => .source subtractFromA o.source
  | .and => .source (fun v s => s.setRegZN .a (s.cpu.a &&& v)) o.source
  | .ora => .source (fun v s => s.setRegZN .a (s.cpu.a ||| v)) o.source
  | .eor => .source (fun v s => s.setRegZN .a (s.cpu.a ^^^ v)) o.source
  | .bit => .source (fun v s => s.setP (bitFlags s.cpu.p s.cpu.a v)) o.source
  | .cmp => .source (fun v s => s.setP (compareFlags s.cpu.p (s.reg .a) v)) o.source
  | .cpx => .source (fun v s => s.setP (compareFlags s.cpu.p (s.reg .x) v)) o.source
  | .cpy => .source (fun v s => s.setP (compareFlags s.cpu.p (s.reg .y) v)) o.source
  | .sta => .store .a o.addressing
  | .stx => .store .x o.addressing
  | .sty => .store .y o.addressing
  | .inc => .modify incByte o.addressing
  | .dec => .modify decByte o.addressing
  | .asl => shiftShape aslOp o
  | .lsr => shiftShape lsrOp o
  | .rol => shiftShape rolOp o
  | .ror => shiftShape rorOp o
  | .jmp => match o with | .ind a => .jumpIndirect a | o => .jump o.word
  | .jsr => .call o.word
  | .bcc => .branch .C false o.offset
  | .bcs => .branch .C true o.offset
  | .bne => .branch .Z false o.offset
  | .beq => .branch .Z true o.offset
  | .bpl => .branch .N false o.offset
  | .bmi => .branch .N true o.offset
  | .bvc => .branch .V false o.offset
  | .bvs => .branch .V true o.offset
  | .tax => .implied (fun s => s.setRegZN .x s.cpu.a)
  | .tay => .implied (fun s => s.setRegZN .y s.cpu.a)
  | .txa => .implied (fun s => s.setRegZN .a s.cpu.x)
  | .tya => .implied (fun s => s.setRegZN .a s.cpu.y)
  | .tsx => .implied (fun s => s.setRegZN .x s.cpu.sp)
  | .txs => .implied (fun s => s.setSp s.cpu.x)
  | .inx => .implied (fun s => s.setRegZN .x (s.cpu.x + 1))
  | .iny => .implied (fun s => s.setRegZN .y (s.cpu.y + 1))
  | .dex => .implied (fun s => s.setRegZN .x (s.cpu.x - 1))
  | .dey => .implied (fun s => s.setRegZN .y (s.cpu.y - 1))
  | .pha => .implied (fun s => push s.cpu.a s)
  | .php => .implied (fun s => push (pushedByInstruction s.cpu.p) s)
  | .pla => .implied pullA
  | .plp => .implied pullP
  | .rts => .implied returnFromSubroutine
  | .rti => .implied returnFromException
  | .brk => .implied (takeException .brk)
  | .clc => .implied (fun s => s.putFlag .C false)
  | .sec => .implied (fun s => s.putFlag .C true)
  | .cli => .implied (fun s => s.putFlag .I false)
  | .sei => .implied (fun s => s.putFlag .I true)
  | .clv => .implied (fun s => s.putFlag .V false)
  | .cld => .implied (fun s => s.putFlag .D false)
  | .sed => .implied (fun s => s.putFlag .D true)
  | .nop => .implied (fun s => s)
  | .xxx => .implied noteUnknown

/-- The base cost an instruction charges: the parameter of its opcode, but 2 for XXX (R520 of 70_reset_and_hazards.md, R6 of 00_scope.md). -/
def baseCostOf (cfg : Config) (i : Instr) : Nat :=
  match i.mnemonic with
  | .xxx => 2
  | _ => cfg.baseCost i.opcode

/-- Every instruction answers a next state, the one of its shape. -/
theorem exec_shape (i : Instr) (s : State) :
    exec i s = .next ((shapeOf i.mnemonic i.operand).run (baseCostOf s.cfg i) s) := by
  cases i <;> rfl

/-! ## What an instruction keeps -/

/-- Whether a shape writes on the bus by itself. -/
def Shape.stores (sh : Shape) : Bool :=
  match sh with
  | .store _ _ | .modify _ _ | .call _ => true
  | .source _ _ | .implied _ | .jump _ | .jumpIndirect _ | .branch _ _ _ => false

/-- The operation of a shape keeps the value of `f`. -/
def Shape.Fixes {α : Type} (f : State → α) (sh : Shape) : Prop :=
  match sh with
  | .source g _ => ∀ b u, f (g b u) = f u
  | .implied g => ∀ u, f (g u) = f u
  | .store _ _ | .modify _ _ | .jump _ | .jumpIndirect _ | .call _ | .branch _ _ _ => True

theorem push_keeps {α : Type} (f : State → α) (hc : ∀ u c, f { u with cpu := c } = f u) (hw : ∀ a v u, f (cpuWrite a v u) = f u)
    (v : Byte) (s : State) : f (push v s) = f s :=
  (hc _ _).trans (hw _ _ _)

theorem takeException_keeps {α : Type} (f : State → α) (hr : ∀ u : State, f u.apartFromReads = f u)
    (hc : ∀ u c, f { u with cpu := c } = f u) (hw : ∀ a v u, f (cpuWrite a v u) = f u) (e : Event) (s : State) :
    f (takeException e s) = f s := by
  unfold takeException push16 read16 readPair
  refine (hc _ _).trans ?_
  rw [State.apartFromReads_field f hr (cpuRead_apart _ _), State.apartFromReads_field f hr (cpuRead_apart _ _)]
  refine (hc _ _).trans ?_
  rw [push_keeps f hc hw]
  refine (hc _ _).trans ?_
  rw [push_keeps f hc hw, push_keeps f hc hw]

theorem Shape.run_keeps {α : Type} (f : State → α) (hr : ∀ u : State, f u.apartFromReads = f u)
    (hc : ∀ u c, f { u with cpu := c } = f u) (sh : Shape) (hw : sh.stores = true → ∀ a v u, f (cpuWrite a v u) = f u)
    (hf : sh.Fixes f) (base : Nat) (s : State) : f (sh.run base s) = f s := by
  have read : ∀ a u, f (cpuRead a u).2 = f u := fun a u => State.apartFromReads_field f hr (cpuRead_apart a u)
  cases sh with
  | source g src =>
    refine (hc _ _).trans ((hf _ _).trans ?_)
    rw [State.apartFromReads_field f hr (readSource_apart src _)]
    exact hc _ _
  | store r m =>
    show f (storeReg r base m s) = f s
    unfold storeReg
    simp only [effective_state]
    exact (hc _ _).trans ((hw rfl _ _ _).trans (hc _ _))
  | modify g m =>
    show f (modifyMem base m g s) = f s
    unfold modifyMem
    simp only [effective_state]
    exact (hc _ _).trans ((hc _ _).trans ((hw rfl _ _ _).trans ((read _ _).trans (hc _ _))))
  | implied g => exact (hc _ _).trans ((hf _).trans (hc _ _))
  | jump a => exact hc s _
  | jumpIndirect a => exact (hc _ _).trans ((hc _ _).trans ((State.apartFromReads_field f hr (indirectTarget_apart a _)).trans (hc _ _)))
  | call a =>
    refine (hc _ _).trans ((hc _ _).trans ?_)
    exact (push_keeps f hc (hw rfl) _ _).trans ((push_keeps f hc (hw rfl) _ _).trans (hc _ _))
  | branch g want d =>
    show f (Machine.branch g want base d s) = f s
    unfold Machine.branch
    simp only
    split
    · exact hc s _
    · exact hc s _

theorem shiftShape_fixes {α : Type} (f : State → α) (hc : ∀ u c, f { u with cpu := c } = f u) (g : Byte → Byte → ShiftResult)
    (o : Operand) : (shiftShape g o).Fixes f := by
  cases o with
  | acc => exact fun u => hc u _
  | imp | imm _ | mem _ | rel _ | ind _ => exact True.intro

theorem pull_keeps {α : Type} (f : State → α) (hr : ∀ u : State, f u.apartFromReads = f u) (hc : ∀ u c, f { u with cpu := c } = f u)
    (s : State) : f (pull s).2 = f s := by
  rw [pull_eq]
  exact (hc _ _).trans (State.apartFromReads_field f hr (cpuRead_apart _ _))

theorem setRegZN_keeps {α : Type} (f : State → α) (hc : ∀ u c, f { u with cpu := c } = f u) (r : Reg) (v : Byte) (s : State) :
    f (s.setRegZN r v) = f s := by
  cases r <;> exact hc s _

/-- What reads, register writes and, for an instruction that writes on the bus, bus writes keep, an instruction keeps. -/
theorem exec_keeps {α : Type} (f : State → α) (hr : ∀ u : State, f u.apartFromReads = f u) (hc : ∀ u c, f { u with cpu := c } = f u)
    (i : Instr) (s t : State) (hw : storesNothing i = false → ∀ a v u, f (cpuWrite a v u) = f u) (h : exec i s = .next t) :
    f t = f s := by
  rw [exec_shape] at h
  obtain rfl := Host.Outcome.next.inj h
  unfold storesNothing at hw
  refine Shape.run_keeps f hr hc _ ?_ ?_ _ s
  · intro hst
    refine hw ?_
    cases hm : i.mnemonic <;> rw [hm] at hst <;> first
      | rfl
      | exact Bool.noConfusion hst
      | (cases ho : i.operand <;> rw [ho] at hst <;> first | rfl | exact Bool.noConfusion hst)
  · cases hm : i.mnemonic with
    | lda | ldx | ldy | and | ora | eor => exact fun b u => setRegZN_keeps f hc _ _ u
    | adc | sbc | bit | cmp | cpx | cpy => exact fun b u => hc u _
    | sta | stx | sty | jsr | bcc | bcs | bne | beq | bpl | bmi | bvc | bvs | inc | dec => exact True.intro
    | asl | lsr | rol | ror => exact shiftShape_fixes f hc _ _
    | jmp => cases i.operand <;> exact True.intro
    | tax | tay | txa | tya | tsx | inx | iny | dex | dey => exact fun u => setRegZN_keeps f hc _ _ u
    | txs | clc | sec | cli | sei | clv | cld | sed | xxx => exact fun u => hc u _
    | nop => exact fun u => rfl
    | pha | php => exact fun u => push_keeps f hc (hw (by rw [hm])) _ u
    | brk => exact fun u => takeException_keeps f hr hc (hw (by rw [hm])) _ u
    | pla => exact fun u => (setRegZN_keeps f hc _ _ _).trans (pull_keeps f hr hc u)
    | plp => exact fun u => (hc _ _).trans (pull_keeps f hr hc u)
    | rts =>
      intro u
      unfold returnFromSubroutine
      exact (hc _ _).trans ((pull_keeps f hr hc _).trans (pull_keeps f hr hc u))
    | rti =>
      intro u
      unfold returnFromException
      exact (hc _ _).trans ((pull_keeps f hr hc _).trans ((pull_keeps f hr hc _).trans ((hc _ _).trans (pull_keeps f hr hc u))))

/-- No instruction writes the NMI latch, and none but XXX the diagnostic bit, which it sets (R264, R273). -/
theorem exec_latches (i : Instr) (s t : State) (h : exec i s = .next t) :
    t.cpu.nmiPending = s.cpu.nmiPending ∧ t.cpu.diagUnknown = (decide (i.mnemonic = .xxx) || s.cpu.diagUnknown) := by
  rw [exec_shape] at h
  obtain rfl := Host.Outcome.next.inj h
  generalize baseCostOf s.cfg i = b
  generalize i.operand = o
  cases i.mnemonic
  case lda | ldx | ldy | and | ora | eor | adc | sbc | bit | cmp | cpx | cpy =>
    simp [shapeOf, Shape.run, withSource, subtractFromA, addToA, State.setRegZN_eq]
  case asl | lsr | rol | ror =>
    cases o <;> simp [shapeOf, shiftShape, Shape.run, implied, modifyMem]
  case jmp => cases o <;> simp [shapeOf, Shape.run, jump, jumpIndirect]
  case sta | stx | sty | inc | dec => simp [shapeOf, Shape.run, storeReg, modifyMem]
  case bcc | bcs | bne | beq | bpl | bmi | bvc | bvs =>
    simp only [shapeOf, Shape.run, branch]
    split <;> exact ⟨rfl, rfl⟩
  case jsr => simp [shapeOf, Shape.run, callSubroutine, push16_eq]
  case rts => simp [shapeOf, Shape.run, implied, returnFromSubroutine, pull16_eq]
  case pha | php => simp [shapeOf, Shape.run, implied, push_eq]
  case pla | plp => simp [shapeOf, Shape.run, implied, pullA, pullP, pull_eq, State.setRegZN_eq]
  case rti => simp [shapeOf, Shape.run, implied, returnFromException_eq]
  case brk => simp [shapeOf, Shape.run, implied, takeException_eq]
  all_goals simp [shapeOf, Shape.run, implied, noteUnknown, State.setRegZN_eq]

end Sys2Proof.Machine
end

