-- ==== Sys2Proof/Laws/Flags.lean ====
section
/-! SUPPORT. The laws of the status byte: a flag read after a flag write, each flag computation flag by flag, and the unused bit. -/

namespace Sys2Proof.Machine

/-- A status byte is its eight flags. -/
theorem status_ext (p q : Byte) (h : ∀ f, getFlag p f = getFlag q f) : p = q := by
  refine BitVec.eq_of_getLsbD_eq fun i hi => ?_
  rcases (by omega : i = 0 ∨ i = 1 ∨ i = 2 ∨ i = 3 ∨ i = 4 ∨ i = 5 ∨ i = 6 ∨ i = 7) with
    rfl | rfl | rfl | rfl | rfl | rfl | rfl | rfl
  · exact h .C
  · exact h .Z
  · exact h .I
  · exact h .D
  · exact h .B
  · exact h .U
  · exact h .V
  · exact h .N

/-- Reading a flag after writing one. -/
@[simp] theorem getFlag_setFlag (p : Byte) (f g : Flag) (b : Bool) :
    getFlag (setFlag p f b) g = if g = f then b else getFlag p g := by
  cases f <;> cases g <;> cases b <;> simp [getFlag, setFlag, Flag.bit]

/-- The flags after `setZN`: Z and N from the value, the other six unchanged. -/
@[simp] theorem getFlag_setZN (p v : Byte) (f : Flag) :
    getFlag (setZN p v) f = if f = .N then v.getLsbD 7 else if f = .Z then v == 0x00 else getFlag p f := by
  simp [setZN]

@[simp] theorem getFlag_pushedByInstruction (p : Byte) (f : Flag) :
    getFlag (pushedByInstruction p) f = if f = .B ∨ f = .U then true else getFlag p f := by
  cases f <;> simp [getFlag, pushedByInstruction, Flag.bit]

@[simp] theorem getFlag_pushedByNmi (p : Byte) (f : Flag) :
    getFlag (pushedByNmi p) f = if f = .B then false else if f = .U then true else getFlag p f := by
  cases f <;> simp [getFlag, pushedByNmi, Flag.bit]

@[simp] theorem getFlag_pulledStatus (v : Byte) (f : Flag) :
    getFlag (pulledStatus v) f = if f = .U then true else getFlag v f := by
  cases f <;> simp [getFlag, pulledStatus, Flag.bit]

@[simp] theorem getFlag_addFlags (p : Byte) (r : AddResult) (f : Flag) :
    getFlag (addFlags p r) f =
      match f with
      | .C => r.carry
      | .V => r.overflow
      | .Z => r.result == 0x00
      | .N => r.result.getLsbD 7
      | f => getFlag p f := by
  cases f <;> simp [addFlags]

@[simp] theorem getFlag_compareFlags (p r m : Byte) (f : Flag) :
    getFlag (compareFlags p r m) f =
      match f with
      | .C => decide (m.toNat ≤ r.toNat)
      | .Z => r - m == 0x00
      | .N => (r - m).getLsbD 7
      | f => getFlag p f := by
  cases f <;> simp [compareFlags]

@[simp] theorem getFlag_bitFlags (p a m : Byte) (f : Flag) :
    getFlag (bitFlags p a m) f =
      match f with
      | .Z => a &&& m == 0x00
      | .N => m.getLsbD 7
      | .V => m.getLsbD 6
      | f => getFlag p f := by
  cases f <;> simp [bitFlags]

@[simp] theorem getFlag_shiftFlags (p : Byte) (r : ShiftResult) (f : Flag) :
    getFlag (shiftFlags p r) f =
      match f with
      | .C => r.carry
      | .Z => r.result == 0x00
      | .N => r.result.getLsbD 7
      | f => getFlag p f := by
  cases f <;> simp [shiftFlags]

/-- The result of an addition is the sum modulo 256. -/
theorem addWithCarry_result (a m : Byte) (c : Bool) :
    (addWithCarry a m c).result.toNat = (a.toNat + m.toNat + c.toNat) % 256 := by
  simp [addWithCarry]

/-- The carry of an addition is the ninth bit of the sum. -/
theorem addWithCarry_carry (a m : Byte) (c : Bool) :
    (addWithCarry a m c).carry = decide (255 < a.toNat + m.toNat + c.toNat) := rfl

/-- The overflow of an addition: the operands have the same sign and the result another. -/
theorem addWithCarry_overflow (a m : Byte) (c : Bool) :
    (addWithCarry a m c).overflow =
      (a.getLsbD 7 == m.getLsbD 7 && a.getLsbD 7 != (addWithCarry a m c).result.getLsbD 7) := by
  have key : ∀ x y r : Byte, ((~~~(x ^^^ y) &&& (x ^^^ r) &&& 0x80) != 0x00) =
      (x.getLsbD 7 == y.getLsbD 7 && x.getLsbD 7 != r.getLsbD 7) := by
    intro x y r
    have h : ∀ z : Byte, (z &&& 0x80 != 0x00) = z.getLsbD 7 := by decide
    rw [h, BitVec.getLsbD_and, BitVec.getLsbD_not, BitVec.getLsbD_xor, BitVec.getLsbD_xor]
    cases x.getLsbD 7 <;> cases y.getLsbD 7 <;> cases r.getLsbD 7 <;> rfl
  exact key _ _ _

end Sys2Proof.Machine
end

