-- ==== Sys2Proof/Laws/Memory.lean ====
section
/-! SUPPORT. The laws of a physical store: read after write, and the canonical form, which every operation keeps. -/

namespace Sys2Proof.Machine

theorem Memory.read_erase_same (m : Memory) (a : Nat) : (Memory.erase m a).read a = Memory.unlisted := by
  induction m with
  | nil => rfl
  | cons c m ih =>
    obtain ⟨k, v⟩ := c
    by_cases h : k = a <;> simp_all [Memory.erase, Memory.read]

theorem Memory.read_erase_other (m : Memory) (a b : Nat) (h : b ≠ a) : (Memory.erase m a).read b = m.read b := by
  induction m with
  | nil => rfl
  | cons c m ih =>
    obtain ⟨k, v⟩ := c
    by_cases hk : k = a
    · simp [Memory.erase, Memory.read, hk, ih, h.symm]
    · simp [Memory.erase, Memory.read, hk, ih]

theorem Memory.read_insert_same (m : Memory) (a : Nat) (v : Byte) (hm : ∀ c ∈ m, c.1 ≠ a) :
    (Memory.insert m a v).read a = v := by
  induction m with
  | nil => simp [Memory.insert, Memory.read]
  | cons c m ih =>
    obtain ⟨k, w⟩ := c
    have hk : k ≠ a := hm (k, w) (by simp)
    by_cases h : a < k
    · simp [Memory.insert, Memory.read, h]
    · simp only [Memory.insert, if_neg h, Memory.read, if_neg hk]
      exact ih fun c hc => hm c (by simp [hc])

theorem Memory.read_insert_other (m : Memory) (a b : Nat) (v : Byte) (h : b ≠ a) :
    (Memory.insert m a v).read b = m.read b := by
  induction m with
  | nil => simp [Memory.insert, Memory.read, h.symm]
  | cons c m ih =>
    obtain ⟨k, w⟩ := c
    by_cases hk : a < k
    · simp [Memory.insert, Memory.read, hk, h.symm]
    · simp [Memory.insert, Memory.read, hk, ih]

theorem Memory.mem_erase (m : Memory) (a : Nat) (c : Host.Cell) : c ∈ Memory.erase m a ↔ c ∈ m ∧ c.1 ≠ a := by
  induction m with
  | nil => simp [Memory.erase]
  | cons d m ih =>
    obtain ⟨k, w⟩ := d
    by_cases hk : k = a
    · simp only [Memory.erase, if_pos hk, ih, List.mem_cons]
      constructor
      · rintro ⟨h, hn⟩
        exact ⟨.inr h, hn⟩
      · rintro ⟨rfl | h, hn⟩
        · exact absurd hk hn
        · exact ⟨h, hn⟩
    · simp only [Memory.erase, if_neg hk, ih, List.mem_cons]
      constructor
      · rintro (rfl | ⟨h, hn⟩)
        · exact ⟨.inl rfl, hk⟩
        · exact ⟨.inr h, hn⟩
      · rintro ⟨rfl | h, hn⟩
        · exact .inl rfl
        · exact .inr ⟨h, hn⟩

theorem Memory.mem_insert (m : Memory) (a : Nat) (v : Byte) (c : Host.Cell) :
    c ∈ Memory.insert m a v ↔ c = (a, v) ∨ c ∈ m := by
  induction m with
  | nil => simp [Memory.insert]
  | cons d m ih =>
    obtain ⟨k, w⟩ := d
    by_cases hk : a < k
    · simp [Memory.insert, hk]
    · simp only [Memory.insert, if_neg hk, List.mem_cons, ih]
      exact or_left_comm

/-- Read after write at the same index gives the byte written. -/
@[simp] theorem Memory.read_write_same (m : Memory) (a : Nat) (v : Byte) : (m.write a v).read a = v := by
  unfold Memory.write
  split
  · next h => rw [Memory.read_erase_same, h]
  · exact Memory.read_insert_same _ _ _ fun c hc => ((Memory.mem_erase m a c).mp hc).2

/-- A write leaves every other index alone. -/
theorem Memory.read_write_other (m : Memory) (a b : Nat) (v : Byte) (h : b ≠ a) : (m.write a v).read b = m.read b := by
  unfold Memory.write
  split
  · exact Memory.read_erase_other m a b h
  · rw [Memory.read_insert_other _ _ _ _ h, Memory.read_erase_other m a b h]

theorem Memory.read_write (m : Memory) (a b : Nat) (v : Byte) :
    (m.write a v).read b = if b = a then v else m.read b := by
  split
  · next h => rw [h, Memory.read_write_same]
  · next h => exact Memory.read_write_other m a b v h

theorem Memory.erase_sublist (m : Memory) (a : Nat) : (Memory.erase m a).Sublist m := by
  induction m with
  | nil => exact .slnil
  | cons c m ih =>
    obtain ⟨k, w⟩ := c
    by_cases hk : k = a
    · simpa [Memory.erase, hk] using ih.cons (k, w)
    · simpa [Memory.erase, hk] using ih.cons_cons (k, w)

theorem Memory.insert_rising (m : Memory) (a : Nat) (v : Byte) (hm : m.Pairwise (fun c d => c.1 < d.1))
    (ha : ∀ c ∈ m, c.1 ≠ a) : (Memory.insert m a v).Pairwise (fun c d => c.1 < d.1) := by
  induction m with
  | nil => simp [Memory.insert]
  | cons d m ih =>
    obtain ⟨k, w⟩ := d
    have hka : k ≠ a := ha (k, w) (by simp)
    obtain ⟨hd, hm'⟩ := List.pairwise_cons.mp hm
    by_cases hk : a < k
    · simp only [Memory.insert, if_pos hk]
      refine List.pairwise_cons.mpr ⟨fun c hc => ?_, hm⟩
      rcases List.mem_cons.mp hc with rfl | hc
      · exact hk
      · exact Nat.lt_trans hk (hd c hc)
    · simp only [Memory.insert, if_neg hk]
      refine List.pairwise_cons.mpr ⟨fun c hc => ?_, ih hm' fun c hc => ha c (by simp [hc])⟩
      rcases (Memory.mem_insert m a v c).mp hc with rfl | hc
      · exact Nat.lt_of_le_of_ne (Nat.le_of_not_lt hk) hka
      · exact hd c hc

/-- A write keeps the canonical form. -/
theorem Memory.write_wf (m : Memory) (a : Nat) (v : Byte) (h : m.wf) : (m.write a v).wf := by
  have he := h.1.sublist (Memory.erase_sublist m a)
  unfold Memory.write
  split
  · exact ⟨he, fun c hc => h.2 c ((Memory.mem_erase m a c).mp hc).1⟩
  · next hv =>
    refine ⟨Memory.insert_rising _ a v he fun c hc => ((Memory.mem_erase m a c).mp hc).2, fun c hc => ?_⟩
    rcases (Memory.mem_insert _ a v c).mp hc with rfl | hc
    · exact hv
    · exact h.2 c ((Memory.mem_erase m a c).mp hc).1

/-- A write inside the store's size lists nothing outside it. -/
theorem Memory.write_within (m : Memory) (a n : Nat) (v : Byte) (h : m.within n) (ha : a < n) : (m.write a v).within n := by
  intro c hc
  unfold Memory.write at hc
  split at hc
  · exact h c ((Memory.mem_erase m a c).mp hc).1
  · rcases (Memory.mem_insert _ a v c).mp hc with rfl | hc
    · exact ha
    · exact h c ((Memory.mem_erase m a c).mp hc).1

theorem Memory.mem_ofBytes (a : Nat) (l : List Byte) (c : Host.Cell) (hc : c ∈ Memory.ofBytes a l) :
    a ≤ c.1 ∧ c.1 < a + l.length ∧ c.2 ≠ Memory.unlisted := by
  induction l generalizing a with
  | nil => simp [Memory.ofBytes] at hc
  | cons b l ih =>
    by_cases hb : b = Memory.unlisted
    · simp only [Memory.ofBytes, if_pos hb] at hc
      obtain ⟨h1, h2, h3⟩ := ih (a + 1) hc
      exact ⟨by omega, by simp only [List.length_cons]; omega, h3⟩
    · simp only [Memory.ofBytes, if_neg hb, List.mem_cons] at hc
      rcases hc with rfl | hc
      · exact ⟨Nat.le_refl a, by simp only [List.length_cons]; omega, hb⟩
      · obtain ⟨h1, h2, h3⟩ := ih (a + 1) hc
        exact ⟨by omega, by simp only [List.length_cons]; omega, h3⟩

/-- A store made from bytes is in canonical form. -/
theorem Memory.ofBytes_wf (a : Nat) (l : List Byte) : (Memory.ofBytes a l).wf := by
  refine ⟨?_, fun c hc => (Memory.mem_ofBytes a l c hc).2.2⟩
  induction l generalizing a with
  | nil => simp [Memory.ofBytes]
  | cons b l ih =>
    by_cases hb : b = Memory.unlisted
    · simpa [Memory.ofBytes, hb] using ih (a + 1)
    · simp only [Memory.ofBytes, if_neg hb]
      exact List.pairwise_cons.mpr ⟨fun c hc => (Memory.mem_ofBytes (a + 1) l c hc).1, ih (a + 1)⟩

theorem Memory.ofBytes_within (l : List Byte) (n : Nat) (h : l.length ≤ n) : (Memory.ofBytes 0 l).within n := by
  intro c hc
  have := Memory.mem_ofBytes 0 l c hc
  omega

/-- The byte of a store made from bytes is the list's byte at that index. -/
theorem Memory.read_ofBytes (a i : Nat) (l : List Byte) :
    (Memory.ofBytes a l).read (a + i) = l.getD i Memory.unlisted := by
  induction l generalizing a i with
  | nil => rfl
  | cons b l ih =>
    have hskip : ∀ n, a < n → ∀ l, (Memory.ofBytes n l).read a = Memory.unlisted := by
      intro n hn l
      induction l generalizing n with
      | nil => rfl
      | cons b l ih =>
        by_cases hb : b = Memory.unlisted
        · simpa [Memory.ofBytes, hb] using ih (n + 1) (by omega)
        · simp only [Memory.ofBytes, if_neg hb, Memory.read]
          rw [if_neg (by omega)]
          exact ih (n + 1) (by omega)
    cases i with
    | zero =>
      by_cases hb : b = Memory.unlisted
      · simpa [Memory.ofBytes, hb] using hskip (a + 1) (by omega) l
      · simp [Memory.ofBytes, hb, Memory.read]
    | succ i =>
      have h := ih (a + 1) i
      rw [show a + 1 + i = a + (i + 1) by omega] at h
      by_cases hb : b = Memory.unlisted
      · simpa [Memory.ofBytes, hb] using h
      · simp only [Memory.ofBytes, if_neg hb, Memory.read]
        rw [if_neg (by omega)]
        simpa using h

theorem Memory.read_eq_unlisted (m : Memory) (b : Nat) (h : ∀ c ∈ m, c.1 ≠ b) : m.read b = Memory.unlisted := by
  induction m with
  | nil => rfl
  | cons c m ih =>
    obtain ⟨k, w⟩ := c
    have hk : k ≠ b := h (k, w) (by simp)
    simp only [Memory.read, if_neg hk]
    exact ih fun c hc => h c (by simp [hc])

/-- Canonical stores that read alike are the same data. -/
theorem Memory.ext_of_wf (m n : Memory) (hm : m.wf) (hn : n.wf) (h : ∀ a, m.read a = n.read a) : m = n := by
  induction m generalizing n with
  | nil =>
    cases n with
    | nil => rfl
    | cons c n =>
      obtain ⟨k, w⟩ := c
      have := h k
      simp only [Memory.read, if_true] at this
      exact absurd this.symm (hn.2 (k, w) (by simp))
  | cons c m ih =>
    obtain ⟨k, v⟩ := c
    cases n with
    | nil =>
      have := h k
      simp only [Memory.read, if_true] at this
      exact absurd this (hm.2 (k, v) (by simp))
    | cons d n =>
      obtain ⟨l, w⟩ := d
      obtain ⟨hmk, hm'⟩ := List.pairwise_cons.mp hm.1
      obtain ⟨hnl, hn'⟩ := List.pairwise_cons.mp hn.1
      have hkl : k = l := by
        rcases Nat.lt_trichotomy k l with hlt | heq | hgt
        · have := h k
          have hr : Memory.read ((l, w) :: n) k = Memory.unlisted := by
            refine Memory.read_eq_unlisted _ _ fun c hc => ?_
            rcases List.mem_cons.mp hc with rfl | hc
            · exact (Nat.ne_of_lt hlt).symm
            · exact (Nat.ne_of_lt (Nat.lt_trans hlt (hnl c hc))).symm
          rw [hr] at this
          simp only [Memory.read, if_true] at this
          exact absurd this (hm.2 (k, v) (by simp))
        · exact heq
        · have := h l
          have hr : Memory.read ((k, v) :: m) l = Memory.unlisted := by
            refine Memory.read_eq_unlisted _ _ fun c hc => ?_
            rcases List.mem_cons.mp hc with rfl | hc
            · exact (Nat.ne_of_lt hgt).symm
            · exact (Nat.ne_of_lt (Nat.lt_trans hgt (hmk c hc))).symm
          rw [hr] at this
          simp only [Memory.read, if_true] at this
          exact absurd this.symm (hn.2 (l, w) (by simp))
      subst hkl
      have hvw : v = w := by simpa [Memory.read] using h k
      subst hvw
      congr 1
      refine ih n ⟨hm', fun c hc => hm.2 c (by simp [hc])⟩ ⟨hn', fun c hc => hn.2 c (by simp [hc])⟩ fun a => ?_
      by_cases ha : k = a
      · subst ha
        rw [Memory.read_eq_unlisted m k fun c hc => (Nat.ne_of_lt (hmk c hc)).symm,
          Memory.read_eq_unlisted n k fun c hc => (Nat.ne_of_lt (hnl c hc)).symm]
      · simpa [Memory.read, ha] using h a

end Sys2Proof.Machine
end

