-- ==== Sys2Proof/Laws/Sound.lean ====
section
/-! SUPPORT. Every operation over the Bus and every meaning keeps the invariant `State.Sound`. -/

namespace Sys2Proof.Machine

/-- The invariant looks at the CPU only through the unused flag. -/
theorem State.Sound.withCpu {s : State} (h : s.Sound) (c : Cpu) (hc : getFlag c.p .U = true) : { s with cpu := c }.Sound :=
  { cfg := h.cfg, unused := hc, ram := h.ram, cart := h.cart, ppu := h.ppu, apu := h.apu }

theorem State.Sound.withRam {s : State} (h : s.Sound) (a : Nat) (v : Byte) (ha : a < 2048) :
    { s with ram := s.ram.write a v }.Sound :=
  { cfg := h.cfg, unused := h.unused,
    ram := ⟨Memory.write_wf _ a v h.ram.1, Memory.write_within _ a _ v h.ram.2 ha⟩, cart := h.cart, ppu := h.ppu, apu := h.apu }

theorem State.Sound.withPpu {s : State} (h : s.Sound) (p : Ppu) (hp : p.Sound) : { s with ppu := p }.Sound :=
  { cfg := h.cfg, unused := h.unused, ram := h.ram, cart := h.cart, ppu := hp, apu := h.apu }

theorem State.Sound.withApu {s : State} (h : s.Sound) (a : Apu) (ha : a.Sound s.cfg) : { s with apu := a }.Sound :=
  { cfg := h.cfg, unused := h.unused, ram := h.ram, cart := h.cart, ppu := h.ppu, apu := ha }

theorem State.Sound.withCart {s : State} (h : s.Sound) (o : Option Cartridge) (ho : ∀ c, o = some c → c.Sound) :
    { s with cart := o }.Sound :=
  { cfg := h.cfg, unused := h.unused, ram := h.ram, cart := ho, ppu := h.ppu, apu := h.apu }

/-- The parts of the state the invariant does not look at. -/
theorem State.Sound.congr {s t : State} (h : s.Sound) (hc : t.cfg = s.cfg) (hp : t.cpu.p = s.cpu.p) (hr : t.ram = s.ram)
    (hk : t.cart = s.cart) (hu : t.ppu = s.ppu) (ha : t.apu = s.apu) : t.Sound :=
  { cfg := by rw [hc]; exact h.cfg
    unused := by rw [hp]; exact h.unused
    ram := by rw [hr]; exact h.ram
    cart := by rw [hk]; exact h.cart
    ppu := by rw [hu]; exact h.ppu
    apu := by rw [hc, ha]; exact h.apu }

theorem status_masked (x m : Byte) (h : x &&& 0x3F = 0x00) : x &&& m &&& 0x3F = 0x00 := by
  have : x &&& m &&& 0x3F = x &&& 0x3F &&& m := by
    rw [BitVec.and_assoc, BitVec.and_comm m, ← BitVec.and_assoc]
  rw [this, h]
  simp

/-! ## Reads -/

theorem Cartridge.Sound.withMapper {c : Cartridge} (h : c.Sound) (m : Mapper) (hm : ∀ r, m = .mmc1 r → r.count.toNat ≤ 4) :
    { c with mapper := m }.Sound :=
  { banks := h.banks, prg := h.prg, chr := h.chr, prgram := h.prgram, serial := hm }

theorem Cartridge.Sound.afterPpuRead {c : Cartridge} (h : c.Sound) (a : BitVec 14) : (c.afterPpuRead a).Sound := by
  unfold Cartridge.afterPpuRead
  split
  case h_5 => exact h.withMapper _ fun r hr => by simp at hr
  all_goals exact h

theorem ppuRead_sound (a : BitVec 14) (s : State) (h : s.Sound) : (ppuRead a s).2.Sound := by
  refine h.withCart _ fun c hc => ?_
  obtain ⟨d, hd, rfl⟩ := Option.map_eq_some_iff.mp hc
  exact (h.cart d hd).afterPpuRead a

theorem ppuRegRead_sound (r : Nat) (s : State) (h : s.Sound) : (ppuRegRead r s).2.Sound := by
  unfold ppuRegRead
  split
  · refine State.Sound.congr (s := { s with ppu := { s.ppu with status := s.ppu.status &&& 0x7F, w := false } }) ?_ rfl rfl rfl rfl rfl rfl
    refine h.withPpu _ ?_
    exact { scanline := h.ppu.scanline, dot := h.ppu.dot, status := status_masked _ _ h.ppu.status, fineX := h.ppu.fineX,
            snap := h.ppu.snap, vram := h.ppu.vram, pal := h.ppu.pal, oam := h.ppu.oam }
  · exact h
  · have hr := ppuRead_sound (vramAddr s.ppu.v) s h
    refine hr.withPpu _ ?_
    exact { scanline := h.ppu.scanline, dot := h.ppu.dot, status := h.ppu.status, fineX := h.ppu.fineX, snap := h.ppu.snap,
            vram := h.ppu.vram, pal := h.ppu.pal, oam := h.ppu.oam }
  · exact h

theorem cpuRead_sound (a : Word) (s : State) (h : s.Sound) : (cpuRead a s).2.Sound := by
  unfold cpuRead
  split
  · exact h
  · unfold busRead
    split
    · exact h
    · split
      · exact ppuRegRead_sound _ s h
      · split
        · refine h.withApu _ ?_
          exact { sequence := h.apu.sequence, noise := h.apu.noise, bits := h.apu.bits, phase := h.apu.phase, ring := h.apu.ring }
        · split
          · exact h.congr rfl rfl rfl rfl rfl rfl
          · split
            · exact h.congr rfl rfl rfl rfl rfl rfl
            · exact h

/-! ## Writes -/

theorem mmc1Write_count (r : Mmc1) (n : Nat) (v : Byte) (h : r.count.toNat ≤ 4) : (mmc1Write r n v).1.count.toNat ≤ 4 := by
  unfold mmc1Write
  split
  · simp
  · split
    · split <;> simp
    · next h5 =>
      have h5' : (r.count + 1).toNat ≠ 5 := fun he => h5 (BitVec.eq_of_toNat_eq (by simpa using he))
      have h1 : (r.count + 1).toNat = (r.count.toNat + 1) % 8 := by simp [BitVec.toNat_add]
      rw [h1] at h5' ⊢
      omega

theorem Cartridge.Sound.applyOverride {c : Cartridge} (h : c.Sound) (o : Option Mirroring) : (c.applyOverride o).Sound := by
  unfold Cartridge.applyOverride
  split
  · exact h
  · split
    · exact h
    · exact { banks := h.banks, prg := h.prg, chr := h.chr, prgram := h.prgram, serial := h.serial }

/-- PRG-RAM is written at 6000 to 7FFF. -/
theorem Cartridge.cpuMapWrite_prgram (c : Cartridge) (a : Word) (v : Byte) (off : Nat) (h : c.cpuMapWrite a v = .prgram off) :
    0x6000 ≤ a.toNat ∧ a.toNat < 0x8000 ∧ off = a.toNat % 0x2000 := by
  cases hm : c.mapper <;> simp only [Cartridge.cpuMapWrite, hm] at h
  all_goals
    split at h
    · exact absurd h (by simp)
    · split at h
      · first
          | exact ⟨by omega, by omega, (MapWrite.prgram.inj h).symm⟩
          | exact absurd h (by simp)
      · first
          | exact absurd h (by simp)
          | (split at h <;> exact absurd h (by simp))

/-- A register write of MMC1 is its serial port. -/
theorem Cartridge.cpuMapWrite_mmc1 (c : Cartridge) (a : Word) (v : Byte) (r : Mmc1) (o : Option Mirroring)
    (h : c.cpuMapWrite a v = .register (.mmc1 r) o) : ∃ r0, c.mapper = .mmc1 r0 ∧ r = (mmc1Write r0 a.toNat v).1 := by
  cases hm : c.mapper <;> simp only [Cartridge.cpuMapWrite, hm] at h
  case mmc1 r0 =>
    refine ⟨r0, rfl, ?_⟩
    split at h
    · exact absurd h (by simp)
    · split at h
      · exact absurd h (by simp)
      · simp only [MapWrite.register.injEq, Mapper.mmc1.injEq] at h
        exact h.1.symm
  all_goals
    split at h
    · exact absurd h (by simp)
    · split at h
      · exact absurd h (by simp)
      · first
          | exact absurd h (by simp)
          | (split at h <;> exact absurd h (by simp))

theorem Cartridge.cpuWrite_sound (c d : Cartridge) (a : Word) (v : Byte) (h : c.Sound) (hd : c.cpuWrite a v = some d) : d.Sound := by
  unfold Cartridge.cpuWrite at hd
  split at hd
  · exact absurd hd (by simp)
  · next off hoff =>
    obtain ⟨-, -, rfl⟩ := c.cpuMapWrite_prgram a v off hoff
    obtain rfl := Option.some.inj hd
    exact { banks := h.banks, prg := h.prg, chr := h.chr, serial := h.serial,
            prgram := ⟨Memory.write_wf _ _ _ h.prgram.1,
              Memory.write_within _ _ _ _ h.prgram.2 (Nat.mod_lt _ (by decide))⟩ }
  · next m o hmap =>
    obtain rfl := Option.some.inj hd
    refine (h.withMapper m fun r hr => ?_).applyOverride o
    subst hr
    obtain ⟨r0, h0, rfl⟩ := c.cpuMapWrite_mmc1 a v r o hmap
    exact mmc1Write_count _ _ _ (h.serial r0 h0)

theorem Cartridge.ppuMap_lt (c : Cartridge) (a : BitVec 14) (off : Nat) (h : 0 < c.chrSize) (ho : c.ppuMap a = some off) :
    off < c.chrSize := by
  cases hm : c.mapper <;> simp only [Cartridge.ppuMap, hm] at ho
  all_goals
    repeat' split at ho
    all_goals first
      | (obtain rfl := Option.some.inj ho; exact Nat.mod_lt _ h)
      | exact absurd ho (by simp)

theorem Cartridge.chrSize_pos (c : Cartridge) : 0 < c.chrSize := by
  unfold Cartridge.chrSize
  split <;> omega

theorem Cartridge.ppuWrite_sound (c d : Cartridge) (a : BitVec 14) (v : Byte) (h : c.Sound) (hd : c.ppuWrite a v = some d) :
    d.Sound := by
  unfold Cartridge.ppuWrite at hd
  obtain ⟨off, hoff, rfl⟩ := Option.map_eq_some_iff.mp hd
  split
  · exact { banks := h.banks, prg := h.prg, prgram := h.prgram, serial := h.serial,
            chr := ⟨Memory.write_wf _ _ _ h.chr.1, Memory.write_within _ _ _ _ h.chr.2 (c.ppuMap_lt a off c.chrSize_pos hoff)⟩ }
  · exact h

theorem ntIndex_lt (m : Mirroring) (a : BitVec 14) : ntIndex m a < 2048 := by
  unfold ntIndex
  cases m <;> simp only <;> omega

theorem palIndex_lt (a : BitVec 14) : palIndex a < 32 := by
  unfold palIndex
  simp only
  split <;> omega

theorem ppuWrite_sound (a : BitVec 14) (v : Byte) (s : State) (h : s.Sound) : (ppuWrite a v s).Sound := by
  unfold ppuWrite
  split
  · next c hc =>
    obtain ⟨d, hd, hw⟩ := Option.bind_eq_some_iff.mp hc
    refine h.withCart _ fun e he => ?_
    obtain rfl := Option.some.inj he
    exact d.ppuWrite_sound _ a v (h.cart d hd) hw
  · split
    · exact h
    · split
      · refine h.withPpu _ ?_
        exact { scanline := h.ppu.scanline, dot := h.ppu.dot, status := h.ppu.status, fineX := h.ppu.fineX, snap := h.ppu.snap,
                pal := h.ppu.pal, oam := h.ppu.oam,
                vram := ⟨Memory.write_wf _ _ _ h.ppu.vram.1, Memory.write_within _ _ _ _ h.ppu.vram.2 (ntIndex_lt _ a)⟩ }
      · refine h.withPpu _ ?_
        exact { scanline := h.ppu.scanline, dot := h.ppu.dot, status := h.ppu.status, fineX := h.ppu.fineX, snap := h.ppu.snap,
                vram := h.ppu.vram, oam := h.ppu.oam,
                pal := ⟨Memory.write_wf _ _ _ h.ppu.pal.1, Memory.write_within _ _ _ _ h.ppu.pal.2 (palIndex_lt a)⟩ }

theorem low_three_bits (d : Byte) : (d &&& 0x07).toNat ≤ 7 := by
  rw [BitVec.toNat_and]
  exact Nat.and_le_right

theorem ppuRegWrite_sound (r : Nat) (v : Byte) (s : State) (h : s.Sound) : (ppuRegWrite r v s).Sound := by
  have hp := h.ppu
  unfold ppuRegWrite
  split
  · exact h.withPpu _ { scanline := hp.scanline, dot := hp.dot, status := hp.status, fineX := hp.fineX, snap := hp.snap, vram := hp.vram, pal := hp.pal, oam := hp.oam }
  · exact h.withPpu _ { scanline := hp.scanline, dot := hp.dot, status := hp.status, fineX := hp.fineX, snap := hp.snap, vram := hp.vram, pal := hp.pal, oam := hp.oam }
  · exact h.withPpu _ { scanline := hp.scanline, dot := hp.dot, status := hp.status, fineX := hp.fineX, snap := hp.snap, vram := hp.vram, pal := hp.pal, oam := hp.oam }
  · exact h.withPpu _ { scanline := hp.scanline, dot := hp.dot, status := hp.status, fineX := hp.fineX, snap := hp.snap, vram := hp.vram, pal := hp.pal,
                        oam := ⟨Memory.write_wf _ _ _ hp.oam.1, Memory.write_within _ _ _ _ hp.oam.2 s.ppu.oamAddr.isLt⟩ }
  · refine h.withPpu _ ?_
    unfold writeScroll
    split
    · exact { scanline := hp.scanline, dot := hp.dot, status := hp.status, fineX := hp.fineX, snap := hp.snap, vram := hp.vram, pal := hp.pal, oam := hp.oam }
    · exact { scanline := hp.scanline, dot := hp.dot, status := hp.status, fineX := low_three_bits v, snap := hp.snap, vram := hp.vram, pal := hp.pal, oam := hp.oam }
  · refine h.withPpu _ ?_
    unfold writeAddress
    split
    · exact { scanline := hp.scanline, dot := hp.dot, status := hp.status, fineX := hp.fineX, snap := hp.snap, vram := hp.vram, pal := hp.pal, oam := hp.oam }
    · exact { scanline := hp.scanline, dot := hp.dot, status := hp.status, fineX := hp.fineX, snap := hp.snap, vram := hp.vram, pal := hp.pal, oam := hp.oam }
  · have hw := ppuWrite_sound (vramAddr s.ppu.v) v s h
    have hq := hw.ppu
    exact hw.withPpu _ { scanline := hq.scanline, dot := hq.dot, status := hq.status, fineX := hq.fineX, snap := hq.snap, vram := hq.vram, pal := hq.pal, oam := hq.oam }
  · exact h

/-- What the invariant of the APU looks at. -/
theorem Apu.Sound.congr {cfg : Config} {a b : Apu} (h : a.Sound cfg) (hc : b.fs.counter = a.fs.counter)
    (hm : b.fs.mode5 = a.fs.mode5) (hn : b.noise.lfsr = a.noise.lfsr) (hb : b.dmc.bitsRemaining = a.dmc.bitsRemaining)
    (hp : b.samplePhase = a.samplePhase) (hr : b.ring = a.ring) : b.Sound cfg :=
  { sequence := by rw [hc, hm]; exact h.sequence
    noise := by rw [hn]; exact h.noise
    bits := by rw [hb]; exact h.bits
    phase := by rw [hp]; exact h.phase
    ring := by rw [hr]; exact h.ring }

theorem writeNoise_lfsr (r : Nat) (d : Byte) (n : Noise) : (writeNoise r d n).lfsr = n.lfsr := by
  unfold writeNoise
  split <;> rfl

theorem writeDmc_bits (r : Nat) (d : Byte) (m : Dmc) : (writeDmc r d m).bitsRemaining = m.bitsRemaining := by
  unfold writeDmc
  split <;> rfl

theorem enableDmc_bits (d : Byte) (m : Dmc) : (enableDmc d m).bitsRemaining = m.bitsRemaining := by
  unfold enableDmc
  simp only
  split
  · split <;> rfl
  · rfl

theorem apuRegWrite_sound (cfg : Config) (hcfg : Config.Sound cfg) (addr : Nat) (d : Byte) (a : Apu) (h : a.Sound cfg) :
    (apuRegWrite addr d a).Sound cfg := by
  unfold apuRegWrite
  split
  · exact h.congr rfl rfl rfl rfl rfl rfl
  · split
    · exact h.congr rfl rfl rfl rfl rfl rfl
    · split
      · exact h.congr rfl rfl rfl rfl rfl rfl
      · split
        · exact h.congr rfl rfl (writeNoise_lfsr _ _ _) rfl rfl rfl
        · split
          · exact h.congr rfl rfl rfl (writeDmc_bits _ _ _) rfl rfl
          · split
            · exact h.congr rfl rfl rfl (enableDmc_bits _ _) rfl rfl
            · have h0 : ∀ b : Bool, 0 < if b then cfg.fs5Wrap else cfg.fs4Wrap := by
                intro b
                cases b
                · exact hcfg.fourStep
                · exact hcfg.fiveStep
              unfold writeFrameSeq
              simp only
              split
              · exact { sequence := h0 _, noise := h.noise, bits := h.bits, phase := h.phase, ring := h.ring }
              · exact { sequence := h0 _, noise := h.noise, bits := h.bits, phase := h.phase, ring := h.ring }

theorem busWrite_sound (a : Word) (v : Byte) (s : State) (h : s.Sound) : (busWrite a v s).Sound := by
  unfold busWrite
  split
  · exact h.withRam _ v (Nat.mod_lt _ (by decide))
  · split
    · exact ppuRegWrite_sound _ v s h
    · split
      · exact h.congr rfl rfl rfl rfl rfl rfl
      · split
        · unfold writeStrobe
          simp only
          split <;> exact h.congr rfl rfl rfl rfl rfl rfl
        · split
          · exact h.withApu _ (apuRegWrite_sound s.cfg h.cfg _ v s.apu h.apu)
          · exact h

theorem cpuWrite_sound (a : Word) (v : Byte) (s : State) (h : s.Sound) : (cpuWrite a v s).Sound := by
  unfold cpuWrite
  split
  · next c hc =>
    obtain ⟨d, hd, hw⟩ := Option.bind_eq_some_iff.mp hc
    refine h.withCart _ fun e he => ?_
    obtain rfl := Option.some.inj he
    exact d.cpuWrite_sound _ a v (h.cart d hd) hw
  · exact busWrite_sound a v s h

/-! ## Stack and exceptions -/

theorem push_sound (v : Byte) (s : State) (h : s.Sound) : (push v s).Sound := by
  have h1 := cpuWrite_sound (stackAddr s s.cpu.sp) v s h
  exact h1.withCpu _ h1.unused

theorem pull_sound (s : State) (h : s.Sound) : (pull s).2.Sound :=
  cpuRead_sound _ _ (h.withCpu _ h.unused)

theorem push16_sound (w : Word) (s : State) (h : s.Sound) : (push16 w s).Sound :=
  push_sound _ _ (push_sound _ _ h)

theorem pull16_sound (s : State) (h : s.Sound) : (pull16 s).2.Sound :=
  pull_sound _ (pull_sound _ h)

theorem read16_sound (a : Word) (s : State) (h : s.Sound) : (read16 a s).2.Sound :=
  cpuRead_sound _ _ (cpuRead_sound _ _ h)

theorem takeException_sound (e : Event) (s : State) (h : s.Sound) : (takeException e s).Sound := by
  rw [takeException_eq]
  have h1 := cpuWrite_sound (stackAddr s s.cpu.sp) (hiByte (e.returnAddr s.cpu.pc)) _ h
  have h2 := cpuWrite_sound (stackAddr s (s.cpu.sp - 1)) (loByte (e.returnAddr s.cpu.pc)) _ h1
  have h3 := cpuWrite_sound (stackAddr s (s.cpu.sp - 1 - 1)) (e.pushedStatus s.cpu.p) _ h2
  refine (read16_sound (e.vector s.cfg) _ h3).withCpu _ ?_
  have hu := h.unused
  cases e <;> simp [Event.liveStatus, hu]

theorem returnFromException_sound (s : State) (h : s.Sound) : (returnFromException s).Sound := by
  have h1 := pull16_sound _ ((pull_sound s h).withCpu { (pull s).2.cpu with p := pulledStatus (pull s).1 } (by simp))
  exact h1.withCpu _ h1.unused

theorem enterNmi_sound (s : State) (h : s.Sound) : (enterNmi s).Sound := by
  have h1 : ({ s with cpu := { s.cpu with nmiPending := false } } : State).Sound := h.withCpu _ h.unused
  have h2 := takeException_sound .nmi _ h1
  exact h2.withCpu _ h2.unused

/-! ## Operands and shapes -/

theorem readSource_sound (src : Source) (s : State) (h : s.Sound) : (readSource src s).state.Sound := by
  cases src with
  | imm b => exact h
  | mem m =>
    show (cpuRead (effective m s).addr (effective m s).state).2.Sound
    rw [effective_state]
    exact cpuRead_sound _ s h

theorem withSource_sound (base : Nat) (src : Source) (f : Byte → State → State) (s : State) (h : s.Sound)
    (hf : ∀ b t, State.Sound t → (f b t).Sound) : (withSource base src f s).Sound := by
  have h1 := hf (readSource src (s.advance src.operand.length)).val _
    (readSource_sound src (s.advance src.operand.length) (h.withCpu _ h.unused))
  exact h1.withCpu _ h1.unused

theorem storeReg_sound (r : Reg) (base : Nat) (m : Addressing) (s : State) (h : s.Sound) : (storeReg r base m s).Sound := by
  have h0 : (s.advance m.length).Sound := h.withCpu _ h.unused
  unfold storeReg
  simp only [effective_state]
  have h1 := cpuWrite_sound (effective m (s.advance m.length)).addr ((s.advance m.length).reg r) _ h0
  exact h1.withCpu _ h1.unused

theorem modifyMem_sound (base : Nat) (m : Addressing) (f : Byte → Byte → Byte × Byte) (s : State) (h : s.Sound)
    (hf : ∀ b p, getFlag p .U = true → getFlag (f b p).2 .U = true) : (modifyMem base m f s).Sound := by
  have h0 : (s.advance m.length).Sound := h.withCpu _ h.unused
  unfold modifyMem
  simp only [effective_state]
  have h1 := cpuRead_sound (effective m (s.advance m.length)).addr _ h0
  have h2 := cpuWrite_sound (effective m (s.advance m.length)).addr
    (f (cpuRead (effective m (s.advance m.length)).addr (s.advance m.length)).1
      (cpuRead (effective m (s.advance m.length)).addr (s.advance m.length)).2.cpu.p).1 _ h1
  exact h2.withCpu _ (hf _ _ h1.unused)

theorem implied_sound (base : Nat) (f : State → State) (s : State) (h : s.Sound) (hf : ∀ t, State.Sound t → (f t).Sound) :
    (implied base f s).Sound := by
  have h1 := hf _ (h.withCpu { s.cpu with pc := s.cpu.pc + 1 } h.unused)
  exact h1.withCpu _ h1.unused

/-- Writes of the CPU's registers that leave the unused flag set keep the invariant. -/
theorem setRegZN_sound (s : State) (r : Reg) (v : Byte) (h : s.Sound) : (s.setRegZN r v).Sound := by
  rw [State.setRegZN_eq]
  exact h.withCpu _ (by simpa using h.unused)

theorem putFlag_sound (s : State) (f : Flag) (b : Bool) (h : s.Sound) (hf : f ≠ .U) : (s.putFlag f b).Sound :=
  h.withCpu _ (by simpa [Ne.symm hf] using h.unused)

theorem addToA_sound (b : Byte) (s : State) (h : s.Sound) : (addToA b s).Sound :=
  h.withCpu _ (by simpa [addToA] using h.unused)

/-- What a shape asks of its operation. -/
def Shape.Keeps (sh : Shape) : Prop :=
  match sh with
  | .source f _ => ∀ b t, State.Sound t → (f b t).Sound
  | .modify f _ => ∀ b p, getFlag p .U = true → getFlag (f b p).2 .U = true
  | .implied f => ∀ t, State.Sound t → (f t).Sound
  | .store _ _ | .jump _ | .jumpIndirect _ | .call _ | .branch _ _ _ => True

theorem Shape.run_sound (sh : Shape) (base : Nat) (s : State) (h : s.Sound) (hk : sh.Keeps) : (sh.run base s).Sound := by
  cases sh with
  | source f src => exact withSource_sound base src f s h hk
  | store r m => exact storeReg_sound r base m s h
  | modify f m => exact modifyMem_sound base m f s h hk
  | implied f => exact implied_sound base f s h hk
  | jump a => exact h.withCpu _ h.unused
  | jumpIndirect a =>
    have h1 : (s.advance 3).Sound := h.withCpu _ h.unused
    have h2 := cpuRead_sound (wordOf (hiByte a) (loByte a + 1)) _ (cpuRead_sound a _ h1)
    exact h2.withCpu _ h2.unused
  | call a =>
    have h1 : (s.advance 3).Sound := h.withCpu _ h.unused
    have h2 := push16_sound ((s.advance 3).cpu.pc - 1) _ h1
    exact h2.withCpu _ h2.unused
  | branch f want d =>
    show (Machine.branch f want base d s).Sound
    unfold Machine.branch
    simp only
    split
    · exact h.withCpu _ h.unused
    · exact h.withCpu _ h.unused

theorem shiftShape_keeps (f : Byte → Byte → ShiftResult) (o : Operand) : (shiftShape f o).Keeps := by
  cases o with
  | acc => exact fun t h => h.withCpu _ (by simpa using h.unused)
  | imp => exact fun b p h => by simpa using h
  | imm b => exact fun b p h => by simpa using h
  | mem m => exact fun b p h => by simpa using h
  | rel d => exact fun b p h => by simpa using h
  | ind a => exact fun b p h => by simpa using h

theorem shapeOf_keeps (m : Mnemonic) (o : Operand) : (shapeOf m o).Keeps := by
  cases m with
  | lda | ldx | ldy => exact fun b t h => setRegZN_sound t _ b h
  | and | ora | eor => exact fun b t h => setRegZN_sound t _ _ h
  | adc => exact fun b t h => addToA_sound b t h
  | sbc => exact fun b t h => addToA_sound _ t h
  | bit | cmp | cpx | cpy => exact fun b t h => h.withCpu _ (by simpa using h.unused)
  | sta | stx | sty | jsr | bcc | bcs | bne | beq | bpl | bmi | bvc | bvs => exact True.intro
  | inc => exact fun b p h => by simpa [incByte] using h
  | dec => exact fun b p h => by simpa [decByte] using h
  | asl | lsr | rol | ror => exact shiftShape_keeps _ o
  | jmp => cases o <;> exact True.intro
  | tax | tay | txa | tya | tsx | inx | iny | dex | dey => exact fun t h => setRegZN_sound t _ _ h
  | txs | xxx => exact fun t h => h.withCpu _ h.unused
  | pha | php => exact fun t h => push_sound _ t h
  | pla => exact fun t h => setRegZN_sound _ _ _ (pull_sound t h)
  | plp => exact fun t h => (pull_sound t h).withCpu _ (by simp)
  | rts => exact fun t h => (pull16_sound t h).withCpu _ (pull16_sound t h).unused
  | rti => exact returnFromException_sound
  | brk => exact takeException_sound .brk
  | clc | sec | cli | sei | clv | cld | sed => exact fun t h => putFlag_sound t _ _ h (by decide)
  | nop => exact fun t h => h

/-- Every meaning keeps the invariant. -/
theorem exec_sound (i : Instr) (s t : State) (h : s.Sound) (he : exec i s = .next t) : t.Sound := by
  rw [exec_shape] at he
  cases he
  exact Shape.run_sound _ _ s h (shapeOf_keeps _ _)

end Sys2Proof.Machine
end

