-- ==== Sys2Proof/Laws/Tick.lean ====
section
/-! SUPPORT. What each part of a master tick can do: the PPU, the APU, a DMA step, fetching an instruction; and the five forms of a step. -/

namespace Sys2Proof.Machine

/-! ## The PPU's part -/

/-- The state differs in nothing but the cartridge, and there in MMC2's latches alone. -/
def LatchesOnly (s t : State) : Prop :=
  t = { s with cart := t.cart } ∧ t.apartFromReads = s.apartFromReads

theorem LatchesOnly.refl (s : State) : LatchesOnly s s := ⟨rfl, rfl⟩

theorem LatchesOnly.trans {s t u : State} (h : LatchesOnly s t) (g : LatchesOnly t u) : LatchesOnly s u := by
  obtain ⟨h1, h2⟩ := h
  obtain ⟨g1, g2⟩ := g
  refine ⟨?_, g2.trans h2⟩
  rw [g1, h1]

theorem LatchesOnly.cpu {s t : State} (h : LatchesOnly s t) : t.cpu = s.cpu := by rw [h.1]
theorem LatchesOnly.ram {s t : State} (h : LatchesOnly s t) : t.ram = s.ram := by rw [h.1]
theorem LatchesOnly.sysclk {s t : State} (h : LatchesOnly s t) : t.sysclk = s.sysclk := by rw [h.1]
theorem LatchesOnly.dma {s t : State} (h : LatchesOnly s t) : t.dma = s.dma := by rw [h.1]
theorem LatchesOnly.pad0 {s t : State} (h : LatchesOnly s t) : t.pad0 = s.pad0 := by rw [h.1]
theorem LatchesOnly.pad1 {s t : State} (h : LatchesOnly s t) : t.pad1 = s.pad1 := by rw [h.1]
theorem LatchesOnly.strobe {s t : State} (h : LatchesOnly s t) : t.strobe = s.strobe := by rw [h.1]
theorem LatchesOnly.ppu {s t : State} (h : LatchesOnly s t) : t.ppu = s.ppu := by rw [h.1]
theorem LatchesOnly.apu {s t : State} (h : LatchesOnly s t) : t.apu = s.apu := by rw [h.1]
theorem LatchesOnly.cfg {s t : State} (h : LatchesOnly s t) : t.cfg = s.cfg := by rw [h.1]
theorem LatchesOnly.free {s t : State} (h : LatchesOnly s t) : t.free = s.free := by rw [h.1]

theorem ppuRead_latches (a : BitVec 14) (s : State) : LatchesOnly s (ppuRead a s).2 :=
  ⟨rfl, ppuRead_apart a s⟩

theorem mapState_latches {α β : Type} (f : α → State → β × State) (hf : ∀ x s, LatchesOnly s (f x s).2) (l : List α) (s : State) :
    LatchesOnly s (mapState f l s).2 := by
  induction l generalizing s with
  | nil => exact LatchesOnly.refl s
  | cons x l ih => exact (hf x s).trans (ih _)

theorem fetchTile_latches (sn : Snapshot) (y k : Nat) (s : State) : LatchesOnly s (fetchTile sn y k s).2 :=
  (((ppuRead_latches _ s).trans (ppuRead_latches _ _)).trans (ppuRead_latches _ _)).trans (ppuRead_latches _ _)

theorem fetchLine_latches (y : Nat) (s : State) : LatchesOnly s (fetchLine y s).2 := by
  unfold fetchLine
  simp only
  split
  · exact mapState_latches _ (fetchTile_latches _ y) _ s
  · exact LatchesOnly.refl s

theorem fetchRow_latches (n y : Nat) (s : State) : LatchesOnly s (fetchRow n y s).2 := by
  unfold fetchRow
  simp only
  split
  · exact LatchesOnly.refl s
  · split
    · exact (ppuRead_latches _ s).trans (ppuRead_latches _ _)
    · exact LatchesOnly.refl s

theorem fetchSprite_latches (n : Nat) (s : State) : LatchesOnly s (fetchSprite n s).2 := by
  unfold fetchSprite
  simp only
  generalize List.range 240 = l
  exact mapState_latches (fetchRow n) (fetchRow_latches n) l s

/-- The state after `renderFrame` but for the framebuffer. -/
theorem renderFrame_spec (s : State) : ∃ t fb, LatchesOnly s t ∧ renderFrame s = { t with ppu := { s.ppu with fb := fb } } := by
  have h := (mapState_latches fetchLine fetchLine_latches (List.range 240) s).trans
    (mapState_latches fetchSprite fetchSprite_latches (List.range 64) (mapState fetchLine (List.range 240) s).2)
  refine ⟨_, frameColours s (mapState fetchLine (List.range 240) s).1
    (mapState fetchSprite (List.range 64) (mapState fetchLine (List.range 240) s).2).1.flatten, h, ?_⟩
  unfold renderFrame
  simp only
  rw [h.ppu]

/-- The picture is composed at dot 0 or at the last dot of a scanline. -/
theorem renderPosition_dot (cfg : Config) : (renderPosition cfg).2 ≠ 1 := by
  unfold renderPosition
  split <;> simp

/-- What the events of a PPU position leave unchanged outside the PPU, and of the PPU's registers. -/
theorem ppuEvents_rest (s : State) :
    (ppuEvents s).cpu = s.cpu ∧ (ppuEvents s).ram = s.ram ∧ (ppuEvents s).sysclk = s.sysclk ∧ (ppuEvents s).dma = s.dma ∧
      (ppuEvents s).pad0 = s.pad0 ∧ (ppuEvents s).pad1 = s.pad1 ∧ (ppuEvents s).strobe = s.strobe ∧ (ppuEvents s).apu = s.apu ∧
      (ppuEvents s).cfg = s.cfg ∧ (ppuEvents s).free = s.free ∧ (ppuEvents s).ppu.scanline = s.ppu.scanline ∧
      (ppuEvents s).ppu.dot = s.ppu.dot ∧ (ppuEvents s).ppu.frameComplete = s.ppu.frameComplete := by
  unfold ppuEvents spriteZeroTest
  simp only
  repeat' split
  case isFalse.isTrue =>
    obtain ⟨t, fb, hl, hr⟩ := renderFrame_spec s
    rw [hr]
    exact ⟨hl.cpu, hl.ram, hl.sysclk, hl.dma, hl.pad0, hl.pad1, hl.strobe, hl.apu, hl.cfg, hl.free, rfl, rfl, rfl⟩
  all_goals exact ⟨rfl, rfl, rfl, rfl, rfl, rfl, rfl, rfl, rfl, rfl, rfl, rfl, rfl⟩

/-- What `PPU.clock()` leaves unchanged outside the PPU and the cartridge. -/
theorem ppuClock_rest (s : State) :
    (ppuClock s).cpu = s.cpu ∧ (ppuClock s).ram = s.ram ∧ (ppuClock s).sysclk = s.sysclk ∧ (ppuClock s).dma = s.dma ∧
      (ppuClock s).pad0 = s.pad0 ∧ (ppuClock s).pad1 = s.pad1 ∧ (ppuClock s).strobe = s.strobe ∧ (ppuClock s).apu = s.apu ∧
      (ppuClock s).cfg = s.cfg ∧ (ppuClock s).free = s.free := by
  obtain ⟨h1, h2, h3, h4, h5, h6, h7, h8, h9, h10, -⟩ := ppuEvents_rest s
  unfold ppuClock ppuAdvance
  split
  · split <;> exact ⟨h1, h2, h3, h4, h5, h6, h7, h8, h9, h10⟩
  · exact ⟨h1, h2, h3, h4, h5, h6, h7, h8, h9, h10⟩

/-- The invariant holds of a state that differs only in what reads change, with the status byte's low six bits clear. -/
theorem State.Sound.ofApart {s t : State} (h : s.Sound) (he : t.apartFromReads = s.apartFromReads)
    (hs : t.ppu.status &&& 0x3F = 0x00) : t.Sound := by
  have eq {α : Type} (f : State → α) (hf : ∀ u : State, f u.apartFromReads = f u) : f t = f s := State.apartFromReads_field f hf he
  have hcfg : t.cfg = s.cfg := eq State.cfg fun _ => rfl
  have hcart : t.cart.map (fun c => { c with mapper := c.mapper.withoutLatches }) =
      s.cart.map (fun c => { c with mapper := c.mapper.withoutLatches }) := congrArg State.cart he
  refine { cfg := ?_, unused := ?_, ram := ?_, cart := fun c hc => ?_, ppu := ?_, apu := ?_ }
  · rw [hcfg]; exact h.cfg
  · rw [eq State.cpu fun _ => rfl]; exact h.unused
  · rw [eq State.ram fun _ => rfl]; exact h.ram
  · rw [hc] at hcart
    obtain ⟨d, hd, hdc⟩ := Option.map_eq_some_iff.mp hcart.symm
    have hsd := h.cart d hd
    injection hdc with e1 e2 e3 e4 e5 e6 e7
    refine { banks := e1 ▸ hsd.banks, prg := ?_, chr := ?_, prgram := e4 ▸ hsd.prgram, serial := fun r hr => ?_ }
    · have : c.prgSize = d.prgSize := by rw [Cartridge.prgSize, Cartridge.prgSize, e1]
      rw [← e2, this]
      exact hsd.prg
    · have : c.chrSize = d.chrSize := by rw [Cartridge.chrSize, Cartridge.chrSize, e1]
      rw [← e3, this]
      exact hsd.chr
    · rw [hr] at e7
      refine hsd.serial r ?_
      cases hm : d.mapper <;> rw [hm] at e7 <;> first | exact e7 | exact absurd e7 (by simp [Mapper.withoutLatches])
  · exact { scanline := by rw [eq (fun u => u.ppu.scanline) fun _ => rfl]; exact h.ppu.scanline
            dot := by rw [eq (fun u => u.ppu.dot) fun _ => rfl]; exact h.ppu.dot
            status := hs
            fineX := by rw [eq (fun u => u.ppu.fineX) fun _ => rfl]; exact h.ppu.fineX
            snap := by rw [eq (fun u => u.ppu.snap) fun _ => rfl]; exact h.ppu.snap
            vram := by rw [eq (fun u => u.ppu.vram) fun _ => rfl]; exact h.ppu.vram
            pal := by rw [eq (fun u => u.ppu.pal) fun _ => rfl]; exact h.ppu.pal
            oam := by rw [eq (fun u => u.ppu.oam) fun _ => rfl]; exact h.ppu.oam }
  · exact { sequence := by
              rw [eq (fun u => u.apu.fs.counter) fun _ => rfl, eq (fun u => u.apu.fs.mode5) fun _ => rfl, hcfg]; exact h.apu.sequence
            noise := by rw [eq (fun u => u.apu.noise) fun _ => rfl]; exact h.apu.noise
            bits := by rw [eq (fun u => u.apu.dmc) fun _ => rfl]; exact h.apu.bits
            phase := by rw [eq (fun u => u.apu.samplePhase) fun _ => rfl, hcfg]; exact h.apu.phase
            ring := by rw [eq (fun u => u.apu.ring) fun _ => rfl, hcfg]; exact h.apu.ring }

theorem status_set (x m : Byte) (h : x &&& 0x3F = 0x00) (hm : m &&& 0x3F = 0x00) : (x ||| m) &&& 0x3F = 0x00 := by
  have : (x ||| m) &&& 0x3F = (x &&& 0x3F) ||| (m &&& 0x3F) := by
    apply BitVec.eq_of_getLsbD_eq
    intro i hi
    simp only [BitVec.getLsbD_and, BitVec.getLsbD_or, Bool.and_or_distrib_right]
  rw [this, h, hm]
  rfl

theorem ppuEvents_sound (s : State) (h : s.Sound) : (ppuEvents s).Sound := by
  have hp := h.ppu
  have withStatus : ∀ (st : Byte) (line : Bool), st &&& 0x3F = 0x00 →
      ({ s with ppu := { s.ppu with status := st, nmiLine := line } } : State).Sound := fun st line hst =>
    h.withPpu _ { scanline := hp.scanline, dot := hp.dot, status := hst, fineX := hp.fineX, snap := hp.snap, vram := hp.vram, pal := hp.pal, oam := hp.oam }
  unfold ppuEvents
  simp only
  split
  · split
    · refine h.withPpu _ { scanline := hp.scanline, dot := hp.dot, status := hp.status, fineX := hp.fineX, vram := hp.vram, pal := hp.pal, oam := hp.oam, snap := ?_ }
      rw [List.length_set]
      exact hp.snap
    · split
      · unfold spriteZeroTest
        simp only
        split
        · exact withStatus _ s.ppu.nmiLine (status_set _ _ hp.status (by decide))
        · exact h
      · exact h
  · split
    · obtain ⟨t, fb, hl, hr⟩ := renderFrame_spec s
      rw [hr]
      have ht : t.Sound := h.ofApart hl.2 (by rw [hl.ppu]; exact hp.status)
      exact ht.withPpu _ { scanline := hp.scanline, dot := hp.dot, status := hp.status, fineX := hp.fineX, snap := hp.snap,
                           vram := hp.vram, pal := hp.pal, oam := hp.oam }
    · split
      · split
        · exact withStatus _ _ (status_set _ _ hp.status (by decide))
        · exact h
      · split
        · split
          · exact withStatus _ _ (status_masked _ _ hp.status)
          · exact h
        · exact h

theorem ppuClock_sound (s : State) (h : s.Sound) : (ppuClock s).Sound := by
  have he := ppuEvents_sound s h
  have hp := he.ppu
  have hs := hp.scanline
  have hd := hp.dot
  unfold ppuClock ppuAdvance
  split
  · split
    · exact he.withPpu _ { scanline := Nat.zero_le _, dot := Nat.zero_le _, status := hp.status, fineX := hp.fineX, snap := hp.snap,
                           vram := hp.vram, pal := hp.pal, oam := hp.oam }
    · exact he.withPpu _ { scanline := by show _ + 1 ≤ 261; omega, dot := Nat.zero_le _, status := hp.status, fineX := hp.fineX,
                           snap := hp.snap, vram := hp.vram, pal := hp.pal, oam := hp.oam }
  · exact he.withPpu _ { scanline := hp.scanline, dot := by show _ + 1 ≤ 340; omega, status := hp.status, fineX := hp.fineX,
                         snap := hp.snap, vram := hp.vram, pal := hp.pal, oam := hp.oam }

/-! ## The APU's part -/

/-- What `APU.clock()` leaves unchanged: everything but the APU and what the sample reader's bus read changes. -/
theorem apuClock_apart (s : State) :
    (apuClock s).apartFromReads = { s.apartFromReads with apu := (apuClock s).apartFromReads.apu } := by
  have key : ∀ q : State, (dmcReader q).apartFromReads = { q.apartFromReads with apu := (dmcReader q).apartFromReads.apu } := by
    intro q
    unfold dmcReader
    split
    · have h := cpuRead_apart q.apu.dmc.curAddr q
      show ({ (cpuRead q.apu.dmc.curAddr q).2.apartFromReads with apu := _ } : State) = _
      rw [h]
      rfl
    · rfl
  have h := key { s with apu := apuFront s.cfg s.apu }
  show ({ (dmcReader { s with apu := apuFront s.cfg s.apu }).apartFromReads with apu := _ } : State) = _
  rw [h]
  rfl

theorem apuClock_field {α : Type} (f : State → α) (s : State) (hf : ∀ u : State, f u.apartFromReads = f u)
    (ha : ∀ (u : State) (a : Apu), f { u with apu := a } = f u) : f (apuClock s) = f s := by
  rw [← hf (apuClock s), apuClock_apart, ha, hf]

theorem apuClock_rest (s : State) :
    (apuClock s).cpu = s.cpu ∧ (apuClock s).ram = s.ram ∧ (apuClock s).sysclk = s.sysclk ∧ (apuClock s).dma = s.dma ∧
      (apuClock s).cfg = s.cfg :=
  ⟨apuClock_field State.cpu s (fun _ => rfl) fun _ _ => rfl, apuClock_field State.ram s (fun _ => rfl) fun _ _ => rfl,
    apuClock_field State.sysclk s (fun _ => rfl) fun _ _ => rfl, apuClock_field State.dma s (fun _ => rfl) fun _ _ => rfl,
    apuClock_field State.cfg s (fun _ => rfl) fun _ _ => rfl⟩

/-- The noise register never becomes zero (R46, R410). -/
theorem noiseShift_ne_zero (mode : Bool) (l : BitVec 15) (h : l ≠ 0) : noiseShift mode l ≠ 0 := by
  intro hz
  have hbit : ∀ i, (noiseShift mode l).getLsbD i = false := fun i => by rw [hz]; simp
  have hhigh : ∀ i, i < 14 → l.getLsbD (i + 1) = false := by
    intro i hi
    have := hbit i
    unfold noiseShift at this
    simp only [BitVec.getLsbD_or, BitVec.getLsbD_ushiftRight, BitVec.getLsbD_shiftLeft, Bool.or_eq_false_iff] at this
    rw [Nat.add_comm]
    exact this.1
  have hfb := hbit 14
  unfold noiseShift at hfb
  have e6 : l[6] = false := hhigh 5 (by omega)
  have e1 : l[1] = false := hhigh 0 (by omega)
  simp [e6, e1] at hfb
  apply h
  apply BitVec.eq_of_getLsbD_eq
  intro i hi
  rcases Nat.eq_zero_or_pos i with rfl | hpos
  · simpa using hfb
  · have := hhigh (i - 1) (by omega)
    rw [Nat.sub_add_cancel hpos] at this
    simpa using this

theorem dmcReload_bits (m : Dmc) : (dmcReload m).bitsRemaining = 8 := by
  unfold dmcReload
  split <;> rfl

theorem dmcOutput_bits (m : Dmc) (h : 1 ≤ m.bitsRemaining.toNat ∧ m.bitsRemaining.toNat ≤ 8) :
    1 ≤ (dmcOutput m).bitsRemaining.toNat ∧ (dmcOutput m).bitsRemaining.toNat ≤ 8 := by
  unfold dmcOutput
  split
  · simp only
    split
    · rw [dmcReload_bits]
      exact ⟨by decide, by decide⟩
    · next hb =>
      have hne : (m.bitsRemaining - 1).toNat ≠ 0 := fun he => hb (BitVec.eq_of_toNat_eq he)
      have hsub : (m.bitsRemaining - 1).toNat = m.bitsRemaining.toNat - 1 := by
        rw [BitVec.toNat_sub_of_le]
        · rfl
        · exact BitVec.le_def.mpr h.1
      show 1 ≤ (m.bitsRemaining - 1).toNat ∧ (m.bitsRemaining - 1).toNat ≤ 8
      omega
  · exact h

theorem dmcTake_bits (v : Byte) (m : Dmc) : (dmcTake v m).bitsRemaining = m.bitsRemaining := by
  unfold dmcTake
  simp only
  split
  · split
    · rfl
    · split <;> rfl
  · rfl

theorem ringPush_length (n : Nat) (l : List Sample) (x : Sample) (hn : 1 ≤ n) (h : l.length ≤ n) : (ringPush n l x).length ≤ n := by
  unfold ringPush
  split
  · rw [List.length_append, List.length_drop]
    simp only [List.length_cons, List.length_nil]
    omega
  · rw [List.length_append]
    simp only [List.length_cons, List.length_nil]
    omega

/-- What a quarter or a half frame keeps of an APU: the parts the invariant speaks of. -/
def SameSequence (a b : Apu) : Prop :=
  b.fs = a.fs ∧ b.noise.lfsr = a.noise.lfsr ∧ b.dmc = a.dmc ∧ b.samplePhase = a.samplePhase ∧ b.ring = a.ring

theorem SameSequence.ifStep {a b : Apu} (c : Prop) [Decidable c] (f : Apu → Apu) (hf : ∀ x, SameSequence x (f x)) (h : SameSequence a b) :
    SameSequence a (if c then f b else b) := by
  split
  · obtain ⟨h1, h2, h3, h4, h5⟩ := hf b
    obtain ⟨g1, g2, g3, g4, g5⟩ := h
    exact ⟨h1.trans g1, h2.trans g2, h3.trans g3, h4.trans g4, h5.trans g5⟩
  · exact h

theorem quarterFrame_same (a : Apu) : SameSequence a (quarterFrame a) := ⟨rfl, rfl, rfl, rfl, rfl⟩

theorem halfQuarter_same (a : Apu) : SameSequence a (halfFrame (quarterFrame a)) := ⟨rfl, rfl, rfl, rfl, rfl⟩

theorem frameSequencerStep_sound (cfg : Config) (hcfg : Config.Sound cfg) (a : Apu)
    (hseq : a.fs.counter ≤ if a.fs.mode5 then cfg.fs5Wrap else cfg.fs4Wrap)
    (hn : a.noise.lfsr ≠ 0) (hb : 1 ≤ a.dmc.bitsRemaining.toNat ∧ a.dmc.bitsRemaining.toNat ≤ 8)
    (hp : a.samplePhase < cfg.cpuClockHz) (hr : a.ring.length ≤ cfg.ringCapacity) : (frameSequencerStep cfg a).Sound cfg := by
  unfold frameSequencerStep
  extract_lets c b1 b2 b3
  have hs : SameSequence a b3 :=
    .ifStep _ _ quarterFrame_same (.ifStep _ _ halfQuarter_same (.ifStep _ _ quarterFrame_same ⟨rfl, rfl, rfl, rfl, rfl⟩))
  clear_value b3
  obtain ⟨h1, h2, h3, h4, h5⟩ := hs
  have last : 0 < (if b3.fs.mode5 then cfg.fs5Wrap else cfg.fs4Wrap) → ∀ q : Apu, q.fs = { b3.fs with counter := 0, frameIrq := q.fs.frameIrq } →
      q.noise.lfsr = b3.noise.lfsr → q.dmc = b3.dmc → q.samplePhase = b3.samplePhase → q.ring = b3.ring → q.Sound cfg := by
    intro h0 q e1 e2 e3 e4 e5
    exact { sequence := by rw [e1]; exact h0, noise := by rw [e2, h2]; exact hn, bits := by rw [e3, h3]; exact hb
            phase := by rw [e4, h4]; exact hp, ring := by rw [e5, h5]; exact hr }
  have kept : b3.fs.counter ≠ (if b3.fs.mode5 then cfg.fs5Wrap else cfg.fs4Wrap) → b3.Sound cfg := by
    intro hne
    refine { sequence := Nat.lt_of_le_of_ne ?_ hne, noise := by rw [h2]; exact hn, bits := by rw [h3]; exact hb
             phase := by rw [h4]; exact hp, ring := by rw [h5]; exact hr }
    rw [h1]
    exact hseq
  have hc : c = b3.fs.counter := by rw [h1]
  split
  · next hm =>
    rw [if_pos hm] at last kept
    split
    · exact last hcfg.fiveStep _ rfl rfl rfl rfl rfl
    · next hne => exact kept (hc ▸ hne)
  · next hm =>
    rw [if_neg hm] at last kept
    split
    · exact last hcfg.fourStep _ rfl rfl rfl rfl rfl
    · next hne => exact kept (hc ▸ hne)

theorem apuFront_sound (cfg : Config) (hcfg : Config.Sound cfg) (a : Apu) (h : a.Sound cfg) : (apuFront cfg a).Sound cfg := by
  have noise : ∀ b : Apu, b.Sound cfg → ({ b with
      fs := { b.fs with phase := !b.fs.phase }
      tri := triangleTimer b.tri
      noise := noiseTimer b.noise } : Apu).Sound cfg := by
    intro b hb
    refine { sequence := hb.sequence, noise := ?_, bits := hb.bits, phase := hb.phase, ring := hb.ring }
    show (noiseTimer b.noise).lfsr ≠ 0
    unfold noiseTimer
    split
    · exact noiseShift_ne_zero _ _ hb.noise
    · exact hb.noise
  unfold apuFront
  simp only
  split
  · refine noise _ ?_
    unfold apuCycle
    have hs := frameSequencerStep_sound cfg hcfg { a with fs := { a.fs with counter := a.fs.counter + 1 } } h.sequence h.noise h.bits
      h.phase h.ring
    exact hs.congr rfl rfl rfl rfl rfl rfl
  · exact noise _ h

theorem sampleClock_sound (cfg : Config) (a : Apu) (h : a.Sound cfg) (hrate : cfg.sampleRate ≤ cfg.cpuClockHz)
    (hcap : 1 ≤ cfg.ringCapacity) : (sampleClock cfg a).Sound cfg := by
  have hph := h.phase
  unfold sampleClock
  simp only
  split
  · refine { sequence := h.sequence, noise := h.noise, bits := h.bits, phase := ?_, ring := ringPush_length _ _ _ hcap h.ring }
    show a.samplePhase + cfg.sampleRate - cfg.cpuClockHz < cfg.cpuClockHz
    omega
  · refine { sequence := h.sequence, noise := h.noise, bits := h.bits, phase := ?_, ring := h.ring }
    show a.samplePhase + cfg.sampleRate < cfg.cpuClockHz
    omega

theorem dmcReader_sound (s : State) (h : s.Sound) : (dmcReader s).Sound := by
  unfold dmcReader
  split
  · have hr := cpuRead_sound s.apu.dmc.curAddr s h
    exact hr.withApu _ (hr.apu.congr rfl rfl rfl (dmcTake_bits _ _) rfl rfl)
  · exact h

theorem apuClock_sound (s : State) (h : s.Sound) : (apuClock s).Sound := by
  have h1 : ({ s with apu := apuFront s.cfg s.apu } : State).Sound := h.withApu _ (apuFront_sound s.cfg h.cfg s.apu h.apu)
  have h2 := dmcReader_sound _ h1
  have h3 : (dmcClock { s with apu := apuFront s.cfg s.apu }).Sound :=
    h2.withApu _ { sequence := h2.apu.sequence, noise := h2.apu.noise, bits := dmcOutput_bits _ h2.apu.bits, phase := h2.apu.phase,
                   ring := h2.apu.ring }
  exact h3.withApu _ (sampleClock_sound _ _ h3.apu h3.cfg.rate h3.cfg.capacity)

/-! ## The rest of the tick -/

theorem dmaStep_sound (s : State) (h : s.Sound) : (dmaStep s).Sound := by
  have hp := h.ppu
  unfold dmaStep
  split
  · split
    · exact h.congr rfl rfl rfl rfl rfl rfl
    · exact h
  · split
    · exact (cpuRead_sound _ s h).congr rfl rfl rfl rfl rfl rfl
    · have hw := h.withPpu { s.ppu with oam := s.ppu.oam.write s.dma.index.toNat s.dma.data }
        { scanline := hp.scanline, dot := hp.dot, status := hp.status, fineX := hp.fineX, snap := hp.snap, vram := hp.vram, pal := hp.pal,
          oam := ⟨Memory.write_wf _ _ _ hp.oam.1, Memory.write_within _ _ _ _ hp.oam.2 s.dma.index.isLt⟩ }
      exact hw.congr rfl rfl rfl rfl rfl rfl

theorem countDown_sound (s : State) (h : s.Sound) : (countDown s).Sound :=
  h.withCpu _ h.unused

theorem endTick_sound (s : State) (h : s.Sound) : (endTick s).Sound := by
  have hp := h.ppu
  unfold endTick forwardNmi
  simp only
  split
  · have h1 := h.withPpu { s.ppu with nmiLine := false }
      { scanline := hp.scanline, dot := hp.dot, status := hp.status, fineX := hp.fineX, snap := hp.snap, vram := hp.vram, pal := hp.pal, oam := hp.oam }
    exact h1.congr rfl rfl rfl rfl rfl rfl
  · exact h.congr rfl rfl rfl rfl rfl rfl

/-- Reading the bytes of an instruction is reading bytes. -/
theorem fetch_apart (s : State) : (fetch s).2.apartFromReads = s.apartFromReads := by
  unfold fetch
  simp only
  split <;> simp only [cpuRead_apart]

@[simp] theorem fetch_cpu (s : State) : (fetch s).2.cpu = s.cpu :=
  State.apartFromReads_field State.cpu (fun _ => rfl) (fetch_apart s)

theorem fetch_sound (s : State) (h : s.Sound) : (fetch s).2.Sound := by
  unfold fetch
  simp only
  split
  · exact cpuRead_sound _ _ (cpuRead_sound _ _ h)
  · exact cpuRead_sound _ _ (cpuRead_sound _ _ (cpuRead_sound _ _ h))
  · exact cpuRead_sound _ _ h

theorem readBytes_length (a : Word) (n : Nat) (s : State) : (readBytes a n s).1.length = n := by
  induction n generalizing a s with
  | zero => rfl
  | succ n ih => simp [readBytes, ih]

theorem readBytes_apart (a : Word) (n : Nat) (s : State) : (readBytes a n s).2.apartFromReads = s.apartFromReads := by
  induction n generalizing a s with
  | zero => rfl
  | succ n ih => exact (ih _ _).trans (cpuRead_apart a s)

/-- The table entry of a well-formed instruction's opcode is what the opcode decodes to, where it is mapped and for XXX. -/
theorem tableEntry_mapped (cfg : Config) (i : Instr) (hw : i.wellFormed = true) (hm : i.opcode ∈ cfg.mapped ∨ i.mnemonic = .xxx)
    (b1 b2 : Byte) : tableEntry cfg i.opcode b1 b2 = decodeOp i.opcode b1 b2 := by
  unfold tableEntry
  split
  · rfl
  · next hn =>
    have hx := hm.resolve_left hn
    cases i with
    | xxx op => exact (decodeOp_unmapped op (List.contains_iff_mem.mp hw) b1 b2).symm
    | _ => exact absurd hx (by simp [Instr.mnemonic])

/-- When the bytes at PC are those of a well-formed instruction that has a table entry, the fetch gives it, having read exactly those bytes. -/
theorem fetch_of_bytes (s : State) (i : Instr) (hw : i.wellFormed = true) (hm : i.opcode ∈ s.cfg.mapped ∨ i.mnemonic = .xxx)
    (h : (readBytes s.cpu.pc i.length s).1 = encode i) :
    fetch s = (i, (readBytes s.cpu.pc i.length s).2) := by
  have hlen := opcodeLength_opcode i hw
  have dec := decodeOp_encode i hw
  unfold opcodeLength at hlen
  have ht := tableEntry_mapped s.cfg i hw hm
  rcases length_range i with h1 | h1 | h1
  · rw [h1] at h dec hlen
    rw [h1]
    have hop : (cpuRead s.cpu.pc s).1 = i.opcode := (List.cons.inj h).1
    have hd := dec 0 0 (by rw [← h, ← hop]; rfl)
    unfold fetch
    simp only [hop, ht, hd, h1]
    rfl
  · rw [h1] at h dec hlen
    rw [h1]
    have hop : (cpuRead s.cpu.pc s).1 = i.opcode := (List.cons.inj h).1
    have hd := dec (cpuRead (s.cpu.pc + 1) (cpuRead s.cpu.pc s).2).1 0 (by rw [← h, ← hop]; rfl)
    unfold fetch
    simp only [hop, ht, hlen, hd]
    rfl
  · rw [h1] at h dec hlen
    rw [h1]
    have hop : (cpuRead s.cpu.pc s).1 = i.opcode := (List.cons.inj h).1
    have hpc : s.cpu.pc + 1 + 1 = s.cpu.pc + 2 := by rw [BitVec.add_assoc]; rfl
    have hd := dec (cpuRead (s.cpu.pc + 1) (cpuRead s.cpu.pc s).2).1
      (cpuRead (s.cpu.pc + 2) (cpuRead (s.cpu.pc + 1) (cpuRead s.cpu.pc s).2).2).1 (by rw [← h, ← hop, ← hpc]; rfl)
    unfold fetch
    simp only [hop, ht, hlen, hd]
    simp only [readBytes, hpc]

/-- An opcode without a table entry is fetched as XXX, one byte long (R151). -/
theorem fetch_unmapped (s : State) (hm : (cpuRead s.cpu.pc s).1 ∉ s.cfg.mapped) :
    fetch s = (.xxx (cpuRead s.cpu.pc s).1, (cpuRead s.cpu.pc s).2) := by
  unfold fetch tableEntry
  simp only [if_neg hm]
  rfl

/-- The CPU's `clock()` always answers a next state. -/
theorem cpuClock_next (s : State) : ∃ t, cpuClock s = .next t := by
  unfold cpuClock
  split
  · split
    · exact ⟨_, rfl⟩
    · unfold runInstruction
      rw [exec_shape]
      exact ⟨_, rfl⟩
  · exact ⟨_, rfl⟩

theorem cpuClock_sound (s t : State) (h : s.Sound) (hc : cpuClock s = .next t) : t.Sound := by
  unfold cpuClock at hc
  split at hc
  · split at hc
    · cases hc
      exact countDown_sound _ (enterNmi_sound s h)
    · unfold runInstruction at hc
      have hx := exec_sound (fetch s).1 (fetch s).2
      simp only at hc
      cases he : exec (fetch s).1 (fetch s).2 with
      | next u =>
        rw [he] at hc
        cases hc
        exact countDown_sound _ (hx u (fetch_sound s h) he)
      | fault r => cases r
      | refused r =>
        rw [exec_shape] at he
        cases he
  · cases hc
    exact countDown_sound _ h

/-- The five forms of a step of a machine that may run (R300, R302, R264, R269), and the refusal of one that may not. -/
theorem step_forms (s : State) :
    let q := apuClock (ppuClock s)
    (runnable s = false ∧ step s = .refused .invalidCartridge) ∨
    (runnable s = true ∧ s.sysclk % 3 ≠ 0 ∧ step s = .next (endTick (ppuClock s))) ∨
    (runnable s = true ∧ s.sysclk % 3 = 0 ∧ s.dma.active = true ∧ step s = .next (endTick (dmaStep q))) ∨
    (runnable s = true ∧ s.sysclk % 3 = 0 ∧ s.dma.active = false ∧ s.cpu.cycRem ≠ 0 ∧ step s = .next (endTick (countDown q))) ∨
    (runnable s = true ∧ s.sysclk % 3 = 0 ∧ s.dma.active = false ∧ s.cpu.cycRem = 0 ∧ s.cpu.nmiPending = true ∧
      step s = .next (endTick (countDown (enterNmi q)))) ∨
    (runnable s = true ∧ s.sysclk % 3 = 0 ∧ s.dma.active = false ∧ s.cpu.cycRem = 0 ∧ s.cpu.nmiPending = false ∧
      step s = andThen (exec (fetch q).1 (fetch q).2) (fun t => endTick (countDown t))) := by
  intro q
  obtain ⟨pcpu, -, psys, pdma, -⟩ := ppuClock_rest s
  obtain ⟨acpu, -, -, adma, -⟩ := apuClock_rest (ppuClock s)
  have hcpu : q.cpu = s.cpu := acpu.trans pcpu
  have hdma : q.dma = s.dma := adma.trans pdma
  cases hr : runnable s with
  | false => exact .inl ⟨rfl, by simp [step, hr]⟩
  | true =>
    have hstep : step s = busClock s := by simp [step, hr]
    by_cases h3 : s.sysclk % 3 = 0
    · have hslot : step s = andThen (cpuSlot (ppuClock s)) endTick := by
        rw [hstep]
        unfold busClock
        simp only [psys, h3, if_true]
      have hs : cpuSlot (ppuClock s) = if q.dma.active then .next (dmaStep q) else cpuClock q := rfl
      rw [hdma] at hs
      cases ha : s.dma.active with
      | true =>
        refine .inr (.inr (.inl ⟨rfl, h3, rfl, ?_⟩))
        rw [hslot, hs, ha]
        rfl
      | false =>
        have hc : step s = andThen (cpuClock q) endTick := by rw [hslot, hs, ha]; rfl
        by_cases hz : s.cpu.cycRem = 0
        · cases hn : s.cpu.nmiPending with
          | true =>
            refine .inr (.inr (.inr (.inr (.inl ⟨rfl, h3, rfl, hz, rfl, ?_⟩))))
            rw [hc]
            unfold cpuClock
            rw [hcpu, hz, hn]
            rfl
          | false =>
            refine .inr (.inr (.inr (.inr (.inr ⟨rfl, h3, rfl, hz, rfl, ?_⟩))))
            rw [hc]
            unfold cpuClock
            rw [hcpu, hz, hn]
            show andThen (andThen (exec (fetch q).1 (fetch q).2) countDown) endTick = _
            rw [exec_shape]
            rfl
        · refine .inr (.inr (.inr (.inl ⟨rfl, h3, rfl, hz, ?_⟩)))
          rw [hc]
          unfold cpuClock
          rw [hcpu, if_neg hz]
          rfl
    · refine .inr (.inl ⟨rfl, h3, ?_⟩)
      rw [hstep]
      unfold busClock
      simp only [psys, if_neg h3]
      rfl

end Sys2Proof.Machine
end

