-- ==== Sys2Proof/Laws/Keeps.lean ====
section
/-! SUPPORT. What a step keeps, from what each of its parts keeps. -/

namespace Sys2Proof.Machine

theorem State.apartFromReads_idem (u : State) : u.apartFromReads.apartFromReads = u.apartFromReads := by
  unfold State.apartFromReads
  cases u.cart with
  | none => rfl
  | some c => simp; cases c.mapper <;> rfl

/-- The end of a tick, field by field (R300, R306). -/
theorem endTick_eq (s : State) :
    endTick s =
      { s with
        cpu := { s.cpu with nmiPending := s.cpu.nmiPending || s.ppu.nmiLine }
        ppu := { s.ppu with nmiLine := false }
        sysclk := s.sysclk + 1 } := by
  obtain ⟨cpu, ram, sysclk, dma, pad0, pad1, strobe, cart, ppu, apu, cfg, free⟩ := s
  obtain ⟨a, x, y, sp, p, pc, cycRem, pend, diag⟩ := cpu
  obtain ⟨scanline, dot, ctrl, mask, status, v, t, fineX, w, oamAddr, dataBuffer, line, rest⟩ := ppu
  cases line <;> cases pend <;> rfl

/-- What reads, the PPU and the DMA registers do not touch, a DMA step keeps. -/
theorem dmaStep_keeps {α : Type} (f : State → α) (hr : ∀ u : State, f u.apartFromReads = f u) (hp : ∀ u p, f { u with ppu := p } = f u)
    (hd : ∀ u d, f { u with dma := d } = f u) (s : State) : f (dmaStep s) = f s := by
  unfold dmaStep
  split
  · split
    · exact hd _ _
    · rfl
  · split
    · exact (hd _ _).trans (State.apartFromReads_field f hr (cpuRead_apart _ s))
    · exact (hd { s with ppu := { s.ppu with oam := s.ppu.oam.write s.dma.index.toNat s.dma.data } } _).trans (hp s _)

/-- What reads and the PPU do not touch, the PPU's part of a tick keeps. -/
theorem ppuClock_keeps {α : Type} (f : State → α) (hr : ∀ u : State, f u.apartFromReads = f u) (hp : ∀ u p, f { u with ppu := p } = f u)
    (s : State) : f (ppuClock s) = f s := by
  have he : f (ppuEvents s) = f s := by
    unfold ppuEvents spriteZeroTest
    simp only
    repeat' split
    case isFalse.isTrue =>
      obtain ⟨t, fb, hl, h⟩ := renderFrame_spec s
      rw [h, hp]
      exact State.apartFromReads_field f hr hl.2
    all_goals exact hp _ _
  rw [← he]
  unfold ppuClock ppuAdvance
  split
  · split <;> exact hp _ _
  · exact hp _ _

theorem endTick_keeps {α : Type} (f : State → α) (hc : ∀ u c, f { u with cpu := c } = f u) (hp : ∀ u p, f { u with ppu := p } = f u)
    (hk : ∀ u n, f { u with sysclk := n } = f u) (s : State) : f (endTick s) = f s := by
  rw [endTick_eq]
  exact (hk _ _).trans ((hc _ _).trans (hp _ _))

theorem fetch_keeps {α : Type} (f : State → α) (hr : ∀ u : State, f u.apartFromReads = f u) (s : State) : f (fetch s).2 = f s :=
  State.apartFromReads_field f hr (fetch_apart s)

theorem enterNmi_keeps {α : Type} (f : State → α) (hr : ∀ u : State, f u.apartFromReads = f u)
    (hc : ∀ u c, f { u with cpu := c } = f u) (hw : ∀ a v u, f (cpuWrite a v u) = f u) (s : State) : f (enterNmi s) = f s :=
  (hc _ _).trans ((takeException_keeps f hr hc hw .nmi _).trans (hc _ _))

/-- What every part of a tick keeps, a step keeps. -/
theorem step_keeps {α : Type} (f : State → α) (hr : ∀ u : State, f u.apartFromReads = f u) (hc : ∀ u c, f { u with cpu := c } = f u)
    (hw : ∀ a v u, f (cpuWrite a v u) = f u) (hp : ∀ u p, f { u with ppu := p } = f u) (ha : ∀ u a, f { u with apu := a } = f u)
    (hd : ∀ u d, f { u with dma := d } = f u) (hk : ∀ u n, f { u with sysclk := n } = f u) (s t : State) (h : step s = .next t) :
    f t = f s := by
  have hq : f (apuClock (ppuClock s)) = f s := (apuClock_field f _ hr ha).trans (ppuClock_keeps f hr hp s)
  have he := endTick_keeps f hc hp hk
  rcases step_forms s with ⟨-, e⟩ | ⟨-, -, e⟩ | ⟨-, -, -, e⟩ | ⟨-, -, -, -, e⟩ | ⟨-, -, -, -, -, e⟩ | ⟨-, -, -, -, -, e⟩
  · rw [e] at h; cases h
  · rw [e] at h; cases h
    exact (he _).trans (ppuClock_keeps f hr hp s)
  · rw [e] at h; cases h
    exact (he _).trans ((dmaStep_keeps f hr hp hd _).trans hq)
  · rw [e] at h; cases h
    exact (he _).trans ((hc _ _).trans hq)
  · rw [e] at h; cases h
    exact (he _).trans ((hc _ _).trans ((enterNmi_keeps f hr hc hw _).trans hq))
  · rw [e] at h
    cases hx : exec (fetch (apuClock (ppuClock s))).1 (fetch (apuClock (ppuClock s))).2 with
    | next u =>
      rw [hx] at h; cases h
      exact (he _).trans ((hc _ _).trans ((exec_keeps f hr hc _ _ _ (fun _ => hw) hx).trans ((fetch_keeps f hr _).trans hq)))
    | fault r => cases r
    | refused r => rw [hx] at h; cases h

/-- No CPU write raises or lowers the NMI line (D33). -/
theorem cpuWrite_nmiLine (a : Word) (v : Byte) (u : State) : (cpuWrite a v u).ppu.nmiLine = u.ppu.nmiLine := by
  unfold cpuWrite
  split
  · rfl
  · unfold busWrite
    split
    · rfl
    · split
      · unfold ppuRegWrite
        split
        case h_5 => simp only [writeScroll]; split <;> rfl
        case h_6 => simp only [writeAddress]; split <;> rfl
        case h_7 =>
          show (ppuWrite _ _ _).ppu.nmiLine = _
          unfold ppuWrite
          split
          · rfl
          · split
            · rfl
            · split <;> rfl
        all_goals rfl
      · split
        · rfl
        · split
          · simp only [writeStrobe]; split <;> rfl
          · split <;> rfl

/-- The NMI line after the PPU's part of a tick: raised at vblank start with NMI enabled, lowered at the pre-render clear (R331, R332). -/
theorem ppuClock_nmiLine (s : State) : (ppuClock s).ppu.nmiLine =
    if s.ppu.scanline = 241 ∧ s.ppu.dot = 1 then s.ppu.ctrl.getLsbD 7 || s.ppu.nmiLine
    else if s.ppu.scanline = 261 ∧ s.ppu.dot = 1 then false else s.ppu.nmiLine := by
  have ha : ∀ u, (ppuAdvance u).ppu.nmiLine = u.ppu.nmiLine := by
    intro u; unfold ppuAdvance; split
    · split <;> rfl
    · rfl
  unfold ppuClock
  rw [ha]
  unfold ppuEvents
  simp only
  by_cases h1 : s.ppu.scanline ≤ 239
  · rw [if_pos h1,
      if_neg (show ¬ (s.ppu.scanline = 241 ∧ s.ppu.dot = 1) by omega),
      if_neg (show ¬ (s.ppu.scanline = 261 ∧ s.ppu.dot = 1) by omega)]
    split
    · rfl
    · split
      · unfold spriteZeroTest
        simp only
        split <;> rfl
      · rfl
  rw [if_neg h1]
  by_cases h2 : (s.ppu.scanline, s.ppu.dot) = renderPosition s.cfg
  · have hd : s.ppu.dot ≠ 1 := fun e => renderPosition_dot s.cfg ((congrArg Prod.snd h2).symm.trans e)
    rw [if_pos h2, if_neg (fun h => hd h.2), if_neg (fun h => hd h.2)]
    obtain ⟨t, fb, hl, h⟩ := renderFrame_spec s
    rw [h]
  rw [if_neg h2]
  by_cases h3 : s.ppu.scanline = 241
  · rw [if_pos h3]
    by_cases hd : s.ppu.dot = 1
    · rw [if_pos hd, if_pos ⟨h3, hd⟩]
      rfl
    · rw [if_neg hd,
      if_neg (show ¬ (s.ppu.scanline = 241 ∧ s.ppu.dot = 1) by omega),
      if_neg (show ¬ (s.ppu.scanline = 261 ∧ s.ppu.dot = 1) by omega)]
  rw [if_neg h3, if_neg (show ¬ (s.ppu.scanline = 241 ∧ s.ppu.dot = 1) by omega)]
  by_cases h4 : s.ppu.scanline = 261
  · rw [if_pos h4]
    by_cases hd : s.ppu.dot = 1
    · rw [if_pos hd, if_pos ⟨h4, hd⟩]
      rfl
    · rw [if_neg hd, if_neg (show ¬ (s.ppu.scanline = 261 ∧ s.ppu.dot = 1) by omega)]
  · rw [if_neg h4, if_neg (show ¬ (s.ppu.scanline = 261 ∧ s.ppu.dot = 1) by omega)]

/-- Every step adds one to `sysclk` (R300). -/
theorem step_sysclk (s t : State) (h : step s = .next t) : t.sysclk = s.sysclk + 1 := by
  have hq : (apuClock (ppuClock s)).sysclk = s.sysclk := (apuClock_rest (ppuClock s)).2.2.1.trans (ppuClock_rest s).2.2.1
  have key : ∀ u : State, u.sysclk = s.sysclk → (endTick u).sysclk = s.sysclk + 1 := by
    intro u hu
    rw [endTick_eq]
    exact congrArg (· + 1) hu
  rcases step_forms s with ⟨-, e⟩ | ⟨-, -, e⟩ | ⟨-, -, -, e⟩ | ⟨-, -, -, -, e⟩ | ⟨-, -, -, -, -, e⟩ | ⟨-, -, -, -, -, e⟩
  · rw [e] at h; cases h
  · rw [e] at h; cases h
    exact key _ (ppuClock_rest s).2.2.1
  · rw [e] at h; cases h
    exact key _ ((dmaStep_keeps State.sysclk (fun _ => rfl) (fun _ _ => rfl) (fun _ _ => rfl) _).trans hq)
  · rw [e] at h; cases h
    exact key _ hq
  · rw [e] at h; cases h
    exact key _ ((enterNmi_keeps State.sysclk (fun _ => rfl) (fun _ _ => rfl) cpuWrite_sysclk _).trans hq)
  · rw [e] at h
    cases hx : exec (fetch (apuClock (ppuClock s))).1 (fetch (apuClock (ppuClock s))).2 with
    | next u =>
      rw [hx] at h; cases h
      exact key _ ((exec_keeps State.sysclk (fun _ => rfl) (fun _ _ => rfl) _ _ _ (fun _ => cpuWrite_sysclk) hx).trans
        ((fetch_keeps State.sysclk (fun _ => rfl) _).trans hq))
    | fault r => cases r
    | refused r => rw [hx] at h; cases h

end Sys2Proof.Machine
end

