-- ==== Sys2Proof/Laws/Numbers.lean ====
section
/-! SUPPORT. Bytes as numbers: signs, the stack pointer's wrap, signed sums. -/

namespace Sys2Proof.Machine

theorem byte_bit7 (v : Byte) : v.getLsbD 7 = decide (128 ≤ v.toNat) := by revert v; decide

theorem byte_beq_zero (v : Byte) : (v == 0x00) = decide (v.toNat = 0) := by revert v; decide

theorem sub_one_toNat (x : Byte) : (x - 1).toNat = (x.toNat + 255) % 256 := by rw [BitVec.toNat_sub]; simp; omega

theorem sub_two_toNat (x : Byte) : (x - 1 - 1).toNat = (x.toNat + 254) % 256 := by rw [BitVec.toNat_sub, sub_one_toNat]; simp; omega

theorem sub_one_sub_one (x : Byte) : x - 1 - 1 = x - 2 := by apply BitVec.eq_of_toNat_eq; rw [sub_two_toNat, BitVec.toNat_sub]; simp; omega

theorem sub_one_sub_one_sub_one (x : Byte) : x - 1 - 1 - 1 = x - 3 := by apply BitVec.eq_of_toNat_eq; rw [BitVec.toNat_sub, sub_two_toNat, BitVec.toNat_sub]; simp; omega

theorem add_one_toNat (x : Byte) : (x + 1).toNat = (x.toNat + 1) % 256 := by rw [BitVec.toNat_add]; rfl

theorem add_two_toNat (x : Byte) : (x + 1 + 1).toNat = (x.toNat + 2) % 256 := by rw [BitVec.toNat_add, BitVec.toNat_add]; simp

theorem add_three_toNat (x : Byte) : (x + 1 + 1 + 1).toNat = (x.toNat + 3) % 256 := by rw [BitVec.toNat_add, BitVec.toNat_add, BitVec.toNat_add]; simp

theorem add_one_add_one (x : Byte) : x + 1 + 1 = x + 2 := by rw [BitVec.add_assoc]; rfl

theorem add_one_add_one_add_one (x : Byte) : x + 1 + 1 + 1 = x + 3 := by rw [BitVec.add_assoc, BitVec.add_assoc]; rfl

theorem byte_toInt (v : Byte) : v.toInt = if 128 ≤ v.toNat then (v.toNat : Int) - 256 else v.toNat := by
  rw [BitVec.toInt_eq_toNat_cond]
  split <;> split <;> omega

/-- V of an addition: the exact signed sum is outside the signed byte (R151). -/
theorem addWithCarry_overflow_signed (a m : Byte) (c : Bool) :
    (addWithCarry a m c).overflow = decide (a.toInt + m.toInt + c.toNat < -128 ∨ 127 < a.toInt + m.toInt + c.toNat) := by
  rw [addWithCarry_overflow, byte_bit7 a, byte_bit7 m, byte_bit7, addWithCarry_result, byte_toInt, byte_toInt]
  have ha := a.isLt
  have hm := m.isLt
  have hc : c.toNat ≤ 1 := by cases c <;> decide
  rw [Bool.eq_iff_iff]
  simp only [Bool.and_eq_true, beq_iff_eq, bne_iff_ne, ne_eq, decide_eq_decide, decide_eq_true_eq]
  split <;> split <;> omega

theorem complement_toNat (m : Byte) : (m ^^^ 0xFF).toNat = 255 - m.toNat := by revert m; decide

theorem complement_toInt (m : Byte) : (m ^^^ 0xFF).toInt = -1 - m.toInt := by revert m; decide

end Sys2Proof.Machine
end

