-- ==== Sys2Proof/Laws/Picture.lean ====
section
/-! SUPPORT. The picture with a cartridge whose latches no read moves: the fetches of a frame, and what a pixel takes from them (R359, R370). -/

namespace Sys2Proof.Machine

/-- No PPU read of this state changes it: there is no MMC2 cartridge. -/
abbrev State.withoutMmc2 (s : State) : Prop :=
  ∀ c r, s.cart = some c → c.mapper ≠ .mmc2 r

theorem ppuRead_pure {s : State} (h : s.withoutMmc2) (a : BitVec 14) : ppuRead a s = (ppuPeek a s, s) := by
  unfold ppuRead
  have : s.cart.map (fun c => c.afterPpuRead a) = s.cart := by
    cases hc : s.cart with
    | none => rfl
    | some c =>
      have := h c
      show some (c.afterPpuRead a) = some c
      unfold Cartridge.afterPpuRead
      cases hm : c.mapper with
      | mmc2 r => exact absurd hm (h c r hc)
      | _ => rfl
  rw [this]

theorem mapState_pure {α β : Type} (f : α → State → β × State) (g : α → β) (s : State) (l : List α) (h : ∀ x, f x s = (g x, s)) :
    mapState f l s = (l.map g, s) := by
  induction l with
  | nil => rfl
  | cons x l ih => simp only [mapState, h, ih, List.map_cons]

/-- Fetch `k` of scanline `y`, as values. -/
def pictureTile (s : State) (y k : Nat) : TileFetch :=
  let sn := snapAt s.ppu y
  let sx := (originX sn / 8 * 8 + 8 * k) % 512
  let sy := planeY sn y
  let a := bgPatternAddr sn (ppuPeek (tileAddr sx sy) s) sy
  { pal := attributePalette (ppuPeek (attributeAddr sx sy) s) sx sy, lo := ppuPeek a s, hi := ppuPeek (a + 8) s }

/-- The fetches of scanline `y`, as values. -/
def pictureLine (s : State) (y : Nat) : List TileFetch :=
  if (snapAt s.ppu y).mask.getLsbD 3 then (List.range 34).map (pictureTile s y) else []

/-- The row fetch of sprite `n` on scanline `y`, as a value. -/
def pictureRow (s : State) (n y : Nat) : Option RowFetch :=
  match spriteRow s.ppu.oam (snapAt s.ppu y) n y with
  | none => none
  | some r =>
    if (snapAt s.ppu y).mask.getLsbD 4 then
      let a := spritePatternAddr s.ppu.oam (snapAt s.ppu y) n r
      some { n := n, y := y, lo := ppuPeek a s, hi := ppuPeek (a + 8) s }
    else none

/-- What `renderFrame` leaves, from the fetches as values (R359). -/
theorem renderFrame_pure {s : State} (h : s.withoutMmc2) : renderFrame s = { s with ppu := { s.ppu with
    fb := frameColours s ((List.range 240).map (pictureLine s)) ((List.range 64).map (fun n => (List.range 240).filterMap (pictureRow s n))).flatten } } := by
  have ht : ∀ y k, fetchTile (snapAt s.ppu y) y k s = (pictureTile s y k, s) := by
    intro y k
    simp only [fetchTile, ppuRead_pure h, pictureTile]
  have hl : ∀ y, fetchLine y s = (pictureLine s y, s) := by
    intro y
    unfold fetchLine pictureLine
    simp only [mapState_pure _ _ s _ (ht y)]
    split <;> rfl
  have hr : ∀ n y, fetchRow n y s = (pictureRow s n y, s) := by
    intro n y
    unfold fetchRow pictureRow
    simp only [ppuRead_pure h]
    cases spriteRow s.ppu.oam (snapAt s.ppu y) n y with
    | none => rfl
    | some r => simp only; split <;> rfl
  have hs : ∀ n, fetchSprite n s = ((List.range 240).filterMap (pictureRow s n), s) := by
    intro n
    unfold fetchSprite
    simp only [mapState_pure _ _ s _ (hr n)]
    rw [List.filterMap_map]; rfl
  unfold renderFrame
  simp only [mapState_pure _ _ s _ hl, mapState_pure _ _ s _ hs]

/-- An entry of a vector given by a function of the place. -/
theorem get_ofFn {α : Type} {n : Nat} (f : Fin n → α) (i : Fin n) : (Vector.ofFn f).get i = f i :=
  Vector.getElem_ofFn i.isLt

/-- The pixel in column `x` of row `y` of the composed frame (R359). -/
theorem frameColours_get (s : State) (tiles : List (List TileFetch)) (rows : List RowFetch) (x : Fin 256) (y : Fin 240) :
    ((frameColours s tiles rows).get y).get x =
      (let bg := if bgShown (snapAt s.ppu y) x then bgFromFetches (snapAt s.ppu y) (tiles.getD y []) x else bgNone
       let sp := if sprShown (snapAt s.ppu y) x then sprFromFetches s.ppu.oam (rows.filter (fun f => f.y == y.val)) x else none
       colourOf s.cfg s.ppu.pal (compose bg sp)) := by
  unfold frameColours lineColours
  rw [get_ofFn, get_ofFn]

/-- A background pixel from its line's fetches is `bgPixel` (R351, R370). -/
theorem bgFromFetches_eq (s : State) (x y : Nat) (hx : x < 256) (hb : bgShown (snapAt s.ppu y) x = true) :
    bgFromFetches (snapAt s.ppu y) (pictureLine s y) x = bgPixel s x y := by
  have hm : (snapAt s.ppu y).mask.getLsbD 3 = true := by
    unfold bgShown at hb
    simp only [Bool.and_eq_true] at hb
    exact hb.1
  unfold bgFromFetches pictureLine
  rw [if_pos hm]
  simp only
  generalize ho : originX (snapAt s.ppu y) = o
  have hk : (o % 8 + x) / 8 < 34 := by omega
  rw [List.getElem?_map, List.getElem?_range hk]
  simp only [Option.map_some]
  unfold pictureTile bgPixel planeX
  simp only [ho]
  generalize planeY (snapAt s.ppu y) y = sy
  have h8 : (o / 8 * 8 + 8 * ((o % 8 + x) / 8)) % 512 / 8 = (o + x) % 512 / 8 := by omega
  generalize hA : (o / 8 * 8 + 8 * ((o % 8 + x) / 8)) % 512 = A at h8 ⊢
  have hc : (o + x) % 8 = (o + x) % 512 % 256 % 8 := by omega
  rw [hc]
  generalize (o + x) % 512 = B at h8 ⊢
  have ht : tileAddr A sy = tileAddr B sy := by
    unfold tileAddr planeTable
    rw [show A / 256 = B / 256 by omega, show A % 256 / 8 = B % 256 / 8 by omega]
  have hat : attributeAddr A sy = attributeAddr B sy := by
    unfold attributeAddr planeTable
    rw [show A / 256 = B / 256 by omega, show A % 256 / 8 = B % 256 / 8 by omega]
  have hap : ∀ v, attributePalette v A sy = attributePalette v B sy := by
    intro v
    unfold attributePalette
    rw [show A % 256 / 8 = B % 256 / 8 by omega]
  rw [ht, hat, hap]

theorem findSome?_pictureRow (s : State) (y n : Nat) (l : List Nat) (F : RowFetch → Option SprHit) :
    ((l.filterMap (pictureRow s n)).filter (fun f => f.y == y)).findSome? F = if y ∈ l then (pictureRow s n y).bind F else none := by
  have hy : ∀ y' f, pictureRow s n y' = some f → f.y = y' := by
    intro y' f h
    unfold pictureRow at h
    split at h
    · cases h
    · split at h
      · cases h; rfl
      · cases h
  induction l with
  | nil => rfl
  | cons z l ih =>
    rw [List.filterMap_cons]
    cases hr : pictureRow s n z with
    | none =>
      simp only
      rw [ih]
      by_cases h : y = z
      · subst h; simp [hr]
      · simp [h]
    | some f =>
      simp only
      rw [List.filter_cons]
      by_cases h : y = z
      · subst h
        rw [if_pos (by simpa using hy _ _ hr), List.findSome?_cons, ih, hr]
        simp only [List.mem_cons, true_or, if_true, Option.bind_some]
        cases hF : F f with
        | none => simp
        | some v => rfl
      · rw [if_neg (by rw [beq_iff_eq, hy _ _ hr]; exact fun e => h e.symm), ih]
        simp [h]

theorem findSome?_flatten_filter {α β γ : Type} (F : α → Option β) (p : α → Bool) (r : γ → List α) (l : List γ) :
    ((l.map r).flatten.filter p).findSome? F = l.findSome? (fun n => ((r n).filter p).findSome? F) := by
  induction l with
  | nil => rfl
  | cons n l ih =>
    rw [List.map_cons, List.flatten_cons, List.filter_append, List.findSome?_append, ih, List.findSome?_cons]
    cases ((r n).filter p).findSome? F <;> rfl

/-- The first sprite pixel from the row fetches is the lowest-numbered sprite's (R356, R370). -/
theorem sprFromFetches_eq (s : State) (x y : Nat) (hy : y < 240) (hb : sprShown (snapAt s.ppu y) x = true) :
    sprFromFetches s.ppu.oam (((List.range 64).map (fun n => (List.range 240).filterMap (pictureRow s n))).flatten.filter (fun f => f.y == y)) x =
    (List.range 64).findSome? (fun n => sprHit s.ppu.oam n (sprPixel s n x y)) := by
  have hm : (snapAt s.ppu y).mask.getLsbD 4 = true := by
    unfold sprShown at hb
    simp only [Bool.and_eq_true] at hb
    exact hb.1
  unfold sprFromFetches
  rw [findSome?_flatten_filter]
  congr 1
  funext n
  rw [findSome?_pictureRow s, if_pos (List.mem_range.mpr hy)]
  unfold pictureRow sprPixel
  simp only [hm, if_true]
  cases spriteRow s.ppu.oam (snapAt s.ppu y) n y with
  | none => rfl
  | some r =>
    simp only [Option.bind_some]
    cases spriteCol s.ppu.oam n x <;> rfl

end Sys2Proof.Machine
end

