-- ==== Sys2Proof/Laws/Storage.lean ====
section
/-! SUPPORT. Where a write puts its byte: of all the bytes of storage at most the one `storedByte` names changes. -/

namespace Sys2Proof.Machine

/-- A CPU read of the cartridge does not depend on MMC2's latches. -/
theorem Cartridge.cpuMapRead_withoutLatches (c : Cartridge) (a : Word) :
    Cartridge.cpuMapRead { c with mapper := c.mapper.withoutLatches } a = c.cpuMapRead a := by
  unfold Cartridge.cpuMapRead Cartridge.prgOffset
  cases hm : c.mapper <;> rfl

/-- A read of storage answers the same after anything that changes only what reads change. -/
theorem cpuRead_storage (a : Word) (s t : State) (ha : isStorage a s = true) (hr : t.ram = s.ram)
    (hc : t.apartFromReads.cart = s.apartFromReads.cart) : (cpuRead a t).1 = (cpuRead a s).1 := by
  by_cases hlow : a.toNat ≤ 0x1FFF
  · rw [cpuRead_ram _ _ hlow, cpuRead_ram _ _ hlow, hr]
  · have hs : s.cart ≠ none := by
      intro hn
      simp [isStorage, hn, hlow] at ha
    obtain ⟨c, hcs⟩ := Option.ne_none_iff_exists'.mp hs
    have hct : ∃ d, t.cart = some d ∧
        ({ d with mapper := d.mapper.withoutLatches } : Cartridge) = { c with mapper := c.mapper.withoutLatches } := by
      simp only [State.apartFromReads, hcs, Option.map_some, Option.map_eq_some_iff] at hc
      obtain ⟨d, hd, he⟩ := hc
      exact ⟨d, hd, he⟩
    obtain ⟨d, hd, he⟩ := hct
    have hmap : d.cpuMapRead a = c.cpuMapRead a := by
      rw [← Cartridge.cpuMapRead_withoutLatches d, he, Cartridge.cpuMapRead_withoutLatches]
    have hp : d.prg = c.prg := (Cartridge.mk.inj he).2.1
    have hq : d.prgram = c.prgram := (Cartridge.mk.inj he).2.2.2.1
    have hread : d.cpuRead a = c.cpuRead a := by
      unfold Cartridge.cpuRead
      rw [hmap, hp, hq]
    have hsome : c.cpuRead a ≠ none := by
      simp only [isStorage, hcs, hlow, decide_false, Bool.false_or, decide_eq_true_eq] at ha
      unfold Cartridge.cpuRead
      split
      · contradiction
      · simp
      · simp
    obtain ⟨v, hv⟩ := Option.ne_none_iff_exists'.mp hsome
    unfold cpuRead
    simp only [hd, hcs, Option.bind_some, hread, hv]

/-- In `t` the byte of storage at `o`, if there is one, is `v`, and every other byte is as in `s`. -/
def Lands (o : Option (Store × Nat)) (v : Byte) (s t : State) : Prop :=
  ∀ st k, (t.bytesOf st).read k = if o = some (st, k) then v else (s.bytesOf st).read k

theorem Lands.nowhere {v : Byte} {s t : State} (h : ∀ st, t.bytesOf st = s.bytesOf st) : Lands none v s t := by
  intro st k
  rw [h]
  rfl

theorem Lands.at {m : Store} {j : Nat} {v : Byte} {s t : State} (hm : t.bytesOf m = (s.bytesOf m).write j v)
    (h : ∀ st, st ≠ m → t.bytesOf st = s.bytesOf st) : Lands (some (m, j)) v s t := by
  intro st k
  by_cases hst : st = m
  · subst hst
    rw [hm, Memory.read_write]
    simp [eq_comm]
  · rw [h st hst, if_neg (by simp [Ne.symm hst])]

/-- Where a PPU write puts its byte, and that no other byte of storage changes. -/
theorem ppuWrite_lands (a : BitVec 14) (v : Byte) (s : State) : Lands (storedPpuByte a s) v s (ppuWrite a v s) := by
  have hnone : ¬ a.toNat ≤ 0x1FFF → s.cart.bind (fun c => c.ppuWrite a v) = none := by
    intro h1
    cases s.cart with
    | none => rfl
    | some c =>
      have : c.ppuMap a = none := by
        unfold Cartridge.ppuMap
        simp only [if_pos (show a.toNat > 0x1FFF by omega)]
      simp [Cartridge.ppuWrite, this]
  unfold ppuWrite storedPpuByte
  by_cases h1 : a.toNat ≤ 0x1FFF
  · rw [if_pos h1]
    cases hc : s.cart with
    | none =>
      simp only [Option.bind_none, if_pos h1]
      exact Lands.nowhere fun _ => rfl
    | some c =>
      simp only [Option.bind_some]
      unfold Cartridge.ppuWrite
      cases c.ppuMap a with
      | none =>
        simp only [Option.map_none, if_pos h1, ite_self]
        exact Lands.nowhere fun _ => rfl
      | some off =>
        simp only [Option.map_some]
        split
        · exact Lands.at (by simp [State.bytesOf, hc]) (fun st hst => by cases st <;> first | contradiction | simp [State.bytesOf, hc])
        · exact Lands.nowhere fun st => by cases st <;> simp [State.bytesOf, hc]
  · rw [hnone h1, if_neg h1]
    simp only [if_neg h1]
    split
    · exact Lands.at rfl (fun st hst => by cases st <;> first | contradiction | rfl)
    · exact Lands.at rfl (fun st hst => by cases st <;> first | contradiction | rfl)

/-- A write keeps the header, the ROM and the validity of a cartridge. -/
theorem Cartridge.cpuWrite_kept (c d : Cartridge) (a : Word) (v : Byte) (h : c.cpuWrite a v = some d) :
    d.header = c.header ∧ d.prg = c.prg ∧ d.chr = c.chr ∧ d.valid = c.valid := by
  unfold Cartridge.cpuWrite at h
  split at h
  · cases h
  · cases h
    exact ⟨rfl, rfl, rfl, rfl⟩
  · cases h
    unfold Cartridge.applyOverride
    split
    · exact ⟨rfl, rfl, rfl, rfl⟩
    · split <;> exact ⟨rfl, rfl, rfl, rfl⟩

/-- From 6000 on a write no cartridge takes changes nothing (R89). -/
theorem busWrite_high (a : Word) (v : Byte) (s : State) (h : 0x4018 ≤ a.toNat) : busWrite a v s = s := by
  unfold busWrite
  rw [if_neg (by omega), if_neg (by omega), if_neg (by rintro rfl; exact absurd h (by decide)),
    if_neg (by rintro rfl; exact absurd h (by decide)), if_neg (by omega)]

/-- Where a CPU write puts its byte, and that no other byte of storage changes. -/
theorem cpuWrite_lands (a : Word) (v : Byte) (s : State) : Lands (storedByte a s) v s (cpuWrite a v s) := by
  unfold storedByte
  by_cases h1 : a.toNat ≤ 0x1FFF
  · rw [cpuWrite_ram _ _ _ h1, if_pos h1]
    exact Lands.at rfl (fun st hst => by cases st <;> first | contradiction | rfl)
  · rw [if_neg h1]
    by_cases h2 : a.toNat ≤ 0x3FFF
    · rw [cpuWrite_low _ _ _ (by omega), if_pos h2]
      unfold busWrite
      simp only [if_neg h1, if_pos h2]
      by_cases h7 : a.toNat % 8 = 7
      · rw [if_neg (by omega), if_pos h7, h7]
        exact ppuWrite_lands (vramAddr s.ppu.v) v s
      · by_cases h4 : a.toNat % 8 = 4
        · rw [if_pos h4, h4]
          exact Lands.at rfl (fun st hst => by cases st <;> first | contradiction | rfl)
        · rw [if_neg h4, if_neg h7]
          refine Lands.nowhere fun st => ?_
          unfold ppuRegWrite
          split
          case h_4 => contradiction
          case h_7 => contradiction
          case h_5 => cases st <;> first | rfl | (simp only [State.bytesOf, writeScroll]; split <;> rfl)
          case h_6 => cases st <;> first | rfl | (simp only [State.bytesOf, writeAddress]; split <;> rfl)
          all_goals cases st <;> rfl
    · rw [if_neg h2]
      by_cases h6 : 0x6000 ≤ a.toNat
      · unfold cpuWrite
        cases hc : s.cart with
        | none =>
          simp only [Option.bind_none, busWrite_high a v s (by omega), ite_self]
          exact Lands.nowhere fun _ => rfl
        | some c =>
          simp only [Option.bind_some]
          by_cases h8 : a.toNat < 0x8000
          · rw [if_pos ⟨h6, h8⟩]
            unfold Cartridge.cpuWrite Cartridge.cpuMapWrite
            simp only [if_neg (show ¬ a.toNat < 0x6000 by omega), if_pos h8]
            cases hm : c.mapper
            case unsupported =>
              simp only [if_true, busWrite_high a v s (by omega)]
              exact Lands.nowhere fun _ => rfl
            all_goals
              simp only [reduceCtorEq, if_false]
              exact Lands.at (by simp [State.bytesOf, hc]) (fun st hst => by cases st <;> first | contradiction | simp [State.bytesOf, hc])
          · rw [if_neg (by omega)]
            refine Lands.nowhere fun st => ?_
            cases hw : c.cpuWrite a v with
            | none => simp only [busWrite_high a v s (by omega)]
            | some d =>
              obtain ⟨-, hp, hch, -⟩ := Cartridge.cpuWrite_kept c d a v hw
              have hpr : d.prgram = c.prgram := by
                unfold Cartridge.cpuWrite at hw
                split at hw
                · cases hw
                · next off ho =>
                  have := Cartridge.cpuMapWrite_prgram c a v off ho
                  omega
                · cases hw
                  unfold Cartridge.applyOverride
                  split
                  · rfl
                  · split <;> rfl
              cases st <;> simp [State.bytesOf, hc, hp, hch, hpr]
      · rw [cpuWrite_low _ _ _ (by omega), if_neg (by omega)]
        refine Lands.nowhere fun st => ?_
        unfold busWrite
        simp only [if_neg h1, if_neg h2]
        split
        · cases st <;> rfl
        · split
          · unfold writeStrobe
            simp only
            split <;> cases st <;> rfl
          · split <;> cases st <;> rfl

end Sys2Proof.Machine
end

