-- ==== Sys2Proof/Laws/Run.lean ====
section
/-! SUPPORT. Runs of several ticks, what a tick does to the PPU's position, and one OAM DMA transfer slot by slot (R304, R305). -/

namespace Sys2Proof.Machine

/-- The PPU registers answer the CPU from 2000 to 3FFF (R83). -/
theorem cpuRead_ppuReg (a : Word) (s : State) (h1 : 0x2000 ≤ a.toNat) (h2 : a.toNat ≤ 0x3FFF) : cpuRead a s = ppuRegRead (a.toNat % 8) s := by
  rw [cpuRead_low _ _ (by omega), busRead, if_neg (by omega), if_pos h2]

theorem cpuWrite_ppuReg (a : Word) (d : Byte) (s : State) (h1 : 0x2000 ≤ a.toNat) (h2 : a.toNat ≤ 0x3FFF) : cpuWrite a d s = ppuRegWrite (a.toNat % 8) d s := by
  rw [cpuWrite_low _ _ _ (by omega), busWrite, if_neg (by omega), if_pos h2]

theorem withBits_getLsbD (t m b : BitVec 15) (k : Nat) : (withBits t m b).getLsbD k = if m.getLsbD k then b.getLsbD k else t.getLsbD k := by
  unfold withBits
  rcases (by omega : k < 15 ∨ 15 ≤ k) with hk | hk
  · simp only [BitVec.getLsbD_or, BitVec.getLsbD_and, BitVec.getLsbD_not, hk, decide_true, Bool.true_and]
    cases m.getLsbD k <;> simp
  · simp [BitVec.getLsbD_of_ge, hk]

/-- After a step the PPU's position is the one its clock left. -/
theorem step_position (s t : State) (h : step s = .next t) : t.ppu.scanline = (ppuClock s).ppu.scanline ∧ t.ppu.dot = (ppuClock s).ppu.dot ∧ t.ppu.frameComplete = (ppuClock s).ppu.frameComplete := by
  let f : State → Nat × Nat × Bool := fun u => (u.ppu.scanline, u.ppu.dot, u.ppu.frameComplete)
  have hw : ∀ a v u, f (cpuWrite a v u) = f u := by
    intro a v u
    unfold cpuWrite
    split
    · rfl
    · unfold busWrite
      split
      · rfl
      · split
        · unfold ppuRegWrite
          split
          case h_5 => simp only [writeScroll]; split <;> rfl
          case h_6 => simp only [writeAddress]; split <;> rfl
          case h_7 =>
            show f (writeData _ _) = _
            show f (ppuWrite _ _ _) = _
            unfold ppuWrite
            split
            · rfl
            · split
              · rfl
              · split <;> rfl
          all_goals rfl
        · split
          · rfl
          · split
            · simp only [writeStrobe]; split <;> rfl
            · split <;> rfl
  have hq : f (apuClock (ppuClock s)) = f (ppuClock s) := apuClock_field f _ (fun _ => rfl) (fun _ _ => rfl)
  have he : ∀ u, f (endTick u) = f u := fun u => by rw [endTick_eq]
  suffices hf : f t = f (ppuClock s) by
    simp only [f, Prod.mk.injEq] at hf
    exact hf
  rcases step_forms s with ⟨-, e⟩ | ⟨-, -, e⟩ | ⟨-, -, -, e⟩ | ⟨-, -, -, -, e⟩ | ⟨-, -, -, -, -, e⟩ | ⟨-, -, -, -, -, e⟩
  · rw [e] at h; cases h
  · rw [e] at h; cases h
    exact he _
  · rw [e] at h; cases h
    refine (he _).trans (Eq.trans ?_ hq)
    unfold dmaStep
    split
    · split <;> rfl
    · split
      · have : ∀ a u, f (cpuRead a u).2 = f u := fun a u => State.apartFromReads_field f (fun _ => rfl) (cpuRead_apart a u)
        exact this _ _
      · rfl
  · rw [e] at h; cases h
    exact (he (countDown (apuClock (ppuClock s)))).trans hq
  · rw [e] at h; cases h
    exact (he _).trans ((enterNmi_keeps f (fun _ => rfl) (fun _ _ => rfl) hw _).trans hq)
  · rw [e] at h
    cases hx : exec (fetch (apuClock (ppuClock s))).1 (fetch (apuClock (ppuClock s))).2 with
    | next u =>
      rw [hx] at h; cases h
      exact (he _).trans ((exec_keeps f (fun _ => rfl) (fun _ _ => rfl) _ _ _ (fun _ => hw) hx).trans ((fetch_keeps f (fun _ => rfl) _).trans hq))
    | fault r => cases r
    | refused r => rw [hx] at h; cases h

/-- A step keeps a cartridge's validity. -/
theorem step_valid (s t : State) (h : step s = .next t) : t.cart.map (·.valid) = s.cart.map (·.valid) := by
  have hp : ∀ a v (u : State), (ppuWrite a v u).cart.map (·.valid) = u.cart.map (·.valid) := by
    intro a v u
    unfold ppuWrite
    split
    · next c hc =>
      obtain ⟨d, hd, hw⟩ := Option.bind_eq_some_iff.mp hc
      unfold Cartridge.ppuWrite at hw
      obtain ⟨off, -, rfl⟩ := Option.map_eq_some_iff.mp hw
      simp only [hd, Option.map_some]
      split <;> rfl
    · split
      · rfl
      · split <;> rfl
  have hw : ∀ a v (u : State), (cpuWrite a v u).cart.map (·.valid) = u.cart.map (·.valid) := by
    intro a v u
    unfold cpuWrite
    split
    · next c hc =>
      obtain ⟨d, hd, hx⟩ := Option.bind_eq_some_iff.mp hc
      obtain ⟨-, -, -, h4⟩ := Cartridge.cpuWrite_kept _ _ _ _ hx
      simp [hd, h4]
    · unfold busWrite
      split
      · rfl
      · split
        · unfold ppuRegWrite
          split
          case h_7 => exact hp _ _ _
          all_goals rfl
        · split
          · rfl
          · split
            · simp only [writeStrobe]; split <;> rfl
            · split <;> rfl
  refine step_keeps (fun u => u.cart.map (·.valid)) (fun u => ?_) (fun _ _ => rfl) hw (fun _ _ => rfl) (fun _ _ => rfl) (fun _ _ => rfl)
    (fun _ _ => rfl) s t h
  unfold State.apartFromReads
  cases u.cart <;> rfl

/-- Whether the machine may run is kept by a step. -/
theorem step_runnable (s t : State) (h : step s = .next t) : runnable t = runnable s := by
  have hv := step_valid s t h
  unfold runnable
  cases hs : s.cart <;> cases ht : t.cart <;> rw [hs, ht] at hv <;>
    simp_all

/-- Ticks after ticks. -/
theorem ticks_add (m n : Nat) (s t : State) (h : ticks m s = .next t) : ticks (m + n) s = ticks n t := by
  induction m generalizing s with
  | zero => cases h; rw [Nat.zero_add]
  | succ m ih =>
    rw [Nat.succ_add]
    have ht : ∀ k, ticks (k + 1) s = (match step s with | .next t => ticks k t | .fault r => .fault r | .refused r => .refused r) := fun _ => rfl
    rw [ht] at h ⊢
    cases hs : step s with
    | next u => rw [hs] at h; exact ih u h
    | fault r => cases r
    | refused r => rw [hs] at h; cases h

/-- What a transfer that started in `s` has kept in `u`. -/
structure DmaKept (s u : State) : Prop where
  run : runnable u = true
  ram : u.ram = s.ram
  cart : u.apartFromReads.cart = s.apartFromReads.cart
  oamAddr : u.ppu.oamAddr = s.ppu.oamAddr
  cpu : u.cpu = { s.cpu with nmiPending := u.cpu.nmiPending }
  pend : s.cpu.nmiPending = true → u.cpu.nmiPending = true

theorem runnable_apart (u v : State) (h : v.apartFromReads.cart = u.apartFromReads.cart) : runnable v = runnable u := by
  unfold runnable
  unfold State.apartFromReads at h
  simp only at h
  cases hv : v.cart <;> cases hu : u.cart <;> rw [hv, hu] at h <;> simp only [Option.map_none, Option.map_some, reduceCtorEq, Option.some.injEq] at h
  · exact (Cartridge.mk.inj h).2.2.2.2.2.1


theorem dmaKept_endTick (s u q : State) (h : DmaKept s u) (hram : q.ram = u.ram) (hcart : q.apartFromReads.cart = u.apartFromReads.cart) (ho : q.ppu.oamAddr = u.ppu.oamAddr) (hc : q.cpu = u.cpu) : DmaKept s (endTick q) := by
  rw [endTick_eq]
  have hca : ({ q with
        cpu := { q.cpu with nmiPending := q.cpu.nmiPending || q.ppu.nmiLine }
        ppu := { q.ppu with nmiLine := false }
        sysclk := q.sysclk + 1 } : State).apartFromReads.cart = s.apartFromReads.cart := hcart.trans h.cart
  refine { run := (runnable_apart u _ hcart).trans h.run, ram := hram.trans h.ram, cart := hca, oamAddr := ho.trans h.oamAddr, cpu := ?_, pend := fun hp => ?_ }
  · show ({ q.cpu with nmiPending := _ } : Cpu) = _
    rw [hc, h.cpu]
  · show (q.cpu.nmiPending || q.ppu.nmiLine) = true
    rw [hc, h.pend hp]; rfl

theorem ppuClock_oam (s : State) : (ppuClock s).ppu.oam = s.ppu.oam ∧ (ppuClock s).ppu.oamAddr = s.ppu.oamAddr := by
  have hr : (renderFrame s).ppu.oam = s.ppu.oam ∧ (renderFrame s).ppu.oamAddr = s.ppu.oamAddr := by
    obtain ⟨t, fb, hl, h⟩ := renderFrame_spec s
    rw [h]; exact ⟨rfl, rfl⟩
  have he : (ppuEvents s).ppu.oam = s.ppu.oam ∧ (ppuEvents s).ppu.oamAddr = s.ppu.oamAddr := by
    unfold ppuEvents spriteZeroTest
    simp only
    repeat' split
    case isFalse.isTrue => exact hr
    all_goals exact ⟨rfl, rfl⟩
  unfold ppuClock ppuAdvance
  split
  · split <;> exact he
  · exact he

/-- A tick of a transfer that is no CPU slot. -/
theorem stalled_tick (s u : State) (h : DmaKept s u) (h3 : u.sysclk % 3 ≠ 0) : ∃ v, step u = .next v ∧ DmaKept s v ∧ v.dma = u.dma ∧ v.ppu.oam = u.ppu.oam ∧ v.sysclk = u.sysclk + 1 := by
  obtain ⟨a1, a2, a3, a4, -⟩ := ppuClock_rest u
  rcases step_forms u with ⟨e, -⟩ | ⟨-, -, e⟩ | ⟨-, x, -, e⟩ | ⟨-, x, -, -, e⟩ | ⟨-, x, -, -, -, e⟩ | ⟨-, x, -, -, -, e⟩
  · rw [h.run] at e; cases e
  · refine ⟨_, e, dmaKept_endTick s u _ h a2 ?_ (ppuClock_oam u).2 a1, ?_, ?_, step_sysclk u _ e⟩
    · exact ppuClock_keeps (fun u => u.apartFromReads.cart) (fun u => by rw [State.apartFromReads_idem]) (fun _ _ => rfl) u
    · rw [endTick_eq]; exact a4
    · rw [endTick_eq]; exact (ppuClock_oam u).1
  all_goals exact absurd x h3

/-- A tick of a transfer that is a CPU slot: `dmaStep` of a state `q` with `u`'s DMA, OAM and clock. -/
theorem dma_tick (s u : State) (h : DmaKept s u) (h3 : u.sysclk % 3 = 0) (hd : u.dma.active = true) : ∃ v q, step u = .next v ∧ DmaKept s v ∧ v.sysclk = u.sysclk + 1 ∧
    q.dma = u.dma ∧ q.ppu.oam = u.ppu.oam ∧ q.sysclk = u.sysclk ∧ v.dma = (dmaStep q).dma ∧ v.ppu.oam = (dmaStep q).ppu.oam ∧
    (∀ a, isStorage a s = true → (cpuRead a q).1 = (cpuRead a s).1) := by
  obtain ⟨a1, a2, a3, a4, -⟩ := ppuClock_rest u
  obtain ⟨b1, b2, b3, b4, -⟩ := apuClock_rest (ppuClock u)
  have idem : ∀ u : State, u.apartFromReads.apartFromReads.cart = u.apartFromReads.cart := fun u => by rw [State.apartFromReads_idem]
  have hcart : (apuClock (ppuClock u)).apartFromReads.cart = u.apartFromReads.cart :=
    (apuClock_field (fun u => u.apartFromReads.cart) _ idem (fun _ _ => rfl)).trans (ppuClock_keeps (fun u => u.apartFromReads.cart) idem (fun _ _ => rfl) u)
  have hoam : (apuClock (ppuClock u)).ppu.oam = u.ppu.oam := (apuClock_field (fun u => u.ppu.oam) _ (fun _ => rfl) (fun _ _ => rfl)).trans (ppuClock_oam u).1
  have hoa : (apuClock (ppuClock u)).ppu.oamAddr = u.ppu.oamAddr := (apuClock_field (fun u => u.ppu.oamAddr) _ (fun _ => rfl) (fun _ _ => rfl)).trans (ppuClock_oam u).2
  rcases step_forms u with ⟨e, -⟩ | ⟨-, x, e⟩ | ⟨-, -, -, e⟩ | ⟨-, -, x, -, e⟩ | ⟨-, -, x, -, -, e⟩ | ⟨-, -, x, -, -, e⟩
  · rw [h.run] at e; cases e
  · exact absurd h3 x
  · refine ⟨_, apuClock (ppuClock u), e, ?_, step_sysclk u _ e, b4.trans a4, hoam, b3.trans a3, ?_, ?_, ?_⟩
    · refine dmaKept_endTick s u _ h ?_ ?_ ?_ ?_
      · exact (dmaStep_keeps State.ram (fun _ => rfl) (fun _ _ => rfl) (fun _ _ => rfl) _).trans (b2.trans a2)
      · exact (dmaStep_keeps (fun u => u.apartFromReads.cart) idem (fun _ _ => rfl) (fun _ _ => rfl) _).trans hcart
      · refine Eq.trans ?_ hoa
        unfold dmaStep
        split
        · split <;> rfl
        · split
          · have : ∀ a (u : State), (cpuRead a u).2.ppu.oamAddr = u.ppu.oamAddr := fun a u =>
              State.apartFromReads_field (fun u : State => u.ppu.oamAddr) (fun _ => rfl) (cpuRead_apart a u)
            exact this _ _
          · rfl
      · exact (dmaStep_keeps State.cpu (fun _ => rfl) (fun _ _ => rfl) (fun _ _ => rfl) _).trans (b1.trans a1)
    · rw [endTick_eq]
    · rw [endTick_eq]
    · intro a ha
      exact cpuRead_storage a s _ ha ((b2.trans a2).trans h.ram) (hcart.trans h.cart)
  all_goals (rw [hd] at x; cases x)

/-- The transfer is going on for `n` ticks. -/
def DmaRuns (n : Nat) (u : State) : Prop := ∀ m, m ≤ n → ∃ w, ticks m u = .next w ∧ w.dma.active = true

theorem DmaRuns.add {n k : Nat} {u v : State} (h : DmaRuns n u) (ht : ticks n u = .next v) (g : DmaRuns k v) : DmaRuns (n + k) u := by
  intro m hm
  by_cases hmn : m ≤ n
  · exact h m hmn
  · obtain ⟨w, hw, ha⟩ := g (m - n) (by omega)
    refine ⟨w, ?_, ha⟩
    have := ticks_add n (m - n) u v ht
    rw [show n + (m - n) = m by omega] at this
    rw [this, hw]

/-- One stalled slot is three ticks. -/
theorem dma_slot (s u : State) (h : DmaKept s u) (h3 : u.sysclk % 3 = 0) (hd : u.dma.active = true) : ∃ v q, ticks 3 u = .next v ∧ DmaKept s v ∧ v.sysclk = u.sysclk + 3 ∧
    q.dma = u.dma ∧ q.ppu.oam = u.ppu.oam ∧ q.sysclk = u.sysclk ∧ v.dma = (dmaStep q).dma ∧ v.ppu.oam = (dmaStep q).ppu.oam ∧
    (∀ a, isStorage a s = true → (cpuRead a q).1 = (cpuRead a s).1) ∧ (v.dma.active = true → DmaRuns 3 u) := by
  obtain ⟨v1, q, e1, k1, s1, q1, q2, q3, q4, q5, q6⟩ := dma_tick s u h h3 hd
  obtain ⟨v2, e2, k2, d2, o2, s2⟩ := stalled_tick s v1 k1 (by omega)
  obtain ⟨v3, e3, k3, d3, o3, s3⟩ := stalled_tick s v2 k2 (by omega)
  have t1 : ticks 1 u = .next v1 := by simp only [ticks, e1]
  have t2 : ticks 2 u = .next v2 := by simp only [ticks, e1, e2]
  have t3 : ticks 3 u = .next v3 := by simp only [ticks, e1, e2, e3]
  refine ⟨v3, q, t3, k3, by omega, q1, q2, q3, d3.trans (d2.trans q4), o3.trans (o2.trans q5), q6, fun ha => ?_⟩
  intro m hm
  have : m = 0 ∨ m = 1 ∨ m = 2 ∨ m = 3 := by omega
  rcases this with rfl | rfl | rfl | rfl
  · exact ⟨u, rfl, hd⟩
  · exact ⟨v1, t1, by rw [← d2, ← d3]; exact ha⟩
  · exact ⟨v2, t2, by rw [← d3]; exact ha⟩
  · exact ⟨v3, t3, ha⟩

/-- The transfer that started in `s` stands before byte `k`. -/
structure DmaAt (s u : State) (k : Nat) : Prop where
  kept : DmaKept s u
  three : u.sysclk % 3 = 0
  even : u.sysclk % 2 = 0
  dma : u.dma = { active := true, page := s.dma.page, index := BitVec.ofNat 8 k, dummy := false, data := u.dma.data }
  oam : ∀ i, i < k → isStorage (BitVec.ofNat 16 (s.dma.page.toNat * 256 + i)) s = true → u.ppu.oam.read i = (cpuRead (BitVec.ofNat 16 (s.dma.page.toNat * 256 + i)) s).1

/-- Two slots transfer byte `k`. -/
theorem dma_pair (s u : State) (k : Nat) (hk : k < 256) (h : DmaAt s u k) : ∃ v w, ticks 3 u = .next v ∧ DmaRuns 3 u ∧ ticks 3 v = .next w ∧ v.dma.active = true ∧
    DmaKept s w ∧ w.sysclk = u.sysclk + 6 ∧ w.dma = { active := decide (k ≠ 255), page := s.dma.page, index := BitVec.ofNat 8 (k + 1), dummy := decide (k = 255), data := w.dma.data } ∧
    (∀ i, i < k + 1 → isStorage (BitVec.ofNat 16 (s.dma.page.toNat * 256 + i)) s = true → w.ppu.oam.read i = (cpuRead (BitVec.ofNat 16 (s.dma.page.toNat * 256 + i)) s).1) ∧ (k ≠ 255 → DmaRuns 6 u) := by
  obtain ⟨v, q, t1, kv, s1, q1, q2, q3, q4, q5, q6, g1⟩ := dma_slot s u h.kept h.three (by rw [h.dma])
  have hstep : dmaStep q = { (cpuRead (wordOf q.dma.page q.dma.index) q).2 with dma := { (cpuRead (wordOf q.dma.page q.dma.index) q).2.dma with data := (cpuRead (wordOf q.dma.page q.dma.index) q).1 } } := by
    unfold dmaStep
    rw [if_neg (by rw [q1, h.dma]; simp), if_pos (by rw [q3]; exact h.even)]
  have vd : v.dma = { active := true, page := s.dma.page, index := BitVec.ofNat 8 k, dummy := false, data := (cpuRead (wordOf q.dma.page q.dma.index) q).1 } := by
    rw [q4, hstep]
    show ({ (cpuRead (wordOf q.dma.page q.dma.index) q).2.dma with data := _ } : Dma) = _
    rw [cpuRead_dma, q1, h.dma]
  have vo : v.ppu.oam = u.ppu.oam := by
    rw [q5, hstep, ← q2]
    have : ∀ a (u : State), (cpuRead a u).2.ppu.oam = u.ppu.oam := fun a u =>
      State.apartFromReads_field (fun u : State => u.ppu.oam) (fun _ => rfl) (cpuRead_apart a u)
    exact this _ _
  obtain ⟨w, r, t2, kw, s2, r1, r2, r3, r4, r5, r6, g2⟩ := dma_slot s v kv (by have := h.three; omega) (by rw [vd])
  have hstep2 : dmaStep r = { r with
      ppu := { r.ppu with oam := r.ppu.oam.write r.dma.index.toNat r.dma.data }
      dma := { r.dma with index := r.dma.index + 1, active := r.dma.index + 1 != 0x00, dummy := r.dma.index + 1 == 0x00 } } := by
    unfold dmaStep
    rw [if_neg (by rw [r1, vd]; simp), if_neg (by rw [r3]; have := h.even; omega)]
  have hidx : BitVec.ofNat 8 k + 1 = BitVec.ofNat 8 (k + 1) := by
    apply BitVec.eq_of_toNat_eq; simp
  have hz : (BitVec.ofNat 8 (k + 1) == (0x00 : Byte)) = decide (k = 255) := by
    rw [Bool.eq_iff_iff, beq_iff_eq, decide_eq_true_iff]
    constructor
    · intro h
      have := congrArg BitVec.toNat h
      simp at this; omega
    · rintro rfl; rfl
  have wd : w.dma = { active := decide (k ≠ 255), page := s.dma.page, index := BitVec.ofNat 8 (k + 1), dummy := decide (k = 255), data := w.dma.data } := by
    rw [r4, hstep2, r1, vd]
    simp only [hidx, hz, bne, decide_not]
  have hnat : (BitVec.ofNat 8 k).toNat = k := by simp; omega
  refine ⟨v, w, t1, g1 (by rw [vd]), t2, by rw [vd], kw, by omega, wd, ?_, ?_⟩
  · intro i hi hst
    rw [r5, hstep2]
    show (r.ppu.oam.write r.dma.index.toNat r.dma.data).read i = _
    rw [r2, r1, vo, Memory.read_write, vd]
    simp only [hnat]
    by_cases hik : i = k
    · rw [if_pos hik]
      subst hik
      rw [q1, h.dma]
      have : wordOf s.dma.page (BitVec.ofNat 8 i) = BitVec.ofNat 16 (s.dma.page.toNat * 256 + i) := by
        apply BitVec.eq_of_toNat_eq
        rw [wordOf_toNat, hnat]
        have := s.dma.page.isLt
        simp; omega
      simp only [this]
      exact q6 _ hst
    · rw [if_neg hik]
      exact h.oam i (by omega) hst
  · intro hk'
    have g3 := g2 (by rw [wd]; simpa using hk')
    exact DmaRuns.add (g1 (by rw [vd])) t1 g3

/-- The transfer's first 255 bytes. -/
theorem dma_pairs (s u : State) (h : DmaAt s u 0) : ∀ k, k ≤ 255 → ∃ v, ticks (6 * k) u = .next v ∧ DmaRuns (6 * k) u ∧ DmaAt s v k ∧ v.sysclk = u.sysclk + 6 * k := by
  intro k
  induction k with
  | zero => exact fun _ => ⟨u, rfl, fun m hm => ⟨u, by rw [show m = 0 by omega]; rfl, by rw [h.dma]⟩, h, rfl⟩
  | succ k ih =>
    intro hk
    obtain ⟨v, tv, gv, av, sv⟩ := ih (by omega)
    obtain ⟨x, w, t1, g1, t2, ax, kw, sw, dw, ow, g6⟩ := dma_pair s v k (by omega) av
    have t6 : ticks 6 v = .next w := by rw [ticks_add 3 3 v x t1, t2]
    refine ⟨w, ?_, ?_, ?_, by omega⟩
    · rw [show 6 * (k + 1) = 6 * k + 6 by omega, ticks_add _ _ _ _ tv, t6]
    · rw [show 6 * (k + 1) = 6 * k + 6 by omega]
      exact DmaRuns.add gv tv (g6 (by omega))
    · refine { kept := kw, three := by have := av.three; omega, even := by have := av.even; omega, dma := ?_, oam := ow }
      rw [dw]
      simp [show k ≠ 255 by omega]

end Sys2Proof.Machine
end

