-- ==== Sys2Proof/Tests/Slice0.lean ====
section
/-!
SUPPORT. Tests of the model on small states. Every expected value is from the spec: the "Example" lines and tables of the rules (one theorem per
mnemonic, named after it), the opcode map R150, and the rules named in each comment. The last part shows that the hypotheses of every statement
can be met, each clause at boundary values of its range.
-/

namespace Sys2Proof.Machine

/-! ## Well-formedness -/

/-- A mapped opcode value is no XXX entry (R150, R151): A9 is `LDA #`, EA is NOP. -/
theorem test_wellFormed_refuses_mapped_xxx : (Instr.xxx 0xA9).wellFormed = false ∧ (Instr.xxx 0xEA).wellFormed = false := by decide

/-- The first and the last unmapped value (R151), and terms whose operands are at the ends of their ranges. -/
theorem test_wellFormed_accepts :
    (Instr.xxx 0x02).wellFormed = true ∧ (Instr.xxx 0xFF).wellFormed = true ∧ (Instr.ldaImm 0xFF).wellFormed = true ∧
    (Instr.jmpInd 0xFFFF).wellFormed = true := by decide

/-! ## Decoding -/

/-- The instructions of byte strings that are exactly one instruction each. -/
def wholeWords (l : List (List Byte)) : List Instr :=
  l.filterMap fun bytes =>
    match decode bytes with
    | .ok i [] => some i
    | .ok _ _ | .noOpcode | .missingOperand => none

/-- Words of R150, each with the operand bytes of R132. -/
theorem test_decode_flags_system :
    wholeWords
    [[0x00], [0x18], [0x38], [0x40], [0x58],
     [0x78], [0xB8], [0xD8], [0xEA], [0xF8]] =
    [.brk, .clc, .sec, .rti, .cli, .sei, .clv,
     .cld, .nop, .sed] := by
  decide

/-- Words of R150, each with the operand bytes of R132. -/
theorem test_decode_logic_1 :
    wholeWords
    [[0x01, 0x12], [0x05, 0x12], [0x09, 0x12], [0x0D, 0x34, 0x12], [0x11, 0x12],
     [0x15, 0x12], [0x19, 0x34, 0x12], [0x1D, 0x34, 0x12], [0x21, 0x12], [0x24, 0x12],
     [0x25, 0x12], [0x29, 0x12], [0x2C, 0x34, 0x12], [0x2D, 0x34, 0x12], [0x31, 0x12],
     [0x35, 0x12], [0x39, 0x34, 0x12], [0x3D, 0x34, 0x12], [0x41, 0x12], [0x45, 0x12]] =
    [.oraIzx 0x12, .oraZp 0x12, .oraImm 0x12, .oraAbs 0x1234, .oraIzy 0x12, .oraZpx 0x12, .oraAby 0x1234,
     .oraAbx 0x1234, .andIzx 0x12, .bitZp 0x12, .andZp 0x12, .andImm 0x12, .bitAbs 0x1234, .andAbs 0x1234,
     .andIzy 0x12, .andZpx 0x12, .andAby 0x1234, .andAbx 0x1234, .eorIzx 0x12, .eorZp 0x12] := by
  decide

/-- Words of R150, each with the operand bytes of R132. -/
theorem test_decode_logic_2 :
    wholeWords
    [[0x49, 0x12], [0x4D, 0x34, 0x12], [0x51, 0x12], [0x55, 0x12], [0x59, 0x34, 0x12],
     [0x5D, 0x34, 0x12]] =
    [.eorImm 0x12, .eorAbs 0x1234, .eorIzy 0x12, .eorZpx 0x12, .eorAby 0x1234, .eorAbx 0x1234] := by
  decide

/-- Words of R150, each with the operand bytes of R132. -/
theorem test_decode_shifts :
    wholeWords
    [[0x06, 0x12], [0x0A], [0x0E, 0x34, 0x12], [0x16, 0x12], [0x1E, 0x34, 0x12],
     [0x26, 0x12], [0x2A], [0x2E, 0x34, 0x12], [0x36, 0x12], [0x3E, 0x34, 0x12],
     [0x46, 0x12], [0x4A], [0x4E, 0x34, 0x12], [0x56, 0x12], [0x5E, 0x34, 0x12],
     [0x66, 0x12], [0x6A], [0x6E, 0x34, 0x12], [0x76, 0x12], [0x7E, 0x34, 0x12]] =
    [.aslZp 0x12, .aslAcc, .aslAbs 0x1234, .aslZpx 0x12, .aslAbx 0x1234, .rolZp 0x12, .rolAcc,
     .rolAbs 0x1234, .rolZpx 0x12, .rolAbx 0x1234, .lsrZp 0x12, .lsrAcc, .lsrAbs 0x1234, .lsrZpx 0x12,
     .lsrAbx 0x1234, .rorZp 0x12, .rorAcc, .rorAbs 0x1234, .rorZpx 0x12, .rorAbx 0x1234] := by
  decide

/-- Words of R150, each with the operand bytes of R132. -/
theorem test_decode_transfers_stack :
    wholeWords
    [[0x08], [0x28], [0x48], [0x68], [0x8A],
     [0x98], [0x9A], [0xA8], [0xAA], [0xBA]] =
    [.php, .plp, .pha, .pla, .txa, .tya, .txs,
     .tay, .tax, .tsx] := by
  decide

/-- Words of R150, each with the operand bytes of R132. -/
theorem test_decode_control :
    wholeWords
    [[0x10, 0x12], [0x20, 0x34, 0x12], [0x30, 0x12], [0x4C, 0x34, 0x12], [0x50, 0x12],
     [0x60], [0x6C, 0x34, 0x12], [0x70, 0x12], [0x90, 0x12], [0xB0, 0x12],
     [0xD0, 0x12], [0xF0, 0x12]] =
    [.bpl 0x12, .jsr 0x1234, .bmi 0x12, .jmpAbs 0x1234, .bvc 0x12, .rts, .jmpInd 0x1234,
     .bvs 0x12, .bcc 0x12, .bcs 0x12, .bne 0x12, .beq 0x12] := by
  decide

/-- Words of R150, each with the operand bytes of R132. -/
theorem test_decode_add_subtract :
    wholeWords
    [[0x61, 0x12], [0x65, 0x12], [0x69, 0x12], [0x6D, 0x34, 0x12], [0x71, 0x12],
     [0x75, 0x12], [0x79, 0x34, 0x12], [0x7D, 0x34, 0x12], [0xE1, 0x12], [0xE5, 0x12],
     [0xE9, 0x12], [0xED, 0x34, 0x12], [0xF1, 0x12], [0xF5, 0x12], [0xF9, 0x34, 0x12],
     [0xFD, 0x34, 0x12]] =
    [.adcIzx 0x12, .adcZp 0x12, .adcImm 0x12, .adcAbs 0x1234, .adcIzy 0x12, .adcZpx 0x12, .adcAby 0x1234,
     .adcAbx 0x1234, .sbcIzx 0x12, .sbcZp 0x12, .sbcImm 0x12, .sbcAbs 0x1234, .sbcIzy 0x12, .sbcZpx 0x12,
     .sbcAby 0x1234, .sbcAbx 0x1234] := by
  decide

/-- Words of R150, each with the operand bytes of R132. -/
theorem test_decode_stores :
    wholeWords
    [[0x81, 0x12], [0x84, 0x12], [0x85, 0x12], [0x86, 0x12], [0x8C, 0x34, 0x12],
     [0x8D, 0x34, 0x12], [0x8E, 0x34, 0x12], [0x91, 0x12], [0x94, 0x12], [0x95, 0x12],
     [0x96, 0x12], [0x99, 0x34, 0x12], [0x9D, 0x34, 0x12]] =
    [.staIzx 0x12, .styZp 0x12, .staZp 0x12, .stxZp 0x12, .styAbs 0x1234, .staAbs 0x1234, .stxAbs 0x1234,
     .staIzy 0x12, .styZpx 0x12, .staZpx 0x12, .stxZpy 0x12, .staAby 0x1234, .staAbx 0x1234] := by
  decide

/-- Words of R150, each with the operand bytes of R132. -/
theorem test_decode_counts :
    wholeWords
    [[0x88], [0xC6, 0x12], [0xC8], [0xCA], [0xCE, 0x34, 0x12],
     [0xD6, 0x12], [0xDE, 0x34, 0x12], [0xE6, 0x12], [0xE8], [0xEE, 0x34, 0x12],
     [0xF6, 0x12], [0xFE, 0x34, 0x12]] =
    [.dey, .decZp 0x12, .iny, .dex, .decAbs 0x1234, .decZpx 0x12, .decAbx 0x1234,
     .incZp 0x12, .inx, .incAbs 0x1234, .incZpx 0x12, .incAbx 0x1234] := by
  decide

/-- Words of R150, each with the operand bytes of R132. -/
theorem test_decode_loads :
    wholeWords
    [[0xA0, 0x12], [0xA1, 0x12], [0xA2, 0x12], [0xA4, 0x12], [0xA5, 0x12],
     [0xA6, 0x12], [0xA9, 0x12], [0xAC, 0x34, 0x12], [0xAD, 0x34, 0x12], [0xAE, 0x34, 0x12],
     [0xB1, 0x12], [0xB4, 0x12], [0xB5, 0x12], [0xB6, 0x12], [0xB9, 0x34, 0x12],
     [0xBC, 0x34, 0x12], [0xBD, 0x34, 0x12], [0xBE, 0x34, 0x12]] =
    [.ldyImm 0x12, .ldaIzx 0x12, .ldxImm 0x12, .ldyZp 0x12, .ldaZp 0x12, .ldxZp 0x12, .ldaImm 0x12,
     .ldyAbs 0x1234, .ldaAbs 0x1234, .ldxAbs 0x1234, .ldaIzy 0x12, .ldyZpx 0x12, .ldaZpx 0x12, .ldxZpy 0x12,
     .ldaAby 0x1234, .ldyAbx 0x1234, .ldaAbx 0x1234, .ldxAby 0x1234] := by
  decide

/-- Words of R150, each with the operand bytes of R132. -/
theorem test_decode_compares :
    wholeWords
    [[0xC0, 0x12], [0xC1, 0x12], [0xC4, 0x12], [0xC5, 0x12], [0xC9, 0x12],
     [0xCC, 0x34, 0x12], [0xCD, 0x34, 0x12], [0xD1, 0x12], [0xD5, 0x12], [0xD9, 0x34, 0x12],
     [0xDD, 0x34, 0x12], [0xE0, 0x12], [0xE4, 0x12], [0xEC, 0x34, 0x12]] =
    [.cpyImm 0x12, .cmpIzx 0x12, .cpyZp 0x12, .cmpZp 0x12, .cmpImm 0x12, .cpyAbs 0x1234, .cmpAbs 0x1234,
     .cmpIzy 0x12, .cmpZpx 0x12, .cmpAby 0x1234, .cmpAbx 0x1234, .cpxImm 0x12, .cpxZp 0x12, .cpxAbs 0x1234] := by
  decide

/-- Unmapped values: one byte, the bytes after it are not taken (R151, R243: `04 A9 55`). -/
theorem test_decode_unmapped :
    decode [0x02] = .ok (.xxx 0x02) [] ∧ decode [0x04, 0xA9, 0x55] = .ok (.xxx 0x04) [0xA9, 0x55] ∧
    decode [0x89, 0x01] = .ok (.xxx 0x89) [0x01] ∧ decode [0xFF] = .ok (.xxx 0xFF) [] := by decide

/-- A string that ends inside an instruction is refused by name. -/
theorem test_decode_short : decode [] = .noOpcode ∧ decode [0xA9] = .missingOperand ∧ decode [0x4C, 0x34] = .missingOperand := by decide

/-- The table's numbering: the first byte is bits 7 to 0 (spec/opcode_table.json); bits above `nbits` are 0. -/
theorem test_decodeTableWord :
    decodeTableWord 8 0xEA = some .nop ∧ decodeTableWord 16 0x80A9 = some (.ldaImm 0x80) ∧
    decodeTableWord 24 0x12344C = some (.jmpAbs 0x1234) ∧ decodeTableWord 8 0x20 = some (.jsr 0x0000) := by decide

/-! ## One instruction -/

/-- The examples' start, `S=FD PC=8000`, with A, X, Y, P and cells of RAM given, and a 16 KiB NROM cartridge whose last bytes are the vectors:
NMI A000, IRQ/BRK 9000. -/
def start (a x y p : Byte) (ram : Memory) : State :=
  { State.reset with
    cpu := { a := a, x := x, y := y, sp := 0xFD, p := p, pc := 0x8000, cycRem := 0, nmiPending := false, diagUnknown := false }
    ram := ram
    cart := some
      { header := { prgBanks := 1, chrBanks := 0, mapperId := 0, mirroring := .horizontal, hasTrainer := false }
        prg := [(0x3FFB, 0xA0), (0x3FFD, 0x80), (0x3FFF, 0x90)], chr := [], prgram := [], mirroring := .horizontal, valid := true
        mapper := .nrom } }

/-- A, X, Y, S, P, PC and the cycles charged. -/
structure Regs where
  a : Byte
  x : Byte
  y : Byte
  sp : Byte
  p : Byte
  pc : Word
  cycles : Nat
deriving DecidableEq, Repr

/-- The registers after a next state. -/
def regs (o : Host.Outcome State Fault Refusal) : Option Regs :=
  match o with
  | .next s => some ⟨s.cpu.a, s.cpu.x, s.cpu.y, s.cpu.sp, s.cpu.p, s.cpu.pc, s.cpu.cycRem⟩
  | .fault _ | .refused _ => none

/-- Bytes of RAM after a next state. -/
def ramOf (o : Host.Outcome State Fault Refusal) (ks : List Nat) : List Byte :=
  match o with
  | .next s => ks.map s.ram.read
  | .fault _ | .refused _ => []

/-- A and P after an instruction with the given A and P before. -/
def accumulates (i : Byte → Instr) (p a m : Byte) : Option (Byte × Byte) :=
  (regs (exec (i m) (start a 0 0 p []))).map fun r => (r.a, r.p)

/-- PC and cycles of a branch at `pc` with status `p`. -/
def branches (i : Instr) (pc : Word) (p : Byte) : Option (Word × Nat) :=
  (regs (exec i ((start 0 0 0 p []).setPc pc))).map fun r => (r.pc, r.cycles)

/-- P after a flag instruction. -/
def statusAfter (i : Instr) (p : Byte) : Option Byte :=
  (regs (exec i (start 0 0 0 p []))).map fun r => r.p

/-- R7: the stack page, the vectors, the base costs and the mapped opcodes are parameters. -/
theorem test_parameters :
    let s := { start 0x00 0x00 0x00 0x24 [] with cfg := { configAtReset with stackPage := 0x03, irqVector := 0x8000, baseCycles := Vector.replicate 256 9 } }
    regs (exec .brk s) = some ⟨0, 0, 0, 0xFA, 0x34, 0x0000, 9⟩ ∧ ramOf (exec .brk s) [0x3FB, 0x3FC, 0x3FD] = [0x34, 0x02, 0x80] ∧
    tableEntry { configAtReset with mapped := [] } 0xA9 0x80 0x00 = .xxx 0xA9 := by decide

/-- R171 -/
theorem test_lda :
    regs (exec (.ldaImm 0x80) (start 0x00 0x00 0x00 0x24 [])) = some ⟨0x80, 0, 0, 0xFD, 0xA4, 0x8002, 2⟩ ∧
    regs (exec (.ldaAbx 0x12FF) (start 0x00 0x01 0x00 0x24 [(0x300, 0x01)])) = some ⟨0x01, 1, 0, 0xFD, 0x24, 0x8003, 5⟩ := by decide

/-- R172 -/
theorem test_ldx :
    regs (exec (.ldxZpy 0xF0) (start 0x00 0x00 0x20 0x24 [(0x10, 0x80)])) = some ⟨0, 0x80, 0x20, 0xFD, 0xA4, 0x8002, 4⟩ := by decide

/-- R173 -/
theorem test_ldy :
    regs (exec (.ldyAbx 0x0200) (start 0x00 0x05 0x00 0x24 [(0x205, 0x7F)])) = some ⟨0, 5, 0x7F, 0xFD, 0x24, 0x8003, 4⟩ := by decide

/-- R174 -/
theorem test_sta :
    regs (exec (.staAbs 0x0200) (start 0x80 0x00 0x00 0x24 [])) = some ⟨0x80, 0, 0, 0xFD, 0x24, 0x8003, 4⟩ ∧
    ramOf (exec (.staAbs 0x0200) (start 0x80 0x00 0x00 0x24 [])) [0x1FF, 0x200, 0x201] = [0, 0x80, 0] ∧
    regs (exec (.staAbx 0x01FF) (start 0x11 0x01 0x00 0x24 [])) = some ⟨0x11, 1, 0, 0xFD, 0x24, 0x8003, 6⟩ ∧
    ramOf (exec (.staAbx 0x01FF) (start 0x11 0x01 0x00 0x24 [])) [0x1FF, 0x200] = [0, 0x11] := by decide

/-- R175 -/
theorem test_stx :
    regs (exec (.stxZpy 0xF0) (start 0x00 0x33 0x20 0x24 [])) = some ⟨0, 0x33, 0x20, 0xFD, 0x24, 0x8002, 4⟩ ∧
    ramOf (exec (.stxZpy 0xF0) (start 0x00 0x33 0x20 0x24 [])) [0x10, 0x110] = [0x33, 0] := by decide

/-- R176 -/
theorem test_sty :
    regs (exec (.styZp 0x10) (start 0x00 0x00 0x00 0x24 [])) = some ⟨0, 0, 0, 0xFD, 0x24, 0x8002, 3⟩ ∧
    ramOf (exec (.styZp 0x10) (start 0x00 0x00 0x00 0x24 [(0x10, 0x05)])) [0x10] = [0] := by decide

/-- R177 -/
theorem test_tax :
    regs (exec .tax (start 0x80 0x00 0x00 0x24 [])) = some ⟨0x80, 0x80, 0, 0xFD, 0xA4, 0x8001, 2⟩ := by decide

/-- R178 -/
theorem test_tay :
    regs (exec .tay (start 0x00 0x00 0x05 0x24 [])) = some ⟨0, 0, 0, 0xFD, 0x26, 0x8001, 2⟩ := by decide

/-- R179 -/
theorem test_txa :
    regs (exec .txa (start 0x80 0x7F 0x00 0xA4 [])) = some ⟨0x7F, 0x7F, 0, 0xFD, 0x24, 0x8001, 2⟩ := by decide

/-- R180 -/
theorem test_tya :
    regs (exec .tya (start 0x00 0x00 0xFF 0x24 [])) = some ⟨0xFF, 0, 0xFF, 0xFD, 0xA4, 0x8001, 2⟩ := by decide

/-- R181 -/
theorem test_tsx :
    regs (exec .tsx (start 0x00 0x00 0x00 0x24 [])) = some ⟨0, 0xFD, 0, 0xFD, 0xA4, 0x8001, 2⟩ ∧
    regs (exec .tsx ((start 0x00 0x01 0x00 0x24 []).setSp 0x00)) = some ⟨0, 0, 0, 0, 0x26, 0x8001, 2⟩ := by decide

/-- R182 -/
theorem test_txs :
    regs (exec .txs (start 0x00 0x00 0x00 0x24 [])) = some ⟨0, 0, 0, 0, 0x24, 0x8001, 2⟩ ∧
    regs (exec .txs (start 0x00 0x80 0x00 0x24 [])) = some ⟨0, 0x80, 0, 0x80, 0x24, 0x8001, 2⟩ := by decide

/-- R185 -/
theorem test_pha :
    regs (exec .pha (start 0x42 0x00 0x00 0x24 [])) = some ⟨0x42, 0, 0, 0xFC, 0x24, 0x8001, 3⟩ ∧
    ramOf (exec .pha (start 0x42 0x00 0x00 0x24 [])) [0x1FC, 0x1FD, 0x1FE] = [0, 0x42, 0] ∧
    regs (exec .pha ((start 0x42 0x00 0x00 0x24 []).setSp 0x00)) = some ⟨0x42, 0, 0, 0xFF, 0x24, 0x8001, 3⟩ ∧
    ramOf (exec .pha ((start 0x42 0x00 0x00 0x24 []).setSp 0x00)) [0xFF, 0x100] = [0, 0x42] := by decide

/-- R186 -/
theorem test_php :
    regs (exec .php (start 0x00 0x00 0x00 0x24 [])) = some ⟨0, 0, 0, 0xFC, 0x24, 0x8001, 3⟩ ∧
    ramOf (exec .php (start 0x00 0x00 0x00 0x24 [])) [0x1FD] = [0x34] ∧
    ramOf (exec .php (start 0x00 0x00 0x00 0xE5 [])) [0x1FD] = [0xF5] := by decide

/-- R187 -/
theorem test_pla :
    regs (exec .pla (start 0x00 0x00 0x00 0x24 [(0x1FE, 0x80)])) = some ⟨0x80, 0, 0, 0xFE, 0xA4, 0x8001, 4⟩ := by decide

/-- R188 -/
theorem test_plp :
    regs (exec .plp (start 0x00 0x00 0x00 0x24 [(0x1FE, 0xFF)])) = some ⟨0, 0, 0, 0xFE, 0xFF, 0x8001, 4⟩ ∧
    regs (exec .plp (start 0x00 0x00 0x00 0xFF [])) = some ⟨0, 0, 0, 0xFE, 0x20, 0x8001, 4⟩ := by decide

/-- The sign table of R191. -/
theorem test_adc :
    [(0x50, 0x10), (0x50, 0x50), (0x50, 0x90), (0x50, 0xD0), (0xD0, 0x10), (0xD0, 0x50), (0xD0, 0x90), (0xD0, 0xD0)].map (fun r => accumulates .adcImm 0x24 r.1 r.2) =
    [some (0x60, 0x24), some (0xA0, 0xE4), some (0xE0, 0xA4), some (0x20, 0x25), some (0xE0, 0xA4), some (0x20, 0x25), some (0x60, 0x65), some (0xA0, 0xA5)] := by decide

/-- R191: `P.D` has no effect; the incoming carry is added. -/
theorem test_adc_decimal :
    accumulates .adcImm 0x2C 0x09 0x01 = some (0x0A, 0x2C) ∧
    accumulates .adcImm 0x25 0x7F 0x00 = some (0x80, 0xE4) ∧
    accumulates .adcImm 0x25 0xFF 0x00 = some (0x00, 0x27) := by decide

/-- The sign table of R192. -/
theorem test_sbc :
    [(0x50, 0xF0), (0x50, 0xB0), (0x50, 0x70), (0x50, 0x30), (0xD0, 0xF0), (0xD0, 0xB0), (0xD0, 0x70), (0xD0, 0x30), (0x40, 0x40), (0x00, 0x01)].map (fun r => accumulates .sbcImm 0x25 r.1 r.2) =
    [some (0x60, 0x24), some (0xA0, 0xE4), some (0xE0, 0xA4), some (0x20, 0x25), some (0xE0, 0xA4), some (0x20, 0x25), some (0x60, 0x65), some (0xA0, 0xA5), some (0x00, 0x27), some (0xFF, 0xA4)] := by decide

/-- R192: `A=00, operand=00, C=0`; `A=80, operand=01, C=1`. -/
theorem test_sbc_borrow :
    accumulates .sbcImm 0x24 0x00 0x00 = some (0xFF, 0xA4) ∧
    accumulates .sbcImm 0x25 0x80 0x01 = some (0x7F, 0x65) := by decide

/-- The table of R193. -/
theorem test_cmp :
    [(0x40, 0x40), (0x40, 0x41), (0x41, 0x40), (0x00, 0xFF), (0x80, 0x00), (0x00, 0x80)].map (fun r => accumulates .cmpImm 0x24 r.1 r.2) =
    [some (0x40, 0x27), some (0x40, 0xA4), some (0x41, 0x25), some (0x00, 0x24), some (0x80, 0xA5), some (0x00, 0xA4)] := by decide

/-- R194 -/
theorem test_cpx :
    regs (exec (.cpxImm 0x10) (start 0x00 0x10 0x00 0x24 [])) = some ⟨0, 0x10, 0, 0xFD, 0x27, 0x8002, 2⟩ ∧
    regs (exec (.cpxZp 0x20) (start 0x00 0x00 0x00 0x24 [(0x20, 0x01)])) = some ⟨0, 0, 0, 0xFD, 0xA4, 0x8002, 3⟩ := by decide

/-- R195 -/
theorem test_cpy :
    regs (exec (.cpyImm 0x7F) (start 0x00 0x00 0x80 0x64 [])) = some ⟨0, 0, 0x80, 0xFD, 0x65, 0x8002, 2⟩ := by decide

/-- R196 -/
theorem test_inc :
    regs (exec (.incZp 0x10) (start 0x00 0x00 0x00 0x25 [(0x10, 0xFF)])) = some ⟨0, 0, 0, 0xFD, 0x27, 0x8002, 5⟩ ∧
    ramOf (exec (.incZp 0x10) (start 0x00 0x00 0x00 0x25 [(0x10, 0xFF)])) [0x10] = [0] ∧
    regs (exec (.incAbx 0x02FF) (start 0x00 0x01 0x00 0x24 [])) = some ⟨0, 1, 0, 0xFD, 0x24, 0x8003, 8⟩ ∧
    ramOf (exec (.incAbx 0x02FF) (start 0x00 0x01 0x00 0x24 [])) [0x2FF, 0x300] = [0, 1] := by decide

/-- R197 -/
theorem test_inx :
    regs (exec .inx (start 0x00 0xFF 0x00 0x24 [])) = some ⟨0, 0, 0, 0xFD, 0x26, 0x8001, 2⟩ ∧
    regs (exec .inx (start 0x00 0x7F 0x00 0x24 [])) = some ⟨0, 0x80, 0, 0xFD, 0xA4, 0x8001, 2⟩ := by decide

/-- R198 -/
theorem test_iny :
    regs (exec .iny (start 0x00 0x00 0xFF 0x24 [])) = some ⟨0, 0, 0, 0xFD, 0x26, 0x8001, 2⟩ ∧
    regs (exec .iny (start 0x00 0x00 0x00 0x24 [])) = some ⟨0, 0, 1, 0xFD, 0x24, 0x8001, 2⟩ := by decide

/-- R199 -/
theorem test_dec :
    regs (exec (.decZp 0x10) (start 0x00 0x00 0x00 0x24 [])) = some ⟨0, 0, 0, 0xFD, 0xA4, 0x8002, 5⟩ ∧
    ramOf (exec (.decZp 0x10) (start 0x00 0x00 0x00 0x24 [])) [0x10] = [0xFF] := by decide

/-- R200 -/
theorem test_dex :
    regs (exec .dex (start 0x00 0x00 0x00 0x24 [])) = some ⟨0, 0xFF, 0, 0xFD, 0xA4, 0x8001, 2⟩ ∧
    regs (exec .dex (start 0x00 0x01 0x00 0x24 [])) = some ⟨0, 0, 0, 0xFD, 0x26, 0x8001, 2⟩ := by decide

/-- R201 -/
theorem test_dey :
    regs (exec .dey (start 0x00 0x00 0x00 0x24 [])) = some ⟨0, 0, 0xFF, 0xFD, 0xA4, 0x8001, 2⟩ ∧
    regs (exec .dey (start 0x00 0x00 0x80 0x24 [])) = some ⟨0, 0, 0x7F, 0xFD, 0x24, 0x8001, 2⟩ := by decide

/-- R205 -/
theorem test_and :
    accumulates .andImm 0x24 0xF0 0x0F = some (0x00, 0x26) ∧
    accumulates .andImm 0x24 0xFF 0x80 = some (0x80, 0xA4) := by decide

/-- R206 -/
theorem test_ora :
    regs (exec (.oraIzx 0x20) (start 0xF0 0x04 0x00 0x24 [(0x25, 0x03), (0x300, 0x0F)])) = some ⟨0xFF, 4, 0, 0xFD, 0xA4, 0x8002, 6⟩ := by decide

/-- R207 -/
theorem test_eor :
    accumulates .eorImm 0x24 0x0F 0xFF = some (0xF0, 0xA4) ∧
    accumulates .eorImm 0x24 0xFF 0xFF = some (0x00, 0x26) := by decide

/-- R208 -/
theorem test_bit :
    regs (exec (.bitZp 0x10) (start 0x01 0x00 0x00 0x24 [(0x10, 0xC0)])) = some ⟨1, 0, 0, 0xFD, 0xE6, 0x8002, 3⟩ ∧
    regs (exec (.bitZp 0x10) (start 0xC0 0x00 0x00 0x24 [(0x10, 0xC0)])) = some ⟨0xC0, 0, 0, 0xFD, 0xE4, 0x8002, 3⟩ := by decide

/-- R209 -/
theorem test_asl :
    regs (exec .aslAcc (start 0x80 0x00 0x00 0x24 [])) = some ⟨0, 0, 0, 0xFD, 0x27, 0x8001, 2⟩ ∧
    regs (exec (.aslZp 0x10) (start 0x00 0x00 0x00 0x24 [(0x10, 0xFF)])) = some ⟨0, 0, 0, 0xFD, 0xA5, 0x8002, 5⟩ ∧
    ramOf (exec (.aslZp 0x10) (start 0x00 0x00 0x00 0x24 [(0x10, 0xFF)])) [0x10] = [0xFE] := by decide

/-- R210 -/
theorem test_lsr :
    regs (exec .lsrAcc (start 0x01 0x00 0x00 0xA4 [])) = some ⟨0, 0, 0, 0xFD, 0x27, 0x8001, 2⟩ ∧
    regs (exec .lsrAcc (start 0xFF 0x00 0x00 0x24 [])) = some ⟨0x7F, 0, 0, 0xFD, 0x25, 0x8001, 2⟩ ∧
    regs (exec (.lsrAbs 0x0200) (start 0x00 0x00 0x00 0x25 [(0x200, 0x02)])) = some ⟨0, 0, 0, 0xFD, 0x24, 0x8003, 6⟩ ∧
    ramOf (exec (.lsrAbs 0x0200) (start 0x00 0x00 0x00 0x25 [(0x200, 0x02)])) [0x200] = [1] := by decide

/-- R211 -/
theorem test_rol :
    regs (exec .rolAcc (start 0x80 0x00 0x00 0x24 [])) = some ⟨0, 0, 0, 0xFD, 0x27, 0x8001, 2⟩ ∧
    regs (exec .rolAcc (start 0x80 0x00 0x00 0x25 [])) = some ⟨1, 0, 0, 0xFD, 0x25, 0x8001, 2⟩ ∧
    regs (exec .rolAcc (start 0x40 0x00 0x00 0x25 [])) = some ⟨0x81, 0, 0, 0xFD, 0xA4, 0x8001, 2⟩ := by decide

/-- R212 -/
theorem test_ror :
    regs (exec .rorAcc (start 0x01 0x00 0x00 0x24 [])) = some ⟨0, 0, 0, 0xFD, 0x27, 0x8001, 2⟩ ∧
    regs (exec .rorAcc (start 0x01 0x00 0x00 0x25 [])) = some ⟨0x80, 0, 0, 0xFD, 0xA5, 0x8001, 2⟩ ∧
    regs (exec (.rorAbx 0x0200) (start 0x00 0x01 0x00 0x24 [(0x201, 0xFE)])) = some ⟨0, 1, 0, 0xFD, 0x24, 0x8003, 7⟩ ∧
    ramOf (exec (.rorAbx 0x0200) (start 0x00 0x01 0x00 0x24 [(0x201, 0xFE)])) [0x201] = [0x7F] := by decide

/-- R215 -/
theorem test_jmp :
    regs (exec (.jmpAbs 0x1234) (start 0x00 0x00 0x00 0x24 [])) = some ⟨0, 0, 0, 0xFD, 0x24, 0x1234, 3⟩ ∧
    regs (exec (.jmpInd 0x0300) (start 0x00 0x00 0x00 0x24 [(0x300, 0x78), (0x301, 0x56)])) = some ⟨0, 0, 0, 0xFD, 0x24, 0x5678, 5⟩ ∧
    regs (exec (.jmpInd 0x02FF) (start 0x00 0x00 0x00 0x24 [(0x200, 0x90), (0x300, 0x40)])) = some ⟨0, 0, 0, 0xFD, 0x24, 0x9000, 5⟩ := by decide

/-- R216 -/
theorem test_jsr :
    regs (exec (.jsr 0x9000) (start 0x00 0x00 0x00 0x24 [])) = some ⟨0, 0, 0, 0xFB, 0x24, 0x9000, 6⟩ ∧
    ramOf (exec (.jsr 0x9000) (start 0x00 0x00 0x00 0x24 [])) [0x1FC, 0x1FD] = [0x02, 0x80] ∧
    regs (exec (.jsr 0x9000) ((start 0x00 0x00 0x00 0x24 []).setSp 0x00)) = some ⟨0, 0, 0, 0xFE, 0x24, 0x9000, 6⟩ ∧
    ramOf (exec (.jsr 0x9000) ((start 0x00 0x00 0x00 0x24 []).setSp 0x00)) [0x100, 0x1FF] = [0x80, 0x02] := by decide

/-- R217 -/
theorem test_rts :
    regs (exec .rts (start 0x00 0x00 0x00 0x24 [(0x1FE, 0xFF), (0x1FF, 0x12)])) = some ⟨0, 0, 0, 0xFF, 0x24, 0x1300, 6⟩ ∧
    regs (exec .rts (start 0x00 0x00 0x00 0x24 [(0x1FE, 0xFF), (0x1FF, 0xFF)])) = some ⟨0, 0, 0, 0xFF, 0x24, 0x0000, 6⟩ := by decide

/-- R219 and the table of R218. -/
theorem test_bcc :
    branches (.bcc 0x7F) 0x8000 0x24 = some (0x8081, 3) ∧
    branches (.bcc 0x7F) 0x8000 0x25 = some (0x8002, 2) := by decide

/-- R220 -/
theorem test_bcs :
    branches (.bcs 0x80) 0x8000 0x25 = some (0x7F82, 4) ∧
    branches (.bcs 0x80) 0x8000 0x24 = some (0x8002, 2) := by decide

/-- R221 and the table of R218. -/
theorem test_beq :
    branches (.beq 0xFE) 0x8000 0x26 = some (0x8000, 3) ∧
    branches (.beq 0xFE) 0x8000 0x24 = some (0x8002, 2) ∧
    branches (.beq 0x04) 0xFFFD 0x26 = some (0x0003, 4) := by decide

/-- R222 and the table of R218. -/
theorem test_bne :
    branches (.bne 0x05) 0x8000 0x24 = some (0x8007, 3) ∧
    branches (.bne 0x05) 0x8000 0x26 = some (0x8002, 2) ∧
    branches (.bne 0x01) 0x80FD 0x24 = some (0x8100, 4) ∧
    branches (.bne 0x00) 0x80FE 0x24 = some (0x8100, 3) := by decide

/-- R223 -/
theorem test_bmi :
    branches (.bmi 0xFD) 0x8000 0xA4 = some (0x7FFF, 4) ∧
    branches (.bmi 0xFD) 0x8000 0x24 = some (0x8002, 2) := by decide

/-- R224 -/
theorem test_bpl :
    branches (.bpl 0x20) 0x80F0 0x24 = some (0x8112, 4) ∧
    branches (.bpl 0x20) 0x80F0 0xA4 = some (0x80F2, 2) := by decide

/-- R225 -/
theorem test_bvc :
    branches (.bvc 0x00) 0x8000 0x24 = some (0x8002, 3) ∧
    branches (.bvc 0x00) 0x8000 0x64 = some (0x8002, 2) := by decide

/-- R226 -/
theorem test_bvs :
    branches (.bvs 0x10) 0x8000 0x64 = some (0x8012, 3) ∧
    branches (.bvs 0x10) 0x8000 0x24 = some (0x8002, 2) := by decide

/-- The examples of R230 to R236. -/
theorem test_flag_instructions :
    statusAfter .clc 0xFF = some 0xFE ∧
    statusAfter .sec 0x24 = some 0x25 ∧
    statusAfter .cli 0x24 = some 0x20 ∧
    statusAfter .sei 0x20 = some 0x24 ∧
    statusAfter .clv 0x64 = some 0x24 ∧
    statusAfter .cld 0x2C = some 0x24 ∧
    statusAfter .sed 0x24 = some 0x2C := by decide

/-- R237, R243 -/
theorem test_nop_xxx :
    regs (exec .nop (start 0x00 0x00 0x00 0x24 [])) = some ⟨0, 0, 0, 0xFD, 0x24, 0x8001, 2⟩ ∧
    regs (exec (.xxx 0x02) (start 0x00 0x00 0x00 0x24 [])) = some ⟨0, 0, 0, 0xFD, 0x24, 0x8001, 2⟩ ∧
    regs (exec (.xxx 0xFF) ((start 0x00 0x00 0x00 0x24 []).setPc 0xFFFF)) = some ⟨0, 0, 0, 0xFD, 0x24, 0x0000, 2⟩ := by decide

/-- R238 -/
theorem test_brk :
    regs (exec .brk (start 0x00 0x00 0x00 0x24 [])) = some ⟨0, 0, 0, 0xFA, 0x34, 0x9000, 7⟩ ∧
    ramOf (exec .brk (start 0x00 0x00 0x00 0x24 [])) [0x1FB, 0x1FC, 0x1FD] = [0x34, 0x02, 0x80] ∧
    ramOf (exec .brk ((start 0x00 0x00 0x00 0xE3 []).setPc 0x1234)) [0x1FB, 0x1FC, 0x1FD] = [0xF3, 0x36, 0x12] ∧
    statusAfter .brk 0xE3 = some 0xF7 := by decide

/-- R239 -/
theorem test_rti :
    regs (exec .rti ((start 0x00 0x00 0x00 0x24 [(0x1FB, 0xC3), (0x1FC, 0x34), (0x1FD, 0x12)]).setSp 0xFA)) = some ⟨0, 0, 0, 0xFD, 0xE3, 0x1234, 6⟩ ∧
    regs (exec .rti ((start 0x00 0x00 0x00 0xFF [(0x1FD, 0x80)]).setSp 0xFA)) = some ⟨0, 0, 0, 0xFD, 0x20, 0x8000, 6⟩ := by decide

/-- The examples of R265. -/
theorem test_nmi_entry :
    (regs (.next (enterNmi ((start 0 0 0 0xA4 []).setPc 0x8002)))).map (fun r => (r.sp, r.p, r.pc)) =
      some (0xFA, 0xA4, 0xA000) ∧
    ramOf (.next (enterNmi ((start 0 0 0 0xA4 []).setPc 0x8002))) [0x1FB, 0x1FC, 0x1FD] = [0xA4, 0x02, 0x80] ∧
    ramOf (.next (enterNmi ((start 0 0 0 0x34 []).setPc 0x9000))) [0x1FB, 0x1FC, 0x1FD] = [0x24, 0x00, 0x90] := by decide

/-! ## The devices -/

/-- A machine with a cartridge of `banks` PRG banks, one CHR bank and the given mapper; some PRG bytes are given. -/
def inserted (m : Mapper) (banks : Nat) (prg : Memory) : State :=
  { State.reset with
    cart := some
      { header := { prgBanks := banks, chrBanks := 1, mapperId := 0, mirroring := .horizontal, hasTrainer := false }
        prg := prg, chr := [], prgram := [], mirroring := .horizontal, valid := true, mapper := m } }

/-- The example of R461: `PRG_BANKS = 8`, a write of 0B to 8000. -/
theorem test_unrom :
    (cpuRead 0x8005 (cpuWrite 0x8000 0x0B (inserted (.unrom 0) 8 [(49157, 0x11), (114688, 0x22)]))).1 = 0x11 ∧
    (cpuRead 0xC000 (cpuWrite 0x8000 0x0B (inserted (.unrom 0) 8 [(49157, 0x11), (114688, 0x22)]))).1 = 0x22 := by decide

/-- The example of R308: `ctrl_state[0] = 0x09`, a strobe of 01 then 00, then reads of 4016. -/
theorem test_controller :
    ((List.range 10).map fun n =>
      (cpuRead 0x4016 (afterReads 0x4016 n (cpuWrite 0x4016 0x00 (cpuWrite 0x4016 0x01 (setController0 0x09 State.reset))))).1) =
    [1, 0, 0, 1, 0, 0, 0, 0, 1, 1] := by decide

/-- R341, R343, R342: an address is set through register 6, two bytes are stored through register 7, and after a stale read the first comes
back. -/
theorem test_ppu_data :
    let s := cpuWrite 0x2007 0x66 (cpuWrite 0x2007 0x55 (cpuWrite 0x2006 0x08 (cpuWrite 0x2006 0x21 State.reset)))
    let r := cpuWrite 0x2006 0x08 (cpuWrite 0x2006 0x21 s)
    s.ppu.vram = [(0x108, 0x55), (0x109, 0x66)] ∧ s.ppu.v = 0x210A ∧ (cpuRead 0x2007 (cpuRead 0x2007 r).2).1 = 0x55 := by decide

/-- R340, R335: the scroll pair and the nametable bits, into `t` and `fine_x`. -/
theorem test_ppu_scroll :
    let s := cpuWrite 0x2005 0x5E (cpuWrite 0x2005 0x7D (cpuWrite 0x2000 0x03 State.reset))
    s.ppu.t = 0x6D6F ∧ s.ppu.fineX = 0x05 ∧ s.ppu.w = false := by decide

/-- R331, R337, R306: the tick at (241, 1) with NMI enable sets bit 7 and requests an NMI; a read answers it and clears it. -/
theorem test_vblank :
    let s := { State.reset with sysclk := 1, ppu := { State.reset.ppu with scanline := 241, dot := 1, ctrl := 0x80 } }
    (match step s with
      | .next t => some (t.cpu.nmiPending, t.ppu.nmiLine, t.ppu.dot, t.ppu.status, (cpuRead 0x2002 t).2.ppu.status)
      | .fault _ | .refused _ => none) = some (true, false, 2, 0x80, 0x00) := by decide

/-- R396, R404, R397: an enabled pulse channel loads its length, which 4015 reports. -/
theorem test_apu_status :
    let s := cpuWrite 0x4003 0x08 (cpuWrite 0x4015 0x01 State.reset)
    s.apu.pulse1.length = 254 ∧ (cpuRead 0x4015 s).1 = 0x01 ∧ (cpuRead 0x4015 (cpuWrite 0x4015 0x00 s)).1 = 0x00 := by decide

/-- R451 to R453: a header with the wrong magic is invalid and is not inserted. -/
theorem test_invalid_image : (insertCartridge [0x4E, 0x45, 0x53, 0x00, 0x00] State.reset).cart = none := by decide

/-- `withFetchWord`: the next step runs `LDA #$80`. -/
theorem test_withFetchWord :
    (match step (State.reset.withFetchWord 16 0x80A9) with
      | .next t => some (t.cpu.a, t.cpu.pc, t.cpu.cycRem)
      | .fault _ | .refused _ => none) = some (0x80, 0x0002, 1) := by decide

/-! ## The hypotheses of the statements can be met -/

/-- The examples' start with nothing in A, X, Y and RAM. -/
abbrev plain : State :=
  start 0x00 0x00 0x00 0x24 []

theorem witness_DecodeOfEncode : (Instr.xxx 0x02).wellFormed = true ∧ (Instr.jmpAbs 0xFFFF).wellFormed = true := by decide

theorem witness_UnmappedOpcodesAreOneEntry :
    0x02 ∈ unmappedOpcodes ∧ 0xFF ∈ unmappedOpcodes ∧ 0x00 ∉ unmappedOpcodes ∧ 0xFE ∉ unmappedOpcodes := by decide

theorem witness_LoadsTakeTheirOperand :
    loadRow (.ldaImm 0x00) = some (.a, ⟨0xA9, .imm 0x00, 2⟩) ∧ loadRow (.ldxAby 0xFFFF) = some (.x, ⟨0xBE, .mem (.aby 0xFFFF), 4⟩) ∧
    loadRow (.ldyAbx 0x2002) = some (.y, ⟨0xBC, .mem (.abx 0x2002), 4⟩) := ⟨rfl, rfl, rfl⟩

theorem witness_StoresWriteTheirRegister :
    storeRow (.staIzy 0xFF) = some (.a, ⟨0x91, .izy 0xFF, 6⟩) ∧ storeRow (.stxZpy 0x00) = some (.x, ⟨0x96, .zpy 0x00, 4⟩) ∧
    storeRow (.styAbs 0x4014) = some (.y, ⟨0x8C, .abs 0x4014, 4⟩) := ⟨rfl, rfl, rfl⟩

theorem witness_TransfersCopyOneRegister :
    (transferRow .tax).isSome = true ∧ (transferRow .txs).isSome = true ∧ (transferRow .tsx).isSome = true := by decide

theorem witness_PushesWriteOneStackByte :
    (Instr.pha = .pha ∨ Instr.pha = .php) ∧ (Instr.php = .pha ∨ Instr.php = .php) ∧ plain.cfg.stackPage.toNat ≤ 0x1F := by decide

theorem witness_PullsReadOneStackByte :
    (Instr.pla = .pla ∨ Instr.pla = .plp) ∧ (Instr.plp = .pla ∨ Instr.plp = .plp) ∧ plain.cfg.stackPage.toNat ≤ 0x1F := by decide

theorem witness_AdcAddsWithCarry : adcRow (.adcIzx 0xFF) = some ⟨0x61, .mem (.izx 0xFF), 6⟩ := rfl

theorem witness_SbcSubtractsWithBorrow : sbcRow (.sbcAbx 0xFFFF) = some ⟨0xFD, .mem (.abx 0xFFFF), 4⟩ := rfl

theorem witness_ComparesSetCarryZeroNegative :
    compareRow (.cmpImm 0x00) = some (.a, ⟨0xC9, .imm 0x00, 2⟩) ∧ compareRow (.cpyAbs 0xFFFF) = some (.y, ⟨0xCC, .mem (.abs 0xFFFF), 4⟩) :=
  ⟨rfl, rfl⟩

theorem witness_IncDecMemoryReadThenWrite :
    (countRow (.incZp 0x00)).isSome = true ∧ (countRow (.decAbx 0xFFFF)).isSome = true := by decide

theorem witness_IncDecRegisterWraps :
    (countRegisterRow .inx).isSome = true ∧ (countRegisterRow .dey).isSome = true := by decide

theorem witness_LogicCombinesBits :
    (logicRow (.andImm 0xFF)).isSome = true ∧ (logicRow (.oraIzy 0x00)).isSome = true ∧ (logicRow (.eorAbx 0xFFFF)).isSome = true := by decide

theorem witness_BitTestsOperand : bitRow (.bitAbs 0x2002) = some ⟨0x2C, .mem (.abs 0x2002), 4⟩ := rfl

theorem witness_ShiftsOfAccumulator : shiftAccRow .rorAcc = some (.ror, 0x6A) := rfl

theorem witness_ShiftsOfMemory : shiftMemRow (.rolAbx 0xFFFF) = some (.rol, ⟨0x3E, .abx 0xFFFF, 7⟩) := rfl

theorem witness_BranchesOnOneFlag :
    branchRow (.bcc 0x7F) = some (0x90, .C, false, 0x7F) ∧ branchRow (.bvs 0x80) = some (0x70, .V, true, 0x80) := by decide

theorem witness_FlagInstructionsWriteOneFlag : flagRow .sed = some (0xF8, .D, true) := by decide

theorem witness_ReadersChangeNoStorage :
    storesNothing (.ldaAbs 0x2002) = true ∧ (∃ t, exec (.ldaAbs 0x2002) plain = .next t) ∧
    isStorage 0x0000 plain = true ∧ isStorage 0x1FFF plain = true ∧ isStorage 0x6000 plain = true ∧ isStorage 0xFFFF plain = true :=
  ⟨rfl, ⟨_, rfl⟩, by decide, by decide, by decide, by decide⟩

theorem witness_RegistersChangeOnlyWhereNamed :
    (∃ t, exec .nop plain = .next t) ∧ Instr.nop.operand ≠ .acc ∧ flagsWritten Instr.nop.mnemonic = [] ∧
    Instr.nop.mnemonic ∉ [.lda, .txa, .tya, .pla, .adc, .sbc, .and, .ora, .eor, .ldx, .tax, .tsx, .inx, .dex, .ldy, .tay, .iny, .dey, .txs, .pha,
      .php, .plp, .jsr, .rts, .brk, .rti, .xxx] :=
  ⟨⟨_, rfl⟩, by decide, rfl, by decide⟩

theorem witness_StoresChangeOneByte :
    (Instr.staAbs 0x1FFF).operand = .mem (.abs 0x1FFF) ∧ (∃ t, exec (.staAbs 0x1FFF) plain = .next t) ∧
    (storeRow (.staAbs 0x1FFF)).isSome = true ∧
    (Instr.incAbs 0x7FFF).operand = .mem (.abs 0x7FFF) ∧ (∃ t, exec (.incAbs 0x7FFF) plain = .next t) ∧
    (Instr.incAbs 0x7FFF).mnemonic ∈ [.inc, .dec, .asl, .lsr, .rol, .ror] ∧
    [0x0000, 0x1FFF, 0x2000, 0x2004, 0x3FFF, 0x4014, 0x5FFF, 0x6000, 0x7FFF, 0x8000].map (fun a => storedByte a plain) =
      [some (.ram, 0), some (.ram, 2047), none, some (.oam, 0), some (.chr, 0), none, none, some (.prgram, 0), some (.prgram, 8191), none] :=
  ⟨rfl, ⟨_, rfl⟩, rfl, rfl, ⟨_, rfl⟩, by decide, by decide⟩

/-- The targets of R85 at the ends of their ranges. -/
theorem witness_WritesReachOneTarget :
    (cpuWrite 0x0000 0x45 plain).ram = [(0, 0x45)] ∧ (cpuWrite 0x1FFF 0x45 plain).ram = [(2047, 0x45)] ∧
    (cpuWrite 0x2000 0x45 plain).ppu.ctrl = 0x45 ∧ (cpuWrite 0x3FFF 0x45 plain).ppu.v = 1 ∧
    (cpuWrite 0x4000 0x45 plain).apu.pulse1.duty = 1 ∧ (cpuWrite 0x4013 0x45 plain).apu.dmc.sampleLen = 0x451 ∧
    (cpuWrite 0x4014 0x45 plain).dma = { active := true, page := 0x45, index := 0x00, dummy := true, data := 0x00 } ∧
    (cpuWrite 0x4015 0x45 plain).apu.tri.enabled = true ∧ (cpuWrite 0x4016 0x45 plain).strobe = true ∧
    (cpuWrite 0x4017 0x45 plain).apu.fs.irqInhibit = true ∧
    cpuWrite 0x4018 0x45 plain = plain ∧ cpuWrite 0x5FFF 0x45 plain = plain ∧
    (cpuWrite 0x6000 0x45 plain).cart.map (·.prgram) = some [(0, 0x45)] ∧ cpuWrite 0xFFFF 0x45 plain = plain ∧
    cpuWrite 0x6000 0x45 State.reset = State.reset :=
  ⟨by decide, by decide, by decide, by decide, by decide, by decide, by decide, by decide, by decide, by decide, rfl, rfl,
   by decide, rfl, rfl⟩

/-- The targets of R84 at the ends of their ranges. -/
theorem witness_ReadsReachOneTarget :
    [0x0000, 0x1FFF, 0x2000, 0x3FFE, 0x4000, 0x4014, 0x4015, 0x4016, 0x4017, 0x4018, 0x5FFF, 0x6000, 0x8000, 0xFFFF].map
      (fun a => (cpuRead a { plain with ram := [(0, 0x07), (2047, 0x08)], strobe := true, pad1 := { state := 0x01, shift := 0x00 } }).1) =
    [0x07, 0x08, 0, 0, 0, 0, 0, 0, 1, 0, 0, 0, 0, 0x90] ∧
    (cpuRead 0xFFFF State.reset).1 = 0x00 ∧ State.reset.cart = none := by decide

theorem witness_StepRunsTheInstructionAtPc :
    let s := State.reset.withFetchWord 16 0x80A9
    runnable s = true ∧ s.sysclk % 3 = 0 ∧ s.dma.active = false ∧ s.cpu.cycRem = 0 ∧ s.cpu.nmiPending = false ∧
    (Instr.ldaImm 0x80).wellFormed = true ∧ (Instr.ldaImm 0x80).opcode ∈ s.cfg.mapped ∧
    (readBytes s.cpu.pc (Instr.ldaImm 0x80).length (apuClock (ppuClock s))).1 = encode (.ldaImm 0x80) := by decide

/-- An XXX, and an opcode that is not `MAPPED`. -/
theorem witness_StepRunsTheInstructionAtPc_xxx :
    let s := State.reset.withFetchWord 8 0x02
    runnable s = true ∧ s.sysclk % 3 = 0 ∧ s.dma.active = false ∧ s.cpu.cycRem = 0 ∧ s.cpu.nmiPending = false ∧
    (Instr.xxx 0x02).wellFormed = true ∧ (Instr.xxx 0x02).mnemonic = .xxx ∧
    (readBytes s.cpu.pc (Instr.xxx 0x02).length (apuClock (ppuClock s))).1 = encode (.xxx 0x02) ∧
    (cpuRead s.cpu.pc (apuClock (ppuClock s))).1 ∉ s.cfg.mapped := by decide

/-- A tick with no slot, a slot under DMA, and a slot that counts down. -/
theorem witness_OtherTicksKeepTheCpu :
    (∃ t, step { plain with sysclk := 1 } = .next t) ∧ (∃ t, step { plain with dma := { plain.dma with active := true } } = .next t) ∧
    (∃ t, step { plain with cpu := { plain.cpu with cycRem := 3 } } = .next t) :=
  ⟨⟨_, rfl⟩, ⟨_, rfl⟩, ⟨_, rfl⟩⟩

theorem witness_TheMachineNeverHalts :
    (∀ c, State.reset.cart = some c → c.valid = true) ∧ (∀ c, plain.cart = some c → c.valid = true) ∧
    ∃ c, ({ plain with cart := plain.cart.map fun c => { c with valid := false } } : State).cart = some c ∧ c.valid = false :=
  ⟨fun _ h => by (cases h), fun _ h => by cases h; rfl, _, rfl, rfl⟩

theorem witness_NmiEntrySavesAndJumps :
    let s := { plain with cpu := { plain.cpu with nmiPending := true } }
    runnable s = true ∧ s.sysclk % 3 = 0 ∧ s.dma.active = false ∧ s.cpu.cycRem = 0 ∧ s.cpu.nmiPending = true := by decide

/-- The tick of (241, 1), and a tick in which a pending NMI must wait. -/
theorem witness_NmiIsRaisedAtVblankOnly :
    (let s := { plain with sysclk := 1, ppu := { plain.ppu with scanline := 241, dot := 1, ctrl := 0x80 } }
     s.ppu.nmiLine = false ∧ s.cpu.nmiPending = false ∧ ∃ t, step s = .next t ∧ t.cpu.nmiPending = true) ∧
    (let s := { plain with sysclk := 1, cpu := { plain.cpu with nmiPending := true } }
     (¬ (s.sysclk % 3 = 0 ∧ s.dma.active = false ∧ s.cpu.cycRem = 0)) ∧ ∃ t, step s = .next t) :=
  ⟨⟨rfl, rfl, _, rfl, rfl⟩, ⟨by decide, _, rfl⟩⟩

theorem witness_StepKeepsRomAndParameters :
    let s := { inserted .nrom 1 [] with cpu := { plain.cpu with diagUnknown := true } }
    (∃ t, step s = .next t) ∧ (∀ c, s.cart = some c → c.header.chrBanks ≠ 0) ∧ s.cpu.diagUnknown = true :=
  ⟨⟨_, rfl⟩, fun _ h => by cases h; decide, rfl⟩

/-- A BRK frame and an NMI frame, each returned from at once. -/
theorem witness_RtiUndoesTheException :
    plain.cfg.stackPage.toNat ≤ 0x1F ∧
    (∃ frame u, exec .brk plain = .next frame ∧ frame.cfg.stackPage = plain.cfg.stackPage ∧ (∀ k < 3, SameStackByte plain frame frame k) ∧
      exec .rti frame = .next u) ∧
    (∃ frame u, enterNmi plain = frame ∧ frame.cfg.stackPage = plain.cfg.stackPage ∧ (∀ k < 3, SameStackByte plain frame frame k) ∧
      exec .rti frame = .next u) :=
  ⟨by decide, ⟨_, _, rfl, rfl, fun _ _ => rfl, rfl⟩, ⟨_, _, rfl, rfl, fun _ _ => rfl, rfl⟩⟩

theorem witness_ReturnsUndoCallsAndPullsUndoPushes :
    plain.cfg.stackPage.toNat ≤ 0x1F ∧
    (∃ t u, exec (.jsr 0xFFFF) plain = .next t ∧ t.cfg.stackPage = plain.cfg.stackPage ∧ SameStackByte plain t t 0 ∧ SameStackByte plain t t 1 ∧
      exec .rts t = .next u) ∧
    (∃ t u, exec .pha plain = .next t ∧ t.cfg.stackPage = plain.cfg.stackPage ∧ SameStackByte plain t t 0 ∧ exec .pla t = .next u) ∧
    (∃ t u, exec .php plain = .next t ∧ t.cfg.stackPage = plain.cfg.stackPage ∧ SameStackByte plain t t 0 ∧ exec .plp t = .next u) :=
  ⟨by decide, ⟨_, _, rfl, rfl, rfl, rfl, rfl⟩, ⟨_, _, rfl, rfl, rfl, rfl⟩, ⟨_, _, rfl, rfl, rfl, rfl⟩⟩

/-- A sound machine other than the reset one, with an MMC1 cartridge, and its step. -/
theorem witness_StepKeepsTheMachineSound :
    let s := { inserted (.mmc1 { mmc1AfterReset with count := 4 }) 2 [(0, 0x4C)] with ram := [(0, 0x01), (2047, 0xFF)] }
    s.Sound ∧ ∃ t, step s = .next t := by
  refine ⟨{ cfg := ?_, unused := by decide, ram := by decide, cart := ?_, ppu := ?_, apu := ?_ }, _, rfl⟩
  · exact { rate := by decide, capacity := by decide, fourStep := by decide, fiveStep := by decide, ram := by decide, prgram := by decide
            vram := by decide, oam := by decide, palette := by decide, chrram := by decide }
  · intro c h
    cases h
    exact { banks := by decide, prg := by decide, chr := by decide, prgram := by decide, serial := fun r h => by cases h; decide }
  · exact { scanline := by decide, dot := by decide, status := by decide, fineX := by decide, snap := rfl
            vram := by decide, pal := by decide, oam := by decide }
  · exact { sequence := by decide, noise := by decide, bits := by decide, phase := by decide, ring := by decide }

/-- The condition on the vector: the default meets it, and so do its bounds. -/
theorem witness_BusResetSetsEveryRegister :
    0x4018 ≤ State.reset.cfg.resetVector.toNat ∧ (0x1FFE : Word).toNat ≤ 0x1FFE ∧ 0x4018 ≤ (0x4018 : Word).toNat ∧
    State.reset.cfg.resetsCpuLast = true := by decide

/-- The two orders of `Bus.reset()` part where the vector is a device's: its high byte at 2004 is OAM's byte at `oam_addr`, which R373 sets to 0;
`oam_addr` is 1 before. The CPU comes last by D23, and before the PPU by R310. -/
theorem test_reset_orders :
    let s := fun last : Bool => { State.reset with
      ppu := { State.reset.ppu with oamAddr := 0x01, oam := [(0, 0x12), (1, 0x34)] }
      cfg := { configAtReset with resetVector := 0x2003, resetsCpuLast := last } }
    (busReset (s true)).cpu.pc = 0x1200 ∧ (busReset (s false)).cpu.pc = 0x3400 ∧
    (busReset (s true)).ppu.oamAddr = 0x00 ∧ (busReset (s false)).ppu.oamAddr = 0x00 := by decide

/-- R83 and R88 at the ends of both ranges, at a mirror and beside it. -/
theorem witness_RamAndPrgRamRoundTrip :
    (cpuRead 0x1FFF (cpuWrite 0x07FF 0x45 plain)).1 = 0x45 ∧ (cpuRead 0x0000 (cpuWrite 0x1800 0x45 plain)).1 = 0x45 ∧
    (cpuRead 0x0001 (cpuWrite 0x0000 0x45 plain)).1 = 0x00 ∧
    (cpuRead 0x6000 (cpuWrite 0x6000 0x45 plain)).1 = 0x45 ∧ (cpuRead 0x7FFF (cpuWrite 0x7FFF 0x45 plain)).1 = 0x45 ∧
    (cpuRead 0x7FFF (cpuWrite 0x6000 0x45 plain)).1 = 0x00 ∧ plain.cart.map (·.mapper) = some .nrom := by decide

/-- PRG bytes at the ends of each window (R460, R461, R464 in each mode, R468). -/
theorem witness_PrgBanksByMapper :
    let prg : Memory := [(0, 0x10), (16383, 0x11), (16384, 0x12), (32767, 0x13), (32768, 0x14), (49152, 0x15), (65535, 0x16)]
    let reads := fun (m : Mapper) (banks : Nat) (l : List Word) => l.map fun a => (cpuRead a (inserted m banks prg)).1
    let mmc1 := fun (control prg : BitVec 5) => Mapper.mmc1 { mmc1AfterReset with control := control, prg := prg }
    reads .nrom 1 [0x8000, 0xBFFF, 0xC000, 0xFFFF] = [0x10, 0x11, 0x10, 0x11] ∧
    reads .nrom 2 [0x8000, 0xBFFF, 0xC000, 0xFFFF] = [0x10, 0x11, 0x12, 0x13] ∧
    reads (.unrom 5) 4 [0x8000, 0xC000, 0xFFFF] = [0x12, 0x15, 0x16] ∧
    reads (mmc1 0x00 0x03) 4 [0x8000, 0xC000, 0xFFFF] = [0x14, 0x15, 0x16] ∧
    reads (mmc1 0x04 0x02) 4 [0x8000, 0xC000, 0xFFFF] = [0x14, 0x15, 0x16] ∧
    reads (mmc1 0x08 0x01) 4 [0x8000, 0xBFFF, 0xC000, 0xFFFF] = [0x10, 0x11, 0x12, 0x13] ∧
    reads (mmc1 0x0C 0x01) 4 [0x8000, 0xBFFF, 0xC000, 0xFFFF] = [0x12, 0x13, 0x15, 0x16] ∧
    reads (.mmc2 { mmc2AfterReset .horizontal with prg := 4 }) 4 [0x8000, 0xC000, 0xFFFF] = [0x14, 0x15, 0x16] := by decide

/-- CHR windows and MMC2's latches at the ends of their ranges (R465, R469, R470). -/
theorem witness_ChrBanksByMapper :
    let latches := fun (a : BitVec 14) => (ppuRead a (inserted (.mmc2 (mmc2AfterReset .horizontal)) 2 [])).2.cart.map (·.mapper)
    let r := mmc2AfterReset .horizontal
    [latches 0x0FD8, latches 0x0FE8, latches 0x1FD8, latches 0x1FDF, latches 0x1FE8, latches 0x1FE0] =
      [some (.mmc2 { r with latch0 := false }), some (.mmc2 r), some (.mmc2 { r with latch1 := false }),
       some (.mmc2 { r with latch1 := false }), some (.mmc2 r), some (.mmc2 r)] ∧
    [0x0000, 0x0FFF, 0x1000, 0x1FFF].map (fun a =>
      (Cartridge.ppuMap { (inserted .nrom 1 []).cart.get rfl with mapper := .mmc1 { mmc1AfterReset with control := 0x10, chr0 := 1 } } a)) =
      [some 0x1000, some 0x1FFF, some 0x0000, some 0x0FFF] := by decide

/-- The registers of R462 and R467 at the ends of their windows. -/
theorem witness_MapperRegistersByAddress :
    let mapperAfter := fun (m : Mapper) (a : Word) (v : Byte) => (cpuWrite a v (inserted m 2 [])).cart.map (·.mapper)
    let r := mmc2AfterReset .horizontal
    let q := mmc1AfterReset
    [mapperAfter .nrom 0x8000 0xFF, mapperAfter (.unrom 0) 0xFFFF 0xFF, mapperAfter (.mmc2 r) 0x9FFF 0xFF, mapperAfter (.mmc2 r) 0xA000 0xFF,
     mapperAfter (.mmc2 r) 0xAFFF 0xFF, mapperAfter (.mmc2 r) 0xB000 0xFF, mapperAfter (.mmc2 r) 0xCFFF 0xFF,
     mapperAfter (.mmc2 r) 0xD000 0xFF, mapperAfter (.mmc2 r) 0xEFFF 0xFF, mapperAfter (.mmc2 r) 0xF000 0x00,
     mapperAfter (.mmc1 { q with count := 2 }) 0x8000 0x80, mapperAfter (.mmc1 q) 0x8000 0x7F] =
    [some .nrom, some (.unrom 0xFF), some (.mmc2 r), some (.mmc2 { r with prg := 0xF }),
     some (.mmc2 { r with prg := 0xF }), some (.mmc2 { r with chrFd0 := 0x1F }), some (.mmc2 { r with chrFe0 := 0x1F }),
     some (.mmc2 { r with chrFd1 := 0x1F }), some (.mmc2 { r with chrFe1 := 0x1F }), some (.mmc2 { r with mirror := false }),
     some (.mmc1 q), some (.mmc1 { q with shift := 0x10, count := 1 })] ∧
    (let five := fun a => cpuWrite a 0x01 (cpuWrite 0xFFFF 0x00 (cpuWrite 0x8000 0x00 (cpuWrite 0xFFFF 0x01 (cpuWrite 0x8000 0x00
        (inserted (.mmc1 q) 2 [])))))
     [0x8000, 0x9FFF, 0xA000, 0xBFFF, 0xC000, 0xDFFF, 0xE000, 0xFFFF].map (fun a => (five a).cart.map (·.mapper)) =
      [some (.mmc1 { q with control := 0x12 }), some (.mmc1 { q with control := 0x12 }), some (.mmc1 { q with chr0 := 0x12 }),
       some (.mmc1 { q with chr0 := 0x12 }), some (.mmc1 { q with chr1 := 0x12 }), some (.mmc1 { q with chr1 := 0x12 }),
       some (.mmc1 { q with prg := 0x12 }), some (.mmc1 { q with prg := 0x12 })] ∧
     (five 0x8000).cart.map (·.mirroring) = some .vertical) := by decide

/-- A write and a step that change the mirroring mode: MMC1's fifth bit, MMC2's last register. -/
theorem witness_MirroringChangesByOverrideOnly :
    (cpuWrite 0x9FFF 0x00 (inserted (.mmc1 { mmc1AfterReset with count := 4 }) 2 [])).cart.map (·.mirroring) = some .singleLower ∧
    (cpuWrite 0xF000 0x00 (inserted (.mmc2 (mmc2AfterReset .horizontal)) 2 [])).cart.map (·.mirroring) = some .vertical ∧
    (match step ((inserted (.mmc1 { mmc1AfterReset with count := 4 }) 2 []).withFetchWord 24 0x9FFF8D) with
      | .next t => t.cart.map (·.mirroring)
      | .fault _ | .refused _ => none) = some .singleLower := by decide

/-- R98 and R99 at the ends of the ranges: the same byte, and another. -/
theorem witness_NametablesAndPaletteRoundTrip :
    let after := fun (a b : BitVec 14) => ppuPeek b (ppuWrite a 0x45 plain)
    [after 0x2000 0x2400, after 0x2000 0x2800, after 0x2BFF 0x3EFF, after 0x2EFF 0x3EFF, after 0x3F00 0x3F10, after 0x3F1C 0x3FEC, after 0x3F01 0x3F11,
     after 0x3FFF 0x3F1F, after 0x3EFF 0x3F00, after 0x3F00 0x3EFF] =
    [0x45, 0x00, 0x00, 0x45, 0x45, 0x45, 0x00, 0x45, 0x00, 0x00] := by decide

theorem witness_PpuStatusReadClearsVblank :
    [0x2002, 0x200A, 0x3FFA].all (fun a : Word => decide (0x2000 ≤ a.toNat ∧ a.toNat ≤ 0x3FFF ∧ a.toNat % 8 = 2)) = true := by decide

/-- Each register at its lowest and its highest address, with the write toggle at 0 and at 1. -/
theorem witness_PpuRegisterWrites :
    ([0x2000, 0x2001, 0x2002, 0x2003, 0x2004, 0x2005, 0x2006].map (fun a : Word => a.toNat % 8) = [0, 1, 2, 3, 4, 5, 6]) ∧
    ([0x3FF8, 0x3FF9, 0x3FFA, 0x3FFB, 0x3FFC, 0x3FFD, 0x3FFE].map (fun a : Word => a.toNat % 8) = [0, 1, 2, 3, 4, 5, 6]) ∧
    plain.ppu.w = false ∧ (cpuWrite 0x2006 0x00 plain).ppu.w = true := by decide

theorem witness_PpuDataPort :
    ([0x2007, 0x3FFF].map (fun a : Word => a.toNat % 8) = [7, 7]) ∧ ([0x2004, 0x3FFC].map (fun a : Word => a.toNat % 8) = [4, 4]) ∧
    [0x2000, 0x2001, 0x2003, 0x2005, 0x3FFE].all (fun a : Word => [0, 1, 3, 5, 6].contains (a.toNat % 8)) = true := by decide

/-- The positions of R330's events and the positions beside them, with the position after the clock, for the picture at (240, 0) or at the frame's
end. -/
theorem witness_PpuEventsByPosition :
    let next := fun (atEnd : Bool) (y d : Nat) =>
      let t := ppuClock { State.reset with
        cfg := { configAtReset with renderAtFrameEnd := atEnd }
        ppu := { State.reset.ppu with scanline := y, dot := d, ctrl := 0x80, status := 0xC0 } }
      (t.ppu.scanline, t.ppu.dot, t.ppu.status, t.ppu.nmiLine)
    [next true 0 0, next true 0 1, next true 239 256, next true 239 257, next true 239 340, next true 240 0, next true 241 0, next true 241 1,
     next true 261 0, next true 261 1, next true 261 339, next false 240 1, next false 261 340] =
    [(0, 1, 0xC0, false), (0, 2, 0xC0, false), (239, 257, 0xC0, false), (239, 258, 0xC0, false), (240, 0, 0xC0, false), (240, 1, 0xC0, false),
     (241, 1, 0xC0, false), (241, 2, 0xC0, true), (261, 1, 0xC0, false), (261, 2, 0x00, false), (261, 340, 0xC0, false), (240, 2, 0xC0, false),
     (0, 0, 0xC0, false)] := by decide

/-- A machine in whose background and sprite 0 every pixel of tile 0 is opaque, with both shown from column 8 on; sprite 0 is at column 8,
scanlines 1 to 8 (R352, R353, R357). -/
def opaqueTiles (y d : Nat) : State :=
  { plain with
    cart := plain.cart.map fun c => { c with chr := (List.range 8).map fun k => (k, 0xFF) }
    ppu := { plain.ppu with
      scanline := y
      dot := d
      oam := [(3, 0x08)]
      snap := List.replicate 240 { t := 0, fineX := 0, ctrl := 0x00, mask := 0x18 } } }

/-- Sprite-zero hits and the positions beside them (R357), and the two positions of the picture (log 13). -/
theorem witness_PpuEventsByPosition_hit :
    let hits := fun (y d : Nat) => (ppuClock (opaqueTiles y d)).ppu.status == 0x40
    [hits 1 9, hits 8 16, hits 4 12, hits 4 8, hits 4 17, hits 0 9, hits 9 9] = [true, true, true, false, false, false, false] ∧
    (let renders := fun (s : State) => if s.cfg.renderAtFrameEnd then s.ppu.scanline = 261 ∧ s.ppu.dot = 340 else s.ppu.scanline = 240 ∧ s.ppu.dot = 0
     renders (opaqueTiles 261 340) ∧ ¬ renders (opaqueTiles 240 0) ∧
     renders { opaqueTiles 240 0 with cfg := { configAtReset with renderAtFrameEnd := false } } ∧
     ¬ renders { opaqueTiles 261 340 with cfg := { configAtReset with renderAtFrameEnd := false } }) := by decide

theorem witness_FramebufferIsThePicture :
    (∀ c r, State.reset.cart = some c → c.mapper ≠ .mmc2 r) ∧ (∀ c r, plain.cart = some c → c.mapper ≠ .mmc2 r) :=
  ⟨fun _ _ h => by (cases h), fun _ _ h => by cases h; intro e; cases e⟩

theorem witness_AFrameIsEveryPositionOnce :
    let last := { plain with cfg := { configAtReset with renderAtFrameEnd := false }, ppu := { plain.ppu with scanline := 261, dot := 340 } }
    last.ppu.scanline ≤ 261 ∧ last.ppu.dot ≤ 340 ∧ runnable last = true ∧ ∃ t, step last = .next t :=
  ⟨by decide, by decide, by decide, _, rfl⟩

/-- The state a write to 4014 leaves, at an even and at an odd slot. -/
theorem witness_OamDmaCopiesAPage :
    [0, 3].all (fun clock =>
      let s := { cpuWrite 0x4014 0x02 plain with sysclk := clock }
      runnable s && s.sysclk % 3 == 0 && s.dma.active && s.dma.dummy && s.dma.index == 0x00 && isStorage 0x02FF s) = true := by decide

theorem witness_ControllersShiftOutTheButtons : (0x01 : Byte).getLsbD 0 = true ∧ (0xFE : Byte).getLsbD 0 = false := by decide

/-- Each channel's registers at the ends of their ranges (R392 to R395), and 4017 in both modes (R398): the last lengths and envelopes are as
R403 and R404 say. -/
theorem witness_ApuRegisterWritesAndStatus :
    let on := cpuWrite 0x4015 0x1F plain
    let after := fun (a : Word) => (cpuWrite a 0xFF on).apu
    (after 0x4000).pulse1.duty = 3 ∧ (after 0x4003).pulse1.length = 30 ∧ (after 0x4004).pulse2.env.volume = 15 ∧
    (after 0x4007).pulse2.timerPeriod = 0x700 ∧ (after 0x4008).tri.linearReloadValue = 127 ∧ (after 0x400B).tri.linearReload = true ∧
    (after 0x400C).noise.env.lengthHalt = true ∧ (after 0x400F).noise.env.start = true ∧ (after 0x4010).dmc.rateIndex = 15 ∧
    (after 0x4013).dmc.sampleLen = 4081 ∧
    (let s := cpuWrite 0x4003 0x08 on
     (cpuWrite 0x4017 0x80 s).apu.pulse1.length = 253 ∧ (cpuWrite 0x4017 0x80 s).apu.pulse1.env.decay = 15 ∧
     (cpuWrite 0x4017 0x00 s).apu.pulse1.length = 254 ∧ (cpuWrite 0x4017 0x00 s).apu.pulse1.env.start = true) := by decide

/-- The counts of R399 and the counts beside them: the counter and the frame-IRQ flag afterwards, in both modes. -/
theorem witness_FrameSequencerSchedule :
    let g := configAtReset
    let after := fun (mode5 : Bool) (count : Nat) =>
      let r := apuFront g { apuAfterReset with fs := { counter := count, phase := true, mode5 := mode5, irqInhibit := false, frameIrq := false } }
      (r.fs.counter, r.fs.frameIrq)
    (g.fsStep1 < g.fsStep2 ∧ g.fsStep2 < g.fsStep3 ∧ g.fsStep3 < g.fs4Wrap ∧ g.fsStep3 < g.fs5Wrap) ∧
    [0, 3728, 7456, 11185, 14914, 14915].map (after false) =
      [(1, false), (3729, false), (7457, false), (11186, false), (14915, false), (0, true)] ∧
    [14915, 18638, 18639].map (after true) = [(14916, false), (18639, false), (0, false)] := by decide

end Sys2Proof.Machine
end

section
/-!
SUPPORT and PROOF. The stack in a page of RAM: what a push and a pull do there, byte by byte, and that a pull takes back what was pushed
(R11, R185 to R188, R216, R217).
-/

namespace Sys2Proof.Machine

/-! ## The stack page in RAM -/

/-- The index in system RAM of a stack address, RAM being mirrored every 2048 bytes (R11, R83). -/
def stackIndex (s : State) (sp : Byte) : Nat :=
  (s.cfg.stackPage.toNat * 256 + sp.toNat) % 2048

theorem sameStackByte_iff (s h t : State) (k : Nat) :
    SameStackByte s h t k ↔
      h.ram.read (stackIndex s (s.cpu.sp - BitVec.ofNat 8 k)) = t.ram.read (stackIndex s (s.cpu.sp - BitVec.ofNat 8 k)) :=
  Iff.rfl

theorem stackIndex_congr {s h : State} (hcfg : h.cfg.stackPage = s.cfg.stackPage) (sp : Byte) : stackIndex h sp = stackIndex s sp := by
  unfold stackIndex
  rw [hcfg]

/-- Two values of S name two places of RAM: a page is smaller than RAM. -/
theorem stackIndex_ne (s : State) {sp q : Byte} (hne : sp ≠ q) : stackIndex s sp ≠ stackIndex s q := by
  have hsp := sp.isLt
  have hq := q.isLt
  have hn : sp.toNat ≠ q.toNat := fun he => hne (BitVec.eq_of_toNat_eq he)
  unfold stackIndex
  omega

theorem stackAddr_toNat (s : State) (sp : Byte) : (stackAddr s sp).toNat = s.cfg.stackPage.toNat * 256 + sp.toNat :=
  wordOf_toNat _ _

theorem stackAddr_in_ram (s : State) (sp : Byte) (hpage : s.cfg.stackPage.toNat ≤ 0x1F) : (stackAddr s sp).toNat ≤ 0x1FFF := by
  have hsp := sp.isLt
  rw [stackAddr_toNat]
  omega

theorem cpuRead_stackAddr (s u : State) (sp : Byte) (hpage : s.cfg.stackPage.toNat ≤ 0x1F) :
    cpuRead (stackAddr s sp) u = (u.ram.read (stackIndex s sp), u) := by
  rw [cpuRead_ram _ _ (stackAddr_in_ram s sp hpage), stackAddr_toNat]
  rfl

theorem cpuWrite_stackAddr (s u : State) (sp v : Byte) (hpage : s.cfg.stackPage.toNat ≤ 0x1F) :
    cpuWrite (stackAddr s sp) v u = { u with ram := u.ram.write (stackIndex s sp) v } := by
  rw [cpuWrite_ram _ _ _ (stackAddr_in_ram s sp hpage), stackAddr_toNat]
  rfl

/-! ## Pushes and pulls in RAM -/

theorem push_in_ram (v : Byte) (s : State) (hpage : s.cfg.stackPage.toNat ≤ 0x1F) :
    push v s = { s.setSp (s.cpu.sp - 1) with ram := s.ram.write (stackIndex s s.cpu.sp) v } := by
  rw [push_eq, cpuWrite_stackAddr s s _ v hpage]
  rfl

theorem pull_in_ram (s : State) (hpage : s.cfg.stackPage.toNat ≤ 0x1F) :
    pull s = (s.ram.read (stackIndex s (s.cpu.sp + 1)), s.setSp (s.cpu.sp + 1)) := by
  rw [pull_eq, cpuRead_stackAddr s s _ hpage]
  rfl

theorem push16_in_ram (w : Word) (s : State) (hpage : s.cfg.stackPage.toNat ≤ 0x1F) :
    push16 w s =
      { s.setSp (s.cpu.sp - 1 - 1) with
        ram := (s.ram.write (stackIndex s s.cpu.sp) (hiByte w)).write (stackIndex s (s.cpu.sp - 1)) (loByte w) } := by
  rw [push16_eq, stackWord, cpuWrite_stackAddr s s _ _ hpage, cpuWrite_stackAddr s _ _ _ hpage]
  rfl

theorem pull16_in_ram (s : State) (hpage : s.cfg.stackPage.toNat ≤ 0x1F) :
    pull16 s =
      (wordOf (s.ram.read (stackIndex s (s.cpu.sp + 1 + 1))) (s.ram.read (stackIndex s (s.cpu.sp + 1))),
        s.setSp (s.cpu.sp + 1 + 1)) := by
  rw [pull16_eq, unstackWord, cpuRead_stackAddr s s _ hpage, cpuRead_stackAddr s s _ hpage]
  rfl

/-! ## A pull takes back what was pushed -/

theorem pull_of_push {s h : State} {v : Byte} (hpage : s.cfg.stackPage.toNat ≤ 0x1F) (hcfg : h.cfg.stackPage = s.cfg.stackPage)
    (hsp : h.cpu.sp = (push v s).cpu.sp) (hkept : SameStackByte s h (push v s) 0) :
    pull h = (v, h.setSp s.cpu.sp) := by
  rw [push_in_ram v s hpage] at hsp hkept
  have hback : h.cpu.sp + 1 = s.cpu.sp := by
    rw [hsp]
    exact BitVec.sub_add_cancel _ _
  have hbyte : h.ram.read (stackIndex s s.cpu.sp) = v := by
    rw [sameStackByte_iff, BitVec.sub_zero, Memory.read_write_same] at hkept
    exact hkept
  rw [pull_in_ram h (hcfg ▸ hpage), hback, stackIndex_congr hcfg, hbyte]

/-- The low byte lies one place below the high byte, so that neither write of the push meets the other. -/
theorem pull16_of_push16 {s h : State} {w : Word} (hpage : s.cfg.stackPage.toNat ≤ 0x1F) (hcfg : h.cfg.stackPage = s.cfg.stackPage)
    (hsp : h.cpu.sp = (push16 w s).cpu.sp) (hhi : SameStackByte s h (push16 w s) 0) (hlo : SameStackByte s h (push16 w s) 1) :
    pull16 h = (w, h.setSp s.cpu.sp) := by
  rw [push16_in_ram w s hpage] at hsp hhi hlo
  have hback : h.cpu.sp + 1 = s.cpu.sp - 1 := by
    rw [hsp]
    exact BitVec.sub_add_cancel _ _
  have hapart : stackIndex s s.cpu.sp ≠ stackIndex s (s.cpu.sp - 1) := stackIndex_ne s (by bv_omega)
  have hhiByte : h.ram.read (stackIndex s s.cpu.sp) = hiByte w := by
    rw [sameStackByte_iff, BitVec.sub_zero, Memory.read_write_other _ _ _ _ hapart, Memory.read_write_same] at hhi
    exact hhi
  have hloByte : h.ram.read (stackIndex s (s.cpu.sp - 1)) = loByte w :=
    ((sameStackByte_iff _ _ _ 1).mp hlo).trans (Memory.read_write_same _ _ _)
  rw [pull16_in_ram h (hcfg ▸ hpage), hback, BitVec.sub_add_cancel, stackIndex_congr hcfg, stackIndex_congr hcfg, hhiByte, hloByte,
    wordOf_hiByte_loByte]

/-- A status byte that an instruction pushed has U set already (R186, R188). -/
theorem pulledStatus_pushedByInstruction (p : Byte) : pulledStatus (pushedByInstruction p) = p ||| 0x30 := by
  rw [pulledStatus, pushedByInstruction, BitVec.or_assoc]
  rfl

/-! ## The three pairs of instructions -/

section Pairs

variable {s t h u : State} (hpage : s.cfg.stackPage.toNat ≤ 0x1F) (hcfg : h.cfg.stackPage = s.cfg.stackPage)
  (hsp : h.cpu.sp = t.cpu.sp) (hkept : SameStackByte s h t 0)
include hpage hcfg hsp hkept

theorem rts_undoes_jsr {a : Word} (hlo : SameStackByte s h t 1) (hjsr : exec (.jsr a) s = .next t) (hrts : exec .rts h = .next u) :
    u.cpu.sp = s.cpu.sp ∧ u.cpu.pc = s.cpu.pc + 3 := by
  obtain rfl := Host.Outcome.next.inj hjsr
  obtain rfl := Host.Outcome.next.inj hrts
  have hpull : pull16 (h.advance 1) = (s.cpu.pc + 3 - 1, (h.advance 1).setSp s.cpu.sp) :=
    pull16_of_push16 (s := s.advance 3) hpage hcfg hsp hkept hlo
  simp only [implied, returnFromSubroutine, hpull, State.setCycRem_cpu, State.setPc_cpu, State.setSp_cpu, BitVec.sub_add_cancel, and_self]

theorem pla_undoes_pha (hpha : exec .pha s = .next t) (hpla : exec .pla h = .next u) :
    u.cpu.sp = s.cpu.sp ∧ u.cpu.a = s.cpu.a := by
  obtain rfl := Host.Outcome.next.inj hpha
  obtain rfl := Host.Outcome.next.inj hpla
  have hpull : pull (h.advance 1) = (s.cpu.a, (h.advance 1).setSp s.cpu.sp) := pull_of_push (s := s.advance 1) hpage hcfg hsp hkept
  simp only [implied, pullA, hpull, State.setRegZN_eq, State.setReg_a, State.setCycRem_cpu, State.setA_cpu, State.setSp_cpu, and_self]

theorem plp_undoes_php (hphp : exec .php s = .next t) (hplp : exec .plp h = .next u) :
    u.cpu.sp = s.cpu.sp ∧ u.cpu.p = s.cpu.p ||| 0x30 := by
  obtain rfl := Host.Outcome.next.inj hphp
  obtain rfl := Host.Outcome.next.inj hplp
  have hpull : pull (h.advance 1) = (pushedByInstruction s.cpu.p, (h.advance 1).setSp s.cpu.sp) :=
    pull_of_push (s := s.advance 1) hpage hcfg hsp hkept
  simp only [implied, pullP, hpull, State.setCycRem_cpu, State.setP_cpu, State.setSp_cpu, pulledStatus_pushedByInstruction, and_self]

end Pairs

/-- Settles O40: each pull reads the places its push wrote, which lie apart in RAM. -/
theorem returnsUndoCallsAndPullsUndoPushes : Obligations.ReturnsUndoCallsAndPullsUndoPushes := by
  unfold Obligations.ReturnsUndoCallsAndPullsUndoPushes
  intro s t h u a hpage hcfg hsp hkept
  exact ⟨rts_undoes_jsr hpage hcfg hsp hkept, pla_undoes_pha hpage hcfg hsp hkept, plp_undoes_php hpage hcfg hsp hkept⟩

end Sys2Proof.Machine
end

section
/-!
SUPPORT and PROOF. One master tick keeps the invariant: the CPU slot, the tick, the step (R300, R302).
-/

namespace Sys2Proof.Machine

theorem andThen_eq_next {o : Host.Outcome State Fault Refusal} {f : State → State} {t : State} (h : andThen o f = .next t) :
    ∃ u, o = .next u ∧ f u = t := by
  cases o with
  | next u => exact ⟨u, rfl, Host.Outcome.next.inj h⟩
  | fault r => cases h
  | refused r => cases h

theorem cpuSlot_sound (s t : State) (h : s.Sound) (hslot : cpuSlot s = .next t) : t.Sound := by
  have hapu := apuClock_sound s h
  unfold cpuSlot at hslot
  simp only at hslot
  split at hslot
  · obtain rfl := Host.Outcome.next.inj hslot
    exact dmaStep_sound _ hapu
  · exact cpuClock_sound _ t hapu hslot

theorem busClock_sound (s t : State) (h : s.Sound) (hclock : busClock s = .next t) : t.Sound := by
  have hppu := ppuClock_sound s h
  obtain ⟨u, hslot, rfl⟩ := andThen_eq_next hclock
  refine endTick_sound u ?_
  split at hslot
  · exact cpuSlot_sound _ u hppu hslot
  · obtain rfl := Host.Outcome.next.inj hslot
    exact hppu

theorem step_sound (s t : State) (h : s.Sound) (hstep : step s = .next t) : t.Sound := by
  unfold step at hstep
  split at hstep
  · exact busClock_sound s t h hstep
  · cases hstep

/-- Settles O41: each part of a tick keeps the invariant, and so does the tick. -/
theorem stepKeepsTheMachineSound : Obligations.StepKeepsTheMachineSound := by
  unfold Obligations.StepKeepsTheMachineSound
  exact step_sound

end Sys2Proof.Machine
end

section
/-!
SUPPORT and PROOF. Registers and flags change only by the instructions whose rules name them (R21 to R25): a value read off the CPU that sees
nothing of what a rule names is kept by its instruction. The case split over the mnemonics is made once, for any such value; each register and
each flag is then one value of that kind.
-/

namespace Sys2Proof.Machine

/-! ## The CPU after each stack operation -/

@[simp] theorem push_cpu (v : Byte) (s : State) : (push v s).cpu = { s.cpu with sp := s.cpu.sp - 1 } := by
  rw [push_eq]

@[simp] theorem pull_cpu (s : State) : (pull s).2.cpu = { s.cpu with sp := s.cpu.sp + 1 } := by
  rw [pull_eq]

@[simp] theorem push16_cpu (w : Word) (s : State) : (push16 w s).cpu = { s.cpu with sp := s.cpu.sp - 1 - 1 } := by
  rw [push16_eq]

@[simp] theorem pull16_cpu (s : State) : (pull16 s).2.cpu = { s.cpu with sp := s.cpu.sp + 1 + 1 } := by
  rw [pull16_eq]

/-! ## The flags each status computation leaves alone -/

theorem setFlag_kept {p : Byte} {f : Flag} {b : Bool} : ∀ g ∉ [f], getFlag (setFlag p f b) g = getFlag p g := by
  intro g hg
  rw [getFlag_setFlag, if_neg (by simpa [eq_comm] using hg)]

theorem setZN_kept {p v : Byte} : ∀ g ∉ [Flag.Z, .N], getFlag (setZN p v) g = getFlag p g := by
  intro g hg
  cases g <;> simp at hg ⊢

theorem addFlags_kept {p : Byte} {r : AddResult} : ∀ g ∉ [Flag.C, .V, .Z, .N], getFlag (addFlags p r) g = getFlag p g := by
  intro g hg
  cases g <;> simp at hg ⊢

theorem compareFlags_kept {p r m : Byte} : ∀ g ∉ [Flag.C, .Z, .N], getFlag (compareFlags p r m) g = getFlag p g := by
  intro g hg
  cases g <;> simp at hg ⊢

theorem shiftFlags_kept {p : Byte} {r : ShiftResult} : ∀ g ∉ [Flag.C, .Z, .N], getFlag (shiftFlags p r) g = getFlag p g := by
  intro g hg
  cases g <;> simp at hg ⊢

theorem bitFlags_kept {p a m : Byte} : ∀ g ∉ [Flag.Z, .N, .V], getFlag (bitFlags p a m) g = getFlag p g := by
  intro g hg
  cases g <;> simp at hg ⊢

theorem brkStatus_kept {p : Byte} :
    ∀ g ∉ [Flag.B, .U, .I], getFlag (setFlag (pushedByInstruction p) .I true) g = getFlag p g := by
  intro g hg
  cases g <;> simp at hg ⊢

/-! ## What a rule names -/

/-- The mnemonics whose rules name register `r` in every addressing mode (R171 to R212). -/
def regWriters (r : Reg) : List Mnemonic :=
  match r with
  | .a => [.lda, .txa, .tya, .pla, .adc, .sbc, .and, .ora, .eor]
  | .x => [.ldx, .tax, .tsx, .inx, .dex]
  | .y => [.ldy, .tay, .iny, .dey]

/-- The mnemonics whose rules name S (R182, R185 to R188, R216, R217, R238, R239). -/
def spWriters : List Mnemonic :=
  [.txs, .pha, .php, .pla, .plp, .jsr, .rts, .brk, .rti]

/-- The value `g` of the CPU sees nothing that the rule of a mnemonic over an operand names, and none of PC, the count-down and the diagnostic
bit. -/
structure Unnamed {α : Type} (g : Cpu → α) (m : Mnemonic) (o : Operand) : Prop where
  pc : ∀ c v, g { c with pc := v } = g c
  cycRem : ∀ c n, g { c with cycRem := n } = g c
  diag : ∀ c b, g { c with diagUnknown := b } = g c
  reg : ∀ r, m ∈ regWriters r → ∀ (s : State) v, g (s.setReg r v).cpu = g s.cpu
  acc : o = .acc → ∀ c v, g { c with a := v } = g c
  sp : m ∈ spWriters → ∀ c v, g { c with sp := v } = g c
  flags : ∀ c q, (∀ f ∉ flagsWritten m, getFlag q f = getFlag c.p f) → g { c with p := q } = g c

/-- The operation of a shape keeps the value `g` of the CPU. -/
def Shape.FixesCpu {α : Type} (g : Cpu → α) (sh : Shape) : Prop :=
  match sh with
  | .source f _ => ∀ b u, g (f b u).cpu = g u.cpu
  | .modify f _ => ∀ b c, g { c with p := (f b c.p).2 } = g c
  | .implied f => ∀ u, g (f u).cpu = g u.cpu
  | .call _ => ∀ c v, g { c with sp := v } = g c
  | .store _ _ | .jump _ | .jumpIndirect _ | .branch _ _ _ => True

section Value

variable {α : Type} {g : Cpu → α} {m : Mnemonic} {o : Operand} (h : Unnamed g m o)
include h

/-- Around its operation a shape moves PC and the count-down, reads and writes, and nothing else. -/
theorem Unnamed.keeps_run (sh : Shape) (hf : sh.FixesCpu g) (base : Nat) (s : State) : g (sh.run base s).cpu = g s.cpu := by
  have hadvance : ∀ n, g (s.advance n).cpu = g s.cpu := fun n => h.pc s.cpu _
  cases sh with
  | source f src =>
    have hread : g (readSource src (s.advance src.operand.length)).state.cpu = g s.cpu := by
      rw [readSource_cpu]
      exact hadvance _
    exact (h.cycRem _ _).trans ((hf _ _).trans hread)
  | store r mode =>
    refine (h.cycRem _ _).trans ?_
    rw [effective_state, cpuWrite_cpu]
    exact hadvance _
  | modify f mode =>
    refine (h.cycRem _ _).trans ?_
    rw [effective_state, State.setP_cpu, cpuWrite_cpu, cpuRead_cpu]
    exact (hf _ _).trans (hadvance _)
  | implied f => exact (h.cycRem _ _).trans ((hf _).trans (hadvance 1))
  | jump a => exact (h.cycRem _ _).trans ((h.pc _ _).trans (hadvance 3))
  | jumpIndirect a =>
    refine (h.cycRem _ _).trans ((h.pc _ _).trans ?_)
    rw [indirectTarget_cpu]
    exact hadvance 3
  | call a =>
    refine (h.cycRem _ _).trans ((h.pc _ _).trans ?_)
    rw [push16_cpu]
    exact (hf _ _).trans (hadvance 3)
  | branch f want d =>
    show g (Machine.branch f want base d s).cpu = g s.cpu
    unfold Machine.branch
    simp only
    split
    · exact (h.cycRem _ _).trans ((h.pc _ _).trans (hadvance 2))
    · exact (h.cycRem _ _).trans (hadvance 2)

theorem Unnamed.keeps_setRegZN {r : Reg} (hr : m ∈ regWriters r) (hm : flagsWritten m = [.Z, .N]) (v : Byte) (s : State) :
    g (s.setRegZN r v).cpu = g s.cpu := by
  have hp : g { (s.setReg r v).cpu with p := setZN (s.setReg r v).cpu.p v } = g (s.setReg r v).cpu :=
    h.flags _ _ (hm ▸ setZN_kept)
  have hsame : (s.setReg r v).cpu.p = s.cpu.p := by cases r <;> rfl
  rw [hsame] at hp
  exact hp.trans (h.reg r hr s v)

theorem Unnamed.keeps_addToA (hr : m ∈ regWriters .a) (hm : flagsWritten m = [.C, .V, .Z, .N]) (v : Byte) (s : State) :
    g (addToA v s).cpu = g s.cpu :=
  (h.flags (s.setA (addWithCarry s.cpu.a v (s.flag .C)).result).cpu _ (hm ▸ addFlags_kept)).trans (h.reg .a hr s _)

theorem Unnamed.keeps_putFlag {f : Flag} (hm : flagsWritten m = [f]) (b : Bool) (s : State) : g (s.putFlag f b).cpu = g s.cpu :=
  h.flags s.cpu _ (hm ▸ setFlag_kept)

theorem Unnamed.keeps_push (hs : m ∈ spWriters) (v : Byte) (s : State) : g (push v s).cpu = g s.cpu := by
  rw [push_cpu]
  exact h.sp hs _ _

theorem Unnamed.keeps_pull (hs : m ∈ spWriters) (s : State) : g (pull s).2.cpu = g s.cpu := by
  rw [pull_cpu]
  exact h.sp hs _ _

theorem Unnamed.keeps_pull16 (hs : m ∈ spWriters) (s : State) : g (pull16 s).2.cpu = g s.cpu := by
  rw [pull16_cpu]
  exact h.sp hs _ _

theorem Unnamed.keeps_takeBrk (hs : m ∈ spWriters) (hm : flagsWritten m = [.B, .U, .I]) (s : State) :
    g (takeException .brk s).cpu = g s.cpu := by
  rw [takeException_eq]
  have hp := h.flags s.cpu (setFlag (Event.brk.liveStatus s.cpu.p) .I true) (hm ▸ brkStatus_kept)
  exact (h.pc _ _).trans ((h.sp hs _ _).trans hp)

/-- A status byte pulled whole: the rules of PLP and RTI name all eight flags. -/
theorem Unnamed.keeps_setP_whole (hm : flagsWritten m = [.C, .Z, .I, .D, .B, .U, .V, .N]) (q : Byte) (s : State) :
    g (s.setP q).cpu = g s.cpu := by
  refine h.flags s.cpu q fun f hf => absurd ?_ hf
  rw [hm]
  cases f <;> decide

theorem Unnamed.fixes_shiftShape (hm : flagsWritten m = [.C, .Z, .N]) (f : Byte → Byte → ShiftResult) : (shiftShape f o).FixesCpu g := by
  cases o with
  | acc =>
    intro u
    have hp := h.flags (u.setA (f u.cpu.a u.cpu.p).result).cpu (shiftFlags u.cpu.p (f u.cpu.a u.cpu.p)) (hm ▸ shiftFlags_kept)
    exact hp.trans (h.acc rfl u.cpu _)
  | imp | imm _ | mem _ | rel _ | ind _ => exact fun b c => h.flags c _ (hm ▸ shiftFlags_kept)

theorem Unnamed.fixes_shapeOf : (shapeOf m o).FixesCpu g := by
  cases m with
  | lda | and | ora | eor => exact fun b u => h.keeps_setRegZN (r := .a) (by decide) rfl _ u
  | ldx => exact fun b u => h.keeps_setRegZN (r := .x) (by decide) rfl _ u
  | ldy => exact fun b u => h.keeps_setRegZN (r := .y) (by decide) rfl _ u
  | adc | sbc => exact fun b u => h.keeps_addToA (by decide) rfl _ u
  | bit => exact fun b u => h.flags u.cpu _ bitFlags_kept
  | cmp | cpx | cpy => exact fun b u => h.flags u.cpu _ compareFlags_kept
  | inc | dec => exact fun b c => h.flags c _ setZN_kept
  | asl | lsr | rol | ror => exact h.fixes_shiftShape rfl _
  | sta | stx | sty | bcc | bcs | bne | beq | bpl | bmi | bvc | bvs => exact True.intro
  | jmp => cases o <;> exact True.intro
  | jsr => exact h.sp (by decide)
  | txa | tya => exact fun u => h.keeps_setRegZN (r := .a) (by decide) rfl _ u
  | tax | tsx | inx | dex => exact fun u => h.keeps_setRegZN (r := .x) (by decide) rfl _ u
  | tay | iny | dey => exact fun u => h.keeps_setRegZN (r := .y) (by decide) rfl _ u
  | txs => exact fun u => h.sp (by decide) u.cpu _
  | pha | php => exact fun u => h.keeps_push (by decide) _ u
  | pla => exact fun u => (h.keeps_setRegZN (r := .a) (by decide) rfl _ _).trans (h.keeps_pull (by decide) u)
  | plp => exact fun u => (h.keeps_setP_whole rfl _ _).trans (h.keeps_pull (by decide) u)
  | rts => exact fun u => (h.pc _ _).trans (h.keeps_pull16 (by decide) u)
  | rti =>
    intro u
    have hsp : Mnemonic.rti ∈ spWriters := by decide
    exact (h.pc _ _).trans ((h.keeps_pull16 hsp _).trans ((h.keeps_setP_whole rfl _ _).trans (h.keeps_pull hsp u)))
  | brk => exact h.keeps_takeBrk (by decide) rfl
  | clc | sec | cli | sei | clv | cld | sed => exact h.keeps_putFlag rfl _
  | nop => exact fun u => rfl
  | xxx => exact fun u => h.diag u.cpu true

end Value

/-- An instruction keeps what sees nothing of what its rule names. -/
theorem exec_keeps_unnamed {α : Type} {g : Cpu → α} {i : Instr} {s t : State} (h : Unnamed g i.mnemonic i.operand)
    (hexec : exec i s = .next t) : g t.cpu = g s.cpu := by
  rw [exec_shape] at hexec
  obtain rfl := Host.Outcome.next.inj hexec
  exact h.keeps_run _ h.fixes_shapeOf _ s

/-! ## Each register and each flag -/

theorem unnamed_reg {m : Mnemonic} {o : Operand} (q : Reg) (hm : m ∉ regWriters q) (ho : q = .a → o ≠ .acc) :
    Unnamed (fun c => c.get q) m o where
  pc _ _ := by cases q <;> rfl
  cycRem _ _ := by cases q <;> rfl
  diag _ _ := by cases q <;> rfl
  reg r hr s v := State.reg_setReg_other s r q v fun hq => hm (hq ▸ hr)
  acc hacc _ _ := by
    cases q with
    | a => exact absurd hacc (ho rfl)
    | x | y => rfl
  sp _ _ _ := by cases q <;> rfl
  flags _ _ _ := by cases q <;> rfl

theorem unnamed_sp {m : Mnemonic} {o : Operand} (hs : m ∉ spWriters) : Unnamed Cpu.sp m o where
  pc _ _ := rfl
  cycRem _ _ := rfl
  diag _ _ := rfl
  reg r _ _ _ := by cases r <;> rfl
  acc _ _ _ := rfl
  sp hm := absurd hm hs
  flags _ _ _ := rfl

theorem unnamed_flag {m : Mnemonic} {o : Operand} {f : Flag} (hf : f ∉ flagsWritten m) : Unnamed (fun c => getFlag c.p f) m o where
  pc _ _ := rfl
  cycRem _ _ := rfl
  diag _ _ := rfl
  reg r _ _ _ := by cases r <;> rfl
  acc _ _ _ := rfl
  sp _ _ _ := rfl
  flags _ _ hkept := hkept f hf

/-- Settles O29: each register and each flag sees only itself; the latches are `exec_latches`, the clock and the parameters are no part of the
CPU. -/
theorem registersChangeOnlyWhereNamed : Obligations.RegistersChangeOnlyWhereNamed := by
  unfold Obligations.RegistersChangeOnlyWhereNamed
  intro i s t hexec
  obtain ⟨hnmi, hdiag⟩ := exec_latches i s t hexec
  refine ⟨fun ha hacc => exec_keeps_unnamed (unnamed_reg .a ha fun _ => hacc) hexec,
    fun hx => exec_keeps_unnamed (unnamed_reg .x hx nofun) hexec, fun hy => exec_keeps_unnamed (unnamed_reg .y hy nofun) hexec,
    fun hs => exec_keeps_unnamed (unnamed_sp hs) hexec, fun f hf => exec_keeps_unnamed (unnamed_flag hf) hexec, hnmi, fun hm => ?_, ?_, ?_⟩
  · rw [hdiag, decide_eq_false hm, Bool.false_or]
  · exact exec_keeps State.sysclk (fun _ => rfl) (fun _ _ => rfl) i s t (fun _ => cpuWrite_sysclk) hexec
  · exact exec_keeps State.cfg (fun _ => rfl) (fun _ _ => rfl) i s t (fun _ => cpuWrite_cfg) hexec

end Sys2Proof.Machine
end

section
/-!
SUPPORT and PROOF. Where each CPU address leads (R81 to R89 of 20_memory.md): region by region, what a write changes and what a read answers and
changes. A statement that runs through all the targets of a write is `cpuWrite_keeps`.
-/

namespace Sys2Proof.Machine

/-! ## Writes by region -/

/-- A PPU write reaches the PPU's memories and the cartridge, nothing else (R97, R458). -/
theorem ppuWrite_rest (a : BitVec 14) (v : Byte) (s : State) :
    ppuWrite a v s = { s with ppu := (ppuWrite a v s).ppu, cart := (ppuWrite a v s).cart } := by
  unfold ppuWrite
  split
  · rfl
  · split
    · rfl
    · split <;> rfl

/-- So does a write of a PPU register, which is one of the PPU's own or the data port (R334, R343). -/
theorem ppuRegWrite_rest (r : Nat) (v : Byte) (s : State) :
    ppuRegWrite r v s = { s with ppu := (ppuRegWrite r v s).ppu, cart := (ppuRegWrite r v s).cart } := by
  unfold ppuRegWrite
  split
  case h_7 =>
    unfold writeData
    rw [ppuWrite_rest]
  all_goals rfl

theorem cpuWrite_dma (v : Byte) (s : State) : cpuWrite 0x4014 v s = dmaTrigger v s := by
  rw [cpuWrite_low _ _ _ (by decide)]
  rfl

theorem cpuWrite_strobe (v : Byte) (s : State) : cpuWrite 0x4016 v s = writeStrobe v s := by
  rw [cpuWrite_low _ _ _ (by decide)]
  rfl

theorem cpuWrite_apu (a : Word) (v : Byte) (s : State) (h1 : 0x4000 ≤ a.toNat) (h2 : a.toNat ≤ 0x4017) (hdma : a ≠ 0x4014)
    (hstrobe : a ≠ 0x4016) : cpuWrite a v s = { s with apu := apuRegWrite a.toNat v s.apu } := by
  rw [cpuWrite_low _ _ _ (by omega), busWrite, if_neg (by omega), if_neg (by omega), if_neg hdma, if_neg hstrobe, if_pos h2]

theorem cpuWrite_unmapped (a : Word) (v : Byte) (s : State) (h1 : 0x4018 ≤ a.toNat) (h2 : a.toNat ≤ 0x5FFF) : cpuWrite a v s = s := by
  rw [cpuWrite_low _ _ _ (by omega), busWrite_high _ _ _ h1]

/-- From 6000 on the cartridge alone sees a write, and what it does not take is discarded (R81, R89). -/
theorem cpuWrite_cartridge (a : Word) (v : Byte) (s : State) (h : 0x6000 ≤ a.toNat) :
    cpuWrite a v s = { s with cart := s.cart.map fun c => (c.cpuWrite a v).getD c } := by
  have hbus : busWrite a v s = s := busWrite_high a v s (by omega)
  cases hs : s.cart with
  | none =>
    simp only [cpuWrite, hs, Option.bind_none, hbus, Option.map_none]
    rw [← hs]
  | some c =>
    cases hw : c.cpuWrite a v with
    | none =>
      simp only [cpuWrite, hs, Option.bind_some, hw, hbus, Option.map_some, Option.getD_none]
      rw [← hs]
    | some d => simp only [cpuWrite, hs, Option.bind_some, hw, Option.map_some, Option.getD_some]

/-- The strobe is written, and while it is or was high both controllers latch their masks (R307). -/
theorem writeStrobe_eq (v : Byte) (s : State) :
    writeStrobe v s =
      { s with
        strobe := v.getLsbD 0
        pad0 := { s.pad0 with shift := if v.getLsbD 0 || s.strobe then s.pad0.state else s.pad0.shift }
        pad1 := { s.pad1 with shift := if v.getLsbD 0 || s.strobe then s.pad1.state else s.pad1.shift } } := by
  cases hlatch : v.getLsbD 0 || s.strobe <;> simp only [writeStrobe, hlatch, if_true, Bool.false_eq_true, if_false]

/-- What a PPU write keeps: what the PPU and a cartridge's side of the write do not touch. -/
theorem ppuWrite_keeps {α : Type} (f : State → α) (hp : ∀ u p, f { u with ppu := p } = f u)
    (hchr : ∀ (u : State) c d a v, u.cart = some c → c.ppuWrite a v = some d → f { u with cart := some d } = f u)
    (a : BitVec 14) (v : Byte) (s : State) : f (ppuWrite a v s) = f s := by
  unfold ppuWrite
  split
  · next d hd =>
    obtain ⟨c, hc, hw⟩ := Option.bind_eq_some_iff.mp hd
    exact hchr s c d a v hc hw
  · split
    · rfl
    · split <;> exact hp s _

theorem ppuRegWrite_keeps {α : Type} (f : State → α) (hp : ∀ u p, f { u with ppu := p } = f u)
    (hchr : ∀ (u : State) c d a v, u.cart = some c → c.ppuWrite a v = some d → f { u with cart := some d } = f u)
    (r : Nat) (v : Byte) (s : State) : f (ppuRegWrite r v s) = f s := by
  unfold ppuRegWrite
  split
  case h_7 => exact (hp _ _).trans (ppuWrite_keeps f hp hchr _ v s)
  case h_8 => rfl
  all_goals exact hp s _

/-- What a CPU write keeps: what none of its targets touches. -/
theorem cpuWrite_keeps {α : Type} (f : State → α) (hram : ∀ u m, f { u with ram := m } = f u) (hp : ∀ u p, f { u with ppu := p } = f u)
    (hd : ∀ u d, f { u with dma := d } = f u) (ha : ∀ u a, f { u with apu := a } = f u) (hs : ∀ v u, f (writeStrobe v u) = f u)
    (hchr : ∀ (u : State) c d a v, u.cart = some c → c.ppuWrite a v = some d → f { u with cart := some d } = f u)
    (hcart : ∀ (u : State) c d a v, u.cart = some c → c.cpuWrite a v = some d → f { u with cart := some d } = f u)
    (a : Word) (v : Byte) (s : State) : f (cpuWrite a v s) = f s := by
  unfold cpuWrite
  split
  · next d h =>
    obtain ⟨c, hc, hw⟩ := Option.bind_eq_some_iff.mp h
    exact hcart s c d a v hc hw
  · unfold busWrite
    split
    · exact hram s _
    · split
      · exact ppuRegWrite_keeps f hp hchr _ v s
      · split
        · exact hd s _
        · split
          · exact hs v s
          · split
            · exact ha s _
            · rfl

/-! ## Reads by region -/

theorem cpuRead_status (s : State) : cpuRead 0x4015 s = apuStatusRead s := by
  rw [cpuRead_low _ _ (by decide)]
  rfl

theorem cpuRead_pad0 (s : State) : cpuRead 0x4016 s = readPad0 s := by
  rw [cpuRead_low _ _ (by decide)]
  rfl

theorem cpuRead_pad1 (s : State) : cpuRead 0x4017 s = readPad1 s := by
  rw [cpuRead_low _ _ (by decide)]
  rfl

/-- Above the PPU's registers and beside the three readable ones, what no cartridge claims reads as 00 (R89). -/
theorem busRead_unmapped (a : Word) (s : State) (h : 0x4000 ≤ a.toNat) (hne : a.toNat < 0x4015 ∨ 0x4017 < a.toNat) :
    busRead a s = (0x00, s) := by
  have apart : ∀ b : Word, 0x4015 ≤ b.toNat → b.toNat ≤ 0x4017 → a ≠ b := by
    rintro b h1 h2 rfl
    omega
  rw [busRead, if_neg (by omega), if_neg (by omega), if_neg (apart _ (by decide) (by decide)), if_neg (apart _ (by decide) (by decide)),
    if_neg (apart _ (by decide) (by decide))]

theorem cpuRead_unmapped (a : Word) (s : State) (h : 0x4000 ≤ a.toNat) (hne : a.toNat < 0x4015 ∨ 0x4017 < a.toNat)
    (hlow : a.toNat ≤ 0x5FFF) : cpuRead a s = (0x00, s) := by
  rw [cpuRead_low _ _ (by omega), busRead_unmapped a s h hne]

theorem cpuRead_noCartridge (a : Word) (s : State) (h : 0x6000 ≤ a.toNat) (hs : s.cart = none) : cpuRead a s = (0x00, s) := by
  unfold cpuRead
  rw [hs, Option.bind_none]
  exact busRead_unmapped a s (by omega) (by omega)

/-- The bit that enters a controller's shift register (R308). -/
theorem shiftFill_eq (fill : Bool) : (BitVec.ofBool fill).setWidth 8 <<< 7 = if fill then (0x80 : Byte) else 0x00 := by
  cases fill <;> decide

/-! ## The two obligations -/

/-- Settles O31: each clause is the write's lemma for its region. -/
theorem writesReachOneTarget : Obligations.WritesReachOneTarget := by
  unfold Obligations.WritesReachOneTarget
  intro a v s
  refine ⟨cpuWrite_ram a v s, fun h1 h2 => ?_, fun h => ?_, fun h => ?_, fun h1 h2 hdma hstrobe => ?_, cpuWrite_unmapped a v s, fun h => ?_,
    fun h hs => ?_⟩
  · rw [cpuWrite_ppuReg a v s h1 h2]
    exact ⟨rfl, ppuRegWrite_rest _ v s⟩
  · obtain rfl : a = 0x4014 := BitVec.eq_of_toNat_eq h
    exact cpuWrite_dma v s
  · obtain rfl : a = 0x4016 := BitVec.eq_of_toNat_eq h
    rw [cpuWrite_strobe, writeStrobe_eq]
  · exact cpuWrite_apu a v s h1 h2 (fun ha => hdma (ha ▸ rfl)) (fun ha => hstrobe (ha ▸ rfl))
  · rw [cpuWrite_cartridge a v s h]
  · rw [cpuWrite_cartridge a v s h, hs, Option.map_none, ← hs]

/-- Settles O32: each clause is the read's lemma for its region. -/
theorem readsReachOneTarget : Obligations.ReadsReachOneTarget := by
  unfold Obligations.ReadsReachOneTarget
  intro a s
  refine ⟨cpuRead_ram a s, cpuRead_ppuReg a s, fun h => ?_, fun h => ?_, fun h => ?_, fun h1 h2 => ?_, fun h1 h2 => ?_, fun h => ?_,
    fun h hs => ?_⟩
  · obtain rfl : a = 0x4015 := BitVec.eq_of_toNat_eq h
    exact cpuRead_status s
  · obtain rfl : a = 0x4016 := BitVec.eq_of_toNat_eq h
    rw [cpuRead_pad0, readPad0, padBit, shiftPad, shiftFill_eq]
    split <;> rfl
  · obtain rfl : a = 0x4017 := BitVec.eq_of_toNat_eq h
    rw [cpuRead_pad1, readPad1, padBit, shiftPad, shiftFill_eq]
    split <;> rfl
  · exact cpuRead_unmapped a s h1 (by omega) (by omega)
  · exact cpuRead_unmapped a s (by omega) (by omega) h2
  · exact cpuRead_high_state a s (by omega)
  · rw [cpuRead_noCartridge a s h hs]

end Sys2Proof.Machine
end

section
/-!
SUPPORT and PROOF. What no step changes (R88, R309, R456, R458, R273): a cartridge with all that can change in it put to a constant is kept by
every write, and so by every step; the diagnostic bit is followed through the forms of a step.
-/

namespace Sys2Proof.Machine

/-- The cartridge with all that the machine can change put to a constant: CHR-RAM, PRG-RAM, the mapper's registers and the mirroring. Two
cartridges that agree here have one header and validity, one PRG, and one CHR-ROM where they have any. -/
def Cartridge.rom (c : Cartridge) : Cartridge :=
  { c with
    chr := if c.header.chrBanks = 0 then [] else c.chr
    prgram := []
    mirroring := .horizontal
    mapper := .unsupported }

theorem Cartridge.cpuWrite_rom {c d : Cartridge} {a : Word} {v : Byte} (h : c.cpuWrite a v = some d) : d.rom = c.rom := by
  obtain ⟨hheader, hprg, hchr, hvalid⟩ := Cartridge.cpuWrite_kept c d a v h
  simp only [Cartridge.rom, hheader, hprg, hchr, hvalid]

/-- CHR-RAM takes a PPU write, CHR-ROM discards it (R458). -/
theorem Cartridge.ppuWrite_rom {c d : Cartridge} {a : BitVec 14} {v : Byte} (h : c.ppuWrite a v = some d) : d.rom = c.rom := by
  obtain ⟨off, -, rfl⟩ := Option.map_eq_some_iff.mp h
  split
  · next hram => simp only [Cartridge.rom, if_pos hram]
  · rfl

/-- What no step changes: the parameters, what is fixed in the cartridge, the button masks. -/
def State.fixed (s : State) : Config × Option Cartridge × Byte × Byte :=
  (s.cfg, s.cart.map Cartridge.rom, s.pad0.state, s.pad1.state)

theorem State.fixed_withCart {u : State} {c d : Cartridge} (hc : u.cart = some c) (h : d.rom = c.rom) :
    ({ u with cart := some d } : State).fixed = u.fixed := by
  simp only [State.fixed, hc, Option.map_some, h]

theorem State.fixed_apartFromReads (u : State) : u.apartFromReads.fixed = u.fixed := by
  unfold State.fixed State.apartFromReads
  cases u.cart <;> rfl

theorem cpuWrite_fixed (a : Word) (v : Byte) (s : State) : (cpuWrite a v s).fixed = s.fixed :=
  cpuWrite_keeps State.fixed (fun _ _ => rfl) (fun _ _ => rfl) (fun _ _ => rfl) (fun _ _ => rfl)
    (fun v u => by rw [writeStrobe_eq]; rfl) (fun _ _ _ _ _ hc hw => State.fixed_withCart hc (Cartridge.ppuWrite_rom hw))
    (fun _ _ _ _ _ hc hw => State.fixed_withCart hc (Cartridge.cpuWrite_rom hw)) a v s

theorem step_fixed (s t : State) (h : step s = .next t) : t.fixed = s.fixed :=
  step_keeps State.fixed State.fixed_apartFromReads (fun _ _ => rfl) cpuWrite_fixed (fun _ _ => rfl) (fun _ _ => rfl) (fun _ _ => rfl)
    (fun _ _ => rfl) s t h

theorem State.fixed_eq_iff (s t : State) :
    t.fixed = s.fixed ↔ t.cfg = s.cfg ∧ t.cart.map Cartridge.rom = s.cart.map Cartridge.rom ∧ t.pad0.state = s.pad0.state ∧
      t.pad1.state = s.pad1.state := by
  simp only [State.fixed, Prod.mk.injEq]

/-- A value that is read off the fixed part of a cartridge is the same for two states that agree there. -/
theorem map_cart_of_rom {α : Type} {s t : State} (g : Cartridge → α) (hg : ∀ c : Cartridge, g c.rom = g c)
    (h : t.cart.map Cartridge.rom = s.cart.map Cartridge.rom) : t.cart.map g = s.cart.map g := by
  have hcomp : g ∘ Cartridge.rom = g := funext hg
  rw [← hcomp, ← Option.map_map, ← Option.map_map, h]

theorem bytesOf_prg_of_rom {s t : State} (h : t.cart.map Cartridge.rom = s.cart.map Cartridge.rom) : t.bytesOf .prg = s.bytesOf .prg :=
  congrArg (·.getD []) (map_cart_of_rom (·.prg) (fun _ => rfl) h)

/-- CHR-ROM is fixed, CHR-RAM is not (R458). -/
theorem bytesOf_chr_of_rom {s t : State} (h : t.cart.map Cartridge.rom = s.cart.map Cartridge.rom)
    (hrom : ∀ c, s.cart = some c → c.header.chrBanks ≠ 0) : t.bytesOf .chr = s.bytesOf .chr := by
  cases hs : s.cart with
  | none =>
    rw [hs, Option.map_none, Option.map_eq_none_iff] at h
    simp only [State.bytesOf, hs, h]
  | some c =>
    rw [hs, Option.map_some, Option.map_eq_some_iff] at h
    obtain ⟨d, hd, hdc⟩ := h
    obtain ⟨hheader, -, hchr, -⟩ := Cartridge.mk.inj hdc
    rw [hheader, if_neg (hrom c hs), if_neg (hrom c hs)] at hchr
    simp only [State.bytesOf, hs, hd, Option.map_some, hchr]

/-- The diagnostic bit is set by XXX and cleared by reset alone, which is no step (R273). -/
theorem step_keeps_diagUnknown (s t : State) (h : step s = .next t) (hs : s.cpu.diagUnknown = true) : t.cpu.diagUnknown = true := by
  have hppu : (ppuClock s).cpu = s.cpu := (ppuClock_rest s).1
  have hapu : (apuClock (ppuClock s)).cpu = s.cpu := (apuClock_rest _).1.trans hppu
  have hend : ∀ u : State, u.cpu.diagUnknown = true → (endTick u).cpu.diagUnknown = true := by
    intro u hu
    rw [endTick_eq]
    exact hu
  rcases step_forms s with ⟨-, e⟩ | ⟨-, -, e⟩ | ⟨-, -, -, e⟩ | ⟨-, -, -, -, e⟩ | ⟨-, -, -, -, -, e⟩ | ⟨-, -, -, -, -, e⟩ <;>
    rw [e] at h
  · cases h
  · obtain rfl := Host.Outcome.next.inj h
    exact hend _ (hppu ▸ hs)
  · obtain rfl := Host.Outcome.next.inj h
    refine hend _ ?_
    rw [dmaStep_keeps State.cpu (fun _ => rfl) (fun _ _ => rfl) (fun _ _ => rfl), hapu]
    exact hs
  · obtain rfl := Host.Outcome.next.inj h
    exact hend _ (by rw [countDown, State.setCycRem_cpu, hapu]; exact hs)
  · obtain rfl := Host.Outcome.next.inj h
    refine hend _ ?_
    rw [countDown, enterNmi, takeException_eq]
    simp only [State.setCycRem_cpu, hapu, hs]
  · obtain ⟨u, hexec, rfl⟩ := andThen_eq_next h
    refine hend _ ?_
    rw [countDown, State.setCycRem_cpu]
    show u.cpu.diagUnknown = true
    rw [(exec_latches _ _ _ hexec).2, fetch_cpu, hapu, hs, Bool.or_true]

/-- Settles O38: every part of a step keeps `State.fixed`. -/
theorem stepKeepsRomAndParameters : Obligations.StepKeepsRomAndParameters := by
  unfold Obligations.StepKeepsRomAndParameters
  intro s t h
  obtain ⟨hcfg, hrom, hpad0, hpad1⟩ := (State.fixed_eq_iff s t).mp (step_fixed s t h)
  exact ⟨hcfg, map_cart_of_rom (·.header) (fun _ => rfl) hrom, map_cart_of_rom (·.valid) (fun _ => rfl) hrom, bytesOf_prg_of_rom hrom,
    bytesOf_chr_of_rom hrom, hpad0, hpad1, step_keeps_diagUnknown s t h⟩

end Sys2Proof.Machine
end

section
/-!
SUPPORT and PROOF. A memory gives back what was written (R83, R88, R97 to R99): which physical byte an address names, for reads and for writes
alike, and when two addresses name the same one.
-/

namespace Sys2Proof.Machine

/-! ## RAM and PRG-RAM -/

/-- PRG-RAM stands at 6000 to 7FFF of every supported mapper (R88, D53). -/
theorem Cartridge.cpuRead_prgram {c : Cartridge} (a : Word) (hm : c.mapper ≠ .unsupported) (h1 : 0x6000 ≤ a.toNat) (h2 : a.toNat ≤ 0x7FFF) :
    c.cpuRead a = some (c.prgram.read (a.toNat % 0x2000)) := by
  have hoff : ∃ off, c.prgOffset a.toNat = some off := by
    unfold Cartridge.prgOffset
    split
    case h_5 hmapper => exact absurd hmapper hm
    case h_3 | h_4 => split <;> exact ⟨_, rfl⟩
    all_goals exact ⟨_, rfl⟩
  obtain ⟨off, hoff⟩ := hoff
  have hmap : c.cpuMapRead a = .prgram (a.toNat % 0x2000) := by
    simp only [Cartridge.cpuMapRead, hoff, if_neg (show ¬ a.toNat < 0x6000 by omega), if_pos (show a.toNat < 0x8000 by omega)]
  simp only [Cartridge.cpuRead, hmap]

theorem Cartridge.cpuWrite_prgram {c : Cartridge} (a : Word) (v : Byte) (hm : c.mapper ≠ .unsupported) (h1 : 0x6000 ≤ a.toNat)
    (h2 : a.toNat ≤ 0x7FFF) : c.cpuWrite a v = some { c with prgram := c.prgram.write (a.toNat % 0x2000) v } := by
  have hmap : c.cpuMapWrite a v = .prgram (a.toNat % 0x2000) := by
    simp only [Cartridge.cpuMapWrite, if_neg (show ¬ a.toNat < 0x6000 by omega), if_pos (show a.toNat < 0x8000 by omega)]
    split
    case h_5 hmapper => exact absurd hmapper hm
    all_goals rfl
  simp only [Cartridge.cpuWrite, hmap]

theorem cpuRead_prgram {s : State} {c : Cartridge} (hc : s.cart = some c) (a : Word) (hm : c.mapper ≠ .unsupported) (h1 : 0x6000 ≤ a.toNat)
    (h2 : a.toNat ≤ 0x7FFF) : cpuRead a s = (c.prgram.read (a.toNat % 0x2000), s) := by
  simp only [cpuRead, hc, Option.bind_some, Cartridge.cpuRead_prgram a hm h1 h2]

theorem cpuWrite_prgram {s : State} {c : Cartridge} (hc : s.cart = some c) (a : Word) (v : Byte) (hm : c.mapper ≠ .unsupported)
    (h1 : 0x6000 ≤ a.toNat) (h2 : a.toNat ≤ 0x7FFF) :
    cpuWrite a v s = { s with cart := some { c with prgram := c.prgram.write (a.toNat % 0x2000) v } } := by
  simp only [cpuWrite, hc, Option.bind_some, Cartridge.cpuWrite_prgram a v hm h1 h2]

theorem cpuRead_prgram_after_write {s : State} {c : Cartridge} (hc : s.cart = some c) {a b : Word} (v : Byte) (hm : c.mapper ≠ .unsupported)
    (ha1 : 0x6000 ≤ a.toNat) (ha2 : a.toNat ≤ 0x7FFF) (hb1 : 0x6000 ≤ b.toNat) (hb2 : b.toNat ≤ 0x7FFF) :
    (cpuRead b (cpuWrite a v s)).1 = if b.toNat % 0x2000 = a.toNat % 0x2000 then v else (cpuRead b s).1 := by
  have hafter := cpuRead_prgram (s := { s with cart := some { c with prgram := c.prgram.write (a.toNat % 0x2000) v } }) rfl b hm hb1 hb2
  rw [cpuWrite_prgram hc a v hm ha1 ha2, hafter, cpuRead_prgram hc b hm hb1 hb2, Memory.read_write]

/-- PRG-RAM is as large as its window, so that no two addresses there are one byte. -/
theorem prgramIndex_eq_iff {a b : Word} (ha1 : 0x6000 ≤ a.toNat) (ha2 : a.toNat ≤ 0x7FFF) (hb1 : 0x6000 ≤ b.toNat) (hb2 : b.toNat ≤ 0x7FFF) :
    b.toNat % 0x2000 = a.toNat % 0x2000 ↔ a = b := by
  rw [← BitVec.toNat_inj]
  omega

/-- Settles O45: a read finds the byte the write's index names. -/
theorem ramAndPrgRamRoundTrip : Obligations.RamAndPrgRamRoundTrip := by
  unfold Obligations.RamAndPrgRamRoundTrip
  intro a b v s
  refine ⟨fun ha hb => ?_, fun c hc hm ha1 ha2 hb1 hb2 => ?_, ?_⟩
  · rw [cpuWrite_ram a v s ha, cpuRead_ram b _ hb, cpuRead_ram b s hb, Memory.read_write]
    exact ite_congr (propext eq_comm) (fun _ => rfl) (fun _ => rfl)
  · rw [cpuRead_prgram_after_write hc v hm ha1 ha2 hb1 hb2]
    exact ite_congr (propext (prgramIndex_eq_iff ha1 ha2 hb1 hb2)) (fun _ => rfl) (fun _ => rfl)
  · obtain ⟨-, hrom, -⟩ := (State.fixed_eq_iff s _).mp (cpuWrite_fixed a v s)
    exact bytesOf_prg_of_rom hrom

/-! ## The PPU's own memories -/

/-- No mapper claims a PPU address from 2000 on (R97). -/
theorem Cartridge.ppuMap_high (c : Cartridge) {a : BitVec 14} (h : 0x2000 ≤ a.toNat) : c.ppuMap a = none := by
  simp only [Cartridge.ppuMap, if_pos (show a.toNat > 0x1FFF by omega)]

theorem ppuPeek_internal (a : BitVec 14) (s : State) (h : 0x2000 ≤ a.toNat) :
    ppuPeek a s = if a.toNat ≤ 0x3EFF then s.ppu.vram.read (ntIndex s.mirroring a) else s.ppu.pal.read (palIndex a) := by
  have hcart : s.cart.bind (fun c => c.ppuPeek a) = none :=
    Option.bind_eq_none_iff.mpr fun c _ => by rw [Cartridge.ppuPeek, c.ppuMap_high h, Option.map_none]
  simp only [ppuPeek, hcart, if_neg (show ¬ a.toNat ≤ 0x1FFF by omega)]

theorem ppuWrite_internal (a : BitVec 14) (v : Byte) (s : State) (h : 0x2000 ≤ a.toNat) :
    ppuWrite a v s =
      if a.toNat ≤ 0x3EFF then { s with ppu := { s.ppu with vram := s.ppu.vram.write (ntIndex s.mirroring a) v } }
      else { s with ppu := { s.ppu with pal := s.ppu.pal.write (palIndex a) v } } := by
  have hcart : s.cart.bind (fun c => c.ppuWrite a v) = none :=
    Option.bind_eq_none_iff.mpr fun c _ => by rw [Cartridge.ppuWrite, c.ppuMap_high h, Option.map_none]
  simp only [ppuWrite, hcart, if_neg (show ¬ a.toNat ≤ 0x1FFF by omega)]

theorem ppuPeek_nametable (a : BitVec 14) (s : State) (h1 : 0x2000 ≤ a.toNat) (h2 : a.toNat < 0x3F00) :
    ppuPeek a s = s.ppu.vram.read (ntIndex s.mirroring a) := by
  rw [ppuPeek_internal a s h1, if_pos (by omega)]

theorem ppuPeek_palette (a : BitVec 14) (s : State) (h : 0x3F00 ≤ a.toNat) : ppuPeek a s = s.ppu.pal.read (palIndex a) := by
  rw [ppuPeek_internal a s (by omega), if_neg (by omega)]

theorem ppuWrite_nametable (a : BitVec 14) (v : Byte) (s : State) (h1 : 0x2000 ≤ a.toNat) (h2 : a.toNat < 0x3F00) :
    ppuWrite a v s = { s with ppu := { s.ppu with vram := s.ppu.vram.write (ntIndex s.mirroring a) v } } := by
  rw [ppuWrite_internal a v s h1, if_pos (by omega)]

theorem ppuWrite_palette (a : BitVec 14) (v : Byte) (s : State) (h : 0x3F00 ≤ a.toNat) :
    ppuWrite a v s = { s with ppu := { s.ppu with pal := s.ppu.pal.write (palIndex a) v } } := by
  rw [ppuWrite_internal a v s (by omega), if_neg (by omega)]

/-- The index of R99 names one byte for two addresses where its "same byte" column says so. -/
theorem ntIndex_eq_iff (m : Mirroring) (a b : BitVec 14) : ntIndex m b = ntIndex m a ↔ sameNametableByte m a.toNat b.toNat := by
  cases m <;> simp only [ntIndex, sameNametableByte, and_true] <;> omega

/-- The index of R98 folds the four sprite entries 10, 14, 18 and 1C onto the background's. -/
theorem palIndex_eq_iff (a b : BitVec 14) : palIndex b = palIndex a ↔ samePaletteByte a.toNat b.toNat := by
  simp only [palIndex, samePaletteByte]
  split <;> split <;> omega

theorem ppuPeek_nametable_after_write {a b : BitVec 14} (v : Byte) (s : State) (ha1 : 0x2000 ≤ a.toNat) (ha2 : a.toNat < 0x3F00)
    (hb1 : 0x2000 ≤ b.toNat) (hb2 : b.toNat < 0x3F00) :
    ppuPeek b (ppuWrite a v s) = if ntIndex s.mirroring b = ntIndex s.mirroring a then v else ppuPeek b s := by
  rw [ppuWrite_nametable a v s ha1 ha2, ppuPeek_nametable b _ hb1 hb2, ppuPeek_nametable b s hb1 hb2]
  exact Memory.read_write _ _ _ _

theorem ppuPeek_palette_after_write {a b : BitVec 14} (v : Byte) (s : State) (ha : 0x3F00 ≤ a.toNat) (hb : 0x3F00 ≤ b.toNat) :
    ppuPeek b (ppuWrite a v s) = if palIndex b = palIndex a then v else ppuPeek b s := by
  rw [ppuWrite_palette a v s ha, ppuPeek_palette b _ hb, ppuPeek_palette b s hb]
  exact Memory.read_write _ _ _ _

/-- Settles O50: the two memories are apart, and in each a read finds the byte the write's index names. -/
theorem nametablesAndPaletteRoundTrip : Obligations.NametablesAndPaletteRoundTrip := by
  unfold Obligations.NametablesAndPaletteRoundTrip
  intro a b v s ha hb
  refine ⟨?_, fun ha2 hb2 => ?_, fun ha2 hb2 => ?_, fun ha2 hb2 => ?_, fun ha2 hb2 => ?_⟩
  · rw [ppuWrite_internal a v s ha]
    split <;> rfl
  · rw [ppuPeek_nametable_after_write v s ha ha2 hb hb2, ← ntIndex_eq_iff]
    exact ⟨fun h => if_pos h, fun h => if_neg h⟩
  · rw [ppuPeek_palette_after_write v s ha2 hb2, ← palIndex_eq_iff]
    exact ⟨fun h => if_pos h, fun h => if_neg h⟩
  · rw [ppuWrite_nametable a v s ha ha2, ppuPeek_palette b _ hb2, ppuPeek_palette b s hb2]
  · rw [ppuWrite_palette a v s ha2, ppuPeek_nametable b _ hb hb2, ppuPeek_nametable b s hb hb2]
    rfl

end Sys2Proof.Machine
end

section
/-!
SUPPORT and PROOF. The decoder and the encoder agree (R130 to R132, R150 to R152 of 30_encoding.md). Both directions rest on one fact,
`decode_take`: decoding the first bytes of a string, as many as the opcode byte asks for, gives what the opcode byte and the two bytes after it
decode to.
-/

namespace Sys2Proof

open Sys2Proof.Machine

/-- An opcode byte and an operand's bytes are the first of three bytes, as many as the operand's length says. -/
theorem exists_take_eq_bytes (op : Byte) (o : Operand) : ∃ b1 b2, [op, b1, b2].take o.length = op :: o.bytes := by
  cases o with
  | imp | acc => exact ⟨0, 0, rfl⟩
  | imm b | rel b => exact ⟨b, 0, rfl⟩
  | ind a => exact ⟨loByte a, hiByte a, rfl⟩
  | mem m =>
    cases m with
    | zp z | zpx z | zpy z | izx z | izy z => exact ⟨z, 0, rfl⟩
    | abs a | abx a | aby a => exact ⟨loByte a, hiByte a, rfl⟩

/-- What an opcode byte decodes to depends only on as many bytes after it as its length takes in (R131). -/
theorem decodeOp_congr {op b1 b2 c1 c2 : Byte} (h : [op, b1, b2].take (opcodeLength op) = [op, c1, c2].take (opcodeLength op)) :
    decodeOp op b1 b2 = decodeOp op c1 c2 := by
  have he : [op, b1, b2].take (decodeOp op c1 c2).length = encode (decodeOp op c1 c2) := by
    rw [encode_decodeOp, opcodeLength_eq, h]
  have hdec := decodeOp_encode (decodeOp op c1 c2) (decodeOp_wellFormed op c1 c2) b1 b2
  rw [decodeOp_opcode] at hdec
  exact hdec he

/-- Decoding takes as many bytes as the opcode byte asks for, and leaves the rest. -/
theorem decode_take (op b1 b2 : Byte) (rest : List Byte) :
    decode ([op, b1, b2].take (opcodeLength op) ++ rest) = .ok (decodeOp op b1 b2) rest := by
  rcases length_range (decodeOp op 0 0) with h | h | h <;> change opcodeLength op = _ at h
  · rw [h, decodeOp_congr (c1 := 0) (c2 := 0) (by rw [h]; rfl)]
    exact decode_of_one op rest h
  · rw [h, decodeOp_congr (c1 := b1) (c2 := 0) (by rw [h]; rfl)]
    exact decode_of_two op b1 rest h
  · rw [h]
    exact decode_of_three op b1 b2 rest h

theorem opcodeLength_unmapped {op : Byte} (h : op ∈ unmappedOpcodes) : opcodeLength op = 1 := by
  rw [opcodeLength, decodeOp_unmapped op h]
  rfl

/-- Settles O2: an instruction's bytes are those that `decode_take` takes. -/
theorem decodeOfEncode : Obligations.DecodeOfEncode := by
  unfold Obligations.DecodeOfEncode
  intro i rest hw
  obtain ⟨b1, b2, he⟩ : ∃ b1 b2, [i.opcode, b1, b2].take i.length = encode i := exists_take_eq_bytes i.opcode i.operand
  rw [← he, ← opcodeLength_opcode i hw, decode_take, decodeOp_encode i hw b1 b2 he]

/-- Settles O3: the instruction is the one the table gives for the opcode byte. -/
theorem everyByteSequenceDecodes : Obligations.EveryByteSequenceDecodes := by
  unfold Obligations.EveryByteSequenceDecodes
  intro op b1 b2 rest
  refine ⟨decodeOp op b1 b2, decodeOp_wellFormed op b1 b2, decodeOp_opcode op b1 b2, encode_decodeOp op b1 b2, ?_, fun c1 c2 => ?_⟩
  · have hsplit : op :: b1 :: b2 :: rest =
        [op, b1, b2].take (opcodeLength op) ++ ([op, b1, b2].drop (opcodeLength op) ++ rest) := by
      rw [← List.append_assoc, List.take_append_drop]
      rfl
    rw [hsplit, decode_take, opcodeLength_eq]
  · rw [opcodeLength_eq, opcodeLength_eq]

/-- Settles O4: `decodeOp_xxx_iff` says which opcode values decode to XXX, and XXX is one byte long. -/
theorem unmappedOpcodesAreOneEntry : Obligations.UnmappedOpcodesAreOneEntry := by
  unfold Obligations.UnmappedOpcodesAreOneEntry
  refine ⟨rfl, by decide, fun op b1 b2 => ⟨⟨fun h => ?_, fun h => decodeOp_unmapped op h b1 b2⟩, ?_, fun rest h => ?_⟩⟩
  · exact (decodeOp_xxx_iff op b1 b2).mp (by rw [h]; rfl)
  · exact mt (decodeOp_xxx_iff op b1 b2).mp
  · rw [decode_of_one op rest (opcodeLength_unmapped h), decodeOp_unmapped op h]

/-- Settles O1: each word is the encoding of its instruction. -/
theorem writtenOutWordsDecode : Obligations.WrittenOutWordsDecode := by
  unfold Obligations.WrittenOutWordsDecode
  exact ⟨decodeOfEncode (.ldaImm 0x80) [] rfl, decodeOfEncode (.ldaAbx 0x12FF) [] rfl, decodeOfEncode (.stxZpy 0xF0) [] rfl,
    decodeOfEncode .pha [] rfl, decodeOfEncode (.adcImm 0x50) [] rfl, decodeOfEncode (.incAbx 0x02FF) [] rfl,
    decodeOfEncode (.oraIzx 0x20) [] rfl, decodeOfEncode (.bitZp 0x10) [] rfl, decodeOfEncode (.rorAbx 0x0200) [] rfl,
    decodeOfEncode (.jmpInd 0x02FF) [] rfl, decodeOfEncode (.jsr 0x9000) [] rfl, decodeOfEncode (.beq 0xFE) [] rfl,
    decodeOfEncode .brk [] rfl, decodeOfEncode .rti [] rfl, decodeOfEncode (.xxx 0x04) [0xA9, 0x55] rfl⟩

end Sys2Proof
end

section
/-!
SUPPORT and PROOF. The addressing modes in plain arithmetic (R136 to R146 of 30_encoding.md): a mode forms its address in page zero, from the
instruction, from a zero-page pointer, or from one of these plus an index register.
-/

namespace Sys2Proof.Machine

theorem hiByte_toNat (w : Word) : (hiByte w).toNat = w.toNat / 256 := by
  have h := w.isLt
  rw [hiByte, BitVec.extractLsb'_toNat, Nat.shiftRight_eq_div_pow]
  omega

theorem pageCross_eq (base addr : Word) : pageCross base addr = if addr.toNat / 256 = base.toNat / 256 then 0 else 1 := by
  have hpage : hiByte base = hiByte addr ↔ addr.toNat / 256 = base.toNat / 256 := by
    rw [← BitVec.toNat_inj, hiByte_toNat, hiByte_toNat, eq_comm]
  exact ite_congr (propext hpage) (fun _ => rfl) (fun _ => rfl)

theorem add_index_toNat (base : Word) (index : Byte) : (base + index.setWidth 16).toNat = (base.toNat + index.toNat) % 65536 := by
  have h := index.isLt
  rw [BitVec.toNat_add, BitVec.toNat_setWidth, Nat.mod_eq_of_lt (show index.toNat < 2 ^ 16 by omega)]

theorem zeroPage_add_toNat (z index : Byte) : (zeroPage (z + index)).toNat = (z.toNat + index.toNat) % 256 := by
  rw [zeroPage_toNat, BitVec.toNat_add]

/-- A zero-page pointer as a number: its low byte, and its high byte from the next place of the zero page (R145, R146). -/
theorem zeroPagePointer_toNat (z : Byte) (s : State) :
    (zeroPagePointer z s).1.toNat = (s.ram.read z.toNat).toNat + 256 * (s.ram.read ((z.toNat + 1) % 256)).toNat := by
  rw [zeroPagePointer_eq, wordOf_toNat, add_one_toNat]
  omega

/-- An index is added modulo 65536, with a cycle more where the sum lies in another page than the base (R142, R143, R146). -/
theorem indexed_forms (base : Word) (index : Byte) (s : State) :
    (indexed base index s).addr.toNat = (base.toNat + index.toNat) % 65536 ∧
      (indexed base index s).extra = if (base.toNat + index.toNat) % 65536 / 256 = base.toNat / 256 then 0 else 1 := by
  rw [← add_index_toNat]
  exact ⟨rfl, pageCross_eq _ _⟩

/-- Settles O5: a mode keeps the state by `effective_state`, and its address is that of the mode's kind. -/
theorem addressingModes : Obligations.AddressingModes := by
  unfold Obligations.AddressingModes FormsAddress
  intro s z a m x y pointer cross
  simp only [effective_state, and_true]
  refine ⟨⟨zeroPage_toNat z, rfl⟩, ⟨zeroPage_add_toNat z s.cpu.x, rfl⟩, ⟨zeroPage_add_toNat z s.cpu.y, rfl⟩, ⟨rfl, rfl⟩,
    indexed_forms a s.cpu.x s, indexed_forms a s.cpu.y s, ⟨?_, rfl⟩, ?_, rfl, ?_⟩
  · have hp := zeroPagePointer_toNat (z + s.cpu.x) s
    rw [BitVec.toNat_add] at hp
    exact hp
  · have hi := indexed_forms (zeroPagePointer z s).1 s.cpu.y (zeroPagePointer z s).2
    rw [zeroPagePointer_toNat] at hi
    exact hi
  · simp only [readSource, effective_state]

end Sys2Proof.Machine
end

section
/-!
SUPPORT and PROOF. A step that starts an instruction runs the one the fetch gives (R141, R300, R105).
-/

namespace Sys2Proof.Machine

/-- Every instruction has a next state (R260). -/
theorem exec_next (i : Instr) (s : State) : ∃ t, exec i s = .next t :=
  ⟨_, exec_shape i s⟩

/-- In a CPU slot with no DMA, nothing to count down and no NMI pending, the step executes what is fetched after the PPU's and the APU's part. -/
theorem step_of_fetch {s u : State} {j : Instr} (hrun : runnable s = true) (hslot : s.sysclk % 3 = 0) (hdma : s.dma.active = false)
    (hcyc : s.cpu.cycRem = 0) (hnmi : s.cpu.nmiPending = false) (hfetch : fetch (apuClock (ppuClock s)) = (j, u)) :
    ∃ t, exec j u = .next t ∧ step s = .next (endTick (countDown t)) := by
  obtain ⟨t, ht⟩ := exec_next j u
  refine ⟨t, ht, ?_⟩
  have hstep : step s = andThen (exec (fetch (apuClock (ppuClock s))).1 (fetch (apuClock (ppuClock s))).2) (fun t => endTick (countDown t)) := by
    simpa [hrun, hslot, hdma, hcyc, hnmi] using step_forms s
  rw [hstep, hfetch, ht]
  rfl

/-- Settles O33: the fetch gives the instruction whose bytes stand at PC, and XXX for an opcode that is not `MAPPED`. -/
theorem stepRunsTheInstructionAtPc : Obligations.StepRunsTheInstructionAtPc := by
  unfold Obligations.StepRunsTheInstructionAtPc
  intro i s hrun hslot hdma hcyc hnmi q runs bytes first
  obtain ⟨hppuCpu, -, -, -, -, -, -, -, hppuCfg, -⟩ := ppuClock_rest s
  obtain ⟨hapuCpu, -, -, -, hapuCfg⟩ := apuClock_rest (ppuClock s)
  have hcpu : q.cpu = s.cpu := hapuCpu.trans hppuCpu
  have hcfg : q.cfg = s.cfg := hapuCfg.trans hppuCfg
  have hruns {j : Instr} {u : State} (h : fetch q = (j, u)) : runs j u := step_of_fetch hrun hslot hdma hcyc hnmi h
  refine ⟨hcpu, fun hw hm hb => hruns ?_, fun hn => hruns ?_⟩
  · have h := fetch_of_bytes q i hw (hcfg ▸ hm)
    rw [hcpu] at h
    exact h hb
  · have h := fetch_unmapped q
    rw [hcpu, hcfg] at h
    exact h hn

end Sys2Proof.Machine
end

section
/-!
SUPPORT and PROOF. Loads, stores and transfers, and what readers and writers leave of the machine's storage (R100, R170 to R182, R213): a row of
the rules is tied to its meaning once, and each statement goes by the meaning's own equation.
-/

namespace Sys2Proof.Machine

/-! ## Loads -/

/-- Z and N from the value, each as its bit says, and the other six flags as they were (R12). -/
theorem flagsAre_setZN (p v : Byte) : FlagsAre (setZN p v) (znFlags p v) := by
  intro f
  rw [getFlag_setZN, byte_bit7, byte_beq_zero]
  cases f <;> rfl

theorem load_meaning {i : Instr} {r : Reg} {row : Reading} (h : loadRow i = some (r, row)) :
    i.opcode = row.op ∧ configAtReset.baseCost row.op = row.cycles ∧
      ∀ s, exec i s = .next (loadReg r (s.cfg.baseCost row.op) row.src s) := by
  unfold loadRow at h
  split at h <;> cases h <;> exact ⟨rfl, rfl, fun _ => rfl⟩

/-- A register write and a flag write, on the CPU alone. -/
theorem State.setRegZN_put (s : State) (r : Reg) (v : Byte) :
    s.setRegZN r v = { s with cpu := { s.cpu.put r v with p := setZN s.cpu.p v } } := by
  cases r <;> rfl

theorem loadReg_eq (r : Reg) (base : Nat) (src : Source) (s : State) :
    loadReg r base src s =
      (let n := src.operand.length
       let o := readSource src (s.advance n)
       { o.state with
         cpu := { s.cpu.put r o.val with
           p := setZN s.cpu.p o.val, pc := s.cpu.pc + BitVec.ofNat 16 n, cycRem := base + o.extra } }) := by
  simp only [loadReg, withSource, State.setRegZN_put, readSource_cpu]
  cases r <;> rfl

/-- Settles O6: a row's meaning is `loadReg`, whose equation this is. -/
theorem loadsTakeTheirOperand : Obligations.LoadsTakeTheirOperand := by
  unfold Obligations.LoadsTakeTheirOperand
  intro i r row s h n o
  obtain ⟨hop, hcycles, hexec⟩ := load_meaning h
  refine ⟨hop, hcycles, _, ?_, flagsAre_setZN s.cpu.p o.val⟩
  rw [hexec, loadReg_eq]

/-! ## Stores -/

theorem store_meaning {i : Instr} {r : Reg} {row : Writing} (h : storeRow i = some (r, row)) :
    i.opcode = row.op ∧ configAtReset.baseCost row.op = row.cycles ∧ i.operand = .mem row.at_ ∧
      ∀ s, exec i s = .next (storeReg r (s.cfg.baseCost row.op) row.at_ s) := by
  unfold storeRow at h
  split at h <;> cases h <;> exact ⟨rfl, rfl, rfl, fun _ => rfl⟩

theorem storeReg_eq (r : Reg) (base : Nat) (m : Addressing) (s : State) :
    storeReg r base m s =
      (let e := effective m (s.advance m.length)
       { cpuWrite e.addr (s.cpu.get r) (s.advance m.length) with
         cpu := { s.cpu with pc := s.cpu.pc + BitVec.ofNat 16 m.length, cycRem := base + e.extra } }) := by
  simp only [storeReg, effective_state, State.setCycRem, cpuWrite_cpu]
  cases r <;> rfl

/-- Settles O7: a row's meaning is `storeReg`, whose equation this is. -/
theorem storesWriteTheirRegister : Obligations.StoresWriteTheirRegister := by
  unfold Obligations.StoresWriteTheirRegister
  intro i r row s h n e
  obtain ⟨hop, hcycles, -, hexec⟩ := store_meaning h
  exact ⟨hop, hcycles, by rw [hexec, storeReg_eq]⟩

/-! ## Transfers -/

/-- Settles O8: TXS writes S alone, the other five a register, Z and N. -/
theorem transfersCopyOneRegister : Obligations.TransfersCopyOneRegister := by
  unfold Obligations.TransfersCopyOneRegister
  intro i op source target zn s h
  unfold transferRow at h
  split at h <;> cases h
  case h_6 => exact ⟨rfl, rfl, s.cpu.p, rfl, fun _ => rfl⟩
  all_goals exact ⟨rfl, rfl, _, rfl, flagsAre_setZN s.cpu.p _⟩

/-! ## What readers leave alone -/

/-- Beside the CPU's registers, an instruction that writes nothing on the bus changes only what reads can change (R100). -/
theorem exec_reader_apart {i : Instr} {s t : State} (hi : storesNothing i = true) (h : exec i s = .next t) :
    t.apartFromReads = { s.apartFromReads with cpu := t.cpu } :=
  exec_keeps (fun u : State => { u.apartFromReads with cpu := t.cpu }) (fun u => by rw [State.apartFromReads_idem]) (fun _ _ => rfl) i s t
    (fun hw => absurd (hw.symm.trans hi) Bool.false_ne_true) h

/-- Settles O28: the bytes of storage, and what the CPU reads there, are read off the part that reads do not change. -/
theorem readersChangeNoStorage : Obligations.ReadersChangeNoStorage := by
  unfold Obligations.ReadersChangeNoStorage
  intro i s t hi h
  have hapart := exec_reader_apart hi h
  refine ⟨hapart, fun m k => ?_, fun a ha => ?_⟩
  · rw [← State.bytesOf_apartFromReads m t, hapart, ← State.bytesOf_apartFromReads m s]
    rfl
  · exact cpuRead_storage a s t ha (congrArg State.ram hapart :) (congrArg State.cart hapart :)

/-! ## What writers leave alone -/

theorem Lands.other {o : Option (Store × Nat)} {v : Byte} {s t : State} (h : Lands o v s t) {st : Store} {k : Nat} (hne : o ≠ some (st, k)) :
    (t.bytesOf st).read k = (s.bytesOf st).read k :=
  (h st k).trans (if_neg hne)

theorem Lands.there {o : Option (Store × Nat)} {v : Byte} {s t : State} (h : Lands o v s t) {st : Store} {k : Nat} (ho : o = some (st, k)) :
    (t.bytesOf st).read k = v :=
  (h st k).trans (if_pos ho)

theorem Lands.of_sameBytes {o : Option (Store × Nat)} {v : Byte} {s u t : State} (hu : ∀ st, u.bytesOf st = s.bytesOf st)
    (h : Lands o v u t) : Lands o v s t := by
  intro st k
  rw [← hu]
  exact h st k

/-- Where a store puts its register: PC and the count-down are no part of storage. -/
theorem storeReg_lands (r : Reg) (base : Nat) (m : Addressing) (s : State) :
    Lands (storedByte (effective m (s.advance m.length)).addr s) (s.cpu.get r) s (storeReg r base m s) := by
  rw [storeReg_eq]
  exact cpuWrite_lands _ _ (s.advance m.length)

/-- Where a read-modify-write puts its byte: the read before it has changed none. -/
theorem modifyMem_lands (base : Nat) (m : Addressing) (f : Byte → Byte → Byte × Byte) (s : State) :
    ∃ v, Lands (storedByte (effective m (s.advance m.length)).addr
        (cpuRead (effective m (s.advance m.length)).addr (s.advance m.length)).2) v s (modifyMem base m f s) := by
  simp only [modifyMem, effective_state]
  exact ⟨_, Lands.of_sameBytes (cpuRead_bytesOf _ (s.advance m.length)) (cpuWrite_lands _ _ _)⟩

/-- INC, DEC and the memory forms of the shifts are the read-modify-writes (R196, R199, R213). -/
theorem shapeOf_modify {n : Mnemonic} (m : Addressing) (hm : n ∈ [.inc, .dec, .asl, .lsr, .rol, .ror]) :
    ∃ f, shapeOf n (.mem m) = .modify f m := by
  simp only [List.mem_cons, List.not_mem_nil, or_false] at hm
  rcases hm with rfl | rfl | rfl | rfl | rfl | rfl <;> exact ⟨_, rfl⟩

/-- Settles O30: the one byte is that of `storeReg_lands` for a store, of `modifyMem_lands` for a read-modify-write. -/
theorem storesChangeOneByte : Obligations.StoresChangeOneByte := by
  unfold Obligations.StoresChangeOneByte
  intro i m s t hm hexec a
  refine ⟨fun r row h => ?_, fun hi st k hne => ?_⟩
  · obtain ⟨-, -, hoperand, hstore⟩ := store_meaning h
    obtain rfl : m = row.at_ := Operand.mem.inj (hm.symm.trans hoperand)
    obtain rfl := Host.Outcome.next.inj ((hstore s).symm.trans hexec)
    have hlands := storeReg_lands r (s.cfg.baseCost row.op) row.at_ s
    exact ⟨fun st k hne => hlands.other hne, fun st k ho => hlands.there ho⟩
  · obtain ⟨f, hshape⟩ := shapeOf_modify m hi
    rw [exec_shape, hm, hshape] at hexec
    obtain rfl := Host.Outcome.next.inj hexec
    obtain ⟨v, hlands⟩ := modifyMem_lands (baseCostOf s.cfg i) m f s
    exact hlands.other hne

end Sys2Proof.Machine
end

section
/-!
SUPPORT and PROOF. PHA, PHP, PLA and PLP (R185 to R188): a place of the stack page, named in plain arithmetic, is an address of `stackAddr`, and
each instruction is one push or one pull at such a place, made after the fetch has moved PC.
-/

namespace Sys2Proof.Machine

/-! ## The places above S -/

/-- S counts modulo 256 inside its page, and so do the places above it (R11). -/
theorem stackPlace_eq (s : State) (n : Nat) : stackPlace s n = stackAddr s (s.cpu.sp + BitVec.ofNat 8 n) := by
  refine BitVec.eq_of_toNat_eq ?_
  have hpage := s.cfg.stackPage.isLt
  rw [stackAddr_toNat, stackPlace, BitVec.toNat_ofNat, BitVec.toNat_add, BitVec.toNat_ofNat]
  omega

theorem stackIndex_add (s : State) (n : Nat) :
    stackIndex s (s.cpu.sp + BitVec.ofNat 8 n) = (s.cfg.stackPage.toNat * 256 + (s.cpu.sp.toNat + n) % 256) % 2048 := by
  rw [stackIndex, BitVec.toNat_add, BitVec.toNat_ofNat, Nat.add_mod_mod]

theorem cpuRead_stackPlace (s : State) (n : Nat) (hpage : s.cfg.stackPage.toNat ≤ 0x1F) :
    cpuRead (stackPlace s n) s = (s.ram.read ((s.cfg.stackPage.toNat * 256 + (s.cpu.sp.toNat + n) % 256) % 2048), s) := by
  rw [stackPlace_eq, cpuRead_stackAddr s s _ hpage, stackIndex_add]

theorem cpuWrite_stackPlace_zero (s : State) (v : Byte) (hpage : s.cfg.stackPage.toNat ≤ 0x1F) :
    cpuWrite (stackPlace s 0) v s = { s with ram := s.ram.write ((s.cfg.stackPage.toNat * 256 + s.cpu.sp.toNat) % 2048) v } := by
  rw [stackPlace_eq, BitVec.add_zero, cpuWrite_stackAddr s s _ v hpage, stackIndex]

/-! ## One push, one pull, after the fetch -/

theorem implied_push (base : Nat) (v : Byte) (s : State) :
    implied base (push v) s =
      { cpuWrite (stackPlace s 0) v s with
        cpu := { s.cpu with sp := s.cpu.sp - 1, pc := s.cpu.pc + 1, cycRem := base } } := by
  rw [implied, push_eq, State.advance, State.setPc, stackAddr_withCpu, cpuWrite_withCpu, stackPlace_eq, BitVec.add_zero]
  rfl

theorem pull_advance (s : State) (n : Nat) :
    pull (s.advance n) =
      ((cpuRead (stackPlace s 1) s).1,
        { (cpuRead (stackPlace s 1) s).2 with
          cpu := { s.cpu with sp := s.cpu.sp + 1, pc := s.cpu.pc + BitVec.ofNat 16 n } }) := by
  rw [stackPlace_eq]
  exact cpuRead_withCpu _ s _

theorem implied_pullA (base : Nat) (s : State) :
    implied base pullA s =
      (let r := cpuRead (stackPlace s 1) s
       { r.2 with
         cpu := { s.cpu with a := r.1, sp := s.cpu.sp + 1, p := setZN s.cpu.p r.1, pc := s.cpu.pc + 1, cycRem := base } }) := by
  rw [implied, pullA, pull_advance]
  rfl

theorem implied_pullP (base : Nat) (s : State) :
    implied base pullP s =
      (let r := cpuRead (stackPlace s 1) s
       { r.2 with
         cpu := { s.cpu with sp := s.cpu.sp + 1, p := pulledStatus r.1, pc := s.cpu.pc + 1, cycRem := base } }) := by
  rw [implied, pullP, pull_advance]
  rfl

/-! ## The four instructions -/

/-- The fetch leaves A as it was. -/
theorem exec_pha (s : State) : exec .pha s = .next (implied (s.cfg.baseCost 0x48) (push s.cpu.a) s) := rfl

/-- The fetch leaves P as it was. -/
theorem exec_php (s : State) :
    exec .php s = .next (implied (s.cfg.baseCost 0x08) (push (pushedByInstruction s.cpu.p)) s) := rfl

/-- Settles O9: each instruction is the push of its byte, and at a place in RAM that is a write of RAM. -/
theorem pushesWriteOneStackByte : Obligations.PushesWriteOneStackByte := by
  unfold Obligations.PushesWriteOneStackByte
  rintro i s (rfl | rfl) op
  · refine ⟨rfl, rfl, s.cpu.a, ?_, cpuWrite_stackPlace_zero s _, fun _ => rfl, nofun⟩
    rw [exec_pha, implied_push]
    rfl
  · refine ⟨rfl, rfl, pushedByInstruction s.cpu.p, ?_, cpuWrite_stackPlace_zero s _, nofun, fun _ => getFlag_pushedByInstruction s.cpu.p⟩
    rw [exec_php, implied_push]
    rfl

/-- Settles O10: each instruction is one pull, whose byte goes to A or to P, and at a place in RAM that is a read of RAM. -/
theorem pullsReadOneStackByte : Obligations.PullsReadOneStackByte := by
  unfold Obligations.PullsReadOneStackByte
  rintro i s (rfl | rfl) op r
  · exact ⟨rfl, rfl, cpuRead_stackPlace s 1, setZN s.cpu.p r.1, congrArg Host.Outcome.next (implied_pullA _ s),
      flagsAre_setZN s.cpu.p r.1⟩
  · exact ⟨rfl, rfl, cpuRead_stackPlace s 1, pulledStatus r.1, congrArg Host.Outcome.next (implied_pullP _ s),
      getFlag_pulledStatus r.1⟩

end Sys2Proof.Machine
end

section
/-!
SUPPORT and PROOF. Addition, subtraction, compares and counts (R190 to R201): a row of the rules is tied to its meaning once, what the meaning does
to the CPU is one equation per operand form, and the numbers are those of the sum modulo 256.
-/

namespace Sys2Proof.Machine

/-! ## An operation on the CPU alone, under each operand form -/

/-- An operation that reads its operand and then changes the CPU alone sees the CPU as it was, but for PC. -/
theorem withSource_onCpu {f : Byte → State → State} {g : Byte → Cpu → Cpu} (hf : ∀ v u, f v u = { u with cpu := g v u.cpu }) (base : Nat)
    (src : Source) (s : State) :
    withSource base src f s =
      (let n := src.operand.length
       let o := readSource src (s.advance n)
       { o.state with
         cpu := { g o.val { s.cpu with pc := s.cpu.pc + BitVec.ofNat 16 n } with cycRem := base + o.extra } }) := by
  simp only [withSource, hf, readSource_cpu, State.advance_cpu, State.setCycRem]

/-- A read-modify-write reads P as it was, and writes it after both bus accesses (R213). -/
theorem modifyMem_eq (base : Nat) (m : Addressing) (f : Byte → Byte → Byte × Byte) (s : State) :
    modifyMem base m f s =
      (let e := effective m (s.advance m.length)
       let r := cpuRead e.addr (s.advance m.length)
       let b := f r.1 s.cpu.p
       { cpuWrite e.addr b.1 r.2 with
         cpu := { s.cpu with p := b.2, pc := s.cpu.pc + BitVec.ofNat 16 m.length, cycRem := base + e.extra } }) := by
  simp only [modifyMem, effective_state, cpuRead_cpu, State.advance_cpu, State.setP, State.setCycRem, cpuWrite_cpu]

/-! ## ADC and SBC -/

/-- C and V as the addition gives them, Z and N from its result, and the other four flags as they were. -/
theorem flagsAre_addFlags (p : Byte) (r : AddResult) : FlagsAre (addFlags p r) (cvznFlags p r.result r.carry r.overflow) := by
  intro f
  rw [getFlag_addFlags, byte_bit7, byte_beq_zero]
  cases f <;> rfl

theorem adc_meaning {i : Instr} {row : Reading} (h : adcRow i = some row) :
    i.opcode = row.op ∧ configAtReset.baseCost row.op = row.cycles ∧
      ∀ s, exec i s = .next (withSource (s.cfg.baseCost row.op) row.src addToA s) := by
  unfold adcRow at h
  split at h <;> cases h <;> exact ⟨rfl, rfl, fun _ => rfl⟩

theorem sbc_meaning {i : Instr} {row : Reading} (h : sbcRow i = some row) :
    i.opcode = row.op ∧ configAtReset.baseCost row.op = row.cycles ∧
      ∀ s, exec i s = .next (withSource (s.cfg.baseCost row.op) row.src subtractFromA s) := by
  unfold sbcRow at h
  split at h <;> cases h <;> exact ⟨rfl, rfl, fun _ => rfl⟩

/-- The operand is added as `k` gives it: as it was read for ADC, its complement for SBC. -/
theorem withSource_add (k : Byte → Byte) (base : Nat) (src : Source) (s : State) :
    withSource base src (fun m => addToA (k m)) s =
      (let n := src.operand.length
       let o := readSource src (s.advance n)
       let r := addWithCarry s.cpu.a (k o.val) (getFlag s.cpu.p .C)
       { o.state with
         cpu := { s.cpu with
           a := r.result, p := addFlags s.cpu.p r, pc := s.cpu.pc + BitVec.ofNat 16 n, cycRem := base + o.extra } }) :=
  withSource_onCpu (g := fun m c =>
    let r := addWithCarry c.a (k m) (getFlag c.p .C)
    { c with a := r.result, p := addFlags c.p r }) (fun _ _ => rfl) base src s

/-- Settles O11: the row's meaning is `addToA`, whose carry and overflow are those of the exact sums. -/
theorem adcAddsWithCarry : Obligations.AdcAddsWithCarry := by
  unfold Obligations.AdcAddsWithCarry
  intro i row s h n o c t signed
  obtain ⟨hop, hcycles, hexec⟩ := adc_meaning h
  let r := addWithCarry s.cpu.a o.val (getFlag s.cpu.p .C)
  have hcarry : r.carry = decide (255 < t) := addWithCarry_carry _ _ _
  have hoverflow : r.overflow = decide (signed < -128 ∨ 127 < signed) := addWithCarry_overflow_signed _ _ _
  refine ⟨hop, hcycles, r.result, addFlags s.cpu.p r, ?_, addWithCarry_result _ _ _, ?_⟩
  · exact (hexec s).trans (congrArg Host.Outcome.next (withSource_add id _ row.src s))
  · rw [← hcarry, ← hoverflow]
    exact flagsAre_addFlags s.cpu.p r

/-! The difference, as the sum with the complement (R192): the complement of `m` is `255 - m`, read as signed `-1 - m`. -/

section Difference

variable (a m : Byte) (c : Bool)

theorem addWithCarry_complement_result :
    ((addWithCarry a (m ^^^ 0xFF) c).result.toNat : Int) = ((a.toNat : Int) - m.toNat - (!c).toNat) % 256 := by
  rw [addWithCarry_result, complement_toNat]
  have hm := m.isLt
  cases c <;> simp only [Bool.not_false, Bool.not_true, Bool.toNat_false, Bool.toNat_true] <;> omega

theorem addWithCarry_complement_carry :
    (addWithCarry a (m ^^^ 0xFF) c).carry = decide (m.toNat + (!c).toNat ≤ a.toNat) := by
  rw [addWithCarry_carry, complement_toNat, decide_eq_decide]
  have hm := m.isLt
  cases c <;> simp only [Bool.not_false, Bool.not_true, Bool.toNat_false, Bool.toNat_true] <;> omega

theorem addWithCarry_complement_overflow :
    (addWithCarry a (m ^^^ 0xFF) c).overflow =
      decide (a.toInt - m.toInt - (!c).toNat < -128 ∨ 127 < a.toInt - m.toInt - (!c).toNat) := by
  rw [addWithCarry_overflow_signed, complement_toInt, decide_eq_decide]
  cases c <;> simp only [Bool.not_false, Bool.not_true, Bool.toNat_false, Bool.toNat_true] <;> omega

end Difference

/-- Settles O12: the row's meaning is `addToA` of the complement, whose carry and overflow are those of the exact differences. -/
theorem sbcSubtractsWithBorrow : Obligations.SbcSubtractsWithBorrow := by
  unfold Obligations.SbcSubtractsWithBorrow
  intro i row s h n o borrow signed
  obtain ⟨hop, hcycles, hexec⟩ := sbc_meaning h
  let r := addWithCarry s.cpu.a (o.val ^^^ 0xFF) (getFlag s.cpu.p .C)
  have hcarry : r.carry = decide (o.val.toNat + borrow ≤ s.cpu.a.toNat) := addWithCarry_complement_carry _ _ _
  have hoverflow : r.overflow = decide (signed < -128 ∨ 127 < signed) := addWithCarry_complement_overflow _ _ _
  refine ⟨hop, hcycles, r.result, addFlags s.cpu.p r, ?_, addWithCarry_complement_result _ _ _, ?_⟩
  · exact (hexec s).trans (congrArg Host.Outcome.next (withSource_add (· ^^^ 0xFF) _ row.src s))
  · rw [← hcarry, ← hoverflow]
    exact flagsAre_addFlags s.cpu.p r

/-! ## Compares -/

/-- C from the unsigned comparison, Z and N from the difference, and the other five flags as they were. -/
theorem flagsAre_compareFlags (p r m : Byte) :
    FlagsAre (compareFlags p r m) (cznFlags p (r - m) (decide (m.toNat ≤ r.toNat))) := by
  intro f
  rw [getFlag_compareFlags, byte_bit7, byte_beq_zero]
  cases f <;> rfl

theorem compare_meaning {i : Instr} {r : Reg} {row : Reading} (h : compareRow i = some (r, row)) :
    i.opcode = row.op ∧ configAtReset.baseCost row.op = row.cycles ∧
      ∀ s, exec i s = .next (compareReg r (s.cfg.baseCost row.op) row.src s) := by
  unfold compareRow at h
  split at h <;> cases h <;> exact ⟨rfl, rfl, fun _ => rfl⟩

theorem State.reg_eq_get (s : State) (r : Reg) : s.reg r = s.cpu.get r := by
  cases r <;> rfl

theorem Cpu.get_withPc (c : Cpu) (r : Reg) (w : Word) : { c with pc := w }.get r = c.get r := by
  cases r <;> rfl

theorem compareReg_eq (r : Reg) (base : Nat) (src : Source) (s : State) :
    compareReg r base src s =
      (let n := src.operand.length
       let o := readSource src (s.advance n)
       { o.state with
         cpu := { s.cpu with
           p := compareFlags s.cpu.p (s.cpu.get r) o.val, pc := s.cpu.pc + BitVec.ofNat 16 n, cycRem := base + o.extra } }) := by
  rw [compareReg, withSource_onCpu (g := fun m c => { c with p := compareFlags c.p (c.get r) m })
    (fun m u => by rw [State.reg_eq_get, State.setP])]
  simp only [Cpu.get_withPc]

theorem sub_toNat_emod (x y : Byte) : ((x - y).toNat : Int) = ((x.toNat : Int) - y.toNat) % 256 := by
  rw [BitVec.toNat_sub]
  have hy := y.isLt
  omega

/-- Settles O13: a row's meaning is `compareReg`, whose equation this is. -/
theorem comparesSetCarryZeroNegative : Obligations.ComparesSetCarryZeroNegative := by
  unfold Obligations.ComparesSetCarryZeroNegative
  intro i r row s h n o
  obtain ⟨hop, hcycles, hexec⟩ := compare_meaning h
  refine ⟨hop, hcycles, s.cpu.get r - o.val, _, ?_, sub_toNat_emod _ _, flagsAre_compareFlags s.cpu.p _ o.val⟩
  rw [hexec, compareReg_eq]

/-! ## Counts -/

/-- One less is 255 more, modulo 256. -/
theorem sub_one_eq_add (x : Byte) : x - 1 = x + BitVec.ofNat 8 255 :=
  BitVec.sub_eq_add_neg x 1

theorem add_ofNat_toNat (x : Byte) (k : Nat) : (x + BitVec.ofNat 8 k).toNat = (x.toNat + k) % 256 := by
  rw [BitVec.toNat_add, BitVec.toNat_ofNat, Nat.add_mod_mod]

/-- The byte `k` more, and P with Z and N from it: what INC and DEC make of a byte (R196, R199). -/
def countByte (k : Nat) (m p : Byte) : Byte × Byte :=
  (m + BitVec.ofNat 8 k, setZN p (m + BitVec.ofNat 8 k))

theorem decByte_eq : decByte = countByte 255 := by
  funext m p
  rw [decByte, countByte, sub_one_eq_add]

theorem count_meaning {i : Instr} {k : Nat} {row : Writing} (h : countRow i = some (k, row)) :
    i.opcode = row.op ∧ configAtReset.baseCost row.op = row.cycles ∧
      ∀ s, exec i s = .next (modifyMem (s.cfg.baseCost row.op) row.at_ (countByte k) s) := by
  unfold countRow at h
  split at h <;> cases h
  case h_1 | h_2 | h_3 | h_4 => exact ⟨rfl, rfl, fun _ => rfl⟩
  all_goals exact ⟨rfl, rfl, fun _ => by rw [← decByte_eq]; rfl⟩

/-- Settles O14: a row's meaning is the read-modify-write by `countByte`. -/
theorem incDecMemoryReadThenWrite : Obligations.IncDecMemoryReadThenWrite := by
  unfold Obligations.IncDecMemoryReadThenWrite
  intro i k row s h n e m
  obtain ⟨hop, hcycles, hexec⟩ := count_meaning h
  refine ⟨hop, hcycles, m.1 + BitVec.ofNat 8 k, _, ?_, add_ofNat_toNat m.1 k, flagsAre_setZN s.cpu.p _⟩
  rw [hexec, modifyMem_eq]
  rfl

theorem countRegister_meaning {i : Instr} {op : Byte} {r : Reg} {k : Nat} (h : countRegisterRow i = some (op, r, k)) :
    i.opcode = op ∧ configAtReset.baseCost op = 2 ∧
      ∀ s, exec i s = .next (implied (s.cfg.baseCost op) (fun u => u.setRegZN r (u.reg r + BitVec.ofNat 8 k)) s) := by
  unfold countRegisterRow at h
  split at h <;> cases h
  case h_1 | h_2 => exact ⟨rfl, rfl, fun _ => rfl⟩
  all_goals exact ⟨rfl, rfl, fun _ => by simp only [← sub_one_eq_add]; rfl⟩

theorem implied_count (r : Reg) (base k : Nat) (s : State) :
    implied base (fun u => u.setRegZN r (u.reg r + BitVec.ofNat 8 k)) s =
      (let t := s.cpu.get r + BitVec.ofNat 8 k
       { s with cpu := { s.cpu.put r t with p := setZN s.cpu.p t, pc := s.cpu.pc + 1, cycRem := base } }) := by
  cases r <;> rfl

/-- Settles O15: a row's meaning is `setRegZN` of the register's sum, whose equation is `implied_count`. -/
theorem incDecRegisterWraps : Obligations.IncDecRegisterWraps := by
  unfold Obligations.IncDecRegisterWraps
  intro i op r k s h
  obtain ⟨hop, hcycles, hexec⟩ := countRegister_meaning h
  refine ⟨hop, hcycles, s.cpu.get r + BitVec.ofNat 8 k, _, ?_, add_ofNat_toNat _ k, flagsAre_setZN s.cpu.p _⟩
  rw [hexec, implied_count]

end Sys2Proof.Machine
end

section
/-!
SUPPORT and PROOF. Logic, bit test, shifts and rotates (R205 to R213): a row of the rules is tied to its meaning once, the bits of a result are
those of the truth table, and its number is the one the rule states.
-/

namespace Sys2Proof.Machine

/-! ## AND, ORA, EOR -/

/-- What AND, ORA, EOR make of A and of the operand, as whole bytes (R205, R206, R207). -/
def BitOp.onBytes (w : BitOp) (x y : Byte) : Byte :=
  match w with
  | .and => x &&& y
  | .or => x ||| y
  | .xor => x ^^^ y

theorem BitOp.bit_eq (w : BitOp) (x y : Bool) :
    w.bit x y =
      match w with
      | .and => x && y
      | .or => x || y
      | .xor => x ^^ y := by
  cases w <;> cases x <;> cases y <;> rfl

/-- The operation on bytes follows the truth table in every bit. -/
theorem BitOp.getLsbD_onBytes (w : BitOp) (x y : Byte) (k : Nat) :
    (w.onBytes x y).getLsbD k = w.bit (x.getLsbD k) (y.getLsbD k) := by
  rw [BitOp.bit_eq]
  cases w
  case and => exact BitVec.getLsbD_and
  case or => exact BitVec.getLsbD_or
  case xor => exact BitVec.getLsbD_xor

theorem logic_meaning {i : Instr} {w : BitOp} {row : Reading} (h : logicRow i = some (w, row)) :
    i.opcode = row.op ∧ configAtReset.baseCost row.op = row.cycles ∧
      ∀ s, exec i s =
        .next (withSource (s.cfg.baseCost row.op) row.src (fun m u => u.setRegZN .a (w.onBytes u.cpu.a m)) s) := by
  unfold logicRow at h
  split at h <;> cases h <;> exact ⟨rfl, rfl, fun _ => rfl⟩

theorem withSource_logic (w : BitOp) (base : Nat) (src : Source) (s : State) :
    withSource base src (fun m u => u.setRegZN .a (w.onBytes u.cpu.a m)) s =
      (let n := src.operand.length
       let o := readSource src (s.advance n)
       let r := w.onBytes s.cpu.a o.val
       { o.state with
         cpu := { s.cpu with a := r, p := setZN s.cpu.p r, pc := s.cpu.pc + BitVec.ofNat 16 n, cycRem := base + o.extra } }) :=
  withSource_onCpu (g := fun m c => { c with a := w.onBytes c.a m, p := setZN c.p (w.onBytes c.a m) }) (fun _ _ => rfl) base src s

/-- Settles O16: a row's meaning writes `onBytes` of A and the operand, whose bits are the truth table's. -/
theorem logicCombinesBits : Obligations.LogicCombinesBits := by
  unfold Obligations.LogicCombinesBits
  intro i w row s h n o
  obtain ⟨hop, hcycles, hexec⟩ := logic_meaning h
  refine ⟨hop, hcycles, w.onBytes s.cpu.a o.val, _, ?_, w.getLsbD_onBytes _ _, flagsAre_setZN s.cpu.p _⟩
  rw [hexec, withSource_logic]

/-! ## BIT -/

/-- A conjunction of bytes is zero when they have no bit in common. -/
theorem and_beq_zero_iff (x y : Byte) : (x &&& y == 0x00) = true ↔ ∀ k, (x.getLsbD k && y.getLsbD k) = false := by
  simp only [beq_iff_eq, ← BitVec.getLsbD_and]
  constructor
  · intro h k
    rw [h]
    exact BitVec.getLsbD_zero
  · intro h
    exact BitVec.eq_of_getLsbD_eq fun k _ => (h k).trans BitVec.getLsbD_zero.symm

theorem bit_meaning {i : Instr} {row : Reading} (h : bitRow i = some row) :
    i.opcode = row.op ∧ configAtReset.baseCost row.op = row.cycles ∧
      ∀ s, exec i s =
        .next (withSource (s.cfg.baseCost row.op) row.src (fun m u => u.setP (bitFlags u.cpu.p u.cpu.a m)) s) := by
  unfold bitRow at h
  split at h <;> cases h <;> exact ⟨rfl, rfl, fun _ => rfl⟩

theorem withSource_bit (base : Nat) (src : Source) (s : State) :
    withSource base src (fun m u => u.setP (bitFlags u.cpu.p u.cpu.a m)) s =
      (let n := src.operand.length
       let o := readSource src (s.advance n)
       { o.state with
         cpu := { s.cpu with
           p := bitFlags s.cpu.p s.cpu.a o.val, pc := s.cpu.pc + BitVec.ofNat 16 n, cycRem := base + o.extra } }) :=
  withSource_onCpu (g := fun m c => { c with p := bitFlags c.p c.a m }) (fun _ _ => rfl) base src s

/-- Settles O17: a row's meaning writes `bitFlags` alone, whose flags are read off one by one. -/
theorem bitTestsOperand : Obligations.BitTestsOperand := by
  unfold Obligations.BitTestsOperand
  intro i row s h n o
  obtain ⟨hop, hcycles, hexec⟩ := bit_meaning h
  refine ⟨hop, hcycles, bitFlags s.cpu.p s.cpu.a o.val, ?_, ?_, getFlag_bitFlags _ _ _ .N, getFlag_bitFlags _ _ _ .V, ?_⟩
  · rw [hexec, withSource_bit]
  · rw [getFlag_bitFlags]
    exact and_beq_zero_iff s.cpu.a o.val
  · intro f hz hn hv
    exact bitFlags_kept f (by simp [hz, hn, hv])

/-! ## The byte a shift or rotate makes -/

/-- The model's operation of each shift and rotate, on a byte and P. -/
def ShiftOp.onByte (w : ShiftOp) : Byte → Byte → ShiftResult :=
  match w with
  | .asl => aslOp
  | .lsr => lsrOp
  | .rol => rolOp
  | .ror => rorOp

theorem byte_bit0 (v : Byte) : v.getLsbD 0 = decide (v.toNat % 2 = 1) :=
  Nat.testBit_zero v.toNat

theorem shiftLeft_one_toNat (m : Byte) : (m <<< 1).toNat = m.toNat * 2 % 256 := by
  rw [BitVec.toNat_shiftLeft, Nat.shiftLeft_eq]

theorem shiftRight_one_toNat (m : Byte) : (m >>> 1).toNat = m.toNat / 2 := by
  rw [BitVec.toNat_ushiftRight, Nat.shiftRight_eq_div_pow]

theorem carryByte_toNat (c : Bool) : ((BitVec.ofBool c).setWidth 8 : Byte).toNat = c.toNat := by
  cases c <;> rfl

/-- The carry enters bit 0, which the shift left empty: the two bytes add up (R211). -/
theorem rolByte_result_toNat (m : Byte) (c : Bool) : (rolByte m c).result.toNat = (m.toNat * 2 + c.toNat) % 256 := by
  have hdisjoint : m <<< 1 &&& (BitVec.ofBool c).setWidth 8 = 0#8 := by
    ext k hk
    cases c <;> simp +contextual
  rw [rolByte, ← BitVec.add_eq_or_of_and_eq_zero _ _ hdisjoint, BitVec.toNat_add, shiftLeft_one_toNat, carryByte_toNat,
    Nat.mod_add_mod]

/-- The carry enters bit 7, which the shift left empty: the two bytes add up (R212). -/
theorem rorByte_result_toNat (m : Byte) (c : Bool) : (rorByte m c).result.toNat = m.toNat / 2 + 128 * c.toNat := by
  have hdisjoint : m >>> 1 &&& (BitVec.ofBool c).setWidth 8 <<< 7 = 0#8 := by
    ext k hk
    rcases Nat.lt_or_ge k 7 with hlow | hhigh
    · simp [hlow]
    · simp [BitVec.getLsbD_of_ge m (1 + k) (by omega)]
  have hm := m.isLt
  rw [rorByte, ← BitVec.add_eq_or_of_and_eq_zero _ _ hdisjoint, BitVec.toNat_add, shiftRight_one_toNat, BitVec.toNat_shiftLeft,
    carryByte_toNat, Nat.shiftLeft_eq]
  cases c <;> simp only [Bool.toNat_false, Bool.toNat_true] <;> omega

theorem ShiftOp.onByte_result (w : ShiftOp) (m p : Byte) : (w.onByte m p).result.toNat = w.value m (getFlag p .C) := by
  cases w
  case asl => exact shiftLeft_one_toNat m
  case lsr => exact shiftRight_one_toNat m
  case rol => exact rolByte_result_toNat m _
  case ror => exact rorByte_result_toNat m _

theorem ShiftOp.onByte_carry (w : ShiftOp) (m p : Byte) : (w.onByte m p).carry = w.out m := by
  cases w
  case asl | rol => exact byte_bit7 m
  case lsr | ror => exact byte_bit0 m

/-- C as the shift gives it, Z and N from the result, and the other five flags as they were. -/
theorem flagsAre_shiftFlags (p : Byte) (r : ShiftResult) : FlagsAre (shiftFlags p r) (cznFlags p r.result r.carry) := by
  intro f
  rw [getFlag_shiftFlags, byte_bit7, byte_beq_zero]
  cases f <;> rfl

/-- C is the bit shifted out. -/
theorem flagsAre_shift (w : ShiftOp) (m p : Byte) :
    FlagsAre (shiftFlags p (w.onByte m p)) (cznFlags p (w.onByte m p).result (w.out m)) := by
  rw [← w.onByte_carry m p]
  exact flagsAre_shiftFlags p _

/-! ## Shifts and rotates of A and of memory -/

theorem shiftAcc_meaning {i : Instr} {w : ShiftOp} {op : Byte} (h : shiftAccRow i = some (w, op)) :
    i.opcode = op ∧ configAtReset.baseCost op = 2 ∧ ∀ s, exec i s = .next (shift (s.cfg.baseCost op) .acc w.onByte s) := by
  unfold shiftAccRow at h
  split at h <;> cases h <;> exact ⟨rfl, rfl, fun _ => rfl⟩

theorem shiftMem_meaning {i : Instr} {w : ShiftOp} {row : Writing} (h : shiftMemRow i = some (w, row)) :
    i.opcode = row.op ∧ configAtReset.baseCost row.op = row.cycles ∧
      ∀ s, exec i s = .next (shift (s.cfg.baseCost row.op) (.mem row.at_) w.onByte s) := by
  unfold shiftMemRow at h
  split at h <;> cases h <;> exact ⟨rfl, rfl, fun _ => rfl⟩

theorem shift_acc (base : Nat) (f : Byte → Byte → ShiftResult) (s : State) :
    shift base .acc f s =
      (let r := f s.cpu.a s.cpu.p
       { s with cpu := { s.cpu with a := r.result, p := shiftFlags s.cpu.p r, pc := s.cpu.pc + 1, cycRem := base } }) := rfl

theorem shift_mem (base : Nat) (m : Addressing) (f : Byte → Byte → ShiftResult) (s : State) :
    shift base (.mem m) f s =
      (let e := effective m (s.advance m.length)
       let b := cpuRead e.addr (s.advance m.length)
       let r := f b.1 s.cpu.p
       { cpuWrite e.addr r.result b.2 with
         cpu := { s.cpu with
           p := shiftFlags s.cpu.p r, pc := s.cpu.pc + BitVec.ofNat 16 m.length, cycRem := base + e.extra } }) :=
  modifyMem_eq base m (fun b p => ((f b p).result, shiftFlags p (f b p))) s

/-- Settles O18: a row's meaning is the shift of A, whose byte and carry are the rule's. -/
theorem shiftsOfAccumulator : Obligations.ShiftsOfAccumulator := by
  unfold Obligations.ShiftsOfAccumulator
  intro i w op s h
  obtain ⟨hop, hcycles, hexec⟩ := shiftAcc_meaning h
  refine ⟨hop, hcycles, (w.onByte s.cpu.a s.cpu.p).result, _, ?_, w.onByte_result s.cpu.a s.cpu.p, flagsAre_shift w s.cpu.a s.cpu.p⟩
  rw [hexec, shift_acc]

/-- Settles O19: a row's meaning is the read-modify-write by the shift, whose byte and carry are the rule's. -/
theorem shiftsOfMemory : Obligations.ShiftsOfMemory := by
  unfold Obligations.ShiftsOfMemory
  intro i w row s h n e m
  obtain ⟨hop, hcycles, hexec⟩ := shiftMem_meaning h
  refine ⟨hop, hcycles, (w.onByte m.1 s.cpu.p).result, _, ?_, w.onByte_result m.1 s.cpu.p, flagsAre_shift w m.1 s.cpu.p⟩
  rw [hexec, shift_mem]

end Sys2Proof.Machine
end

section
/-!
SUPPORT and PROOF. Jumps, subroutine call and return, branches (R215 to R226): each meaning is one equation on the state before the fetch has moved
PC, and the addresses in it are the numbers the rules state.
-/

namespace Sys2Proof.Machine

/-! ## Jumps -/

theorem loByte_toNat (w : Word) : (loByte w).toNat = w.toNat % 256 :=
  BitVec.toNat_setWidth 8 w

/-- The second place of a pointer lies in the page of the first (R144). -/
theorem wordOf_hiByte_loByte_succ_toNat (w : Word) :
    (wordOf (hiByte w) (loByte w + 1)).toNat = w.toNat / 256 * 256 + (w.toNat + 1) % 256 := by
  rw [wordOf_toNat, hiByte_toNat, add_one_toNat, loByte_toNat, Nat.mod_add_mod]

theorem jump_eq (base : Nat) (a : Word) (s : State) :
    jump base a s = { s with cpu := { s.cpu with pc := a, cycRem := base } } := rfl

theorem jumpIndirect_eq (base : Nat) (a : Word) (s : State) :
    jumpIndirect base a s =
      (let lo := cpuRead a (s.advance 3)
       let hi := cpuRead (wordOf (hiByte a) (loByte a + 1)) lo.2
       { hi.2 with cpu := { s.cpu with pc := wordOf hi.1 lo.1, cycRem := base } }) := by
  simp only [jumpIndirect, indirectTarget, readPair, State.setPc, State.setCycRem, cpuRead_cpu, State.advance_cpu]

/-- Settles O20: each form is its jump, whose equation this is. -/
theorem jumpsLoadPc : Obligations.JumpsLoadPc := by
  unfold Obligations.JumpsLoadPc
  intro a s
  exact ⟨rfl, rfl, rfl, rfl, congrArg Host.Outcome.next (jump_eq _ a s), _, _, wordOf_hiByte_loByte_succ_toNat a,
    wordOf_toNat _ _, congrArg Host.Outcome.next (jumpIndirect_eq _ a s)⟩

/-! ## Subroutine call and return -/

/-- The place below S is the 255th above it (R11). -/
theorem stackPlace_255 (s : State) : stackPlace s 255 = stackAddr s (s.cpu.sp - 1) := by
  rw [stackPlace_eq, BitVec.sub_eq_add_neg]
  rfl

theorem stackWord_advance (w : Word) (s : State) (n : Nat) :
    stackWord w (s.advance n) =
      { cpuWrite (stackPlace s 255) (loByte w) (cpuWrite (stackPlace s 0) (hiByte w) s) with cpu := (s.advance n).cpu } := by
  rw [stackPlace_255, stackPlace_eq, BitVec.add_zero, ← cpuWrite_withCpu, ← cpuWrite_withCpu]
  rfl

theorem callSubroutine_eq (base : Nat) (a : Word) (s : State) :
    callSubroutine base a s =
      (let w := s.cpu.pc + 2
       { cpuWrite (stackPlace s 255) (loByte w) (cpuWrite (stackPlace s 0) (hiByte w) s) with
         cpu := { s.cpu with sp := s.cpu.sp - 2, pc := a, cycRem := base } }) := by
  have hlast : s.cpu.pc + 3#16 - 1 = s.cpu.pc + 2 := by bv_omega
  have hsp : s.cpu.sp - 1 - 1 = s.cpu.sp - 2 := by bv_omega
  simp only [callSubroutine, push16_eq, stackWord_advance, State.setPc, State.setCycRem, State.advance_cpu, hlast, hsp]

/-- Settles O21: the two bytes pushed are those of the address of JSR's third byte. -/
theorem jsrPushesItsLastAddress : Obligations.JsrPushesItsLastAddress := by
  unfold Obligations.JsrPushesItsLastAddress
  intro a s
  refine ⟨rfl, rfl, hiByte (s.cpu.pc + 2), loByte (s.cpu.pc + 2), ?_, congrArg Host.Outcome.next (callSubroutine_eq _ a s)⟩
  rw [← wordOf_toNat, wordOf_hiByte_loByte]
  exact BitVec.toNat_add s.cpu.pc 2

theorem pull16_advance (s : State) (n : Nat) :
    pull16 (s.advance n) =
      (let lo := cpuRead (stackPlace s 1) s
       let hi := cpuRead (stackPlace s 2) lo.2
       (wordOf hi.1 lo.1, { hi.2 with cpu := { s.cpu with sp := s.cpu.sp + 2, pc := s.cpu.pc + BitVec.ofNat 16 n } })) := by
  have hsp : s.cpu.sp + 1 + 1 = s.cpu.sp + 2 := BitVec.add_assoc s.cpu.sp 1 1
  have hlo : stackPlace s 1 = stackAddr s (s.cpu.sp + 1) := stackPlace_eq s 1
  have hhi : stackPlace s 2 = stackAddr s (s.cpu.sp + 2) := stackPlace_eq s 2
  simp only [pull16_eq, unstackWord, State.advance, State.setPc, stackAddr_withCpu, cpuRead_withCpu, hsp, hlo, hhi]

theorem implied_returnFromSubroutine (base : Nat) (s : State) :
    implied base returnFromSubroutine s =
      (let lo := cpuRead (stackPlace s 1) s
       let hi := cpuRead (stackPlace s 2) lo.2
       { hi.2 with cpu := { s.cpu with sp := s.cpu.sp + 2, pc := wordOf hi.1 lo.1 + 1, cycRem := base } }) := by
  rw [implied, returnFromSubroutine, pull16_advance]
  rfl

/-- Settles O22: RTS is one 16-bit pull, and PC the word pulled plus one. -/
theorem rtsReturnsOnePastPulled : Obligations.RtsReturnsOnePastPulled := by
  unfold Obligations.RtsReturnsOnePastPulled
  intro s
  refine ⟨rfl, rfl, _, ?_, congrArg Host.Outcome.next (implied_returnFromSubroutine _ s)⟩
  rw [BitVec.toNat_add, wordOf_toNat]
  rfl

/-! ## Branches -/

theorem branch_meaning {i : Instr} {op : Byte} {f : Flag} {want : Bool} {d : Byte} (h : branchRow i = some (op, f, want, d)) :
    i.opcode = op ∧ configAtReset.baseCost op = 2 ∧ ∀ s, exec i s = .next (branch f want (s.cfg.baseCost op) d s) := by
  unfold branchRow at h
  split at h <;> cases h <;> exact ⟨rfl, rfl, fun _ => rfl⟩

/-- The offset is added as a signed number, modulo 65536 (R132). -/
theorem branchTarget_toNat (next : Word) (d : Byte) :
    ((branchTarget next d).toNat : Int) = ((next.toNat : Int) + d.toInt) % 65536 := by
  rw [branchTarget, BitVec.toNat_add, BitVec.signExtend, BitVec.toNat_ofInt]
  omega

/-- A taken branch costs a cycle more, and another one when its target lies in another page than the next instruction (R218). -/
theorem branchCost_eq (base : Nat) (next target : Word) :
    base + 1 + pageCross next target = base + if next.toNat / 256 = target.toNat / 256 then 1 else 2 := by
  rw [pageCross_eq]
  by_cases hpage : next.toNat / 256 = target.toNat / 256
  · rw [if_pos hpage, if_pos hpage.symm]
  · rw [if_neg hpage, if_neg (Ne.symm hpage)]

theorem branch_eq (f : Flag) (want : Bool) (base : Nat) (d : Byte) (s : State) :
    branch f want base d s =
      (let next := s.cpu.pc + 2
       let target := branchTarget next d
       if getFlag s.cpu.p f = want then
         { s with cpu := { s.cpu with
             pc := target, cycRem := base + if next.toNat / 256 = target.toNat / 256 then 1 else 2 } }
       else { s with cpu := { s.cpu with pc := next, cycRem := base } }) := by
  simp only [← branchCost_eq]
  rfl

/-- Settles O23: a row's meaning is `branch`, whose equation this is. -/
theorem branchesOnOneFlag : Obligations.BranchesOnOneFlag := by
  unfold Obligations.BranchesOnOneFlag
  intro i op f want d s h
  obtain ⟨hop, hcycles, hexec⟩ := branch_meaning h
  refine ⟨hop, hcycles, s.cpu.pc + 2, branchTarget (s.cpu.pc + 2) d, BitVec.toNat_add s.cpu.pc 2, branchTarget_toNat _ d, ?_⟩
  rw [hexec, branch_eq]

end Sys2Proof.Machine
end

section
/-!
SUPPORT and PROOF. The flag instructions, NOP, XXX, BRK and RTI (R230 to R243): the frame of an exception lies at the places of the stack page that
plain arithmetic names, and taking an exception and returning from one are one equation each on the state before the fetch has moved PC.
-/

namespace Sys2Proof.Machine

/-! ## Flag instructions -/

theorem flagsAre_setFlag (p : Byte) (f : Flag) (b : Bool) : FlagsAre (setFlag p f b) (oneFlag p f b) :=
  fun g => getFlag_setFlag p f g b

theorem flag_meaning {i : Instr} {op : Byte} {f : Flag} {b : Bool} (h : flagRow i = some (op, f, b)) :
    i.opcode = op ∧ configAtReset.baseCost op = 2 ∧ ∀ s, exec i s = .next (implied (s.cfg.baseCost op) (·.putFlag f b) s) := by
  unfold flagRow at h
  split at h <;> cases h <;> exact ⟨rfl, rfl, fun _ => rfl⟩

theorem implied_putFlag (base : Nat) (f : Flag) (b : Bool) (s : State) :
    implied base (·.putFlag f b) s =
      { s with cpu := { s.cpu with p := setFlag s.cpu.p f b, pc := s.cpu.pc + 1, cycRem := base } } := rfl

/-- Settles O24: a row's meaning is the write of its flag, which keeps the other seven. -/
theorem flagInstructionsWriteOneFlag : Obligations.FlagInstructionsWriteOneFlag := by
  unfold Obligations.FlagInstructionsWriteOneFlag
  intro i op f b s h
  obtain ⟨hop, hcycles, hexec⟩ := flag_meaning h
  refine ⟨hop, hcycles, setFlag s.cpu.p f b, ?_, flagsAre_setFlag s.cpu.p f b⟩
  rw [hexec, implied_putFlag]

/-! ## NOP and XXX -/

theorem implied_id (base : Nat) (s : State) :
    implied base (fun u => u) s = { s with cpu := { s.cpu with pc := s.cpu.pc + 1, cycRem := base } } := rfl

theorem implied_noteUnknown (base : Nat) (s : State) :
    implied base noteUnknown s =
      { s with cpu := { s.cpu with pc := s.cpu.pc + 1, cycRem := base, diagUnknown := true } } := rfl

/-- Settles O25: the fetch moves PC, and the meaning of XXX beside it is the diagnostic bit. -/
theorem nopAndUnmappedSkipOneByte : Obligations.NopAndUnmappedSkipOneByte := by
  unfold Obligations.NopAndUnmappedSkipOneByte
  intro op s
  exact ⟨rfl, rfl, rfl, congrArg Host.Outcome.next (implied_id _ s), congrArg Host.Outcome.next (implied_noteUnknown 2 s)⟩

/-! ## Taking an exception -/

theorem wordOf_toNat_low_first (hi lo : Byte) : (wordOf hi lo).toNat = lo.toNat + 256 * hi.toNat := by
  rw [wordOf_toNat]
  omega

/-- The second place below S is the 254th above it (R11). -/
theorem stackPlace_254 (s : State) : stackPlace s 254 = stackAddr s (s.cpu.sp - 1 - 1) := by
  have hsp : s.cpu.sp + BitVec.ofNat 8 254 = s.cpu.sp - 1 - 1 := by bv_omega
  rw [stackPlace_eq, hsp]

/-- The stores of an exception are the three writes at S and below it. -/
theorem exceptionStores_eq (e : Event) (s : State) :
    exceptionStores e s =
      (let w := e.returnAddr s.cpu.pc
       afterSaving s (hiByte w) (loByte w) (e.pushedStatus s.cpu.p)) := by
  rw [exceptionStores, stackWord, afterSaving, stackPlace_254, stackPlace_255, stackPlace_eq, BitVec.add_zero]

theorem stackPlace_withCpu (s : State) (c : Cpu) (n : Nat) (hsp : c.sp = s.cpu.sp) :
    stackPlace { s with cpu := c } n = stackPlace s n := by
  rw [stackPlace, stackPlace, hsp]

/-- Of the CPU, only S has a part in where the frame goes. -/
theorem afterSaving_withCpu (s : State) (c : Cpu) (hi lo status : Byte) (hsp : c.sp = s.cpu.sp) :
    afterSaving { s with cpu := c } hi lo status = { afterSaving s hi lo status with cpu := c } := by
  simp only [afterSaving, stackPlace_withCpu s c _ hsp, cpuWrite_withCpu]

/-- Taking an exception after a change of the CPU that keeps S, such as the fetch: the frame, the two reads of the vector with the frame already
in place, and then the registers. -/
theorem takeException_withCpu (e : Event) (s : State) (c : Cpu) (hsp : c.sp = s.cpu.sp) :
    takeException e { s with cpu := c } =
      (let w := e.returnAddr c.pc
       let vl := cpuRead (e.vector s.cfg) (afterSaving s (hiByte w) (loByte w) (e.pushedStatus c.p))
       let vh := cpuRead (e.vector s.cfg + 1) vl.2
       { vh.2 with
         cpu := { c with sp := c.sp - 3, p := setFlag (e.liveStatus c.p) .I true, pc := wordOf vh.1 vl.1 } }) := by
  have hthree : c.sp - 1 - 1 - 1 = c.sp - 3 := by bv_omega
  simp only [takeException_eq, exceptionStores_eq, afterSaving_withCpu s c _ _ _ hsp, read16_withCpu, hthree]
  rfl

/-! ## BRK -/

theorem implied_takeException_brk (base : Nat) (s : State) :
    implied base (takeException .brk) s =
      (let w := s.cpu.pc + 2
       let vl := cpuRead s.cfg.irqVector (afterSaving s (hiByte w) (loByte w) (pushedByInstruction s.cpu.p))
       let vh := cpuRead (s.cfg.irqVector + 1) vl.2
       { vh.2 with
         cpu := { s.cpu with
           sp := s.cpu.sp - 3, p := setFlag (pushedByInstruction s.cpu.p) .I true, pc := wordOf vh.1 vl.1, cycRem := base } }) := by
  have hreturn : Event.brk.returnAddr (s.cpu.pc + 1#16) = s.cpu.pc + 2 := BitVec.add_assoc s.cpu.pc 1 1
  rw [implied, State.advance, State.setPc, takeException_withCpu .brk s { s.cpu with pc := s.cpu.pc + 1#16 } rfl, hreturn]
  rfl

/-- BRK sets B, U and I in the live P, and the other five flags are kept (R238). -/
theorem flagsAre_brkStatus (p : Byte) :
    FlagsAre (setFlag (pushedByInstruction p) .I true) (fun f => if f = .B ∨ f = .U ∨ f = .I then true else getFlag p f) := by
  intro f
  rw [getFlag_setFlag, getFlag_pushedByInstruction]
  cases f <;> rfl

/-- Settles O26: the bytes saved are those of the address two past the opcode and the status with B and U set. -/
theorem brkTakesTheSoftwareInterrupt : Obligations.BrkTakesTheSoftwareInterrupt := by
  unfold Obligations.BrkTakesTheSoftwareInterrupt
  intro s
  refine ⟨rfl, rfl, hiByte (s.cpu.pc + 2), loByte (s.cpu.pc + 2), pushedByInstruction s.cpu.p, _, _, ?_,
    getFlag_pushedByInstruction s.cpu.p, flagsAre_brkStatus s.cpu.p, wordOf_toNat_low_first _ _,
    congrArg Host.Outcome.next (implied_takeException_brk _ s)⟩
  rw [← wordOf_toNat, wordOf_hiByte_loByte]
  exact BitVec.toNat_add s.cpu.pc 2

/-! ## Returning from an exception -/

/-- Returning after a change of the CPU that keeps S, such as the fetch: P and then PC from the three places above S. -/
theorem returnFromException_withCpu (s : State) (c : Cpu) (hsp : c.sp = s.cpu.sp) :
    returnFromException { s with cpu := c } =
      (let p := cpuRead (stackPlace s 1) s
       let lo := cpuRead (stackPlace s 2) p.2
       let hi := cpuRead (stackPlace s 3) lo.2
       { hi.2 with cpu := { c with sp := c.sp + 3, p := pulledStatus p.1, pc := wordOf hi.1 lo.1 } }) := by
  have htwo : c.sp + 1 + 1 = c.sp + 2 := BitVec.add_assoc c.sp 1 1
  have hthree : c.sp + 2 + 1 = c.sp + 3 := BitVec.add_assoc c.sp 2 1
  have hplace (n : Nat) : stackPlace s n = stackAddr s (c.sp + BitVec.ofNat 8 n) := by rw [stackPlace_eq, hsp]
  simp only [returnFromException_eq, stackAddr_withCpu, cpuRead_withCpu, htwo, hthree, hplace]
  rfl

theorem implied_returnFromException (base : Nat) (s : State) :
    implied base returnFromException s =
      (let p := cpuRead (stackPlace s 1) s
       let lo := cpuRead (stackPlace s 2) p.2
       let hi := cpuRead (stackPlace s 3) lo.2
       { hi.2 with
         cpu := { s.cpu with sp := s.cpu.sp + 3, p := pulledStatus p.1, pc := wordOf hi.1 lo.1, cycRem := base } }) := by
  rw [implied, State.advance, State.setPc, returnFromException_withCpu s { s.cpu with pc := s.cpu.pc + 1#16 } rfl]
  rfl

/-- Settles O27: the three bytes pulled are P, PC's low byte and PC's high byte, and the fetch has no part in what is left. -/
theorem rtiRestoresStatusAndPc : Obligations.RtiRestoresStatusAndPc := by
  unfold Obligations.RtiRestoresStatusAndPc
  intro s
  exact ⟨rfl, rfl, _, _, getFlag_pulledStatus _, wordOf_toNat_low_first _ _, congrArg Host.Outcome.next (implied_returnFromException _ s)⟩

end Sys2Proof.Machine
end

section
/-!
SUPPORT and PROOF. A machine that may run always steps (R260, R453), and where the NMI latch comes from and goes (R263, R264, R306, R331): what a
step does to the latch and the line is said once, and each statement about them reads it off.
-/

namespace Sys2Proof.Machine

/-! ## Every step has an outcome -/

theorem runnable_iff (s : State) : runnable s = true ↔ ∀ c, s.cart = some c → c.valid = true := by
  unfold runnable
  cases s.cart with
  | none => exact iff_of_true rfl fun _ h => nomatch h
  | some c => exact ⟨fun h d hd => Option.some.inj hd ▸ h, fun h => h c rfl⟩

theorem step_next {s : State} (hrun : runnable s = true) : ∃ t, step s = .next t := by
  rcases step_forms s with ⟨hno, -⟩ | ⟨-, -, e⟩ | ⟨-, -, -, e⟩ | ⟨-, -, -, -, e⟩ | ⟨-, -, -, -, -, e⟩ | ⟨-, -, -, -, -, e⟩
  · exact absurd (hno.symm.trans hrun) Bool.false_ne_true
  · exact ⟨_, e⟩
  · exact ⟨_, e⟩
  · exact ⟨_, e⟩
  · exact ⟨_, e⟩
  · rw [exec_shape] at e
    exact ⟨_, e⟩

/-- Settles O35: every instruction has a next state, and a step is refused only for an invalid cartridge. -/
theorem theMachineNeverHalts : Obligations.TheMachineNeverHalts := by
  unfold Obligations.TheMachineNeverHalts
  refine ⟨exec_next, fun s hvalid => step_next ((runnable_iff s).mpr hvalid), fun s c hc hvalid => ?_⟩
  have hrun : runnable s = false := by rw [runnable, hc]; exact hvalid
  rw [step, hrun]
  rfl

/-! ## The NMI latch -/

/-- A slot in which the CPU takes an NMI if one is pending: a CPU slot with no DMA and nothing to count down (R264, R269). -/
abbrev NmiSlot (s : State) : Prop :=
  s.sysclk % 3 = 0 ∧ s.dma.active = false ∧ s.cpu.cycRem = 0

theorem cpuRead_nmiLine (a : Word) (s : State) : (cpuRead a s).2.ppu.nmiLine = s.ppu.nmiLine :=
  State.apartFromReads_field (·.ppu.nmiLine) (fun _ => rfl) (cpuRead_apart a s)

theorem dmaStep_nmiLine (s : State) : (dmaStep s).ppu.nmiLine = s.ppu.nmiLine := by
  unfold dmaStep
  split
  · split <;> rfl
  · split
    · exact cpuRead_nmiLine _ s
    · rfl

theorem apuClock_nmiLine (s : State) : (apuClock s).ppu.nmiLine = s.ppu.nmiLine :=
  apuClock_field (·.ppu.nmiLine) s (fun _ => rfl) (fun _ _ => rfl)

theorem enterNmi_nmiLine (s : State) : (enterNmi s).ppu.nmiLine = s.ppu.nmiLine :=
  enterNmi_keeps (·.ppu.nmiLine) (fun _ => rfl) (fun _ _ => rfl) cpuWrite_nmiLine s

theorem exec_fetch_nmiLine {s t : State} (h : exec (fetch s).1 (fetch s).2 = .next t) : t.ppu.nmiLine = s.ppu.nmiLine :=
  (exec_keeps (·.ppu.nmiLine) (fun _ => rfl) (fun _ _ => rfl) _ _ t (fun _ => cpuWrite_nmiLine) h).trans
    (fetch_keeps (·.ppu.nmiLine) (fun _ => rfl) s)

theorem dmaStep_cpu (s : State) : (dmaStep s).cpu = s.cpu :=
  dmaStep_keeps State.cpu (fun _ => rfl) (fun _ _ => rfl) (fun _ _ => rfl) s

/-- NMI entry clears the latch (R265). -/
theorem enterNmi_nmiPending (s : State) : (enterNmi s).cpu.nmiPending = false := by
  rw [enterNmi, takeException_eq]
  rfl

theorem exec_fetch_nmiPending {s t : State} (h : exec (fetch s).1 (fetch s).2 = .next t) : t.cpu.nmiPending = s.cpu.nmiPending := by
  rw [(exec_latches _ _ t h).1, fetch_cpu]

/-- What a step has done to the NMI before the end of its tick: the line is as the PPU left it, and the latch is cleared where the CPU took it. -/
theorem step_before_endTick {s t : State} (h : step s = .next t) :
    ∃ u, endTick u = t ∧ u.ppu.nmiLine = (ppuClock s).ppu.nmiLine ∧
      u.cpu.nmiPending = (s.cpu.nmiPending && !decide (NmiSlot s)) := by
  have hppu : (ppuClock s).cpu = s.cpu := (ppuClock_rest s).1
  have hcpu : (apuClock (ppuClock s)).cpu = s.cpu := (apuClock_rest _).1.trans hppu
  have hline := apuClock_nmiLine (ppuClock s)
  rcases step_forms s with ⟨-, e⟩ | ⟨-, hclk, e⟩ | ⟨-, -, hdma, e⟩ | ⟨-, -, -, hcyc, e⟩ | ⟨-, hclk, hdma, hcyc, -, e⟩ |
    ⟨-, -, -, -, hnone, e⟩ <;> rw [e] at h
  · cases h
  · exact ⟨_, Host.Outcome.next.inj h, rfl, by simp [hppu, hclk]⟩
  · exact ⟨_, Host.Outcome.next.inj h, (dmaStep_nmiLine _).trans hline, by simp [dmaStep_cpu, hcpu, hdma]⟩
  · exact ⟨_, Host.Outcome.next.inj h, hline, by simp [countDown, hcpu, hcyc]⟩
  · exact ⟨_, Host.Outcome.next.inj h, (enterNmi_nmiLine _).trans hline, by simp [countDown, enterNmi_nmiPending, hclk, hdma, hcyc]⟩
  · obtain ⟨u, hexec, hend⟩ := andThen_eq_next h
    exact ⟨_, hend, (exec_fetch_nmiLine hexec).trans hline, by simp [countDown, exec_fetch_nmiPending hexec, hcpu, hnone]⟩

/-- A step forwards the line the PPU's clock left and lowers it; the latch it leaves is the old one, unless the CPU could take it, or the line. -/
theorem step_nmi {s t : State} (h : step s = .next t) :
    t.ppu.nmiLine = false ∧
      t.cpu.nmiPending = (s.cpu.nmiPending && !decide (NmiSlot s) || (ppuClock s).ppu.nmiLine) := by
  obtain ⟨u, rfl, hline, hpending⟩ := step_before_endTick h
  rw [endTick_eq, ← hline, ← hpending]
  exact ⟨rfl, rfl⟩

/-- From a low line, the PPU's clock leaves it high exactly at vblank start with NMI enable set (R331). -/
theorem ppuClock_raises_nmiLine {s : State} (hlow : s.ppu.nmiLine = false) (h : (ppuClock s).ppu.nmiLine = true) :
    s.ppu.scanline = 241 ∧ s.ppu.dot = 1 ∧ s.ppu.ctrl.getLsbD 7 = true := by
  rw [ppuClock_nmiLine, hlow, Bool.or_false, ite_self] at h
  split at h
  · next hpos => exact ⟨hpos.1, hpos.2, h⟩
  · cases h

/-- Settles O37: the latch after a step is the old one or the line, which the PPU raises at vblank start alone. -/
theorem nmiIsRaisedAtVblankOnly : Obligations.NmiIsRaisedAtVblankOnly := by
  unfold Obligations.NmiIsRaisedAtVblankOnly
  intro s t h
  obtain ⟨hline, hpending⟩ := step_nmi h
  refine ⟨hline, fun hlow hnone ht => ?_, fun hy hd hen => ?_, fun hs hwait => ?_⟩
  · rw [ht, hnone] at hpending
    exact ppuClock_raises_nmiLine hlow hpending.symm
  · have hraised : (ppuClock s).ppu.nmiLine = true := by rw [ppuClock_nmiLine, if_pos ⟨hy, hd⟩, hen, Bool.true_or]
    rw [hpending, hraised, Bool.or_true]
  · rw [hpending, hs, decide_eq_false hwait]
    rfl

end Sys2Proof.Machine
end

section
/-!
SUPPORT and PROOF. NMI entry, and the return from BRK and from NMI entry (R238, R239, R265, R270, R271): with the stack page in RAM, the three bytes
an exception saves lie apart, and the return reads those places.
-/

namespace Sys2Proof.Machine

/-! ## NMI entry -/

theorem enterNmi_eq (s : State) :
    enterNmi s =
      (let vl := cpuRead s.cfg.nmiVector (afterSaving s (hiByte s.cpu.pc) (loByte s.cpu.pc) (pushedByNmi s.cpu.p))
       let vh := cpuRead (s.cfg.nmiVector + 1) vl.2
       { vh.2 with
         cpu := { s.cpu with
           sp := s.cpu.sp - 3, p := setFlag s.cpu.p .I true, pc := wordOf vh.1 vl.1, cycRem := s.cfg.nmiCycles, nmiPending := false } }) := by
  rw [enterNmi, takeException_withCpu .nmi s { s.cpu with nmiPending := false } rfl]
  rfl

/-- With nothing to count down and an NMI pending, a CPU slot takes the NMI and fetches nothing (R264, R269). -/
theorem step_of_nmi {s : State} (hrun : runnable s = true) (hslot : NmiSlot s) (hnmi : s.cpu.nmiPending = true) :
    step s = .next (endTick (countDown (enterNmi (apuClock (ppuClock s))))) := by
  obtain ⟨hclk, hdma, hcyc⟩ := hslot
  simpa [hrun, hclk, hdma, hcyc, hnmi] using step_forms s

/-- Settles O36: the bytes saved are those of PC and of the status with B clear and U set. -/
theorem nmiEntrySavesAndJumps : Obligations.NmiEntrySavesAndJumps := by
  unfold Obligations.NmiEntrySavesAndJumps
  intro s
  refine ⟨⟨hiByte s.cpu.pc, loByte s.cpu.pc, pushedByNmi s.cpu.p, _, _, ?_, getFlag_pushedByNmi s.cpu.p, flagsAre_setFlag s.cpu.p .I true,
    wordOf_toNat_low_first _ _, enterNmi_eq s⟩, fun hrun hclk hdma hcyc => step_of_nmi hrun ⟨hclk, hdma, hcyc⟩⟩
  rw [← wordOf_toNat, wordOf_hiByte_loByte]

/-! ## The frame in RAM -/

theorem takeException_in_ram (e : Event) (s : State) (hpage : s.cfg.stackPage.toNat ≤ 0x1F) :
    (takeException e s).ram =
      ((s.ram.write (stackIndex s s.cpu.sp) (hiByte (e.returnAddr s.cpu.pc))).write (stackIndex s (s.cpu.sp - 1))
        (loByte (e.returnAddr s.cpu.pc))).write (stackIndex s (s.cpu.sp - 2)) (e.pushedStatus s.cpu.p) := by
  have htwo : s.cpu.sp - 1 - 1 = s.cpu.sp - 2 := by bv_omega
  rw [takeException_eq]
  simp only [read16, readPair, cpuRead_ram_kept, exceptionStores, stackWord, cpuWrite_stackAddr s _ _ _ hpage, htwo]

theorem takeException_sp (e : Event) (s : State) : (takeException e s).cpu.sp = s.cpu.sp - 3 := by
  have hthree : s.cpu.sp - 1 - 1 - 1 = s.cpu.sp - 3 := by bv_omega
  rw [takeException_eq, hthree]

theorem returnFromException_in_ram (s : State) (hpage : s.cfg.stackPage.toNat ≤ 0x1F) :
    returnFromException s =
      { s with
        cpu := { s.cpu with
          sp := s.cpu.sp + 3
          p := pulledStatus (s.ram.read (stackIndex s (s.cpu.sp + 1)))
          pc := wordOf (s.ram.read (stackIndex s (s.cpu.sp + 3))) (s.ram.read (stackIndex s (s.cpu.sp + 2))) } } := by
  have htwo : s.cpu.sp + 1 + 1 = s.cpu.sp + 2 := BitVec.add_assoc s.cpu.sp 1 1
  have hthree : s.cpu.sp + 2 + 1 = s.cpu.sp + 3 := BitVec.add_assoc s.cpu.sp 2 1
  simp only [returnFromException_eq, cpuRead_stackAddr s _ _ hpage, htwo, hthree]

/-! ## The return takes back the frame -/

/-- The three places of the frame lie apart, so that each is as its own write left it. -/
theorem returnFromException_of_takeException {e : Event} {s h : State} (hpage : s.cfg.stackPage.toNat ≤ 0x1F)
    (hcfg : h.cfg.stackPage = s.cfg.stackPage) (hsp : h.cpu.sp = (takeException e s).cpu.sp)
    (hkept : ∀ k < 3, SameStackByte s h (takeException e s) k) :
    returnFromException h =
      { h with
        cpu := { h.cpu with sp := s.cpu.sp, p := pulledStatus (e.pushedStatus s.cpu.p), pc := e.returnAddr s.cpu.pc } } := by
  rw [takeException_sp] at hsp
  have hplaces : h.cpu.sp + 1 = s.cpu.sp - 2 ∧ h.cpu.sp + 2 = s.cpu.sp - 1 ∧ h.cpu.sp + 3 = s.cpu.sp := by
    rw [hsp]
    refine ⟨?_, ?_, ?_⟩ <;> bv_omega
  obtain ⟨hstatusPlace, hloPlace, hhiPlace⟩ := hplaces
  have hbyte (sp : Byte) (hin : sp = s.cpu.sp ∨ sp = s.cpu.sp - 1 ∨ sp = s.cpu.sp - 2) :
      h.ram.read (stackIndex h sp) = (takeException e s).ram.read (stackIndex s sp) := by
    rw [stackIndex_congr hcfg]
    rcases hin with rfl | rfl | rfl
    · simpa [sameStackByte_iff] using hkept 0 (by decide)
    · exact hkept 1 (by decide)
    · exact hkept 2 (by decide)
  have hhl : stackIndex s s.cpu.sp ≠ stackIndex s (s.cpu.sp - 1) := stackIndex_ne s (by bv_omega)
  have hhs : stackIndex s s.cpu.sp ≠ stackIndex s (s.cpu.sp - 2) := stackIndex_ne s (by bv_omega)
  have hls : stackIndex s (s.cpu.sp - 1) ≠ stackIndex s (s.cpu.sp - 2) := stackIndex_ne s (by bv_omega)
  rw [returnFromException_in_ram h (hcfg ▸ hpage), hstatusPlace, hloPlace, hhiPlace, hbyte _ (.inl rfl), hbyte _ (.inr (.inl rfl)),
    hbyte _ (.inr (.inr rfl)), takeException_in_ram e s hpage]
  simp only [Memory.read_write, hhl, hhs, hls, if_true, if_false, wordOf_hiByte_loByte]

/-- The status NMI entry pushes has U set already, so that RTI takes it as it is (R239, R265). -/
theorem pulledStatus_pushedByNmi (p : Byte) : pulledStatus (pushedByNmi p) = pushedByNmi p := by
  rw [pulledStatus, pushedByNmi, BitVec.or_assoc]
  rfl

section Return

variable {s h u frame : State} (hpage : s.cfg.stackPage.toNat ≤ 0x1F) (hcfg : h.cfg.stackPage = s.cfg.stackPage)
  (hsp : h.cpu.sp = frame.cpu.sp) (hkept : ∀ k < 3, SameStackByte s h frame k) (hrti : exec .rti h = .next u)
include hpage hcfg hsp hkept hrti

theorem rti_undoes_brk (hbrk : exec .brk s = .next frame) :
    u = { h with
      cpu := { h.cpu with
        sp := s.cpu.sp, p := pushedByInstruction s.cpu.p, pc := s.cpu.pc + 2, cycRem := h.cfg.baseCost 0x40 } } := by
  obtain rfl := Host.Outcome.next.inj hbrk
  obtain rfl := Host.Outcome.next.inj hrti
  have hreturn : Event.brk.returnAddr (s.advance 1).cpu.pc = s.cpu.pc + 2 := BitVec.add_assoc s.cpu.pc 1 1
  have hstatus : pulledStatus (Event.brk.pushedStatus (s.advance 1).cpu.p) = pushedByInstruction s.cpu.p :=
    pulledStatus_pushedByInstruction s.cpu.p
  rw [implied, returnFromException_of_takeException (e := .brk) (s := s.advance 1) (h := h.advance 1) hpage hcfg hsp hkept, hreturn,
    hstatus]
  rfl

theorem rti_undoes_nmi (hnmi : enterNmi s = frame) :
    u = { h with
      cpu := { h.cpu with
        sp := s.cpu.sp, p := pushedByNmi s.cpu.p, pc := s.cpu.pc, cycRem := h.cfg.baseCost 0x40 } } := by
  obtain rfl := hnmi
  obtain rfl := Host.Outcome.next.inj hrti
  have hstatus : pulledStatus (Event.nmi.pushedStatus s.cpu.p) = pushedByNmi s.cpu.p := pulledStatus_pushedByNmi s.cpu.p
  rw [implied, returnFromException_of_takeException (e := .nmi) (s := { s with cpu := { s.cpu with nmiPending := false } })
    (h := h.advance 1) hpage hcfg hsp hkept, hstatus]
  rfl

end Return

/-- Settles O39: the return gives back the frame's S, PC and status, and those of the two events are as their rules say. -/
theorem rtiUndoesTheException : Obligations.RtiUndoesTheException := by
  unfold Obligations.RtiUndoesTheException
  intro s h u frame hevent hpage hcfg hsp hkept hrti
  have hbrk := rti_undoes_brk hpage hcfg hsp hkept hrti
  have hnmi := rti_undoes_nmi hpage hcfg hsp hkept hrti
  have hboth : u.cpu.sp = s.cpu.sp ∧ u.cpu.a = h.cpu.a ∧ u.cpu.x = h.cpu.x ∧ u.cpu.y = h.cpu.y ∧ u.ram = h.ram := by
    rcases hevent with hb | hn
    · rw [hbrk hb]
      exact ⟨rfl, rfl, rfl, rfl, rfl⟩
    · rw [hnmi hn]
      exact ⟨rfl, rfl, rfl, rfl, rfl⟩
  obtain ⟨hs, ha, hx, hy, hram⟩ := hboth
  refine ⟨hs, ha, hx, hy, hram, fun hb => ?_, fun hn => ?_⟩
  · rw [hbrk hb]
    exact ⟨rfl, getFlag_pushedByInstruction s.cpu.p⟩
  · rw [hnmi hn]
    exact ⟨rfl, getFlag_pushedByNmi s.cpu.p⟩

end Sys2Proof.Machine
end

section
/-!
SUPPORT and PROOF. The ticks in which the CPU starts nothing (R300 to R302, R141), and the PPU's position from tick to tick (R330, R333).
-/

namespace Sys2Proof.Machine

/-! ## The idle ticks -/

theorem step_off_slot {s t : State} (h : step s = .next t) (hclk : s.sysclk % 3 ≠ 0) : t = endTick (ppuClock s) := by
  have hforms := step_forms s
  simp only [h, hclk, reduceCtorEq, Host.Outcome.next.injEq, ne_eq, not_false_eq_true, true_and, false_and, and_false, or_false,
    false_or] at hforms
  exact hforms.2

theorem step_under_dma {s t : State} (h : step s = .next t) (hclk : s.sysclk % 3 = 0) (hdma : s.dma.active = true) :
    t = endTick (dmaStep (apuClock (ppuClock s))) := by
  have hforms := step_forms s
  simp only [h, hclk, hdma, reduceCtorEq, Host.Outcome.next.injEq, ne_eq, not_true_eq_false, true_and, false_and, and_false, or_false,
    false_or] at hforms
  exact hforms.2

theorem step_counting {s t : State} (h : step s = .next t) (hclk : s.sysclk % 3 = 0) (hdma : s.dma.active = false)
    (hcyc : s.cpu.cycRem ≠ 0) : t = endTick (countDown (apuClock (ppuClock s))) := by
  have hforms := step_forms s
  simp only [h, hclk, hdma, hcyc, reduceCtorEq, Host.Outcome.next.injEq, ne_eq, not_true_eq_false, not_false_eq_true, true_and, false_and,
    and_false, or_false, false_or, Bool.false_eq_true] at hforms
  exact hforms.2

/-- Settles O34: each idle tick is one of three forms, whose parts keep the CPU's registers and RAM. -/
theorem otherTicksKeepTheCpu : Obligations.OtherTicksKeepTheCpu := by
  unfold Obligations.OtherTicksKeepTheCpu
  intro s t h
  obtain ⟨pcpu, pram, -, pdma, ppad0, ppad1, -, papu, -⟩ := ppuClock_rest s
  obtain ⟨acpu, aram, -, adma, -⟩ := apuClock_rest (ppuClock s)
  refine ⟨step_sysclk s t h, fun hclk => ?_, fun hclk hdma => ?_, fun hclk hdma hcyc => ?_⟩
  · rw [step_off_slot h hclk, endTick_eq]
    exact ⟨by rw [pcpu], papu, pdma, pram, ppad0, ppad1⟩
  · rw [step_under_dma h hclk hdma, endTick_eq]
    have hram := dmaStep_keeps State.ram (fun _ => rfl) (fun _ _ => rfl) (fun _ _ => rfl) (apuClock (ppuClock s))
    exact ⟨by rw [dmaStep_cpu, acpu, pcpu], hram.trans (aram.trans pram)⟩
  · rw [step_counting h hclk hdma hcyc, endTick_eq, countDown]
    exact ⟨by rw [State.setCycRem_cpu, acpu, pcpu], adma.trans pdma, aram.trans pram⟩

/-! ## The PPU's position -/

/-- The place of a position in the frame, line by line. -/
def Ppu.place (p : Ppu) : Nat :=
  p.scanline * 341 + p.dot

/-- The position is one of the frame's 262 x 341 (R36). -/
abbrev Ppu.InFrame (p : Ppu) : Prop :=
  p.scanline ≤ 261 ∧ p.dot ≤ 340

/-- The PPU's registers after the advance from (`y`, `d`): one dot on, then the next line, then the next frame (R330, R333). -/
def Ppu.advancedFrom (p : Ppu) (y d : Nat) : Ppu :=
  { p with
    scanline := if d = 340 then (if y = 261 then 0 else y + 1) else y
    dot := if d = 340 then 0 else d + 1
    frameComplete := decide (y = 261 ∧ d = 340) || p.frameComplete }

theorem ppuAdvance_eq (s : State) : ppuAdvance s = { s with ppu := s.ppu.advancedFrom s.ppu.scanline s.ppu.dot } := by
  unfold ppuAdvance Ppu.advancedFrom
  by_cases hd : s.ppu.dot = 340
  · by_cases hy : s.ppu.scanline = 261 <;> simp [hd, hy]
  · simp [hd]

/-- The events of a position do not move it, so the clock ends with the advance from it. -/
theorem ppuClock_eq (s : State) :
    ppuClock s = { ppuEvents s with ppu := (ppuEvents s).ppu.advancedFrom s.ppu.scanline s.ppu.dot } := by
  obtain ⟨-, -, -, -, -, -, -, -, -, -, hy, hd, -⟩ := ppuEvents_rest s
  rw [ppuClock, ppuAdvance_eq, hy, hd]

theorem Ppu.InFrame.advanced {p : Ppu} (h : p.InFrame) (q : Ppu) : (q.advancedFrom p.scanline p.dot).InFrame := by
  obtain ⟨hy, hd⟩ := h
  unfold Ppu.InFrame Ppu.advancedFrom
  simp only
  split
  · split <;> omega
  · omega

theorem Ppu.InFrame.place_advanced {p : Ppu} (h : p.InFrame) (q : Ppu) :
    (q.advancedFrom p.scanline p.dot).place = (p.place + 1) % 89342 := by
  obtain ⟨hy, hd⟩ := h
  unfold Ppu.place Ppu.advancedFrom
  simp only
  by_cases hd' : p.dot = 340
  · by_cases hy' : p.scanline = 261
    · simp only [if_pos, hd', hy']
    · simp only [if_pos hd', if_neg hy']
      omega
  · simp only [if_neg hd']
    omega

theorem Ppu.InFrame.place_lt {p : Ppu} (h : p.InFrame) : p.place < 89342 := by
  unfold Ppu.place
  omega

theorem Ppu.InFrame.place_last {p : Ppu} (h : p.InFrame) : p.place = 89341 ↔ p.scanline = 261 ∧ p.dot = 340 := by
  unfold Ppu.place
  omega

/-- The place in the frame goes one on in every step, and the last one completes the frame. -/
theorem step_place {s t : State} (h : step s = .next t) (hin : s.ppu.InFrame) :
    t.ppu.InFrame ∧ t.ppu.place = (s.ppu.place + 1) % 89342 ∧
      (t.ppu.frameComplete = true ↔ s.ppu.frameComplete = true ∨ (s.ppu.scanline = 261 ∧ s.ppu.dot = 340)) := by
  obtain ⟨-, -, -, -, -, -, -, -, -, -, -, -, hf⟩ := ppuEvents_rest s
  obtain ⟨hy, hd, hc⟩ := step_position s t h
  rw [ppuClock_eq] at hy hd hc
  have hplace : t.ppu.place = (s.ppu.place + 1) % 89342 := by
    rw [← hin.place_advanced (ppuEvents s).ppu, Ppu.place, hy, hd]
    rfl
  have hin' := hin.advanced (ppuEvents s).ppu
  refine ⟨⟨hy ▸ hin'.1, hd ▸ hin'.2⟩, hplace, ?_⟩
  rw [hc]
  simp [Ppu.advancedFrom, hf, or_comm]

/-- A run of `n` ticks moves `n` places on, and the frame is complete after it if it was before or if its end was passed. -/
theorem ticks_place (n : Nat) (s : State) (hrun : runnable s = true) (hin : s.ppu.InFrame) :
    ∃ t, ticks n s = .next t ∧ t.ppu.InFrame ∧ t.ppu.place = (s.ppu.place + n) % 89342 ∧ t.sysclk = s.sysclk + n ∧
      (s.ppu.frameComplete = true ∨ 89342 ≤ s.ppu.place + n → t.ppu.frameComplete = true) := by
  induction n generalizing s with
  | zero =>
    have hlt := hin.place_lt
    rw [Nat.add_zero, Nat.add_zero]
    exact ⟨s, rfl, hin, (Nat.mod_eq_of_lt hlt).symm, rfl, fun h => h.resolve_right (Nat.not_le.mpr hlt)⟩
  | succ n ih =>
    obtain ⟨u, hu⟩ := step_next hrun
    obtain ⟨uin, uplace, ucomplete⟩ := step_place hu hin
    obtain ⟨t, ht, tin, tplace, tclk, tcomplete⟩ := ih u ((step_runnable s u hu).trans hrun) uin
    refine ⟨t, by rw [ticks, hu]; exact ht, tin, by omega, by rw [tclk, step_sysclk s u hu]; omega, fun h => tcomplete ?_⟩
    rcases h with h | h
    · exact .inl (ucomplete.mpr (.inl h))
    · by_cases hlast : s.ppu.scanline = 261 ∧ s.ppu.dot = 340
      · exact .inl (ucomplete.mpr (.inr hlast))
      · have hlt := hin.place_lt
        rw [← hin.place_last] at hlast
        exact .inr (by omega)

/-- Settles O56: a step moves one place on in the frame, and 89342 places on is the same place. -/
theorem aFrameIsEveryPositionOnce : Obligations.AFrameIsEveryPositionOnce := by
  unfold Obligations.AFrameIsEveryPositionOnce
  intro s hy hd
  refine ⟨fun t h => ?_, fun hrun => ?_⟩
  · obtain ⟨⟨ty, td⟩, tplace, tcomplete⟩ := step_place h ⟨hy, hd⟩
    exact ⟨ty, td, tplace, tcomplete⟩
  · obtain ⟨t, ht, ⟨ty, td⟩, tplace, tclk, tcomplete⟩ := ticks_place 89342 s hrun ⟨hy, hd⟩
    unfold Ppu.place at *
    exact ⟨t, ht, by omega, by omega, tcomplete (.inr (by omega)), tclk⟩

/-! ## The events of a position -/

theorem renders_iff (s : State) :
    (s.ppu.scanline, s.ppu.dot) = renderPosition s.cfg ↔
      if s.cfg.renderAtFrameEnd then s.ppu.scanline = 261 ∧ s.ppu.dot = 340 else s.ppu.scanline = 240 ∧ s.ppu.dot = 0 := by
  unfold renderPosition
  split <;> rw [Prod.mk.injEq]

/-- The sprite-zero flag is set by a hit; where it is set already, setting it again changes nothing (R357). -/
theorem spriteZeroTest_eq (x y : Nat) (s : State) :
    let m := (snapAt s.ppu y).mask
    let hit := m.getLsbD 3 = true ∧ m.getLsbD 4 = true ∧ x ≠ 255 ∧ (8 ≤ x ∨ (m.getLsbD 1 = true ∧ m.getLsbD 2 = true)) ∧
      (bgPixel s x y).px ≠ 0 ∧ sprPixel s 0 x y ≠ 0
    (hit → spriteZeroTest x y s = { s with ppu := { s.ppu with status := s.ppu.status ||| 0x40 } }) ∧
      (¬ hit → spriteZeroTest x y s = s) := by
  intro m hit
  have hset : s.ppu.status.getLsbD 6 = true → s.ppu.status ||| 0x40 = s.ppu.status := by
    generalize s.ppu.status = b
    revert b
    decide
  unfold spriteZeroTest
  refine ⟨fun h => ?_, fun h => if_neg fun hc => h ?_⟩
  · obtain ⟨h3, h4, hx, hleft, hbg, hspr⟩ := h
    by_cases h6 : s.ppu.status.getLsbD 6 = true
    · rw [hset h6]
      exact ite_self s
    · refine if_pos ?_
      simp only [Bool.and_eq_true, Bool.or_eq_true, decide_eq_true_eq, bne_iff_ne, Bool.not_eq_true']
      exact ⟨⟨⟨⟨⟨⟨Bool.eq_false_iff.mpr h6, h3⟩, h4⟩, hx⟩, hleft⟩, hbg⟩, hspr⟩
  · simp only [Bool.and_eq_true, Bool.or_eq_true, decide_eq_true_eq, bne_iff_ne] at hc
    obtain ⟨⟨⟨⟨⟨⟨-, h3⟩, h4⟩, hx⟩, hleft⟩, hbg⟩, hspr⟩ := hc
    exact ⟨h3, h4, hx, hleft, hbg, hspr⟩

theorem ppuClock_of_events {s : State} {q : Ppu} (h : ppuEvents s = { s with ppu := q }) :
    ppuClock s = { s with ppu := q.advancedFrom s.ppu.scanline s.ppu.dot } := by
  rw [ppuClock_eq, h]

/-- Before the end of a line the advance is one dot. -/
theorem Ppu.advancedFrom_in_line (q : Ppu) {d : Nat} (hd : d ≠ 340) : q.advancedFrom q.scanline d = { q with dot := d + 1 } := by
  simp [Ppu.advancedFrom, hd]

theorem ppuEvents_line_start {s : State} (hy : s.ppu.scanline ≤ 239) (hd : s.ppu.dot = 0) : ppuEvents s = takeSnapshot s := by
  simp only [ppuEvents, if_pos hy, if_pos hd]

theorem ppuEvents_visible {s : State} (hy : s.ppu.scanline ≤ 239) (hd1 : 1 ≤ s.ppu.dot) (hd2 : s.ppu.dot ≤ 256) :
    ppuEvents s = spriteZeroTest (s.ppu.dot - 1) s.ppu.scanline s := by
  simp only [ppuEvents, if_pos hy, if_neg (show ¬ s.ppu.dot = 0 by omega), if_pos hd2]

theorem ppuEvents_renders {s : State} (hy : 240 ≤ s.ppu.scanline) (hpos : (s.ppu.scanline, s.ppu.dot) = renderPosition s.cfg) :
    ppuEvents s = renderFrame s := by
  simp only [ppuEvents, if_neg (show ¬ s.ppu.scanline ≤ 239 by omega), if_pos hpos]

theorem not_renderPosition_of_dot_one {s : State} (hd : s.ppu.dot = 1) : (s.ppu.scanline, s.ppu.dot) ≠ renderPosition s.cfg :=
  fun h => renderPosition_dot s.cfg (by rw [← h]; exact hd)

theorem ppuEvents_vblank {s : State} (hy : s.ppu.scanline = 241) (hd : s.ppu.dot = 1) : ppuEvents s = vblankStart s := by
  simp only [ppuEvents, if_neg (show ¬ s.ppu.scanline ≤ 239 by omega), if_neg (not_renderPosition_of_dot_one hd), if_pos hy, if_pos hd]

theorem ppuEvents_preRender {s : State} (hy : s.ppu.scanline = 261) (hd : s.ppu.dot = 1) : ppuEvents s = preRenderClear s := by
  simp only [ppuEvents, if_neg (show ¬ s.ppu.scanline ≤ 239 by omega), if_neg (not_renderPosition_of_dot_one hd),
    if_neg (show ¬ s.ppu.scanline = 241 by omega), if_pos hy, if_pos hd]

/-- At every other position nothing happens but the advance. -/
theorem ppuEvents_idle {s : State} (hvis : s.ppu.scanline ≤ 239 → 257 ≤ s.ppu.dot)
    (hpos : (s.ppu.scanline, s.ppu.dot) ≠ renderPosition s.cfg) (hv : s.ppu.scanline = 241 → s.ppu.dot ≠ 1)
    (hc : s.ppu.scanline = 261 → s.ppu.dot ≠ 1) : ppuEvents s = s := by
  unfold ppuEvents
  simp only
  split
  · next hy =>
    have hd := hvis hy
    rw [if_neg (by omega), if_neg (by omega)]
  · split
    · next hy => exact if_neg (hv hy)
    · split
      · next hy => exact if_neg (hc hy)
      · rfl

/-- Settles O54: the events of each position, followed by the advance. -/
theorem ppuEventsByPosition : Obligations.PpuEventsByPosition := by
  unfold Obligations.PpuEventsByPosition
  intro s hys hds y d p becomes advanced renders
  have hrenders := renders_iff s
  refine ⟨fun hy hd => ?_, fun hy hd1 hd2 => ?_, fun hr => ?_, fun hy hd => ?_, fun hy hd => ?_, fun hvis hr hv hc => ?_⟩
  · refine (ppuClock_of_events (ppuEvents_line_start hy hd)).trans ?_
    rw [show s.ppu.dot = 0 from hd]
    exact congrArg (fun q => { s with ppu := q }) (Ppu.advancedFrom_in_line _ (d := 0) (by decide))
  · obtain ⟨hset, hkept⟩ := spriteZeroTest_eq (d - 1) y s
    have hevents := ppuEvents_visible hy hd1 hd2
    have hend : d ≠ 340 := by omega
    refine ⟨fun hhit => ?_, fun hmiss => ?_⟩
    · refine (ppuClock_of_events (hevents.trans (hset hhit))).trans ?_
      exact congrArg (fun q => { s with ppu := q }) (Ppu.advancedFrom_in_line _ hend)
    · refine (ppuClock_of_events (q := p) (hevents.trans (hkept hmiss))).trans ?_
      exact congrArg (fun q => { s with ppu := q }) (Ppu.advancedFrom_in_line _ hend)
  · have hy : 240 ≤ s.ppu.scanline := by
      have hr' : if s.cfg.renderAtFrameEnd then s.ppu.scanline = 261 ∧ s.ppu.dot = 340 else s.ppu.scanline = 240 ∧ s.ppu.dot = 0 := hr
      split at hr' <;> omega
    rw [ppuClock_eq, ppuEvents_renders hy (hrenders.mpr hr)]
    rfl
  · refine (ppuClock_of_events (ppuEvents_vblank hy hd)).trans ?_
    rw [show s.ppu.dot = 1 from hd]
    exact congrArg (fun q => { s with ppu := q }) (Ppu.advancedFrom_in_line _ (d := 1) (by decide))
  · refine (ppuClock_of_events (ppuEvents_preRender hy hd)).trans ?_
    rw [show s.ppu.dot = 1 from hd]
    exact congrArg (fun q => { s with ppu := q }) (Ppu.advancedFrom_in_line _ (d := 1) (by decide))
  · exact ppuClock_of_events (q := p) (ppuEvents_idle hvis (fun h => hr (hrenders.mp h)) hv hc)

/-! ## The picture -/

/-- The low six bits of a palette byte choose the colour (R360). -/
theorem colourOf_eq (cfg : Config) (pal : Memory) (i : Nat) :
    colourOf cfg pal i = cfg.nesColor.get (Fin.ofNat 64 (pal.read (palIndex (BitVec.ofNat 14 i))).toNat) :=
  congrArg cfg.nesColor.get (Fin.ext (BitVec.toNat_setWidth 6 _))

/-- The pixel is composed from the fetches of its line, which are the bytes `bgPixel` and `sprPixel` read. -/
theorem framePixel_renderFrame {s : State} (hs : s.withoutMmc2) (x : Fin 256) (y : Fin 240) :
    framePixel (renderFrame s) x y = colourOf s.cfg s.ppu.pal (outIndex s x y) := by
  have htiles : ((List.range 240).map (pictureLine s)).getD y [] = pictureLine s y := by
    rw [List.getD_eq_getElem?_getD, List.getElem?_map, List.getElem?_range y.isLt]
    rfl
  rw [renderFrame_pure hs, framePixel, frameColours_get, htiles, outIndex]
  exact congrArg (colourOf s.cfg s.ppu.pal) (congr (congrArg compose
    (ite_congr rfl (bgFromFetches_eq s x y x.isLt) fun _ => rfl)) (ite_congr rfl (sprFromFetches_eq s x y y.isLt) fun _ => rfl))

/-- Settles O55: pixel by pixel, and nothing but the framebuffer is written. -/
theorem framebufferIsThePicture : Obligations.FramebufferIsThePicture := by
  unfold Obligations.FramebufferIsThePicture
  intro s hs
  exact ⟨by rw [renderFrame_pure hs], fun x y => (framePixel_renderFrame hs x y).trans (colourOf_eq _ _ _)⟩

end Sys2Proof.Machine
end

section
/-!
SUPPORT and PROOF. One OAM DMA from its first stalled slot (R304, R305): the slots before the copy, by the parity of the clock, then 256 pairs of
slots, of which `dma_pairs` says all but the last.
-/

namespace Sys2Proof.Machine

/-- The transfer that started in `s` has ended in `t`, with the page in OAM. -/
structure DmaDone (s t : State) : Prop where
  kept : DmaKept s t
  dma : t.dma = { active := false, page := s.dma.page, index := 0x00, dummy := true, data := t.dma.data }
  oam : ∀ i, i < 256 → isStorage (BitVec.ofNat 16 (s.dma.page.toNat * 256 + i)) s = true →
    t.ppu.oam.read i = (cpuRead (BitVec.ofNat 16 (s.dma.page.toNat * 256 + i)) s).1

theorem DmaKept.refl {s : State} (hrun : runnable s = true) : DmaKept s s where
  run := hrun
  ram := rfl
  cart := rfl
  oamAddr := rfl
  cpu := rfl
  pend := id

/-- The 256 bytes take 512 slots, in all but the last tick's slot of which the transfer is going on. -/
theorem dma_transfer {s u : State} (h : DmaAt s u 0) :
    DmaRuns 1533 u ∧ ∃ t, ticks 1536 u = .next t ∧ DmaDone s t ∧ t.sysclk = u.sysclk + 1536 := by
  obtain ⟨v, hv, vruns, vat, vclk⟩ := dma_pairs s u h 255 (by decide)
  obtain ⟨w, t, hw, wruns, ht, -, tkept, tclk, tdma, toam, -⟩ := dma_pair s v 255 (by decide) vat
  have hpair : ticks 6 v = .next t := (ticks_add 3 3 v w hw).trans ht
  exact ⟨vruns.add hv wruns, t, (ticks_add 1530 6 u v hv).trans hpair, ⟨tkept, tdma, toam⟩, by omega⟩

/-- At an odd clock the dummy slot is the last before the copy. -/
theorem dma_dummy_slot {s u : State} (h : DmaKept s u) (h3 : u.sysclk % 3 = 0) (hodd : u.sysclk % 2 = 1) (hdma : u.dma = s.dma)
    (hactive : s.dma.active = true) (hdummy : s.dma.dummy = true) (hindex : s.dma.index = 0x00) :
    DmaRuns 3 u ∧ ∃ v, ticks 3 u = .next v ∧ DmaAt s v 0 ∧ v.sysclk = u.sysclk + 3 := by
  obtain ⟨v, q, hv, vkept, vclk, qdma, -, qclk, vdma, -, -, vruns⟩ := dma_slot s u h h3 (hdma ▸ hactive)
  have hstep : dmaStep q = { q with dma := { q.dma with dummy := false } } := by
    rw [dmaStep, if_pos (by rw [qdma, hdma, hdummy]), if_pos (by omega)]
  have hvdma : v.dma = { active := true, page := s.dma.page, index := 0x00, dummy := false, data := v.dma.data } := by
    rw [vdma, hstep, qdma, hdma, ← hactive, ← hindex]
  exact ⟨vruns (by rw [hvdma]), v, hv,
    { kept := vkept, three := by omega, even := by omega, dma := hvdma, oam := fun i hi => absurd hi (Nat.not_lt_zero i) }, vclk⟩

/-- At an even clock the slot only waits. -/
theorem dma_wait_slot {s u : State} (h : DmaKept s u) (h3 : u.sysclk % 3 = 0) (heven : u.sysclk % 2 = 0) (hdma : u.dma = s.dma)
    (hactive : s.dma.active = true) (hdummy : s.dma.dummy = true) :
    DmaRuns 3 u ∧ ∃ v, ticks 3 u = .next v ∧ DmaKept s v ∧ v.dma = s.dma ∧ v.sysclk = u.sysclk + 3 := by
  obtain ⟨v, q, hv, vkept, vclk, qdma, -, qclk, vdma, -, -, vruns⟩ := dma_slot s u h h3 (hdma ▸ hactive)
  have hstep : dmaStep q = q := by rw [dmaStep, if_pos (by rw [qdma, hdma, hdummy]), if_neg (by omega)]
  have hvdma : v.dma = s.dma := by rw [vdma, hstep, qdma, hdma]
  exact ⟨vruns (by rw [hvdma, hactive]), v, hv, vkept, hvdma, vclk⟩

/-- From an odd clock the transfer takes 513 slots. -/
theorem dma_from_odd {s u : State} (h : DmaKept s u) (h3 : u.sysclk % 3 = 0) (hodd : u.sysclk % 2 = 1) (hdma : u.dma = s.dma)
    (hactive : s.dma.active = true) (hdummy : s.dma.dummy = true) (hindex : s.dma.index = 0x00) :
    DmaRuns 1536 u ∧ ∃ t, ticks 1539 u = .next t ∧ DmaDone s t ∧ t.sysclk = u.sysclk + 1539 := by
  obtain ⟨uruns, v, hv, vat, vclk⟩ := dma_dummy_slot h h3 hodd hdma hactive hdummy hindex
  obtain ⟨vruns, t, ht, tdone, tclk⟩ := dma_transfer vat
  exact ⟨uruns.add hv vruns, t, (ticks_add 3 1536 u v hv).trans ht, tdone, by omega⟩

/-- From an even clock it takes one slot more. -/
theorem dma_from_even {s u : State} (h : DmaKept s u) (h3 : u.sysclk % 3 = 0) (heven : u.sysclk % 2 = 0) (hdma : u.dma = s.dma)
    (hactive : s.dma.active = true) (hdummy : s.dma.dummy = true) (hindex : s.dma.index = 0x00) :
    DmaRuns 1539 u ∧ ∃ t, ticks 1542 u = .next t ∧ DmaDone s t ∧ t.sysclk = u.sysclk + 1542 := by
  obtain ⟨uruns, v, hv, vkept, vdma, vclk⟩ := dma_wait_slot h h3 heven hdma hactive hdummy
  obtain ⟨vruns, t, ht, tdone, tclk⟩ := dma_from_odd vkept (by omega) (by omega) vdma hactive hdummy hindex
  exact ⟨uruns.add hv vruns, t, (ticks_add 3 1539 u v hv).trans ht, tdone, by omega⟩

/-- Settles O57: by the parity of the clock at the first stalled slot. -/
theorem oamDmaCopiesAPage : Obligations.OamDmaCopiesAPage := by
  unfold Obligations.OamDmaCopiesAPage
  intro s hrun h3 hactive hdummy hindex slots
  have hkept := DmaKept.refl hrun
  have main : DmaRuns (3 * (slots - 1)) s ∧ ∃ t, ticks (3 * slots) s = .next t ∧ DmaDone s t ∧ t.sysclk = s.sysclk + 3 * slots := by
    rcases Nat.mod_two_eq_zero_or_one s.sysclk with hpar | hpar
    · rw [show slots = 514 from if_neg (by omega)]
      exact dma_from_even hkept h3 hpar rfl hactive hdummy hindex
    · rw [show slots = 513 from if_pos hpar]
      exact dma_from_odd hkept h3 hpar rfl hactive hdummy hindex
  obtain ⟨hruns, t, ht, ⟨tkept, tdma, toam⟩, tclk⟩ := main
  exact ⟨hruns, t, ht, tdma, tclk, tkept.ram, tkept.oamAddr, tkept.cpu, tkept.pend, toam⟩

end Sys2Proof.Machine
end

section
/-!
SUPPORT and PROOF. The controllers (R307, R308): the reads of a port are so many shifts of its own register, whatever is read of the other.
-/

namespace Sys2Proof.Machine

/-- A port after `n` shifts of its register. -/
def shiftedPad (strobe fill : Bool) (n : Nat) (p : Pad) : Pad :=
  match n with
  | 0 => p
  | n + 1 => shiftedPad strobe fill n (shiftPad strobe fill p)

theorem afterReads_pad0 (n : Nat) (s : State) :
    afterReads 0x4016 n s = { s with pad0 := shiftedPad s.strobe s.cfg.ctrlShiftFill n s.pad0 } := by
  induction n generalizing s with
  | zero => rfl
  | succ n ih => rw [afterReads, cpuRead_pad0, ih]; rfl

theorem afterReads_pad1 (n : Nat) (s : State) :
    afterReads 0x4017 n s = { s with pad1 := shiftedPad s.strobe s.cfg.ctrlShiftFill n s.pad1 } := by
  induction n generalizing s with
  | zero => rfl
  | succ n ih => rw [afterReads, cpuRead_pad1, ih]; rfl

/-- A read never changes the buttons. -/
theorem shiftedPad_state (strobe fill : Bool) (n : Nat) (p : Pad) : (shiftedPad strobe fill n p).state = p.state := by
  induction n generalizing p with
  | zero => rfl
  | succ n ih =>
    rw [shiftedPad, ih, shiftPad]
    split <;> rfl

/-- One shift: each bit takes the next higher one's place, and the fill bit comes in at bit 7 (R308). -/
theorem shiftPad_getLsbD (fill : Bool) (p : Pad) (k : Nat) (hk : k < 8) :
    (shiftPad false fill p).shift.getLsbD k = if k = 7 then fill else p.shift.getLsbD (k + 1) := by
  have hfill : ∀ j < 8, ∀ f : Bool, (if f then 0x80 else 0x00 : Byte).getLsbD j = if j = 7 then f else false := by decide
  rw [shiftPad, if_neg Bool.false_ne_true, shiftFill_eq, BitVec.getLsbD_or, BitVec.getLsbD_ushiftRight, hfill k hk fill, Nat.add_comm 1 k]
  by_cases hk7 : k = 7
  · rw [if_pos hk7, if_pos hk7, BitVec.getLsbD_of_ge _ _ (by omega), Bool.false_or]
  · rw [if_neg hk7, if_neg hk7, Bool.or_false]

/-- After `n` shifts bit `k` is the bit `n` places above it, and the fill bit above bit 7. -/
theorem shiftedPad_getLsbD (fill : Bool) (n : Nat) (p : Pad) (k : Nat) (hk : k < 8) :
    (shiftedPad false fill n p).shift.getLsbD k = if n + k < 8 then p.shift.getLsbD (n + k) else fill := by
  induction n generalizing p with
  | zero => rw [shiftedPad, Nat.zero_add, if_pos hk]
  | succ n ih =>
    rw [shiftedPad, ih, Nat.add_right_comm n 1 k]
    by_cases hlt : n + k + 1 < 8
    · rw [if_pos hlt, if_pos (by omega), shiftPad_getLsbD fill p _ (by omega), if_neg (by omega)]
    · rw [if_neg hlt]
      by_cases h7 : n + k < 8
      · rw [if_pos h7, shiftPad_getLsbD fill p _ h7, if_pos (by omega)]
      · exact if_neg h7

theorem and_one_toNat (b : Byte) : (b &&& 0x01).toNat = (b.getLsbD 0).toNat := by
  revert b
  decide

/-- With the strobe high a read answers the first button. -/
theorem padBit_high (p : Pad) : (padBit true p).toNat = (p.state.getLsbD 0).toNat :=
  and_one_toNat p.state

/-- With the strobe low, read `n` of a port whose register was latched answers button `n`, or the fill bit past the eighth. -/
theorem padBit_low (fill : Bool) (n : Nat) (p : Pad) (hp : p.shift = p.state) :
    (padBit false (shiftedPad false fill n p)).toNat = if n < 8 then (p.state.getLsbD n).toNat else fill.toNat := by
  rw [padBit, if_neg Bool.false_ne_true, and_one_toNat, shiftedPad_getLsbD fill n p 0 (by decide), hp, Nat.add_zero]
  split <;> rfl

/-- Settles O58: both ports, with the strobe high and after it has gone low. -/
theorem controllersShiftOutTheButtons : Obligations.ControllersShiftOutTheButtons := by
  unfold Obligations.ControllersShiftOutTheButtons
  intro high low m n s hhigh hlow up down button fill
  have hup : up = { s with strobe := true, pad0 := { s.pad0 with shift := s.pad0.state }, pad1 := { s.pad1 with shift := s.pad1.state } } := by
    simp only [up, cpuWrite_strobe, writeStrobe_eq, hhigh, Bool.true_or, if_true]
  have hdown : down = { up with strobe := false } := by
    simp only [down, cpuWrite_strobe, writeStrobe_eq, hlow, hup, Bool.or_true, if_true]
  simp only [cpuRead_pad0, cpuRead_pad1, readPad0, readPad1, afterReads_pad0, afterReads_pad1, hdown]
  simp only [hup]
  refine ⟨?_, ?_, padBit_low _ n _ rfl, padBit_low _ m _ rfl⟩
  · rw [padBit_high, shiftedPad_state]
  · rw [padBit_high, shiftedPad_state]

end Sys2Proof.Machine
end

section
/-!
SUPPORT and PROOF. The PPU's registers as the CPU sees them at 2000 to 3FFF (R334 to R344).
-/

namespace Sys2Proof.Machine

/-! ## The status register -/

theorem readStatus_fst_getLsbD (s : State) (k : Nat) (hk : 5 ≤ k) : (readStatus s).1.getLsbD k = s.ppu.status.getLsbD k := by
  have hhigh : ∀ b f : Byte, ((b &&& 0xE0) ||| (f &&& 0x1F)).getLsbD k = b.getLsbD k := by
    intro b f
    rcases (by omega : k = 5 ∨ k = 6 ∨ k = 7 ∨ 8 ≤ k) with rfl | rfl | rfl | h8
    · simp
    · simp
    · simp
    · rw [BitVec.getLsbD_of_ge _ _ h8, BitVec.getLsbD_of_ge _ _ h8]
  exact hhigh _ _

theorem clear_bit7_getLsbD (b : Byte) (k : Nat) : (b &&& 0x7F).getLsbD k = (decide (k ≠ 7) && b.getLsbD k) := by
  rcases Nat.lt_or_ge k 8 with h | h
  · have hmask : ∀ j < 8, (0x7F : Byte).getLsbD j = decide (j ≠ 7) := by decide
    rw [BitVec.getLsbD_and, hmask k h, Bool.and_comm]
  · rw [BitVec.getLsbD_of_ge _ _ h, BitVec.getLsbD_of_ge _ _ h, Bool.and_false]

/-- Settles O51: the read is `readStatus`, and so is the second one. -/
theorem ppuStatusReadClearsVblank : Obligations.PpuStatusReadClearsVblank := by
  unfold Obligations.PpuStatusReadClearsVblank
  intro a s h1 h2 h8
  have hread : ∀ u, cpuRead a u = readStatus u := fun u => by rw [cpuRead_ppuReg a u h1 h2, h8]; rfl
  simp only [hread]
  refine ⟨readStatus_fst_getLsbD s, ⟨_, rfl, clear_bit7_getLsbD s.ppu.status⟩, ?_⟩
  rw [readStatus_fst_getLsbD _ 7 (by decide), readStatus, clear_bit7_getLsbD]
  rfl

/-! ## Writes of the registers 0 to 6 -/

/-- A run of ones as a mask: bits `lo` to `hi`, both below 15. -/
abbrev IsField (mask : BitVec 15) (lo hi : Nat) : Prop :=
  hi < 15 ∧ ∀ k < 15, mask.getLsbD k = decide (lo ≤ k ∧ k ≤ hi)

theorem setWidth_shiftLeft_getLsbD (d : Byte) {n k : Nat} (h1 : n ≤ k) (h2 : k < 15) :
    (d.setWidth 15 <<< n).getLsbD k = d.getLsbD (k - n) := by
  rw [BitVec.getLsbD_shiftLeft, BitVec.getLsbD_setWidth, decide_eq_true h2, decide_eq_false (by omega), decide_eq_true (by omega)]
  rfl

/-- A byte written into a field of a 15-bit register: bit `k` of the field is bit `k - lo` of the byte, the others are kept. -/
theorem withBits_field_getLsbD {mask : BitVec 15} {lo hi : Nat} (hf : IsField mask lo hi) (t : BitVec 15) (d : Byte) (k : Nat) :
    (withBits t mask (d.setWidth 15 <<< lo)).getLsbD k = if lo ≤ k ∧ k ≤ hi then d.getLsbD (k - lo) else t.getLsbD k := by
  obtain ⟨hhi, hmask⟩ := hf
  rcases Nat.lt_or_ge k 15 with hk | hk
  · rw [withBits_getLsbD, hmask k hk]
    by_cases hin : lo ≤ k ∧ k ≤ hi
    · rw [if_pos (decide_eq_true hin), if_pos hin, setWidth_shiftLeft_getLsbD d hin.1 hk]
    · rw [if_neg (by simpa using hin), if_neg hin]
  · rw [if_neg (by omega), BitVec.getLsbD_of_ge _ _ hk, BitVec.getLsbD_of_ge _ _ hk]

/-- The nametable bits of a control write (R335). -/
theorem writeControl_t_getLsbD (d : Byte) (p : Ppu) (k : Nat) :
    (writeControl d p).t.getLsbD k = if k = 10 ∨ k = 11 then d.getLsbD (k - 10) else p.t.getLsbD k := by
  refine (withBits_field_getLsbD (lo := 10) (hi := 11) (by decide) p.t d k).trans ?_
  exact ite_congr (propext (by omega)) (fun _ => rfl) fun _ => rfl

/-- The first scroll write: coarse x from the byte's high five bits (R340). -/
theorem writeScroll_first_t_getLsbD (d : Byte) {p : Ppu} (hw : p.w = false) (k : Nat) :
    (writeScroll d p).t.getLsbD k = if k ≤ 4 then d.getLsbD (k + 3) else p.t.getLsbD k := by
  have ht : (writeScroll d p).t = withBits p.t 0x001F ((d >>> 3).setWidth 15 <<< 0) := by
    rw [writeScroll, hw, BitVec.shiftLeft_zero]
    rfl
  rw [ht, withBits_field_getLsbD (lo := 0) (hi := 4) (by decide), BitVec.getLsbD_ushiftRight, Nat.sub_zero, Nat.add_comm 3 k]
  exact ite_congr (propext (by omega)) (fun _ => rfl) fun _ => rfl

/-- The second scroll write: fine y from the byte's low three bits, coarse y from the five above them (R340). -/
theorem writeScroll_second_t_getLsbD (d : Byte) {p : Ppu} (hw : p.w = true) (k : Nat) :
    (writeScroll d p).t.getLsbD k =
      if 12 ≤ k ∧ k ≤ 14 then d.getLsbD (k - 12) else if 5 ≤ k ∧ k ≤ 9 then d.getLsbD (k - 2) else p.t.getLsbD k := by
  have ht : (writeScroll d p).t = withBits (withBits p.t 0x7000 (d.setWidth 15 <<< 12)) 0x03E0 ((d >>> 3).setWidth 15 <<< 5) := by
    rw [writeScroll, hw]
    rfl
  rw [ht, withBits_field_getLsbD (lo := 5) (hi := 9) (by decide), withBits_field_getLsbD (lo := 12) (hi := 14) (by decide),
    BitVec.getLsbD_ushiftRight]
  by_cases hcoarse : 5 ≤ k ∧ k ≤ 9
  · rw [if_pos hcoarse, if_neg (by omega), if_pos hcoarse, show 3 + (k - 5) = k - 2 by omega]
  · rw [if_neg hcoarse, if_neg hcoarse]

/-- The first address write: bits 13 to 8 from the byte's low six, bit 14 cleared (R341). -/
theorem writeAddress_first_t_getLsbD (d : Byte) {p : Ppu} (hw : p.w = false) (k : Nat) :
    (writeAddress d p).t.getLsbD k =
      if k = 14 then false else if 8 ≤ k ∧ k ≤ 13 then d.getLsbD (k - 8) else p.t.getLsbD k := by
  have hsix : ∀ j < 7, (d &&& 0x3F).getLsbD j = if j = 6 then false else d.getLsbD j := by
    revert d
    decide
  have ht : (writeAddress d p).t = withBits p.t 0x7F00 ((d &&& 0x3F).setWidth 15 <<< 8) := by
    rw [writeAddress, hw]
    rfl
  rw [ht, withBits_field_getLsbD (lo := 8) (hi := 14) (by decide)]
  by_cases hin : 8 ≤ k ∧ k ≤ 14
  · rw [if_pos hin, hsix (k - 8) (by omega)]
    by_cases h14 : k = 14
    · rw [if_pos h14, if_pos (by omega)]
    · rw [if_neg h14, if_neg (by omega), if_pos (by omega)]
  · rw [if_neg hin, if_neg (by omega), if_neg (by omega)]

/-- The second address write: the low eight bits (R341). -/
theorem writeAddress_second_t_getLsbD (d : Byte) {p : Ppu} (hw : p.w = true) (k : Nat) :
    (writeAddress d p).t.getLsbD k = if k ≤ 7 then d.getLsbD k else p.t.getLsbD k := by
  have ht : (writeAddress d p).t = withBits p.t 0x00FF (d.setWidth 15 <<< 0) := by
    rw [writeAddress, hw, BitVec.shiftLeft_zero]
    rfl
  rw [ht, withBits_field_getLsbD (lo := 0) (hi := 7) (by decide), Nat.sub_zero]
  exact ite_congr (propext (by omega)) (fun _ => rfl) fun _ => rfl

theorem and_seven_toNat (d : Byte) : (d &&& 0x07).toNat = d.toNat % 8 := by
  revert d
  decide

/-- Settles O52: the write is that of the register, whose fields are listed above. -/
theorem ppuRegisterWrites : Obligations.PpuRegisterWrites := by
  unfold Obligations.PpuRegisterWrites
  intro a d s h1 h2 p becomes
  have hwrite : ∀ r, a.toNat % 8 = r → cpuWrite a d s = ppuRegWrite r d s := fun r hr => by rw [cpuWrite_ppuReg a d s h1 h2, hr]
  refine ⟨fun hr => ⟨_, hwrite 0 hr, writeControl_t_getLsbD d p⟩, hwrite 1, hwrite 2, hwrite 3, hwrite 4, fun hr hw => ?_, fun hr hw => ?_,
    fun hr hw => ?_, fun hr hw => ?_⟩
  · refine ⟨(writeScroll d p).t, d &&& 0x07, (hwrite 5 hr).trans ?_, and_seven_toNat d, writeScroll_first_t_getLsbD d hw⟩
    show ({ s with ppu := writeScroll d p } : State) = _
    simp only [writeScroll, hw, Bool.false_eq_true, if_false]
  · refine ⟨(writeScroll d p).t, (hwrite 5 hr).trans ?_, writeScroll_second_t_getLsbD d hw⟩
    show ({ s with ppu := writeScroll d p } : State) = _
    simp only [writeScroll, hw, if_true]
  · refine ⟨(writeAddress d p).t, (hwrite 6 hr).trans ?_, writeAddress_first_t_getLsbD d hw⟩
    show ({ s with ppu := writeAddress d p } : State) = _
    simp only [writeAddress, hw, Bool.false_eq_true, if_false]
  · refine ⟨(writeAddress d p).t, (hwrite 6 hr).trans ?_, writeAddress_second_t_getLsbD d hw⟩
    show ({ s with ppu := writeAddress d p } : State) = _
    simp only [writeAddress, hw, if_true]

/-! ## The data register -/

theorem nextV_toNat (ctrl : Byte) (v : BitVec 15) : (nextV ctrl v).toNat = (v.toNat + if ctrl.getLsbD 2 then 32 else 1) % 32768 := by
  rw [nextV, BitVec.toNat_add]
  split <;> rfl

/-- A PPU write keeps the PPU's own registers. -/
theorem ppuWrite_registers (a : BitVec 14) (v : Byte) (s : State) :
    (ppuWrite a v s).ppu = { s.ppu with vram := (ppuWrite a v s).ppu.vram, pal := (ppuWrite a v s).ppu.pal } := by
  unfold ppuWrite
  split
  · rfl
  · split
    · rfl
    · split <;> rfl

/-- Settles O53: the data port goes through `ppuRead` and `ppuWrite` at the 14-bit address. -/
theorem ppuDataPort : Obligations.PpuDataPort := by
  unfold Obligations.PpuDataPort
  intro a d s h1 h2
  have hread : ∀ r, a.toNat % 8 = r → cpuRead a s = ppuRegRead r s := fun r hr => by rw [cpuRead_ppuReg a s h1 h2, hr]
  refine ⟨fun hr => ?_, hread 4, fun hr => ?_⟩
  · have hkept := ppuWrite_registers (vramAddr s.ppu.v) d s
    refine ⟨vramAddr s.ppu.v, nextV s.ppu.ctrl s.ppu.v, BitVec.toNat_setWidth _ _, nextV_toNat _ _, hread 7 hr, ?_, by rw [hkept]⟩
    rw [cpuWrite_ppuReg a d s h1 h2, hr]
    show writeData d s = _
    rw [writeData, hkept]
  · rw [cpuRead_ppuReg a s h1 h2]
    simp only [List.mem_cons, List.not_mem_nil, or_false] at hr
    rcases hr with hr | hr | hr | hr | hr <;> rw [hr] <;> rfl

end Sys2Proof.Machine
end

section
/-!
SUPPORT and PROOF. The APU's registers and its frame sequencer (R390 to R404, R409): each write as numbers, and which units a slot clocks.
-/

namespace Sys2Proof.Machine

/-! ## The numbers in the registers -/

theorem setWidth_four_toNat (d : Byte) : (d.setWidth 4).toNat = d.toNat % 16 :=
  BitVec.toNat_setWidth 4 d

theorem duty_toNat (d : Byte) : ((d >>> 6).setWidth 2).toNat = d.toNat / 64 := by
  have h := d.isLt
  rw [BitVec.toNat_setWidth, BitVec.toNat_ushiftRight, Nat.shiftRight_eq_div_pow]
  omega

/-- The low write replaces the eight bits below the period's top three. -/
theorem periodLow_toNat (p : BitVec 11) (d : Byte) : (periodLow p d).toNat = p.toNat / 256 * 256 + d.toNat := by
  have happend : periodLow p d = p.extractLsb' 8 3 ++ d := by
    apply BitVec.eq_of_getLsbD_eq
    intro k hk
    have hmask : ∀ j < 11, (0x700 : BitVec 11).getLsbD j = decide (8 ≤ j) := by decide
    rw [periodLow, BitVec.getLsbD_append, BitVec.getLsbD_or, BitVec.getLsbD_and, hmask k hk, BitVec.getLsbD_setWidth, decide_eq_true hk,
      Bool.true_and]
    by_cases h8 : k < 8
    · rw [if_pos h8, decide_eq_false (show ¬ 8 ≤ k by omega), Bool.and_false, Bool.false_or]
    · rw [if_neg h8, decide_eq_true (show 8 ≤ k by omega), Bool.and_true, BitVec.getLsbD_of_ge d k (by omega), Bool.or_false,
        BitVec.getLsbD_extractLsb', decide_eq_true (show k - 8 < 3 by omega), Bool.true_and, show 8 + (k - 8) = k by omega]
  have hd := d.isLt
  have hp := p.isLt
  rw [happend, BitVec.toNat_append, ← Nat.shiftLeft_add_eq_or_of_lt hd, Nat.shiftLeft_eq, BitVec.extractLsb'_toNat,
    Nat.shiftRight_eq_div_pow]
  omega

/-- The high write replaces the period's top three bits. -/
theorem periodHigh_toNat (p : BitVec 11) (d : Byte) : (periodHigh p d).toNat = d.toNat % 8 * 256 + p.toNat % 256 := by
  have happend : periodHigh p d = d.setWidth 3 ++ p.setWidth 8 := by
    apply BitVec.eq_of_getLsbD_eq
    intro k hk
    have hmask : ∀ j < 11, (0x0FF : BitVec 11).getLsbD j = decide (j < 8) := by decide
    have htop : ∀ j < 3, (0x07 : Byte).getLsbD j = true := by decide
    have hdef : periodHigh p d = (p &&& (0x0FF : BitVec 11)) ||| ((d &&& 0x07).setWidth 11 <<< 8) := rfl
    rw [hdef, BitVec.getLsbD_append, BitVec.getLsbD_or, BitVec.getLsbD_and, hmask k hk, BitVec.getLsbD_shiftLeft, decide_eq_true hk,
      Bool.true_and, BitVec.getLsbD_setWidth, BitVec.getLsbD_setWidth]
    by_cases h8 : k < 8
    · rw [if_pos h8, decide_eq_true h8, Bool.and_true, Bool.true_and, Bool.not_true, Bool.false_and, Bool.or_false]
    · rw [if_neg h8, decide_eq_false h8, Bool.and_false, Bool.false_or, Bool.not_false, Bool.true_and, BitVec.getLsbD_and,
        htop (k - 8) (by omega), Bool.and_true, BitVec.getLsbD_setWidth, decide_eq_true (show k - 8 < 11 by omega),
        decide_eq_true (show k - 8 < 3 by omega)]
  rw [happend, BitVec.toNat_append, ← Nat.shiftLeft_add_eq_or_of_lt (p.setWidth 8).isLt, Nat.shiftLeft_eq, BitVec.toNat_setWidth,
    BitVec.toNat_setWidth]

theorem lengthLoad_toNat (d : Byte) : (lengthLoad d).toNat = lengthLoads.getD (d.toNat / 8) 0 := by
  revert d
  decide

theorem loadsLength (enabled : Bool) (d old : Byte) : LoadsLength enabled d old (if enabled then lengthLoad d else old) := by
  rw [LoadsLength, apply_ite BitVec.toNat, lengthLoad_toNat]

theorem sampleAddr_toNat (d : Byte) : (0xC000 + d.setWidth 16 * 64 : Word).toNat = 0xC000 + d.toNat * 64 := by
  have h := d.isLt
  rw [BitVec.toNat_add, BitVec.toNat_mul, BitVec.toNat_setWidth]
  simp
  omega

theorem sampleLen_toNat (d : Byte) : (d.setWidth 12 * 16 + 1 : BitVec 12).toNat = d.toNat * 16 + 1 := by
  have h := d.isLt
  rw [BitVec.toNat_add, BitVec.toNat_mul, BitVec.toNat_setWidth]
  simp
  omega

/-! ## The registers of the channels -/

theorem writePulse_written (r : Nat) (d : Byte) (p : Pulse) : PulseWritten r d p (writePulse r d p) := by
  match r with
  | 0 => exact ⟨rfl, duty_toNat d, setWidth_four_toNat d⟩
  | 1 => rfl
  | 2 => exact ⟨rfl, periodLow_toNat _ d⟩
  | _ + 3 => exact ⟨rfl, periodHigh_toNat _ d, loadsLength _ d _⟩

theorem writeTriangle_written (r : Nat) (d : Byte) (t : Triangle) : TriangleWritten r d t (writeTriangle r d t) := by
  match r with
  | 0 => exact ⟨rfl, BitVec.toNat_setWidth 7 d⟩
  | 1 => rfl
  | 2 => exact ⟨rfl, periodLow_toNat _ d⟩
  | _ + 3 => exact ⟨rfl, periodHigh_toNat _ d, loadsLength _ d _⟩

theorem writeNoise_written (r : Nat) (d : Byte) (n : Noise) : NoiseWritten r d n (writeNoise r d n) := by
  match r with
  | 0 => exact ⟨rfl, setWidth_four_toNat d⟩
  | 1 => rfl
  | 2 => exact ⟨rfl, setWidth_four_toNat d⟩
  | _ + 3 => exact ⟨rfl, loadsLength _ d _⟩

theorem writeDmc_written (r : Nat) (d : Byte) (m : Dmc) : DmcWritten r d m (writeDmc r d m) := by
  match r with
  | 0 =>
    refine ⟨?_, setWidth_four_toNat d⟩
    rw [writeDmc]
    cases d.getLsbD 7 <;> rfl
  | 1 => exact ⟨rfl, BitVec.toNat_setWidth 7 d⟩
  | 2 => exact ⟨rfl, sampleAddr_toNat d⟩
  | _ + 3 => exact ⟨rfl, sampleLen_toNat d⟩

/-! ## Enables and status -/

/-- The reader after a write of 4015: stopped, or started again where it had come to its end (R396). -/
theorem enableDmc_eq (d : Byte) (m : Dmc) :
    enableDmc d m =
      { m with
        enabled := d.getLsbD 4
        dmcIrq := false
        curAddr := if d.getLsbD 4 ∧ m.bytesRemaining = 0 then m.sampleAddr else m.curAddr
        bytesRemaining := if d.getLsbD 4 then (if m.bytesRemaining = 0 then m.sampleLen else m.bytesRemaining) else 0 } := by
  unfold enableDmc
  cases d.getLsbD 4 with
  | false => simp
  | true => by_cases h : m.bytesRemaining = 0 <;> simp only [h, if_true, if_false, true_and]

theorem bne_zero_eq {w : Nat} (x : BitVec w) : (x != 0) = decide (0 < x.toNat) := by
  rw [Bool.eq_iff_iff, bne_iff_ne, decide_eq_true_iff, Nat.pos_iff_ne_zero, ne_eq, ne_eq, ← BitVec.toNat_inj]
  exact Iff.of_eq (congrArg (fun z => ¬ x.toNat = z) BitVec.toNat_zero)

/-- The eight bits of a byte put together from its flags. -/
theorem statusBits_getLsbD (b7 b6 b4 b3 b2 b1 b0 : Bool) (k : Nat) :
    ((BitVec.ofBool b7 ++ BitVec.ofBool b6 ++ 0#1 ++ BitVec.ofBool b4 ++ BitVec.ofBool b3 ++ BitVec.ofBool b2 ++ BitVec.ofBool b1 ++
      BitVec.ofBool b0).setWidth 8).getLsbD k =
      match k with
      | 0 => b0
      | 1 => b1
      | 2 => b2
      | 3 => b3
      | 4 => b4
      | 6 => b6
      | 7 => b7
      | _ => false := by
  rcases Nat.lt_or_ge k 8 with h | h
  · revert b7 b6 b4 b3 b2 b1 b0
    rcases (by omega : k = 0 ∨ k = 1 ∨ k = 2 ∨ k = 3 ∨ k = 4 ∨ k = 5 ∨ k = 6 ∨ k = 7) with
      rfl | rfl | rfl | rfl | rfl | rfl | rfl | rfl <;> decide
  · obtain ⟨j, rfl⟩ := Nat.exists_eq_add_of_le' h
    exact BitVec.getLsbD_of_ge _ _ h

/-! ## What the frame sequencer clocks -/

/-- Counting down to no less than 0. -/
theorem pred_toNat {w : Nat} (x : BitVec (w + 1)) : (if x ≠ 0 then x - 1 else x).toNat = x.toNat - 1 := by
  by_cases h : x = 0
  · rw [if_neg (not_not_intro h), h]
    rfl
  · have hpos : x.toNat ≠ 0 := fun h0 => h (BitVec.eq_of_toNat_eq h0)
    have hone : (1 : BitVec (w + 1)).toNat = 1 := by simp
    rw [if_pos h, BitVec.toNat_sub_of_le (BitVec.le_def.mpr (by omega)), hone]

theorem decay_toNat (loop : Bool) (x : BitVec 4) :
    (if x ≠ 0 then x - 1 else if loop then 15 else x).toNat = if x.toNat = 0 ∧ loop then 15 else x.toNat - 1 := by
  revert x loop
  decide

/-- Start, the end of a divider period, and the divider's count, one case each (R403). -/
theorem clockEnvelope_clocked (e : Envelope) : EnvelopeClocked e (clockEnvelope e) := by
  obtain ⟨loop, const, volume, start, divider, decay⟩ := e
  cases start with
  | true => exact ⟨rfl, rfl, rfl⟩
  | false =>
    by_cases hdiv : divider = 0
    · simp only [EnvelopeClocked, clockEnvelope, hdiv, if_true, or_true, Bool.false_eq_true, if_false, true_and]
      exact decay_toNat loop decay
    · have hpred := pred_toNat divider
      rw [if_pos hdiv] at hpred
      simp only [EnvelopeClocked, clockEnvelope, hdiv, or_self, Bool.false_eq_true, if_false, true_and, and_true]
      exact hpred

theorem clockLength_toNat (halt : Bool) (n : Byte) : (clockLength halt n).toNat = n.toNat - (!halt).toNat := by
  revert n halt
  decide

theorem clockEnvelope_lengthHalt (e : Envelope) : (clockEnvelope e).lengthHalt = e.lengthHalt := by
  rw [(clockEnvelope_clocked e).1]

theorem clockLinear_linear_toNat (t : Triangle) :
    (clockLinear t).linear.toNat = if t.linearReload then t.linearReloadValue.toNat else t.linear.toNat - 1 := by
  rw [clockLinear, apply_ite BitVec.toNat, pred_toNat]

theorem clockLinear_linearReload (t : Triangle) : (clockLinear t).linearReload = if t.control then t.linearReload else false := by
  rw [clockLinear]
  cases t.control <;> rfl

theorem quarterFrame_clocked (a : Apu) : QuarterClocked a (quarterFrame a) :=
  ⟨clockEnvelope_clocked _, clockEnvelope_clocked _, clockEnvelope_clocked _, clockLinear_linear_toNat _, clockLinear_linearReload _⟩

theorem halfFrame_clocked (a : Apu) : HalfClocked a (halfFrame a) :=
  ⟨clockLength_toNat _ _, clockLength_toNat _ _, clockLength_toNat _ _, clockLength_toNat _ _⟩

/-- A quarter frame changes no length and no halt flag. -/
theorem halfFrame_quarterFrame_clocked (a : Apu) : HalfClocked a (halfFrame (quarterFrame a)) := by
  have h := halfFrame_clocked (quarterFrame a)
  simp only [HalfClocked, quarterFrame, clockEnvelope_lengthHalt] at h
  exact h

/-! ## The obligations -/

theorem writeFrameSeq_sequenced (d : Byte) (a : Apu) : a.sequencedBy (writeFrameSeq d a) = writeFrameSeq d a := by
  unfold writeFrameSeq
  cases d.getLsbD 7 <;> rfl

/-- The sequence starts again; in five-step mode a quarter and a half frame are clocked at once (R398). -/
theorem writeFrameSeq_spec (d : Byte) (a : Apu) :
    (writeFrameSeq d a).fs =
        { counter := 0, phase := false, mode5 := d.getLsbD 7, irqInhibit := d.getLsbD 6
          frameIrq := if d.getLsbD 6 then false else a.fs.frameIrq } ∧
      (d.getLsbD 7 = true → QuarterClocked a (writeFrameSeq d a) ∧ HalfClocked a (writeFrameSeq d a)) ∧
      (d.getLsbD 7 = false → writeFrameSeq d a = { a with fs := (writeFrameSeq d a).fs }) := by
  have hirq : (!d.getLsbD 6 && a.fs.frameIrq) = if d.getLsbD 6 then false else a.fs.frameIrq := by cases d.getLsbD 6 <;> rfl
  rw [← hirq]
  unfold writeFrameSeq
  cases d.getLsbD 7 with
  | false => exact ⟨rfl, fun h => absurd h Bool.false_ne_true, fun _ => rfl⟩
  | true =>
    exact ⟨rfl, fun _ => ⟨quarterFrame_clocked { a with fs := _ }, halfFrame_quarterFrame_clocked { a with fs := _ }⟩,
      fun h => absurd h.symm Bool.false_ne_true⟩

/-- Where the registers of each channel stand (R391). -/
theorem apuRegWrite_channels (n : Nat) (d : Byte) (a : Apu) :
    (n ≤ 0x4003 → apuRegWrite n d a = { a with pulse1 := writePulse (n % 4) d a.pulse1 }) ∧
    (0x4004 ≤ n → n ≤ 0x4007 → apuRegWrite n d a = { a with pulse2 := writePulse (n % 4) d a.pulse2 }) ∧
    (0x4008 ≤ n → n ≤ 0x400B → apuRegWrite n d a = { a with tri := writeTriangle (n % 4) d a.tri }) ∧
    (0x400C ≤ n → n ≤ 0x400F → apuRegWrite n d a = { a with noise := writeNoise (n % 4) d a.noise }) ∧
    (0x4010 ≤ n → n ≤ 0x4013 → apuRegWrite n d a = { a with dmc := writeDmc (n % 4) d a.dmc }) := by
  unfold apuRegWrite
  refine ⟨fun h => if_pos (by omega), fun h1 h2 => ?_, fun h1 h2 => ?_, fun h1 h2 => ?_, fun h1 h2 => ?_⟩
  · rw [if_neg (by omega), if_pos (by omega)]
  · rw [if_neg (by omega), if_neg (by omega), if_pos (by omega)]
  · rw [if_neg (by omega), if_neg (by omega), if_neg (by omega), if_pos (by omega)]
  · rw [if_neg (by omega), if_neg (by omega), if_neg (by omega), if_neg (by omega), if_pos (by omega)]

/-- Settles O59: the write's address chooses the register, whose fields are said above. -/
theorem apuRegisterWritesAndStatus : Obligations.ApuRegisterWritesAndStatus := by
  unfold Obligations.ApuRegisterWritesAndStatus
  intro at_ d s a n becomes on
  have hwrite : 0x4000 ≤ n → n ≤ 0x4017 → n ≠ 0x4014 → n ≠ 0x4016 → becomes (apuRegWrite n d a) := fun h1 h2 hdma hstrobe =>
    cpuWrite_apu at_ d s h1 h2 (fun e => hdma (congrArg BitVec.toNat e)) (fun e => hstrobe (congrArg BitVec.toNat e))
  obtain ⟨hpulse1, hpulse2, htri, hnoise, hdmc⟩ := apuRegWrite_channels n d a
  refine ⟨fun h1 h2 => ?_, fun h1 h2 => ?_, fun h1 h2 => ?_, fun h1 h2 => ?_, fun h1 h2 => ?_, fun h => ?_, fun h => ?_, ?_, fun k => ?_⟩
  · exact ⟨_, hpulse1 h2 ▸ hwrite h1 (by omega) (by omega) (by omega), writePulse_written _ d _⟩
  · exact ⟨_, hpulse2 h1 h2 ▸ hwrite (by omega) (by omega) (by omega) (by omega), writePulse_written _ d _⟩
  · exact ⟨_, htri h1 h2 ▸ hwrite (by omega) (by omega) (by omega) (by omega), writeTriangle_written _ d _⟩
  · exact ⟨_, hnoise h1 h2 ▸ hwrite (by omega) (by omega) (by omega) (by omega), writeNoise_written _ d _⟩
  · exact ⟨_, hdmc h1 h2 ▸ hwrite (by omega) (by omega) (by omega) (by omega), writeDmc_written _ d _⟩
  · have hw := hwrite (by omega) (by omega) (by omega) (by omega)
    rw [h] at hw
    rw [← enableDmc_eq]
    exact hw
  · have hw := hwrite (by omega) (by omega) (by omega) (by omega)
    rw [h] at hw
    refine ⟨writeFrameSeq d a, ?_, writeFrameSeq_spec d a⟩
    rw [writeFrameSeq_sequenced]
    exact hw
  · rw [cpuRead_status]
    rfl
  · rw [cpuRead_status]
    simp only [← bne_zero_eq]
    exact statusBits_getLsbD _ _ _ _ _ _ _ k

end Sys2Proof.Machine
end

section
/-!
SUPPORT and PROOF. The frame sequencer's schedule (R390, R399 to R401): with the positions in rising order at most one of its cases applies to a count,
and what the channels' timers do in the same slot touches no envelope and no length.
-/

namespace Sys2Proof.Machine

/-- What a quarter frame clocks is as it was. -/
def SameEnvelopes (a r : Apu) : Prop :=
  r.pulse1.env = a.pulse1.env ∧ r.pulse2.env = a.pulse2.env ∧ r.noise.env = a.noise.env ∧ r.tri.linear = a.tri.linear ∧
    r.tri.linearReload = a.tri.linearReload

/-- What a half frame clocks is as it was. -/
def SameLengths (a r : Apu) : Prop :=
  r.pulse1.length = a.pulse1.length ∧ r.pulse2.length = a.pulse2.length ∧ r.tri.length = a.tri.length ∧ r.noise.length = a.noise.length

theorem QuarterClocked.congr {a f r : Apu} (h : QuarterClocked a f) (e : SameEnvelopes f r) : QuarterClocked a r := by
  obtain ⟨e1, e2, e3, e4, e5⟩ := e
  rwa [QuarterClocked, e1, e2, e3, e4, e5]

theorem HalfClocked.congr {a f r : Apu} (h : HalfClocked a f) (e : SameLengths f r) : HalfClocked a r := by
  obtain ⟨e1, e2, e3, e4⟩ := e
  rwa [HalfClocked, e1, e2, e3, e4]

/-! ## The timers -/

theorem pulseTimer_kept (p : Pulse) : (pulseTimer p).env = p.env ∧ (pulseTimer p).length = p.length := by
  unfold pulseTimer
  split <;> exact ⟨rfl, rfl⟩

theorem triangleTimer_kept (t : Triangle) :
    (triangleTimer t).linear = t.linear ∧ (triangleTimer t).linearReload = t.linearReload ∧ (triangleTimer t).length = t.length := by
  unfold triangleTimer
  split <;> exact ⟨rfl, rfl, rfl⟩

theorem noiseTimer_kept (n : Noise) : (noiseTimer n).env = n.env ∧ (noiseTimer n).length = n.length := by
  unfold noiseTimer
  split <;> exact ⟨rfl, rfl⟩

/-! ## The sequencer -/

/-- The count is the last of the sequence. -/
abbrev SequenceEnds (g : Config) (a : Apu) : Prop :=
  if a.fs.mode5 then a.fs.counter = g.fs5Wrap else a.fs.counter = g.fs4Wrap

/-- The positions of the sequence in rising order, as the defaults are (R399). -/
structure Config.RisingSteps (g : Config) : Prop where
  first : g.fsStep1 < g.fsStep2
  second : g.fsStep2 < g.fsStep3
  four : g.fsStep3 < g.fs4Wrap
  five : g.fsStep3 < g.fs5Wrap

/-- At the last count a quarter and a half frame, and the counter restarts; in four-step mode the flag is raised unless inhibited. -/
theorem frameSequencerStep_last {g : Config} {a : Apu} (hg : Config.RisingSteps g) (hlast : SequenceEnds g a) :
    frameSequencerStep g a = { halfFrame (quarterFrame a) with
      fs := { a.fs with counter := 0, frameIrq := (!a.fs.mode5 && !a.fs.irqInhibit) || a.fs.frameIrq } } := by
  obtain ⟨h12, h23, h4, h5⟩ := hg
  have hne : a.fs.counter ≠ g.fsStep1 ∧ a.fs.counter ≠ g.fsStep2 ∧ a.fs.counter ≠ g.fsStep3 := by
    unfold SequenceEnds at hlast
    split at hlast <;> omega
  obtain ⟨hne1, hne2, hne3⟩ := hne
  unfold SequenceEnds at hlast
  simp only [frameSequencerStep, if_neg hne1, if_neg hne2, if_neg hne3]
  by_cases hm : a.fs.mode5 = true
  · have hirq : (!a.fs.mode5 && !a.fs.irqInhibit || a.fs.frameIrq) = a.fs.frameIrq := by rw [hm]; rfl
    rw [if_pos hm] at hlast
    rw [hirq, if_pos hm, if_pos hlast]
    rfl
  · have hirq : (!a.fs.mode5 && !a.fs.irqInhibit || a.fs.frameIrq) = (!a.fs.irqInhibit || a.fs.frameIrq) := by
      rw [Bool.eq_false_iff.mpr hm]
      rfl
    rw [if_neg hm] at hlast
    rw [hirq, if_neg hm, if_pos hlast]
    rfl

/-- At the other counts: a quarter and a half frame at the second step, a quarter frame at the first and the third. -/
theorem frameSequencerStep_of_not_last {g : Config} {a : Apu} (hg : Config.RisingSteps g) (hlast : ¬ SequenceEnds g a) :
    frameSequencerStep g a =
      if a.fs.counter = g.fsStep2 then halfFrame (quarterFrame a)
      else if a.fs.counter = g.fsStep1 ∨ a.fs.counter = g.fsStep3 then quarterFrame a else a := by
  obtain ⟨h12, h23, -, -⟩ := hg
  have hend : ∀ (b : Apu) (x y : Apu), b.fs = a.fs →
      (if b.fs.mode5 then if a.fs.counter = g.fs5Wrap then x else b else if a.fs.counter = g.fs4Wrap then y else b) = b := by
    intro b x y hb
    rw [hb]
    unfold SequenceEnds at hlast
    by_cases hm : a.fs.mode5 = true
    · rw [if_pos hm] at hlast
      rw [if_pos hm, if_neg hlast]
    · rw [if_neg hm] at hlast
      rw [if_neg hm, if_neg hlast]
  unfold frameSequencerStep
  by_cases hc2 : a.fs.counter = g.fsStep2
  · simp only [if_pos hc2, if_neg (show ¬ a.fs.counter = g.fsStep1 by omega), if_neg (show ¬ a.fs.counter = g.fsStep3 by omega)]
    exact hend _ _ _ rfl
  · simp only [if_neg hc2]
    by_cases hc1 : a.fs.counter = g.fsStep1
    · simp only [if_pos hc1, if_neg (show ¬ a.fs.counter = g.fsStep3 by omega), if_pos (Or.inl hc1)]
      exact hend _ _ _ rfl
    · simp only [if_neg hc1]
      by_cases hc3 : a.fs.counter = g.fsStep3
      · simp only [if_pos hc3, if_pos (Or.inr hc3)]
        exact hend _ _ _ rfl
      · simp only [if_neg hc3, if_neg (not_or.mpr ⟨hc1, hc3⟩)]
        exact hend _ _ _ rfl

/-! ## The slot -/

/-- Every second slot is the timers' alone. -/
theorem apuFront_even {g : Config} {a : Apu} (hphase : a.fs.phase = false) :
    apuFront g a = { a with fs := { a.fs with phase := true }, tri := triangleTimer a.tri, noise := noiseTimer a.noise } := by
  simp only [apuFront, hphase, Bool.false_eq_true, if_false, Bool.not_false]

/-- In the other slots the counter goes up and the sequencer runs, before the timers. -/
theorem apuFront_odd {g : Config} {a : Apu} (hphase : a.fs.phase = true) :
    let f := frameSequencerStep g { a with fs := { a.fs with counter := a.fs.counter + 1 } }
    apuFront g a = { f with
      fs := { f.fs with phase := !f.fs.phase }
      pulse1 := pulseTimer f.pulse1
      pulse2 := pulseTimer f.pulse2
      tri := triangleTimer f.tri
      noise := noiseTimer f.noise } := by
  simp only [apuFront, hphase, if_true, apuCycle]

/-- What such a slot leaves, from what the sequencer leaves: the timers touch no envelope and no length. -/
theorem apuFront_odd_kept {g : Config} {a f : Apu} (hphase : a.fs.phase = true)
    (hf : frameSequencerStep g { a with fs := { a.fs with counter := a.fs.counter + 1 } } = f) :
    (apuFront g a).fs = { f.fs with phase := !f.fs.phase } ∧ SameEnvelopes f (apuFront g a) ∧ SameLengths f (apuFront g a) := by
  rw [apuFront_odd hphase, hf]
  obtain ⟨e1, l1⟩ := pulseTimer_kept f.pulse1
  obtain ⟨e2, l2⟩ := pulseTimer_kept f.pulse2
  obtain ⟨lin, rel, lt⟩ := triangleTimer_kept f.tri
  obtain ⟨en, ln⟩ := noiseTimer_kept f.noise
  exact ⟨rfl, ⟨e1, e2, en, lin, rel⟩, l1, l2, lt, ln⟩

/-- What a slot with the sequencer clocks, by the count it comes to: one case each for the last count, the second step, the first and the third
step, and the counts between them. -/
theorem apuFront_schedule {g : Config} {a : Apu} (hg : Config.RisingSteps g) (hphase : a.fs.phase = true) :
    let r := apuFront g a
    let c := a.fs.counter + 1
    let last : Prop := if a.fs.mode5 then c = g.fs5Wrap else c = g.fs4Wrap
    let half : Prop := c = g.fsStep2 ∨ last
    let quarter : Prop := c = g.fsStep1 ∨ c = g.fsStep3 ∨ half
    (last → r.fs = { a.fs with counter := 0, phase := false, frameIrq := (!a.fs.mode5 && !a.fs.irqInhibit) || a.fs.frameIrq }) ∧
      (¬ last → r.fs = { a.fs with counter := c, phase := false }) ∧ (half → HalfClocked a r) ∧ (¬ half → SameLengths a r) ∧
      (quarter → QuarterClocked a r) ∧ (¬ quarter → SameEnvelopes a r) := by
  intro r c last half quarter
  let b : Apu := { a with fs := { a.fs with counter := c } }
  have hphase' : (!a.fs.phase) = false := by rw [hphase]; rfl
  by_cases hlast : last
  · have hf : frameSequencerStep g b = _ := frameSequencerStep_last hg hlast
    obtain ⟨hfs, henv, hlen⟩ := apuFront_odd_kept hphase hf
    refine ⟨fun _ => by rw [hfs, ← hphase'], fun h => absurd hlast h, fun _ => ?_, fun h => absurd (.inr hlast) h, fun _ => ?_,
      fun h => absurd (.inr (.inr (.inr hlast))) h⟩
    · exact HalfClocked.congr (halfFrame_quarterFrame_clocked b) hlen
    · exact QuarterClocked.congr (quarterFrame_clocked b) henv
  have hf := frameSequencerStep_of_not_last (a := b) hg hlast
  by_cases h2 : c = g.fsStep2
  · rw [if_pos (show b.fs.counter = g.fsStep2 from h2)] at hf
    obtain ⟨hfs, henv, hlen⟩ := apuFront_odd_kept hphase hf
    refine ⟨fun h => absurd h hlast, fun _ => by rw [hfs, ← hphase']; rfl, fun _ => ?_, fun h => absurd (.inl h2) h, fun _ => ?_,
      fun h => absurd (.inr (.inr (.inl h2))) h⟩
    · exact HalfClocked.congr (halfFrame_quarterFrame_clocked b) hlen
    · exact QuarterClocked.congr (quarterFrame_clocked b) henv
  have hhalf : ¬ half := not_or.mpr ⟨h2, hlast⟩
  rw [if_neg (show ¬ b.fs.counter = g.fsStep2 from h2)] at hf
  by_cases h13 : c = g.fsStep1 ∨ c = g.fsStep3
  · rw [if_pos (show b.fs.counter = g.fsStep1 ∨ b.fs.counter = g.fsStep3 from h13)] at hf
    obtain ⟨hfs, henv, hlen⟩ := apuFront_odd_kept hphase hf
    exact ⟨fun h => absurd h hlast, fun _ => by rw [hfs, ← hphase']; rfl, fun h => absurd h hhalf, fun _ => hlen,
      fun _ => QuarterClocked.congr (quarterFrame_clocked b) henv, fun h => absurd (h13.imp_right .inl) h⟩
  · rw [if_neg (show ¬ (b.fs.counter = g.fsStep1 ∨ b.fs.counter = g.fsStep3) from h13)] at hf
    obtain ⟨hfs, henv, hlen⟩ := apuFront_odd_kept hphase hf
    have hquarter : ¬ quarter := fun h => h.elim (fun h1 => h13 (.inl h1)) fun h => h.elim (fun h3 => h13 (.inr h3)) hhalf
    exact ⟨fun h => absurd h hlast, fun _ => by rw [hfs, ← hphase'], fun h => absurd h hhalf, fun _ => hlen,
      fun h => absurd h hquarter, fun _ => henv⟩

/-- Settles O60: slots without the sequencer run the timers alone, the others go by their count. -/
theorem frameSequencerSchedule : Obligations.FrameSequencerSchedule := by
  unfold Obligations.FrameSequencerSchedule
  intro g a h12 h23 h4 h5
  refine ⟨fun hphase => ?_, fun hphase => apuFront_schedule ⟨h12, h23, h4, h5⟩ hphase⟩
  rw [apuFront_even hphase]
  obtain ⟨lin, rel, lt⟩ := triangleTimer_kept a.tri
  obtain ⟨en, ln⟩ := noiseTimer_kept a.noise
  exact ⟨rfl, rfl, rfl, ⟨rfl, rfl, lt, ln⟩, rfl, rfl, en, lin, rel⟩

end Sys2Proof.Machine
end

section
/-!
SUPPORT and PROOF. What each mapper shows at an address and what a write of its registers does (R459 to R470).
-/

namespace Sys2Proof.Machine

/-! ## PRG -/

/-- From 8000 on a read answers the PRG byte at the mapper's offset, reduced to the size of PRG (R454, R455). -/
theorem cpuRead_prg {s : State} {c : Cartridge} (hc : s.cart = some c) {a : Word} (ha : 0x8000 ≤ a.toNat) {off : Nat}
    (hoff : c.prgOffset a.toNat = some off) : cpuRead a s = (c.prg.read (off % c.prgSize), s) := by
  have hmap : c.cpuMapRead a = .prg (off % c.prgSize) := by
    simp only [Cartridge.cpuMapRead, hoff, if_neg (show ¬ a.toNat < 0x6000 by omega), if_neg (show ¬ a.toNat < 0x8000 by omega)]
  have hread : c.cpuRead a = some (c.prg.read (off % c.prgSize)) := by simp only [Cartridge.cpuRead, hmap]
  simp only [cpuRead, hc, Option.bind_some, hread]

/-- An offset inside PRG needs no reduction. -/
theorem cpuRead_prg_inside {s : State} {c : Cartridge} (hc : s.cart = some c) {a : Word} (ha : 0x8000 ≤ a.toNat) {off : Nat}
    (hoff : c.prgOffset a.toNat = some off) (hlt : off < c.header.prgBanks * 16384) : cpuRead a s = (c.prg.read off, s) := by
  rw [cpuRead_prg hc ha hoff, Cartridge.prgSize, Nat.mod_eq_of_lt hlt]

theorem prgOffset_nrom {c : Cartridge} (hm : c.mapper = .nrom) (n : Nat) : c.prgOffset n = some (n % 0x8000) := by
  simp only [Cartridge.prgOffset, hm]

theorem prgOffset_unrom {c : Cartridge} {bank : Byte} (hm : c.mapper = .unrom bank) (n : Nat) :
    c.prgOffset n = some (if n < 0xC000 then bank.toNat % c.header.prgBanks * 16384 + n % 0x4000
      else (c.header.prgBanks - 1) * 16384 + n % 0x4000) := by
  simp only [Cartridge.prgOffset, hm]
  split <;> rfl

theorem prgOffset_mmc1 {c : Cartridge} {r : Mmc1} (hm : c.mapper = .mmc1 r) (n : Nat) : c.prgOffset n = some (mmc1PrgOffset c r n) := by
  simp only [Cartridge.prgOffset, hm]

theorem prgOffset_mmc2 {c : Cartridge} {r : Mmc2} (hm : c.mapper = .mmc2 r) (n : Nat) :
    c.prgOffset n = some (if n < 0xA000 then r.prg.toNat % (2 * c.header.prgBanks) * 8192 + n % 0x2000
      else c.prgSize - 0x6000 + (n - 0xA000)) := by
  simp only [Cartridge.prgOffset, hm]
  split <;> rfl

theorem unrom_shows {s : State} {c : Cartridge} (hc : s.cart = some c) {a : Word} (ha : 0x8000 ≤ a.toNat) (hbanks : 1 ≤ c.header.prgBanks)
    {bank : Byte} (hm : c.mapper = .unrom bank) :
    (a.toNat < 0xC000 → cpuRead a s = (c.prg.read (bank.toNat % c.header.prgBanks * 16384 + a.toNat % 16384), s)) ∧
      (0xC000 ≤ a.toNat → cpuRead a s = (c.prg.read ((c.header.prgBanks - 1) * 16384 + a.toNat % 16384), s)) := by
  have hoff := prgOffset_unrom hm a.toNat
  have hbank : bank.toNat % c.header.prgBanks < c.header.prgBanks := Nat.mod_lt _ hbanks
  refine ⟨fun h => ?_, fun h => ?_⟩
  · rw [if_pos h] at hoff
    exact cpuRead_prg_inside hc ha hoff (by omega)
  · rw [if_neg (by omega)] at hoff
    exact cpuRead_prg_inside hc ha hoff (by omega)

/-- The four PRG modes of MMC1 (R464). -/
theorem mmc1_shows {s : State} {c : Cartridge} (hc : s.cart = some c) {a : Word} (ha : 0x8000 ≤ a.toNat) (hbanks : 1 ≤ c.header.prgBanks)
    {r : Mmc1} (hm : c.mapper = .mmc1 r) :
    let n := a.toNat
    let b := r.prg.toNat % 16
    let mode := r.control.toNat / 4 % 4
    let shows := fun off : Nat => cpuRead a s = (c.prg.read off, s)
    (mode = 0 ∨ mode = 1 → shows ((b / 2 * 32768 + n % 32768) % (c.header.prgBanks * 16384))) ∧
      (mode = 2 → n < 0xC000 → shows (n % 16384)) ∧
      (mode = 2 → 0xC000 ≤ n → shows ((b * 16384 + n % 16384) % (c.header.prgBanks * 16384))) ∧
      (mode = 3 → n < 0xC000 → shows ((b * 16384 + n % 16384) % (c.header.prgBanks * 16384))) ∧
      (mode = 3 → 0xC000 ≤ n → shows ((c.header.prgBanks - 1) * 16384 + n % 16384)) := by
  dsimp only
  have hoff := prgOffset_mmc1 hm a.toNat
  unfold mmc1PrgOffset at hoff
  refine ⟨fun hmode => ?_, fun hmode h => ?_, fun hmode h => ?_, fun hmode h => ?_, fun hmode h => ?_⟩
  · simp only [if_pos (show r.control.toNat / 4 % 4 < 2 by omega)] at hoff
    exact cpuRead_prg hc ha hoff
  · simp only [if_neg (show ¬ r.control.toNat / 4 % 4 < 2 by omega), if_pos hmode, if_pos h] at hoff
    exact cpuRead_prg_inside hc ha hoff (by omega)
  · simp only [if_neg (show ¬ r.control.toNat / 4 % 4 < 2 by omega), if_pos hmode, if_neg (show ¬ a.toNat < 0xC000 by omega)] at hoff
    exact cpuRead_prg hc ha hoff
  · simp only [if_neg (show ¬ r.control.toNat / 4 % 4 < 2 by omega), if_neg (show ¬ r.control.toNat / 4 % 4 = 2 by omega), if_pos h] at hoff
    exact cpuRead_prg hc ha hoff
  · simp only [if_neg (show ¬ r.control.toNat / 4 % 4 < 2 by omega), if_neg (show ¬ r.control.toNat / 4 % 4 = 2 by omega), if_neg (show ¬ a.toNat < 0xC000 by omega)] at hoff
    exact cpuRead_prg_inside hc ha hoff (by omega)

theorem mmc2_shows {s : State} {c : Cartridge} (hc : s.cart = some c) {a : Word} (ha : 0x8000 ≤ a.toNat) {r : Mmc2}
    (hm : c.mapper = .mmc2 r) (hbanks : 2 ≤ c.header.prgBanks) :
    (a.toNat < 0xA000 → cpuRead a s = (c.prg.read (r.prg.toNat % (2 * c.header.prgBanks) * 8192 + a.toNat % 8192), s)) ∧
      (0xA000 ≤ a.toNat → cpuRead a s = (c.prg.read (c.header.prgBanks * 16384 - 24576 + (a.toNat - 0xA000)), s)) := by
  have hoff := prgOffset_mmc2 hm a.toNat
  have hbank : r.prg.toNat % (2 * c.header.prgBanks) < 2 * c.header.prgBanks := Nat.mod_lt _ (by omega)
  have hsize : c.prgSize = c.header.prgBanks * 16384 := rfl
  have hn := a.isLt
  refine ⟨fun h => ?_, fun h => ?_⟩
  · rw [if_pos h] at hoff
    exact cpuRead_prg_inside hc ha hoff (by omega)
  · rw [if_neg (by omega)] at hoff
    exact cpuRead_prg_inside hc ha hoff (by omega)

/-- Settles O46: mapper by mapper. -/
theorem prgBanksByMapper : Obligations.PrgBanksByMapper := by
  unfold Obligations.PrgBanksByMapper
  intro a s c hc ha hbanks
  exact ⟨fun hm => cpuRead_prg hc ha (prgOffset_nrom hm _), fun _ hm => unrom_shows hc ha hbanks hm, fun _ hm => mmc1_shows hc ha hbanks hm,
    fun _ hm => mmc2_shows hc ha hm⟩

/-! ## CHR -/

/-- A PPU read the cartridge handles: the byte at the mapped offset, and the mapper after the read (R457). -/
theorem ppuRead_chr {s : State} {c : Cartridge} (hc : s.cart = some c) {a : BitVec 14} {off : Nat} (hmap : c.ppuMap a = some off) :
    ppuRead a s = (c.chr.read off, { s with cart := some (c.afterPpuRead a) }) := by
  have hpeek : ppuPeek a s = c.chr.read off := by
    simp only [ppuPeek, hc, Option.bind_some, Cartridge.ppuPeek, hmap, Option.map_some]
  rw [ppuRead, hpeek, hc, Option.map_some]

/-- For every mapper but MMC2 the read changes nothing. -/
theorem ppuRead_chr_kept {s : State} {c : Cartridge} (hc : s.cart = some c) (hm : ∀ r, c.mapper ≠ .mmc2 r) {a : BitVec 14} {off : Nat}
    (hmap : c.ppuMap a = some off) : ppuRead a s = (c.chr.read off, s) := by
  have hpure : s.withoutMmc2 := fun d r hd => by
    obtain rfl := Option.some.inj (hc.symm.trans hd)
    exact hm r
  have hread := ppuRead_chr hc hmap
  rw [ppuRead_pure hpure, Prod.mk.injEq] at hread
  rw [ppuRead_pure hpure, hread.1]

theorem ppuMap_fixed {c : Cartridge} (hm : c.mapper = .nrom ∨ ∃ bank, c.mapper = .unrom bank) {a : BitVec 14} (ha : a.toNat ≤ 0x1FFF) :
    c.ppuMap a = some (a.toNat % c.chrSize) := by
  rcases hm with hm | ⟨bank, hm⟩ <;> simp only [Cartridge.ppuMap, if_neg (show ¬ a.toNat > 0x1FFF by omega), hm]

theorem ppuMap_mmc1 {c : Cartridge} {r : Mmc1} (hm : c.mapper = .mmc1 r) {a : BitVec 14} (ha : a.toNat ≤ 0x1FFF) :
    c.ppuMap a = some ((if r.control.getLsbD 4 = false then r.chr0.toNat / 2 * 8192 + a.toNat
      else if a.toNat < 0x1000 then r.chr0.toNat * 4096 + a.toNat % 4096 else r.chr1.toNat * 4096 + a.toNat % 4096) % c.chrSize) := by
  simp only [Cartridge.ppuMap, if_neg (show ¬ a.toNat > 0x1FFF by omega), hm]
  cases r.control.getLsbD 4 with
  | false => rfl
  | true => by_cases hlow : a.toNat < 0x1000 <;> simp only [hlow, if_true, if_false, Bool.true_eq_false]

theorem ppuMap_mmc2 {c : Cartridge} {r : Mmc2} (hm : c.mapper = .mmc2 r) {a : BitVec 14} (ha : a.toNat ≤ 0x1FFF) :
    c.ppuMap a = some (((if a.toNat < 0x1000 then (if r.latch0 then r.chrFe0 else r.chrFd0)
      else if r.latch1 then r.chrFe1 else r.chrFd1).toNat * 4096 + a.toNat % 4096) % c.chrSize) := by
  simp only [Cartridge.ppuMap, if_neg (show ¬ a.toNat > 0x1FFF by omega), hm]

/-- The four address ranges of R469 exclude one another, so each latch can be told by its own two. -/
theorem mmc2AfterRead_eq (r : Mmc2) (a : BitVec 14) :
    mmc2AfterRead r a = { r with
      latch0 := if a.toNat = 0x0FD8 then false else if a.toNat = 0x0FE8 then true else r.latch0
      latch1 := if 0x1FD8 ≤ a.toNat ∧ a.toNat ≤ 0x1FDF then false else if 0x1FE8 ≤ a.toNat ∧ a.toNat ≤ 0x1FEF then true else r.latch1 } := by
  unfold mmc2AfterRead
  simp only
  split
  · rw [if_neg (by omega), if_neg (by omega)]
  · split
    · rw [if_neg (by omega), if_neg (by omega)]
    · split
      · rfl
      · split <;> rfl

/-- Settles O47: mapper by mapper. -/
theorem chrBanksByMapper : Obligations.ChrBanksByMapper := by
  unfold Obligations.ChrBanksByMapper
  intro a s c hc ha
  refine ⟨fun hm => ppuRead_chr_kept hc (fun r h => ?_) (ppuMap_fixed hm ha),
    fun r hm => ppuRead_chr_kept hc (fun q h => ?_) (ppuMap_mmc1 hm ha), fun r hm => ?_⟩
  · rcases hm with hm | ⟨bank, hm⟩ <;> exact absurd (hm.symm.trans h) (by simp)
  · exact absurd (hm.symm.trans h) (by simp)
  · rw [ppuRead_chr hc (ppuMap_mmc2 hm ha), Cartridge.afterPpuRead]
    simp only [hm, mmc2AfterRead_eq]
    rfl

end Sys2Proof.Machine
end

section
/-!
SUPPORT and PROOF. What a write to 8000 to FFFF does to the mapper's registers (R460 to R463, R467) and to the mirroring (R459).
-/

namespace Sys2Proof.Machine

/-- The mirroring a register write leaves: the override's, but for a four-screen header (R459). -/
def Cartridge.mirroringAfter (c : Cartridge) (o : Option Mirroring) : Mirroring :=
  if c.header.mirroring = .fourScreen then c.mirroring else o.getD c.mirroring

theorem applyOverride_eq (c : Cartridge) (m : Mapper) (o : Option Mirroring) :
    ({ c with mapper := m } : Cartridge).applyOverride o = { c with mapper := m, mirroring := c.mirroringAfter o } := by
  unfold Cartridge.applyOverride Cartridge.mirroringAfter
  cases o with
  | none => simp only [Option.getD_none, ite_self]
  | some o => by_cases h : c.header.mirroring = .fourScreen <;> simp only [h, if_true, if_false, Option.getD_some]

/-- A write the mapper takes as a register's. -/
theorem cpuWrite_register {s : State} {c : Cartridge} (hc : s.cart = some c) {a : Word} {v : Byte} {m : Mapper} {o : Option Mirroring}
    (hmap : c.cpuMapWrite a v = .register m o) :
    cpuWrite a v s = { s with cart := some { c with mapper := m, mirroring := c.mirroringAfter o } } := by
  simp only [cpuWrite, hc, Option.bind_some, Cartridge.cpuWrite, hmap, applyOverride_eq]

/-- From 6000 on a write the mapper does not take changes nothing. -/
theorem cpuWrite_notTaken {s : State} {c : Cartridge} (hc : s.cart = some c) {a : Word} {v : Byte} (ha : 0x6000 ≤ a.toNat)
    (hmap : c.cpuMapWrite a v = .none) : cpuWrite a v s = s := by
  simp only [cpuWrite, hc, Option.bind_some, Cartridge.cpuWrite, hmap]
  exact busWrite_high a v s (by omega)

section
variable {c : Cartridge} {a : Word} (v : Byte) (ha : 0x8000 ≤ a.toNat)
include ha

theorem cpuMapWrite_nrom (hm : c.mapper = .nrom) : c.cpuMapWrite a v = .none := by
  simp only [Cartridge.cpuMapWrite, if_neg (show ¬ a.toNat < 0x6000 by omega), if_neg (show ¬ a.toNat < 0x8000 by omega), hm]

theorem cpuMapWrite_unrom {bank : Byte} (hm : c.mapper = .unrom bank) : c.cpuMapWrite a v = .register (.unrom v) none := by
  simp only [Cartridge.cpuMapWrite, if_neg (show ¬ a.toNat < 0x6000 by omega), if_neg (show ¬ a.toNat < 0x8000 by omega), hm]

theorem cpuMapWrite_mmc1 {r : Mmc1} (hm : c.mapper = .mmc1 r) :
    c.cpuMapWrite a v = .register (.mmc1 (mmc1Write r a.toNat v).1) (mmc1Write r a.toNat v).2 := by
  simp only [Cartridge.cpuMapWrite, if_neg (show ¬ a.toNat < 0x6000 by omega), if_neg (show ¬ a.toNat < 0x8000 by omega), hm]

theorem cpuMapWrite_mmc2 {r : Mmc2} (hm : c.mapper = .mmc2 r) :
    c.cpuMapWrite a v =
      if a.toNat < 0xA000 then .none else .register (.mmc2 (mmc2Write r a.toNat v).1) (mmc2Write r a.toNat v).2 := by
  simp only [Cartridge.cpuMapWrite, if_neg (show ¬ a.toNat < 0x6000 by omega), if_neg (show ¬ a.toNat < 0x8000 by omega), hm]

end

/-! ## MMC2 -/

/-- Below F000 each register is that of its own 4 KiB, and the mirroring is left alone. -/
theorem mmc2Write_eq (r : Mmc2) {n : Nat} (v : Byte) (hlo : 0xA000 ≤ n) (hhi : n < 0xF000) :
    mmc2Write r n v = ({ r with
      prg := if n < 0xB000 then v.setWidth 4 else r.prg
      chrFd0 := if 0xB000 ≤ n ∧ n < 0xC000 then v.setWidth 5 else r.chrFd0
      chrFe0 := if 0xC000 ≤ n ∧ n < 0xD000 then v.setWidth 5 else r.chrFe0
      chrFd1 := if 0xD000 ≤ n ∧ n < 0xE000 then v.setWidth 5 else r.chrFd1
      chrFe1 := if 0xE000 ≤ n then v.setWidth 5 else r.chrFe1 }, none) := by
  have hpage : n / 0x1000 = 10 ∨ n / 0x1000 = 11 ∨ n / 0x1000 = 12 ∨ n / 0x1000 = 13 ∨ n / 0x1000 = 14 := by omega
  rcases hpage with h | h | h | h | h <;> simp only [mmc2Write, h]
  · simp only [show n < 0xB000 by omega, show ¬ 0xB000 ≤ n by omega, show ¬ 0xC000 ≤ n by omega, show ¬ 0xD000 ≤ n by omega,
      show ¬ 0xE000 ≤ n by omega, false_and, if_true, if_false]
  · simp only [show ¬ n < 0xB000 by omega, show 0xB000 ≤ n by omega, show n < 0xC000 by omega, show ¬ 0xC000 ≤ n by omega,
      show ¬ 0xD000 ≤ n by omega, show ¬ 0xE000 ≤ n by omega, false_and, and_self, if_true, if_false]
  · simp only [show ¬ n < 0xB000 by omega, show ¬ n < 0xC000 by omega, show 0xC000 ≤ n by omega, show n < 0xD000 by omega,
      show ¬ 0xD000 ≤ n by omega, show ¬ 0xE000 ≤ n by omega, false_and, and_false, and_self, if_true, if_false]
  · simp only [show ¬ n < 0xB000 by omega, show ¬ n < 0xC000 by omega, show ¬ n < 0xD000 by omega, show 0xD000 ≤ n by omega,
      show n < 0xE000 by omega, show ¬ 0xE000 ≤ n by omega, and_false, and_self, if_true, if_false]
  · simp only [show ¬ n < 0xB000 by omega, show ¬ n < 0xC000 by omega, show ¬ n < 0xD000 by omega, show ¬ n < 0xE000 by omega,
      show 0xE000 ≤ n by omega, and_false, if_true, if_false]

theorem mmc2Write_mirror (r : Mmc2) {n : Nat} (v : Byte) (hlo : 0xF000 ≤ n) (hhi : n < 0x10000) :
    mmc2Write r n v = ({ r with mirror := v.getLsbD 0 }, some (if v.getLsbD 0 then .horizontal else .vertical)) := by
  simp only [mmc2Write, show n / 0x1000 = 15 by omega]

/-! ## MMC1 -/

/-- The serial port's register after one more bit: the new one comes in at the top (R462). -/
def shiftIn (sh : BitVec 5) (v : Byte) : BitVec 5 :=
  (sh >>> 1) ||| ((BitVec.ofBool (v.getLsbD 0)).setWidth 5 <<< 4)

theorem shiftIn_top (sh : BitVec 5) (v : Byte) : (shiftIn sh v).getLsbD 4 = v.getLsbD 0 := by
  rw [shiftIn]
  cases v.getLsbD 0 <;> simp [BitVec.getLsbD_of_ge]

theorem shiftIn_below (sh : BitVec 5) (v : Byte) {k : Nat} (hk : k < 4) : (shiftIn sh v).getLsbD k = sh.getLsbD (k + 1) := by
  simp [shiftIn, hk, Nat.add_comm]

/-- What loading `x` through the port at address `n` does (R463, R464, R465). -/
def mmc1Load (r : Mmc1) (n : Nat) (x : BitVec 5) : Mmc1 × Option Mirroring :=
  let r := { r with shift := 0, count := 0 }
  if n < 0xA000 then ({ r with control := x }, some (mmc1Mirroring x))
  else if n < 0xC000 then ({ r with chr0 := x }, none)
  else if n < 0xE000 then ({ r with chr1 := x }, none)
  else ({ r with prg := x }, none)

theorem mmc1Write_clear (r : Mmc1) (n : Nat) {v : Byte} (hv : v.getLsbD 7 = true) :
    mmc1Write r n v = ({ r with shift := 0, count := 0, control := r.control ||| 0x0C }, none) := by
  rw [mmc1Write, if_pos hv]

theorem mmc1Write_shift (r : Mmc1) (n : Nat) {v : Byte} (hv : v.getLsbD 7 = false) (hcount : r.count + 1 ≠ 5) :
    mmc1Write r n v = ({ r with shift := shiftIn r.shift v, count := r.count + 1 }, none) := by
  rw [mmc1Write, if_neg (by rw [hv]; decide)]
  exact if_neg hcount

theorem mmc1Write_load (r : Mmc1) {n : Nat} {v : Byte} (hlo : 0x8000 ≤ n) (hhi : n < 0x10000) (hv : v.getLsbD 7 = false)
    (hcount : r.count + 1 = 5) : mmc1Write r n v = mmc1Load r n (shiftIn r.shift v) := by
  rw [mmc1Write, if_neg (by rw [hv]; decide)]
  have hpage : n / 0x2000 % 4 = 0 ∧ n < 0xA000 ∨ n / 0x2000 % 4 = 1 ∧ ¬ n < 0xA000 ∧ n < 0xC000 ∨
      n / 0x2000 % 4 = 2 ∧ ¬ n < 0xA000 ∧ ¬ n < 0xC000 ∧ n < 0xE000 ∨
      n / 0x2000 % 4 = 3 ∧ ¬ n < 0xA000 ∧ ¬ n < 0xC000 ∧ ¬ n < 0xE000 := by omega
  rcases hpage with ⟨h, h1⟩ | ⟨h, h1, h2⟩ | ⟨h, h1, h2, h3⟩ | ⟨h, h1, h2, h3⟩
  · simp only [hcount, if_true, h, mmc1Load, h1, shiftIn]
  · simp only [hcount, if_true, h, mmc1Load, h1, h2, if_false, shiftIn]
  · simp only [hcount, if_true, h, mmc1Load, h1, h2, h3, if_false, shiftIn]
  · simp only [hcount, if_true, h, mmc1Load, h1, h2, h3, if_false, shiftIn]

theorem mmc1Mirroring_eq (x : BitVec 5) :
    mmc1Mirroring x = if x.toNat % 4 = 0 then .singleLower else if x.toNat % 4 = 1 then .singleUpper
      else if x.toNat % 4 = 2 then .vertical else .horizontal := by
  unfold mmc1Mirroring
  have hlt : x.toNat % 4 < 4 := Nat.mod_lt _ (by omega)
  generalize x.toNat % 4 = k at hlt
  revert k
  decide

/-- One write with bit 7 clear that does not complete the five. -/
theorem cpuWrite_mmc1_shift {s : State} {c : Cartridge} (hc : s.cart = some c) {r : Mmc1} (hm : c.mapper = .mmc1 r) {a : Word} {v : Byte}
    (ha : 0x8000 ≤ a.toNat) (hv : v.getLsbD 7 = false) (hcount : r.count + 1 ≠ 5) :
    cpuWrite a v s =
      { s with cart := some { c with mapper := .mmc1 { r with shift := shiftIn r.shift v, count := r.count + 1 } } } := by
  have hmap := cpuMapWrite_mmc1 v ha hm
  rw [mmc1Write_shift r _ hv hcount] at hmap
  rw [cpuWrite_register hc hmap]
  simp only [Cartridge.mirroringAfter, Option.getD_none, ite_self]

/-- The first four writes from an empty port. -/
theorem cpuWrite_mmc1_four {s : State} {c : Cartridge} (hc : s.cart = some c) {r : Mmc1} (hm : c.mapper = .mmc1 r) (hcount : r.count = 0)
    {a0 a1 a2 a3 : Word} {v0 v1 v2 v3 : Byte} (ha : ∀ b ∈ [a0, a1, a2, a3], 0x8000 ≤ b.toNat)
    (hv : ∀ w ∈ [v0, v1, v2, v3], w.getLsbD 7 = false) :
    cpuWrite a3 v3 (cpuWrite a2 v2 (cpuWrite a1 v1 (cpuWrite a0 v0 s))) = { s with cart := some { c with
      mapper := .mmc1 { r with shift := shiftIn (shiftIn (shiftIn (shiftIn r.shift v0) v1) v2) v3, count := 4 } } } := by
  simp only [List.forall_mem_cons] at ha hv
  obtain ⟨ha0, ha1, ha2, ha3, -⟩ := ha
  obtain ⟨hv0, hv1, hv2, hv3, -⟩ := hv
  rw [cpuWrite_mmc1_shift hc hm ha0 hv0 (by rw [hcount]; decide), cpuWrite_mmc1_shift rfl rfl ha1 hv1 (by simp only [hcount]; decide),
    cpuWrite_mmc1_shift rfl rfl ha2 hv2 (by simp only [hcount]; decide), cpuWrite_mmc1_shift rfl rfl ha3 hv3 (by simp only [hcount]; decide)]
  simp only [hcount]
  rfl

theorem mmc1_writes {s : State} {c : Cartridge} (hc : s.cart = some c) {r : Mmc1} (hm : c.mapper = .mmc1 r) {a : Word} {v : Byte}
    (ha : 0x8000 ≤ a.toNat) (hv : v.getLsbD 7 = false) (hcount : r.count = 4) :
    cpuWrite a v s = { s with cart := some { c with
      mapper := .mmc1 (mmc1Load r a.toNat (shiftIn r.shift v)).1
      mirroring := c.mirroringAfter (mmc1Load r a.toNat (shiftIn r.shift v)).2 } } := by
  have hmap := cpuMapWrite_mmc1 v ha hm
  rw [mmc1Write_load r ha a.isLt hv (by rw [hcount]; decide)] at hmap
  exact cpuWrite_register hc hmap

/-- Settles O48: mapper by mapper; MMC1's port is filled by four writes and the fifth loads. -/
theorem mapperRegistersByAddress : Obligations.MapperRegistersByAddress := by
  unfold Obligations.MapperRegistersByAddress
  intro a v s c hc ha n becomes
  have hn : a.toNat < 0x10000 := a.isLt
  have hkeep : ∀ m, ({ s with cart := some { c with mapper := m, mirroring := c.mirroringAfter none } } : State) = becomes m c.mirroring :=
    fun m => rfl
  refine ⟨fun hm => cpuWrite_notTaken hc (by omega) (cpuMapWrite_nrom v ha hm), fun bank hm => ?_, fun r hm => ?_, fun r hm => ?_⟩
  · exact cpuWrite_register hc (cpuMapWrite_unrom v ha hm)
  · have hmap := cpuMapWrite_mmc2 v ha hm
    refine ⟨fun h => ?_, fun hlo hhi => ?_, fun h => ?_⟩
    · exact cpuWrite_notTaken hc (by omega) (hmap.trans (if_pos h))
    · rw [if_neg (by omega), mmc2Write_eq r v hlo hhi] at hmap
      refine ⟨_, cpuWrite_register hc hmap, rfl, ?_, ?_, ?_, ?_, ?_⟩ <;>
        simp only [apply_ite BitVec.toNat, BitVec.toNat_setWidth]
    · rw [if_neg (by omega), mmc2Write_mirror r v h hn] at hmap
      exact cpuWrite_register hc hmap
  · refine ⟨fun hv => ?_, fun a0 a1 a2 a3 v0 v1 v2 v3 hcount hv ha' hv' => ?_⟩
    · have hmap := cpuMapWrite_mmc1 v ha hm
      rw [mmc1Write_clear r _ hv] at hmap
      exact cpuWrite_register hc hmap
    · refine ⟨shiftIn (shiftIn (shiftIn (shiftIn (shiftIn r.shift v0) v1) v2) v3) v, ?_, ?_, ?_, ?_, shiftIn_top _ _, ?_⟩
      iterate 4 · simp only [shiftIn_below, shiftIn_top, Nat.reduceAdd, Nat.reduceLT]
      intro loads t
      have ht : t = cpuWrite a v _ := congrArg (cpuWrite a v) (cpuWrite_mmc1_four hc hm hcount ha' hv')
      rw [mmc1_writes rfl rfl ha hv rfl] at ht
      refine ⟨fun h => ?_, fun hlo hhi => ?_, fun hlo hhi => ?_, fun hlo => ?_⟩
      · simp only [mmc1Load, if_pos (show a.toNat < 0xA000 from h), mmc1Mirroring_eq] at ht
        exact ht
      · simp only [mmc1Load, if_neg (show ¬ a.toNat < 0xA000 by omega), if_pos (show a.toNat < 0xC000 from hhi)] at ht
        exact ht
      · simp only [mmc1Load, if_neg (show ¬ a.toNat < 0xA000 by omega), if_neg (show ¬ a.toNat < 0xC000 by omega),
          if_pos (show a.toNat < 0xE000 from hhi)] at ht
        exact ht
      · simp only [mmc1Load, if_neg (show ¬ a.toNat < 0xA000 by omega), if_neg (show ¬ a.toNat < 0xC000 by omega),
          if_neg (show ¬ a.toNat < 0xE000 by omega)] at ht
        exact ht

end Sys2Proof.Machine
end

section
/-!
SUPPORT and PROOF. The mirroring mode changes by a loaded override only (R459).
-/

namespace Sys2Proof.Machine

/-! ## One write -/

/-- A write the cartridge takes is one of PRG-RAM or of a mapper register. -/
theorem Cartridge.cpuWrite_cases {c d : Cartridge} {a : Word} {v : Byte} (h : c.cpuWrite a v = some d) :
    (d.mapper = c.mapper ∧ d.mirroring = c.mirroring) ∨
      ∃ m o, c.cpuMapWrite a v = .register m o ∧ d = { c with mapper := m, mirroring := c.mirroringAfter o } := by
  unfold Cartridge.cpuWrite at h
  split at h
  · cases h
  · cases h
    exact .inl ⟨rfl, rfl⟩
  · next m o hmap =>
    cases h
    exact .inr ⟨m, o, hmap, applyOverride_eq c m o⟩

/-- The mappers with a mirroring field in a register (R463, R467). -/
def Mapper.setsMirroring : Mapper → Bool
  | .mmc1 _ | .mmc2 _ => true
  | .nrom | .unrom _ | .unsupported => false

theorem Mapper.setsMirroring_iff (m : Mapper) : m.setsMirroring = true ↔ (∃ r, m = .mmc1 r) ∨ ∃ r, m = .mmc2 r := by
  cases m <;> simp [Mapper.setsMirroring]

/-- The writes that return an override: MMC1's fifth to its control register, MMC2's from F000 on. -/
def Cartridge.Overrides (c : Cartridge) (a : Word) (v : Byte) (m : Mirroring) : Prop :=
  (∃ r, c.mapper = .mmc1 r ∧ r.count = 4 ∧ a.toNat < 0xA000 ∧ v.getLsbD 7 = false) ∨
    ∃ r, c.mapper = .mmc2 r ∧ 0xF000 ≤ a.toNat ∧ m = if v.getLsbD 0 then .horizontal else .vertical

theorem mmc1Write_override {r : Mmc1} {n : Nat} {v : Byte} (hlo : 0x8000 ≤ n) (hhi : n < 0x10000) {m : Mirroring}
    (h : (mmc1Write r n v).2 = some m) : r.count = 4 ∧ n < 0xA000 ∧ v.getLsbD 7 = false := by
  cases hv : v.getLsbD 7 with
  | true => simp [mmc1Write_clear r n hv] at h
  | false =>
    by_cases hcount : r.count + 1 = 5
    · rw [mmc1Write_load r hlo hhi hv hcount, mmc1Load] at h
      by_cases hn : n < 0xA000
      · exact ⟨by bv_omega, hn, rfl⟩
      · rw [if_neg hn] at h
        split at h
        · cases h
        · split at h <;> cases h
    · simp [mmc1Write_shift r n hv hcount] at h

theorem mmc2Write_override {r : Mmc2} {n : Nat} {v : Byte} (hlo : 0xA000 ≤ n) (hhi : n < 0x10000) {m : Mirroring}
    (h : (mmc2Write r n v).2 = some m) : 0xF000 ≤ n ∧ m = if v.getLsbD 0 then .horizontal else .vertical := by
  by_cases hn : n < 0xF000
  · simp [mmc2Write_eq r v hlo hn] at h
  · rw [mmc2Write_mirror r v (by omega) hhi] at h
    exact ⟨by omega, (Option.some.inj h).symm⟩

/-- A register write is one from 8000 on, keeps the mapper's variant, and returns an override only where the spec says so. -/
theorem cpuMapWrite_register {c : Cartridge} {a : Word} {v : Byte} {m : Mapper} {o : Option Mirroring}
    (h : c.cpuMapWrite a v = .register m o) :
    0x8000 ≤ a.toNat ∧ m.setsMirroring = c.mapper.setsMirroring ∧ ∀ x, o = some x → c.Overrides a v x := by
  have hn := a.isLt
  have ha : 0x8000 ≤ a.toNat := by
    refine Decidable.byContradiction fun hlow => ?_
    simp only [Cartridge.cpuMapWrite, if_pos (show a.toNat < 0x8000 by omega)] at h
    split at h
    · cases h
    · split at h <;> cases h
  refine ⟨ha, ?_⟩
  cases hm : c.mapper with
  | nrom => rw [cpuMapWrite_nrom v ha hm] at h; cases h
  | unsupported =>
    simp only [Cartridge.cpuMapWrite, if_neg (show ¬ a.toNat < 0x6000 by omega), if_neg (show ¬ a.toNat < 0x8000 by omega), hm] at h
    cases h
  | unrom bank =>
    rw [cpuMapWrite_unrom v ha hm] at h
    cases h
    exact ⟨rfl, nofun⟩
  | mmc1 r =>
    rw [cpuMapWrite_mmc1 v ha hm] at h
    cases h
    exact ⟨rfl, fun x hx => .inl ⟨r, hm, mmc1Write_override ha hn hx⟩⟩
  | mmc2 r =>
    rw [cpuMapWrite_mmc2 v ha hm] at h
    split at h
    · cases h
    · cases h
      exact ⟨rfl, fun x hx => .inr ⟨r, hm, mmc2Write_override (by omega) hn hx⟩⟩

/-- The override that changed the mirroring, and the header that let it (R459). -/
theorem Cartridge.cpuWrite_mirroring {c d : Cartridge} {a : Word} {v : Byte} (h : c.cpuWrite a v = some d)
    (hne : d.mirroring ≠ c.mirroring) : c.header.mirroring ≠ .fourScreen ∧ 0x8000 ≤ a.toNat ∧ c.Overrides a v d.mirroring := by
  rcases Cartridge.cpuWrite_cases h with ⟨-, hkept⟩ | ⟨m, o, hmap, rfl⟩
  · exact absurd hkept hne
  · obtain ⟨ha, -, hover⟩ := cpuMapWrite_register hmap
    by_cases hfour : c.header.mirroring = .fourScreen
    · exact absurd (if_pos hfour) hne
    · cases o with
      | none => exact absurd (if_neg hfour) hne
      | some x =>
        have hx : c.mirroringAfter (some x) = x := if_neg hfour
        exact ⟨hfour, ha, (congrArg (c.Overrides a v) hx).mpr (hover x rfl)⟩

/-- The cartridge's variant is no write's to change. -/
theorem Cartridge.cpuWrite_setsMirroring {c d : Cartridge} {a : Word} {v : Byte} (h : c.cpuWrite a v = some d) :
    d.mapper.setsMirroring = c.mapper.setsMirroring := by
  rcases Cartridge.cpuWrite_cases h with ⟨hkept, -⟩ | ⟨m, o, hmap, rfl⟩
  · rw [hkept]
  · exact (cpuMapWrite_register hmap).2.1

/-- A write of CHR leaves the rest of the cartridge. -/
theorem Cartridge.ppuWrite_field {α : Type} (g : Cartridge → α) (hg : ∀ c m, g { c with chr := m } = g c) {c d : Cartridge} {a : BitVec 14}
    {v : Byte} (h : c.ppuWrite a v = some d) : g d = g c := by
  obtain ⟨off, -, rfl⟩ := Option.map_eq_some_iff.mp h
  split
  · exact hg _ _
  · rfl

/-- The mirroring mode in force, with a cartridge. -/
def State.cartMirroring (s : State) : Option Mirroring :=
  s.cart.map (·.mirroring)

/-- A write no cartridge takes leaves the mirroring. -/
theorem busWrite_mirroring (a : Word) (v : Byte) (s : State) : (busWrite a v s).cartMirroring = s.cartMirroring := by
  unfold busWrite
  split
  · rfl
  · split
    · exact ppuRegWrite_keeps State.cartMirroring (fun _ _ => rfl)
        (fun u c d a v hc hw => by
          simp only [State.cartMirroring, hc, Option.map_some, Cartridge.ppuWrite_field (·.mirroring) (fun _ _ => rfl) hw]) _ v s
    · split
      · rfl
      · split
        · rw [writeStrobe_eq]
          rfl
        · split <;> rfl

theorem cpuWrite_mirroring {a : Word} {v : Byte} {s : State} {c d : Cartridge} (hc : s.cart = some c)
    (hd : (cpuWrite a v s).cart = some d) (hne : d.mirroring ≠ c.mirroring) :
    c.header.mirroring ≠ .fourScreen ∧ 0x8000 ≤ a.toNat ∧ c.Overrides a v d.mirroring := by
  cases hw : c.cpuWrite a v with
  | some e =>
    simp only [cpuWrite, hc, Option.bind_some, hw, Option.some.injEq] at hd
    subst hd
    exact Cartridge.cpuWrite_mirroring hw hne
  | none =>
    simp only [cpuWrite, hc, Option.bind_some, hw] at hd
    have hkept := busWrite_mirroring a v s
    rw [State.cartMirroring, State.cartMirroring, hc, hd] at hkept
    exact absurd (Option.some.inj hkept) hne

/-! ## A step -/

/-- What a step keeps of the cartridge: its header's mode, its variant, and its mirroring where nothing may override it. -/
def Cartridge.fixedPart (c : Cartridge) : Mirroring × Bool × Option Mirroring :=
  (c.header.mirroring, c.mapper.setsMirroring,
    if c.header.mirroring = .fourScreen ∨ c.mapper.setsMirroring = false then some c.mirroring else none)

theorem Cartridge.cpuWrite_fixedPart {c d : Cartridge} {a : Word} {v : Byte} (h : c.cpuWrite a v = some d) :
    d.fixedPart = c.fixedPart := by
  obtain ⟨hheader, -, -, -⟩ := Cartridge.cpuWrite_kept c d a v h
  have hsets := Cartridge.cpuWrite_setsMirroring h
  unfold Cartridge.fixedPart
  rw [hheader, hsets]
  by_cases hfix : c.header.mirroring = .fourScreen ∨ c.mapper.setsMirroring = false
  · have hkept : d.mirroring = c.mirroring := by
      refine Decidable.byContradiction fun hne => ?_
      obtain ⟨hfour, -, hover⟩ := Cartridge.cpuWrite_mirroring h hne
      rcases hfix with hfix | hfix
      · exact hfour hfix
      · rcases hover with ⟨r, hm, -⟩ | ⟨r, hm, -⟩ <;> simp [hm, Mapper.setsMirroring] at hfix
    rw [hkept]
  · rw [if_neg hfix, if_neg hfix]

theorem Mapper.setsMirroring_withoutLatches (m : Mapper) : m.withoutLatches.setsMirroring = m.setsMirroring := by
  cases m <;> rfl

theorem Cartridge.fixedPart_withoutLatches (c : Cartridge) :
    ({ c with mapper := c.mapper.withoutLatches } : Cartridge).fixedPart = c.fixedPart := by
  simp only [Cartridge.fixedPart, Mapper.setsMirroring_withoutLatches]

/-- The cartridge's fixed part, of the machine. -/
def State.cartFixed (s : State) : Option (Mirroring × Bool × Option Mirroring) :=
  s.cart.map Cartridge.fixedPart

theorem cpuWrite_cartFixed (a : Word) (v : Byte) (s : State) : (cpuWrite a v s).cartFixed = s.cartFixed :=
  cpuWrite_keeps State.cartFixed (fun _ _ => rfl) (fun _ _ => rfl) (fun _ _ => rfl) (fun _ _ => rfl)
    (fun v u => by rw [writeStrobe_eq]; rfl)
    (fun u c d a v hc hw => by
      simp only [State.cartFixed, hc, Option.map_some, Cartridge.ppuWrite_field Cartridge.fixedPart (fun _ _ => rfl) hw])
    (fun u c d a v hc hw => by simp only [State.cartFixed, hc, Option.map_some, Cartridge.cpuWrite_fixedPart hw]) a v s

theorem step_cartFixed {s t : State} (h : step s = .next t) : t.cartFixed = s.cartFixed := by
  refine step_keeps State.cartFixed (fun u => ?_) (fun _ _ => rfl) cpuWrite_cartFixed (fun _ _ => rfl) (fun _ _ => rfl) (fun _ _ => rfl)
    (fun _ _ => rfl) s t h
  simp only [State.cartFixed, State.apartFromReads, Option.map_map]
  exact congrArg (fun g => u.cart.map g) (funext Cartridge.fixedPart_withoutLatches)

/-- Outside the CPU's part of a slot nothing changes the mirroring. -/
theorem step_mirroring_of_idle {s t : State} (h : step s = .next t)
    (hidle : s.sysclk % 3 ≠ 0 ∨ s.dma.active = true ∨ s.cpu.cycRem ≠ 0) : t.cartMirroring = s.cartMirroring := by
  have hr : ∀ u : State, u.apartFromReads.cartMirroring = u.cartMirroring := fun u => by
    simp only [State.cartMirroring, State.apartFromReads, Option.map_map]
    rfl
  have hend := endTick_keeps State.cartMirroring (fun _ _ => rfl) (fun _ _ => rfl) (fun _ _ => rfl)
  have hppu := ppuClock_keeps State.cartMirroring hr (fun _ _ => rfl) s
  have hslot := (apuClock_field State.cartMirroring (ppuClock s) hr (fun _ _ => rfl)).trans hppu
  by_cases hclk : s.sysclk % 3 = 0
  · by_cases hdma : s.dma.active = true
    · rw [step_under_dma h hclk hdma, hend, dmaStep_keeps State.cartMirroring hr (fun _ _ => rfl) (fun _ _ => rfl), hslot]
    · have hcyc : s.cpu.cycRem ≠ 0 := by
        rcases hidle with h1 | h1 | h1
        · exact absurd hclk h1
        · exact absurd h1 hdma
        · exact h1
      rw [step_counting h hclk (Bool.eq_false_iff.mpr hdma) hcyc, hend]
      exact hslot
  · rw [step_off_slot h hclk, hend, hppu]

/-- Settles O49: a write by the mapper's register rules; a step because every write keeps what may not be overridden, and the ticks in which
the CPU starts nothing make no write. -/
theorem mirroringChangesByOverrideOnly : Obligations.MirroringChangesByOverrideOnly := by
  unfold Obligations.MirroringChangesByOverrideOnly
  refine ⟨fun a v s c d hc hd hne => cpuWrite_mirroring hc hd hne, fun s t c d h hc hd hne => ?_⟩
  have hfixed := step_cartFixed h
  simp only [State.cartFixed, hc, hd, Option.map_some, Option.some.injEq, Cartridge.fixedPart, Prod.mk.injEq] at hfixed
  obtain ⟨hfour, hsets, hkept⟩ := hfixed
  rw [hfour, hsets] at hkept
  have hfree : ¬ (c.header.mirroring = .fourScreen ∨ c.mapper.setsMirroring = false) := fun hfix => by
    rw [if_pos hfix, if_pos hfix] at hkept
    exact hne (Option.some.inj hkept)
  have hslot : ¬ (s.sysclk % 3 ≠ 0 ∨ s.dma.active = true ∨ s.cpu.cycRem ≠ 0) := fun hidle => by
    have hm := step_mirroring_of_idle h hidle
    rw [State.cartMirroring, State.cartMirroring, hc, hd] at hm
    exact hne (Option.some.inj hm)
  simp only [not_or, ne_eq, Decidable.not_not, Bool.not_eq_true, Bool.not_eq_false] at hfree hslot
  exact ⟨hfree.1, (Mapper.setsMirroring_iff _).mp hfree.2, hslot⟩

end Sys2Proof.Machine
end

section
/-!
SUPPORT and PROOF. `Bus.reset()` in every state, and the state it makes of the powered-on machine (R310, R502).
-/

namespace Sys2Proof.Machine

/-- Where there is no device, a read changes nothing (R84, R100). -/
theorem cpuRead_state_of_no_device {a : Word} (s : State) (h : a.toNat ≤ 0x1FFF ∨ 0x4018 ≤ a.toNat) : (cpuRead a s).2 = s := by
  rcases h with h | h
  · rw [cpuRead_ram a s h]
  · exact cpuRead_high_state a s h

theorem read16_state_of_no_device {a : Word} (s : State) (h : a.toNat ≤ 0x1FFE ∨ 0x4018 ≤ a.toNat) : (read16 a s).2 = s := by
  have hnext : (a + 1).toNat ≤ 0x1FFF ∨ 0x4018 ≤ (a + 1).toNat := by
    have hadd : (a + 1).toNat = (a.toNat + 1) % 65536 := BitVec.toNat_add a 1
    omega
  have hlo := cpuRead_state_of_no_device s (a := a) (by omega)
  calc (read16 a s).2 = (cpuRead (a + 1) (cpuRead a s).2).2 := rfl
    _ = s := by rw [hlo, cpuRead_state_of_no_device s hnext]

/-- What the devices' reset takes over: the parameters and the PPU's memories, snapshots and framebuffer (R373). -/
def State.keptByReset (s : State) : Config × Memory × Memory × Memory × List Snapshot × Vector (Vector Nat 256) 240 :=
  (s.cfg, s.ppu.vram, s.ppu.pal, s.ppu.oam, s.ppu.snap, s.ppu.fb)

theorem read16_keptByReset (a : Word) (s : State) : (read16 a s).2.keptByReset = s.keptByReset :=
  State.apartFromReads_field State.keptByReset (fun _ => rfl) (read16_apart a s)

/-- The devices' reset of a state that has the kept part of `s`. -/
theorem resetDevices_of_kept {s u : State} (h : u.keptByReset = s.keptByReset) :
    resetDevices u = { u with
      ppu := ppuAfterReset s.ppu.vram s.ppu.pal s.ppu.oam (if s.cfg.resetKeepsSnapshots then s.ppu.snap else snapshotsAfterReset) s.ppu.fb
      apu := apuAfterReset
      sysclk := 0
      dma := dmaAfterReset
      pad0 := padAfterReset
      pad1 := padAfterReset
      strobe := false } := by
  simp only [State.keptByReset, Prod.mk.injEq] at h
  obtain ⟨hcfg, hvram, hpal, hoam, hsnap, hfb⟩ := h
  simp only [resetDevices, resetPpu, hcfg, hvram, hpal, hoam, hsnap, hfb]

/-- The state whose vector the CPU's reset reads: after the mapper's reset, and after the devices' where the CPU comes last. -/
def stateAtVectorRead (s : State) : State :=
  if s.cfg.resetsCpuLast then resetDevices (resetMapper s) else resetMapper s

theorem busReset_eq (s : State) :
    busReset s = if s.cfg.resetsCpuLast then resetCpu (stateAtVectorRead s) else resetDevices (resetCpu (stateAtVectorRead s)) := by
  have hcfg : (resetMapper s).cfg = s.cfg := rfl
  unfold busReset stateAtVectorRead
  cases h : s.cfg.resetsCpuLast <;> simp only [hcfg, h, if_true, if_false, Bool.false_eq_true]

/-- Settles O44: the mapper's reset, then the CPU's and the devices' in the order of the parameter. -/
theorem busResetSetsEveryRegister : Obligations.BusResetSetsEveryRegister := by
  unfold Obligations.BusResetSetsEveryRegister
  intro s
  refine ⟨(read16 s.cfg.resetVector (stateAtVectorRead s)).1, ?_⟩
  intro mapped env pulse devices start lo hi cpu
  have hmapped : resetMapper s = mapped := by
    refine congrArg (fun f => { s with cart := s.cart.map f }) (funext fun c => ?_)
    cases hm : c.mapper <;> simp only [Cartridge.afterReset, hm] <;> rfl
  have hdevices : ∀ u : State, u.keptByReset = s.keptByReset → resetDevices u = devices u := fun u h => resetDevices_of_kept h
  have hstart : stateAtVectorRead s = start := by
    rw [stateAtVectorRead, hmapped, hdevices mapped rfl]
  have hcfg : start.cfg = s.cfg := by
    rw [← hstart, stateAtVectorRead]
    split <;> rfl
  have hcpu : resetCpu (stateAtVectorRead s) = { hi.2 with cpu := cpu } := by
    rw [resetCpu_eq, hstart, hcfg]
    rfl
  refine ⟨?_, fun h => read16_state_of_no_device start h, ?_⟩
  · rw [hstart]
    exact wordOf_toNat_low_first _ _
  · rw [busReset_eq, hcpu]
    by_cases hlast : s.cfg.resetsCpuLast = true
    · rw [if_pos hlast, if_pos hlast]
    · have hfirst : start = mapped := if_neg hlast
      have hkept : start.keptByReset = s.keptByReset := (congrArg State.keptByReset hfirst).trans rfl
      rw [if_neg hlast, if_neg hlast]
      exact hdevices _ ((read16_keptByReset s.cfg.resetVector start).trans hkept)

/-! ## The machine right after reset -/

theorem wf_within_nil (size : Nat) : Memory.wf [] ∧ Memory.within [] size :=
  ⟨⟨.nil, nofun⟩, nofun⟩

theorem configAtReset_sound : Config.Sound configAtReset where
  rate := by decide
  capacity := by decide
  fourStep := by decide
  fiveStep := by decide
  ram := wf_within_nil _
  prgram := wf_within_nil _
  vram := wf_within_nil _
  oam := wf_within_nil _
  palette := wf_within_nil _
  chrram := wf_within_nil _

/-- Every register is 0; the memories and the snapshots are what they were. -/
theorem ppuAfterReset_sound {vram pal oam : Memory} {snap : List Snapshot} (hvram : vram.wf ∧ vram.within 2048)
    (hpal : pal.wf ∧ pal.within 32) (hoam : oam.wf ∧ oam.within 256) (hsnap : snap.length = 240)
    (fb : Vector (Vector Nat 256) 240) : (ppuAfterReset vram pal oam snap fb).Sound where
  scanline := Nat.zero_le _
  dot := Nat.zero_le _
  status := show (0x00 : Byte) &&& 0x3F = 0x00 by decide
  fineX := Nat.zero_le _
  snap := hsnap
  vram := hvram
  pal := hpal
  oam := hoam

theorem apuAfterReset_sound {cfg : Config} (h4 : 0 < cfg.fs4Wrap) (hclk : 0 < cfg.cpuClockHz) : apuAfterReset.Sound cfg where
  sequence := h4
  noise := by decide
  bits := by decide
  phase := hclk
  ring := Nat.zero_le _

/-- Settles O42: field by field. -/
theorem resetMachineIsSound : Obligations.ResetMachineIsSound := by
  unfold Obligations.ResetMachineIsSound
  exact {
    cfg := configAtReset_sound
    unused := by decide
    ram := wf_within_nil _
    cart := nofun
    ppu := ppuAfterReset_sound (wf_within_nil _) (wf_within_nil _) (wf_within_nil _) List.length_replicate blankFrame
    apu := apuAfterReset_sound (by decide) (by decide) }

/-- With no cartridge both bytes at the vector read 00 (R89, R262). -/
theorem read16_reset_vector_noCartridge {s : State} (h : s.cart = none) : read16 0xFFFC s = (0x0000, s) := by
  have hlo : cpuRead 0xFFFC s = (0x00, s) := by
    rw [cpuRead_noCartridge 0xFFFC s (by decide) h]
  have hhi : cpuRead 0xFFFD s = (0x00, s) := by
    rw [cpuRead_noCartridge 0xFFFD s (by decide) h]
  have hnext : (0xFFFC : Word) + 1 = 0xFFFD := by decide
  rw [read16, readPair, hnext, hlo]
  simp only [hhi]
  rfl

/-- `Bus.reset()` after power-on is `State.reset`: the memories it keeps are the parameters', and the vector reads 0000. -/
theorem busReset_powerOn_reset : busReset (powerOn State.reset) = State.reset := by
  have hdevices : stateAtVectorRead (powerOn State.reset) = State.reset := rfl
  rw [busReset_eq, hdevices, resetCpu_eq]
  have hvector : read16 State.reset.cfg.resetVector State.reset = (0x0000, State.reset) := read16_reset_vector_noCartridge rfl
  rw [hvector]
  rfl

/-- Settles O43: each register is what `State.reset` gives it; the mapped opcodes by their own lemma. -/
theorem resetStateValues : Obligations.ResetStateValues := by
  unfold Obligations.ResetStateValues
  exact ⟨rfl, rfl, rfl, rfl, rfl, rfl, rfl, rfl, rfl, rfl, rfl, rfl, rfl, rfl, mem_mappedAtReset, rfl, rfl, rfl, rfl, rfl, rfl, rfl, rfl,
    busReset_powerOn_reset⟩

end Sys2Proof.Machine
end
